-- ==== Sys2Proof/Word.lean ====
section
/-! DEFINITION. Word.lean: the word types of the Z9 and the type of a sparse table. -/

namespace Sys2Proof

/-- A byte of memory (09 R194). -/
abbrev Byte := BitVec 8
/-- A 32-bit register or memory word (01 R17). -/
abbrev Word := BitVec 32
/-- A 64-bit pair, handle or counter (01 R18, 09 R187). -/
abbrev DWord := BitVec 64
/-- A lane mask: bit l stands for lane l (01 R15). -/
abbrev Mask := BitVec 64
/-- A sparse table: keys with the values that differ from the table's default. -/
abbrev SMap (α : Type) := List (Nat × α)

end Sys2Proof
end

