-- ==== Sys2Proof/Machine/Map.lean ====
section
/-! DEFINITION. Machine/Map.lean: sparse tables in one canonical form (keys strictly rising, no entry equal to the default),
lane masks, and lists read and written by index. -/

namespace Sys2Proof.Machine

/-- The entry at key `i`, the default `d` where none is listed. -/
def get {α : Type} (d : α) : SMap α → Nat → α
  | [], _ => d
  | (k, v) :: r, i => if k = i then v else get d r i

/-- Remove the entry at key `i`. -/
def del {α : Type} : SMap α → Nat → SMap α
  | [], _ => []
  | (k, v) :: r, i => if k = i then del r i else (k, v) :: del r i

/-- Insert before the first larger key. -/
def ins {α : Type} (i : Nat) (x : α) : SMap α → SMap α
  | [] => [(i, x)]
  | (k, v) :: r => if i < k then (i, x) :: (k, v) :: r else (k, v) :: ins i x r

/-- Write `x` at key `i`; the default is not listed. -/
def put {α : Type} [DecidableEq α] (d : α) (m : SMap α) (i : Nat) (x : α) : SMap α :=
  if x = d then del m i else ins i x (del m i)

/-- Change every listed value. -/
def mapVals {α : Type} (f : α → α) : SMap α → SMap α
  | [] => []
  | (k, v) :: r => (k, f v) :: mapVals f r

/-- Every key is above `lo` and rising, and no entry is the default. -/
def wfFrom {α : Type} [DecidableEq α] (d : α) : Option Nat → SMap α → Bool
  | _, [] => true
  | lo, (k, v) :: r => (match lo with | none => true | some l => decide (l < k)) && decide (v ≠ d) && wfFrom d (some k) r

/-- The canonical form. -/
def wf {α : Type} [DecidableEq α] (d : α) (m : SMap α) : Bool := wfFrom d none m

/-! ### Bytes: a memory is a table of bytes with default 0 (log [4], DESIGN CHOICE) -/

/-- DESIGN CHOICE, log [4]: a byte of device memory that nothing has written reads 0. -/
def rdByte (m : SMap Byte) (a : Nat) : Byte := get 0 m a
def wrByte (m : SMap Byte) (a : Nat) (b : Byte) : SMap Byte := put 0 m a b

/-- The canonical form of a memory: addresses rising, no byte equal to what an unlisted address reads as. -/
def Memory.wf (m : SMap Byte) : Bool := Machine.wf 0 m

/-- `n` bytes from `a`. -/
def rdBytes (m : SMap Byte) (a : Nat) : Nat → List Byte
  | 0 => []
  | n + 1 => rdByte m a :: rdBytes m (a + 1) n

/-- Little-endian value of `n` bytes from `a` (09 R194). -/
def rdN (m : SMap Byte) (a : Nat) : Nat → Nat
  | 0 => 0
  | n + 1 => (rdByte m a).toNat + 256 * rdN m (a + 1) n

/-- Write the low `n` bytes of `x` at `a`, little-endian. -/
def wrN (m : SMap Byte) (a : Nat) : Nat → Nat → SMap Byte
  | 0, _ => m
  | n + 1, x => wrN (wrByte m a (BitVec.ofNat 8 x)) (a + 1) n (x / 256)

def wrBytes (m : SMap Byte) (a : Nat) : List Byte → SMap Byte
  | [] => m
  | b :: r => wrBytes (wrByte m a b) (a + 1) r

/-- Set `n` bytes from `a` to zero. -/
def zeroN (m : SMap Byte) (a n : Nat) : SMap Byte := m.filter fun c => !(a ≤ c.1 && c.1 < a + n)

/-! ### Masks -/

def bitOf (m : Mask) (l : Nat) : Bool := m.getLsbD l
def oneBit (l : Nat) : Mask := BitVec.ofNat 64 (2 ^ l)
def setBit (m : Mask) (l : Nat) (b : Bool) : Mask := if b then m ||| oneBit l else m &&& ~~~(oneBit l)
/-- The lanes of a mask, ascending. -/
def lanesOf (m : Mask) : List Nat := (List.range 64).filter (bitOf m)
/-- All lanes of a width. -/
def fullMask (w : Nat) : Mask := BitVec.ofNat 64 (2 ^ w - 1)
/-- The mask of the lanes below `w` that satisfy `f`. -/
def maskOf (w : Nat) (f : Nat → Bool) : Mask := (List.range w).foldl (fun m l => if f l then m ||| oneBit l else m) 0

/-! ### Lists by index -/

def setAt {α : Type} : List α → Nat → α → List α
  | [], _, _ => []
  | _ :: r, 0, x => x :: r
  | y :: r, i + 1, x => y :: setAt r i x

def modAt {α : Type} : List α → Nat → (α → α) → List α
  | [], _, _ => []
  | y :: r, 0, f => f y :: r
  | y :: r, i + 1, f => y :: modAt r i f

/-- A list, newest entry first, that keeps the `n` newest of the entries that satisfy `f`. -/
def keepNewest {α : Type} (f : α → Bool) : Nat → List α → List α
  | _, [] => []
  | n, x :: r => if !f x then x :: keepNewest f n r else match n with
    | 0 => keepNewest f 0 r
    | n + 1 => x :: keepNewest f n r

/-- The first `n` entries that satisfy `f`, those of a higher rank before those of a lower one; ranks are below `k`. -/
def keepRanked {α : Type} (f : α → Bool) (rank : α → Nat) : Nat → Nat → List α → List α
  | 0, _, l => l
  | k + 1, n, l => keepRanked f rank k (n - (l.filter fun x => f x && rank x == k).length) (keepNewest (fun x => f x && rank x == k) n l)

/-- Insert into a list that `le` orders, after the entries that it may follow. -/
def insOrd {α : Type} (le : α → α → Bool) (x : α) : List α → List α
  | [] => [x]
  | y :: r => if le y x then y :: insOrd le x r else x :: y :: r

/-- Stable insertion sort. -/
def sortBy {α : Type} (le : α → α → Bool) (l : List α) : List α := l.foldl (fun r x => insOrd le x r) []

/-! ### Signed readings of numbers -/

/-- `x mod 2^n` read in two's complement. -/
def sgn (n x : Nat) : Int := let y := x % 2 ^ n; if y < 2 ^ (n - 1) then y else (y : Int) - 2 ^ n
/-- An integer taken modulo 2^n. -/
def wrap (n : Nat) (x : Int) : Nat := (x % (2 ^ n : Nat)).toNat

end Sys2Proof.Machine
end

