-- ==== Sys2Proof/Machine/Num.lean ====
section
/-! DEFINITION. Machine/Num.lean: number formats, exact values and the single rounding (06 R90 to R107), and the generator
of random words (07 R138). -/

namespace Sys2Proof.Machine

/-! ### Formats (06 R90 to R92) -/

/-- A binary floating-point format: exponent and mantissa bits, bias, largest finite code, and whether it has infinities
(and then rounds to them on overflow, R99). -/
structure BinFmt where
  eb : Nat
  mb : Nat
  bias : Nat
  maxCode : Nat
  hasInf : Bool
  nan : Option Nat
deriving DecidableEq, Repr

def fFP32 : BinFmt := ⟨8, 23, 127, 0x7F7FFFFF, true, some 0x7FC00000⟩
def fFP16 : BinFmt := ⟨5, 10, 15, 0x7BFF, true, some 0x7E00⟩
def fBF16 : BinFmt := ⟨8, 7, 127, 0x7F7F, true, some 0x7FC0⟩
def fE4M3 : BinFmt := ⟨4, 3, 7, 0x7E, false, some 0x7F⟩
def fE5M2 : BinFmt := ⟨5, 2, 15, 0x7B, false, some 0x7E⟩
def fE2M3 : BinFmt := ⟨2, 3, 1, 0x1F, false, none⟩
def fE3M2 : BinFmt := ⟨3, 2, 3, 0x1F, false, none⟩
def fE2M1 : BinFmt := ⟨2, 1, 1, 0x7, false, none⟩

def BinFmt.bits (f : BinFmt) : Nat := f.eb + f.mb + 1

/-- The floating-point format of an element code (06 R90); `none` for the integers and for 10 to 15. -/
def fmtOf (code : Nat) : Option BinFmt :=
  match code with
  | 0 => some fE2M1 | 1 => some fE2M3 | 2 => some fE3M2 | 3 => some fE4M3 | 4 => some fE5M2
  | 7 => some fBF16 | 8 => some fFP16 | 9 => some fFP32
  | _ => none

/-- Bits of an element (06 R90). -/
def elemBits (code : Nat) : Nat :=
  match code with
  | 0 | 6 => 4 | 1 | 2 => 6 | 3 | 4 | 5 => 8 | 7 | 8 => 16 | 9 => 32 | _ => 24

/-- A value: NaN, an infinity, or (−1)^neg × m × 2^e exactly (a zero keeps its sign). -/
inductive FVal
  | nan
  | inf (neg : Bool)
  | fin (neg : Bool) (m : Nat) (e : Int)
deriving DecidableEq, Repr

/-- The value of a code (06 R91, R92). -/
def decodeF (f : BinFmt) (x : Nat) : FVal :=
  let x := x % 2 ^ f.bits
  let neg := x / 2 ^ (f.eb + f.mb) == 1
  let e := x / 2 ^ f.mb % 2 ^ f.eb
  let m := x % 2 ^ f.mb
  let mag := x % 2 ^ (f.eb + f.mb)
  if f.maxCode < mag && (f.nan.isSome) then
    if m == 0 && e + 1 == 2 ^ f.eb then .inf neg else .nan
  else if e == 0 then .fin neg m (1 - (f.bias : Int) - f.mb)
  else .fin neg (m + 2 ^ f.mb) ((e : Int) - f.bias - f.mb)

def FVal.isNaN : FVal → Bool | .nan => true | _ => false
def FVal.isZero : FVal → Bool | .fin _ m _ => m == 0 | _ => false
def FVal.isInf : FVal → Bool | .inf _ => true | _ => false
def FVal.isNeg : FVal → Bool | .inf n => n | .fin n _ _ => n | .nan => false

/-- An integer as an exact value. -/
def FVal.ofInt (x : Int) : FVal := .fin (x < 0) x.natAbs 0

/-! ### Exact arithmetic -/

/-- The signed mantissa of a finite value at exponent `e0 ≤ e`. -/
def alignTo (neg : Bool) (m : Nat) (e e0 : Int) : Int :=
  let x : Int := ((m * 2 ^ (e - e0).toNat : Nat) : Int)
  if neg then -x else x

/-- Exact sum; `rd` chooses the sign of an exact zero (06 R101). -/
def FVal.add (rd : Bool) : FVal → FVal → FVal
  | .nan, _ => .nan
  | _, .nan => .nan
  | .inf a, .inf b => if a == b then .inf a else .nan
  | .inf a, _ => .inf a
  | _, .inf b => .inf b
  | .fin a m e, .fin b n f =>
    let e0 := Min.min e f
    let s := alignTo a m e e0 + alignTo b n f e0
    if s == 0 then .fin (if m == 0 && n == 0 && a == b then a else rd) 0 e0
    else .fin (s < 0) s.natAbs e0

def FVal.neg : FVal → FVal
  | .nan => .nan
  | .inf a => .inf !a
  | .fin a m e => .fin (!a) m e

/-- Exact product. -/
def FVal.mul : FVal → FVal → FVal
  | .nan, _ => .nan
  | _, .nan => .nan
  | .inf a, .inf b => .inf (a != b)
  | .inf a, .fin b n _ => if n == 0 then .nan else .inf (a != b)
  | .fin a m _, .inf b => if m == 0 then .nan else .inf (a != b)
  | .fin a m e, .fin b n f => .fin (a != b) (m * n) (e + f)

/-- Multiply by 2^k exactly. The exponent is held within bounds beyond which every format overflows or underflows. -/
def FVal.scale (k : Int) : FVal → FVal
  | .fin a m e => .fin a m (e + Max.max (-4000) (Min.min 4000 k))
  | x => x

/-- Numeric order of two non-NaN values; −0 equals +0. -/
def FVal.lt : FVal → FVal → Bool
  | .inf a, .inf b => a && !b
  | .inf a, .fin .. => a
  | .fin .., .inf b => !b
  | .fin a m e, .fin b n f => let e0 := Min.min e f; alignTo a m e e0 < alignTo b n f e0
  | _, _ => false

def FVal.eqv : FVal → FVal → Bool
  | .inf a, .inf b => a == b
  | .fin a m e, .fin b n f => let e0 := Min.min e f; alignTo a m e e0 == alignTo b n f e0
  | _, _ => false

/-! ### Magnitudes for rounding

A non-negative real x is held as n = ⌊x × 2^512⌋ and whether anything was cut off. Every boundary that R98 and R100 compare
with is a multiple of 2^−512. -/

def magBits : Nat := 512

structure Mag where
  n : Nat
  sticky : Bool
deriving DecidableEq, Repr

/-- m × 2^e as a magnitude. -/
def magOf (m : Nat) (e : Int) : Mag :=
  let k := e + magBits
  if 0 ≤ k then ⟨m * 2 ^ k.toNat, false⟩
  else let d := 2 ^ (-k).toNat; ⟨m / d, m % d != 0⟩

/-- A value ready to round. -/
inductive RVal
  | nan
  | inf (neg : Bool)
  | mag (neg : Bool) (g : Mag)
deriving DecidableEq, Repr

def FVal.r : FVal → RVal
  | .nan => .nan
  | .inf a => .inf a
  | .fin a m e => .mag a (magOf m e)

/-- Round up (to the value away from zero)? `q`, `r` are the quotient and remainder by the unit `u` (06 R98, R100). -/
def roundUp (mode : Nat) (neg : Bool) (q r u : Nat) (sticky : Bool) (w : Word) : Bool :=
  let inexact := r != 0 || sticky
  inexact && (match mode with
    | 0 => u < 2 * r || (2 * r == u && (sticky || q % 2 == 1))
    | 1 => false
    | 2 => neg
    | 3 => !neg
    | 4 => u ≤ 2 * r
    | _ => w.toNat < r * 2 ^ 32 / u)

/-- The magnitude code that R98 chooses, with the exponent range unbounded above. -/
def roundCode (f : BinFmt) (mode : Nat) (neg : Bool) (g : Mag) (w : Word) : Nat :=
  -- exponent offset of the binade above the smallest normal, 0 for subnormals
  let emin : Int := 1 - (f.bias : Int)
  let ex : Int := Max.max ((Nat.log2 g.n : Int) - magBits) emin
  let ex := if g.n == 0 then emin else ex
  let u := 2 ^ (ex - f.mb + magBits).toNat
  let q := g.n / u
  let r := g.n % u
  let q := if roundUp mode neg q r u g.sticky w then q + 1 else q
  (ex - emin).toNat * 2 ^ f.mb + q

def signBit (f : BinFmt) (neg : Bool) : Nat := if neg then 2 ^ (f.eb + f.mb) else 0

/-- The infinity code of a format that has one; the largest finite code otherwise (06 R99). -/
def infCode (f : BinFmt) : Nat := if f.hasInf then (2 ^ f.eb - 1) * 2 ^ f.mb else f.maxCode

/-- Round to a floating-point format (06 R98, R99). `sat` replaces infinities (07 R112). -/
def roundTo (f : BinFmt) (mode : Nat) (sat : Bool) (w : Word) : RVal → Nat
  | .nan => f.nan.getD 0
  | .inf a => signBit f a + (if sat then f.maxCode else infCode f)
  | .mag a g =>
    let c := roundCode f mode a g w
    let top := match mode with
      | 1 => f.maxCode
      | 2 => if a then infCode f else f.maxCode
      | 3 => if a then f.maxCode else infCode f
      | _ => infCode f
    signBit f a + (if f.maxCode < c then (if sat then f.maxCode else top) else c)

/-- Round to an integer and saturate to [lo, hi] (06 R99); NaN gives 0. -/
def roundInt (mode : Nat) (w : Word) (lo hi : Int) : RVal → Int
  | .nan => 0
  | .inf a => if a then lo else hi
  | .mag a g =>
    let u := 2 ^ magBits
    let q := g.n / u
    let q := if roundUp mode a q (g.n % u) u g.sticky w then q + 1 else q
    let v : Int := if a then -(q : Int) else q
    Max.max lo (Min.min hi v)

/-! ### Division and the elementary functions (07 R120) -/

/-- a ÷ b, exact up to the sticky bit. -/
def FVal.div : FVal → FVal → RVal
  | .nan, _ => .nan
  | _, .nan => .nan
  | .inf _, .inf _ => .nan
  | .inf a, .fin b .. => .inf (a != b)
  | .fin a .., .inf b => .mag (a != b) ⟨0, false⟩
  | .fin a m e, .fin b n f =>
    if n == 0 then if m == 0 then .nan else .inf (a != b)
    else
      let k := e - f + magBits
      let (num, den) := if 0 ≤ k then (m * 2 ^ k.toNat, n) else (m, n * 2 ^ (-k).toNat)
      .mag (a != b) ⟨num / den, num % den != 0⟩

/-- Integer square root by digits, from bit `i` − 1 down. -/
def isqrt (x : Nat) : Nat → Nat → Nat
  | 0, r => r
  | i + 1, r => let r' := r + 2 ^ i; isqrt x i (if r' * r' ≤ x then r' else r)

def sqrtN (x : Nat) : Nat := isqrt x (Nat.log2 x / 2 + 1) 0

def FVal.sqrt : FVal → RVal
  | .nan => .nan
  | .inf a => if a then .nan else .inf false
  | .fin a m e =>
    if m == 0 then .mag a ⟨0, false⟩
    else if a then .nan
    else let x := m * 2 ^ (e + 2 * magBits).toNat; let r := sqrtN x; .mag false ⟨r, r * r != x⟩

/-- DEDUCED, log [23]: the transcendental instructions round the exact value once. -/
def FVal.rsqrt : FVal → RVal
  | .nan => .nan
  | .inf a => if a then .nan else .mag false ⟨0, false⟩
  | .fin a m e =>
    if m == 0 then .inf a
    else if a then .nan
    else
      let p := (2 * magBits - e).toNat
      let r := sqrtN (2 ^ p / m)
      .mag false ⟨r, r * r * m != 2 ^ p⟩

/-- Working precision of the series, in bits after the point. DEDUCED, log [23]. -/
def serBits : Nat := 768

/-- ln 2 × 2^768, as the sum of 1 / (k 2^k). -/
def ln2Sum : Nat → Nat
  | 0 => 0
  | k + 1 => 2 ^ serBits / ((k + 1) * 2 ^ (k + 1)) + ln2Sum k
def ln2Fix : Nat := ln2Sum 768

/-- Sum of t, t·y/i, t·y²/(i(i+1)), …: the exponential series in fixed point. -/
def expSum (y : Nat) : Nat → Nat → Nat → Nat
  | 0, _, _ => 0
  | n + 1, i, t => if t == 0 then 0 else t + expSum y n (i + 1) (t * y / 2 ^ serBits / i)

/-- e^y for 0 ≤ y < 1, in fixed point. -/
def expFix (y : Nat) : Nat := expSum y 200 1 (2 ^ serBits)

/-- DEDUCED, log [23]: the transcendental instructions round the exact value once. -/
def FVal.exp2 : FVal → RVal
  | .nan => .nan
  | .inf a => if a then .mag false ⟨0, false⟩ else .inf false
  | .fin a m e =>
    -- x × 2^768 as an integer; beyond ±1024 every mode sees only "huge" or "tiny"
    if m == 0 then .mag false ⟨2 ^ magBits, false⟩
    else if 10 ≤ (Nat.log2 m : Int) + e then
      if a then .mag false ⟨0, true⟩ else .mag false ⟨2 ^ (magBits + 1024), true⟩
    else
      let x : Int := alignTo a m e (-(serBits : Int))
      let i := x / (2 ^ serBits : Nat)
      let fr := (x % (2 ^ serBits : Nat)).toNat
      if fr == 0 then .mag false (magOf 1 i)
      else
        let p := expFix (fr * ln2Fix / 2 ^ serBits)
        .mag false ⟨(magOf p (i - serBits)).n, true⟩

/-- Sum of z^(2k+1)/(2k+1) in fixed point: atanh z. -/
def atanhSum (z2 : Nat) : Nat → Nat → Nat → Nat
  | 0, _, _ => 0
  | n + 1, i, t => if t == 0 then 0 else t / i + atanhSum z2 n (i + 2) (t * z2 / 2 ^ serBits)

/-- DEDUCED, log [23]: the transcendental instructions round the exact value once. -/
def FVal.log2 : FVal → RVal
  | .nan => .nan
  | .inf a => if a then .nan else .inf false
  | .fin a m e =>
    if m == 0 then .inf true
    else if a then .nan
    else
      let l := Nat.log2 m
      let i : Int := l + e
      if m == 2 ^ l then .mag (i < 0) (magOf i.natAbs 0)
      else
        -- f = m / 2^l in (1, 2); log2 f = 2 atanh ((f − 1)/(f + 1)) / ln 2
        let z := (m - 2 ^ l) * 2 ^ serBits / (m + 2 ^ l)
        let ln := 2 * atanhSum (z * z / 2 ^ serBits) 300 1 z
        let fr := ln * 2 ^ magBits / ln2Fix
        if 0 ≤ i then .mag false ⟨i.toNat * 2 ^ magBits + fr, true⟩
        else .mag true ⟨i.natAbs * 2 ^ magBits - fr - 1, true⟩

/-- Sum of t, t·x²/((i)(i+1)), …: sinh from (x, 2), cosh from (1, 1). -/
def hypSum (x2 : Nat) : Nat → Nat → Nat → Nat
  | 0, _, _ => 0
  | n + 1, i, t => if t == 0 then 0 else t + hypSum x2 n (i + 2) (t * x2 / 2 ^ serBits / (i * (i + 1)))

/-- DEDUCED, log [23]: the transcendental instructions round the exact value once. -/
def FVal.tanh : FVal → RVal
  | .nan => .nan
  | .inf a => .mag a ⟨2 ^ magBits, false⟩
  | .fin a m e =>
    if m == 0 then .mag a ⟨0, false⟩
    else if 6 ≤ (Nat.log2 m : Int) + e then .mag a ⟨2 ^ magBits - 1, true⟩
    else
      let x := m * 2 ^ (e + serBits).toNat
      -- x² to twice the precision, so that the smallest arguments keep their cubic term
      let x2 := x * x / 2 ^ serBits
      let sh := hypSum x2 400 2 x
      let ch := hypSum x2 400 1 (2 ^ serBits)
      .mag a ⟨sh * 2 ^ magBits / ch, true⟩

/-! ### Random words (07 R138) -/

def arxRounds (r : Nat) : Nat → Word → Word → Word → Word → Word
  | 0, a, _, _, _ => a
  | n + 1, a, b, u, w =>
    let a := a.rotateRight 8 + b
    let a := a ^^^ u
    let b := b.rotateLeft 3 ^^^ a
    let w := (w.rotateRight 8 + u) ^^^ BitVec.ofNat 32 r
    let u := u.rotateLeft 3 ^^^ w
    arxRounds (r + 1) n a b u w

/-- ARX(C, KH:KL). -/
def arx (c k : DWord) : Word :=
  arxRounds 0 10 (c.truncate 32) ((c >>> 32).truncate 32) (k.truncate 32) ((k >>> 32).truncate 32)

/-! ### Elements under a code (06 R90, R94, R96, R97) -/

/-- The value of an element code with no scale (integers as they are, R97). -/
def elemVal (code x : Nat) : FVal :=
  match fmtOf code with
  | some f => decodeF f x
  | none => if code == 5 then .ofInt (sgn 8 x) else if code == 6 then .ofInt (sgn 4 x) else .ofInt (sgn 24 x)

/-- Round a value to an element code 0 to 9. -/
def roundElem (code mode : Nat) (w : Word) (x : RVal) : Nat :=
  match fmtOf code with
  | some f => roundTo f mode false w x
  | none => if code == 5 then wrap 8 (roundInt mode w (-128) 127 x) else wrap 4 (roundInt mode w (-8) 7 x)

/-! ### Morton order (08 R146) -/

def mortonBits (r c : Nat) : Nat → Nat
  | 0 => 0
  | b + 1 => mortonBits r c b + (c / 2 ^ b % 2) * 4 ^ b + (r / 2 ^ b % 2) * 2 * 4 ^ b

def morton (r c : Nat) : Nat := mortonBits r c 6

end Sys2Proof.Machine
end

