-- ==== Sys2Proof/Config.lean ====
section
/-! DEFINITION. Config.lean: the dimensions that the manual fixes (00 R2, 01 R6, 17 R354) and the values that it leaves to the
part: opaque constants, which nothing can evaluate. -/

namespace Sys2Proof.Config

def coresPerCluster : Nat := 8
def clusters : Nat := 24
def cores : Nat := 192
def hbmStacks : Nat := 8
def framesPerStack : Nat := 786432
/-- Vector register bytes of a core partition (01 R20). -/
def vrfBytes : Nat := 262144
def groupsPerPartition : Nat := 24
def scratchBytes : Nat := 786432
def tilesPerCore : Nat := 16
/-- Matrix ring bytes above the scratchpad allocation (08 R152). -/
def ringBytes : Nat := 2048
/-- Lines of the L1 data cache and of the instruction cache of a core: 256 KiB and 64 KiB (00 R2, 10 R228). -/
def l1Lines : Nat := 4096
def icacheLines : Nat := 1024
/-- Slices of the L2 and their bytes, 200 MiB in all (00 R2): it changes no result, since an evicted view line is found again (18 R368). -/
def l2Slices : Nat := 320
def l2SliceBytes : Nat := 655360
def bindEntries : Nat := 4096
def ratedKHz : Nat := 1750000
/-- Fused ceiling of a fabric port in MB/s: 112 GB/s (17 R357). -/
def fusedRate : Nat := 112000

/-- An undefined 32-bit value, by a counter that State advances. Log [2], DESIGN CHOICE. -/
opaque freeWord : Nat → Word
/-- A sensor value (hottest junction, board power) at a reading (20 R410). Log [3], DESIGN CHOICE. -/
opaque sensor : Nat → Word
/-- The device serial number (20 R410). Log [3], DESIGN CHOICE. -/
opaque serial : DWord
/-- The identity public key, 64 bytes, by byte index (17 R360). Log [3], DESIGN CHOICE. -/
opaque idPub : Nat → Byte
/-- The recovery loader, which is fixed in the part (17 R358, R360). Log [3], DESIGN CHOICE. -/
opaque loaderImage : List Byte
/-- SHAKE256 with 64-byte output: byte i of the digest of a message (17 R360). Log [3], DESIGN CHOICE. -/
opaque digest : List Byte → Nat → Byte
/-- Byte i of the SLH-DSA signature that the signing engine makes of a message (17 R360). Log [3], DESIGN CHOICE. -/
opaque signature : List Byte → Nat → Byte
/-- Whether a signature over an image verifies under a public key whose digest is fused (17 R359). Log [3], DESIGN CHOICE. -/
opaque verifies : List Byte → List Byte → List Byte → Bool

/-- The branch tables of section 7 of a code object: its bytes and table count to the entries of each (23 R444 gives no layout). Log [50], DESIGN CHOICE. -/
opaque tables : List Byte → Nat → List (List Nat)
/-- The records that section 9 fills, by kernel: record number and its eight words, from the section's bytes and the destination
handle (23 R444 gives no layout). Log [50], DESIGN CHOICE. -/
opaque objects : List Byte → DWord → Nat → List (Nat × List Word)
/-- The objects that LOAD creates for the `.data` of section 9, from the section's bytes and the destination handle: object id, PERM, first HBM frame
and contents (23 R444 gives no layout). Log [50], DESIGN CHOICE. -/
opaque dataObjects : List Byte → DWord → List (Nat × Nat × Nat × List Byte)
/-- Whether a section of TYPE 7, 8 or 9 is laid out legally: its type, bytes and AUX (23 R444 gives no layout). Log [50], DESIGN CHOICE. -/
opaque layoutOk : Nat → List Byte → Nat → Bool
/-- How many 12-byte words the Ulbel section of some bytes holds before its relocation list (23 R446 gives no count). Log [50], DESIGN CHOICE. -/
opaque ulbelWords : List Byte → Nat
/-- What LOAD writes from the destination handle on: the placed text and data, from the bytes of the code object. Log [50], DESIGN CHOICE. -/
opaque loadImage : List Byte → List Byte
/-- The code address of the yield table at an offset of a code object's constant segment: LOAD's placement of the segment has no
layout (13 R302, 23 R445). Log [111], DESIGN CHOICE. -/
opaque tableAddr : Nat → Nat → DWord
/-- A byte that an agent of the device reads, by object and offset, while its extent is AWAY. Log [70], DESIGN CHOICE. -/
opaque awayByte : Nat → Nat → Byte
/-- CAPDIG of a partition of another device: endpoint and partition (23 R450). Log [51], DESIGN CHOICE. -/
opaque remoteCapDig : Nat → Nat → List Byte

end Sys2Proof.Config
end

