-- ==== Sys2Proof/Syntax.lean ====
section
/-! DEFINITION. Syntax.lean: the operands, the field records of the seven formats and the ONE inductive of
instructions and events, one constructor for each row of spec/opcode_table.json. -/

namespace Sys2Proof

/-- The three queue registers (02 R44, 08 R168: Q = 0, 1, 2). -/
inductive Queue | qm | qx | qk
deriving DecidableEq, Repr

/-- The special registers, specifier numbers 0x40 to 0x50 (01 R24). -/
inductive Special
  | lane | quad | tid | group | blockX | blockY | blockZ | gang | grid | width | iter | turn | world | core | part | rtop | clock
deriving DecidableEq, Repr

/-- What a 10-bit operand specifier names (02 R44). -/
inductive Opnd
  | v (n : BitVec 8)
  | s (n : BitVec 7)
  | c (n : BitVec 6)
  | p (n : BitVec 4)
  | sp (n : BitVec 3)
  | ps (n : BitVec 3)
  | q (n : Queue)
  | sr (n : Special)
  | k (n : BitVec 7)
deriving DecidableEq, Repr

/-- A source field: the specifier and its modifiers (02 R45). -/
structure Src where
  kill : Bool
  abs : Bool
  neg : Bool
  opnd : Opnd
deriving DecidableEq, Repr

/-- The all-zero source field of an operation that does not use it (02 R46). -/
def Src.none : Src := ⟨false, false, false, .v 0⟩

/-- The guard of the common header (02 R42, R43). -/
structure Guard where
  gu : Bool
  gn : Bool
  g : BitVec 4
deriving DecidableEq, Repr

/-- The operand types of formats A and I (02 R55). -/
inductive Ty
  | b32 | i32 | u32 | i64 | u64 | f32 | f16 | bf16 | f16x2 | bf16x2 | i16x2 | i8x4 | u8x4
deriving DecidableEq, Repr

/-- The fields of formats A and I (02 R47, R48). With `imm = some w` it is format I and `w` stands for SB. -/
structure AluF where
  guard : Guard
  dst : Opnd
  sat : Bool
  dsc : BitVec 3
  a : Src
  b : Src
  c : Src
  imm : Option Word
  ty : Ty
  var : BitVec 4
deriving DecidableEq, Repr

/-- The fields of format M (02 R49). -/
structure MemF where
  guard : Guard
  data : Opnd
  dkill : Bool
  buf : BitVec 4
  off : Src
  imm : BitVec 24
  size : BitVec 3
  ord : BitVec 2
  scope : BitVec 3
  res : BitVec 2
  flagp : BitVec 4
  cache : BitVec 2
  var : BitVec 4
deriving DecidableEq, Repr

/-- The fields of format B (02 R50): TGT and RCV are a signed 24-bit line delta and a 3-bit slot. -/
structure CtlF where
  guard : Guard
  link : Opnd
  tgt : BitVec 27
  rcv : BitVec 27
deriving DecidableEq, Repr

/-- The fields of format E (02 R51). -/
structure EngF where
  guard : Guard
  dst : Opnd
  q : BitVec 4
  a : Src
  b : Src
  c : Src
  imm : BitVec 19
deriving DecidableEq, Repr

/-- The fields of format S (02 R52). -/
structure SysF where
  guard : Guard
  dst : Opnd
  a : Src
  b : Src
  imm : BitVec 30
  var : BitVec 8
deriving DecidableEq, Repr

/-- The fields of format T (02 R53). -/
structure TwF where
  guard : Guard
  a : Src
  sm1 : BitVec 3
  ordered : Bool
  imm : Word
deriving DecidableEq, Repr

/-- A partition configuration as PARTCONFIG carries it (23 R437). Queue fields are listed by queue number. -/
structure PartCfg where
  otbase : Nat
  otlog : Nat
  frbase : Nat
  frlog : Nat
  ctxbase : Nat
  ctxcount : Nat
  ovbase : Nat
  ovsize : Nat
  /-- (QBASE, QLOG, QPRI, QGEN) of queues 0 to 15 -/
  queues : List (Nat × Nat × Nat × Nat)
  /-- QUOTA of a core partition, keyed 4 × core + partition -/
  quota : SMap Nat
  /-- RATE of a fabric port, in MB/s -/
  rate : SMap Nat
deriving DecidableEq, Repr

/-- A firmware image offered to the boot code (17 R359): its bytes, security version, signature and public key, and the
minimum that an accepted image asks for. The version and the minimum stand beside the signed bytes. DESIGN CHOICE, log [3]. -/
structure FwImage where
  bytes : List Byte
  svn : Nat
  newMin : Nat
  pub : List Byte
  sig : List Byte
deriving DecidableEq, Repr

/-- The unit that an uncorrectable error poisons (20 R409). -/
inductive PoisonUnit
  | line (place : Nat)
  | scratchWord (space word : Nat)
  | tileWord (space tile elem : Nat)
  | vname (ctx name : Nat)
  | sname (ctx name : Nat)
deriving DecidableEq, Repr

/-- What a cache evicts (10 R228, 18 R368, 02 R41). -/
inductive Evicted
  | l1 (core line : Nat)
  | view (line world : Nat)
  | text (core code line : Nat)
deriving DecidableEq, Repr

/-- The power states that POWER sets (23 R451). -/
inductive PowerState | run | cap (khz : Nat) | idle
deriving DecidableEq, Repr

/-- Instructions and events: one constructor for each row of spec/opcode_table.json, in its order. An instruction carries
the fields of its format. An event carries what the spec leaves open in it (which group, queue, core or unit it concerns). -/
inductive Instr
  | nop (g : Guard)
  | mov (f : AluF) | add (f : AluF) | sub (f : AluF) | mul (f : AluF) | mulhi (f : AluF) | mad (f : AluF)
  | min (f : AluF) | max (f : AluF) | and (f : AluF) | or (f : AluF) | xor (f : AluF)
  | shl (f : AluF) | shr (f : AluF) | sra (f : AluF) | rot (f : AluF) | bfx (f : AluF) | bfi (f : AluF)
  | popc (f : AluF) | clz (f : AluF) | brev (f : AluF) | cmp (f : AluF) | sel (f : AluF)
  | div (f : AluF) | rem (f : AluF) | prm (f : AluF) | lop (f : AluF)
  | fadd (f : AluF) | fsub (f : AluF) | fmul (f : AluF) | ffma (f : AluF) | fmin (f : AluF) | fmax (f : AluF)
  | fcmp (f : AluF) | fdiv (f : AluF) | frcp (f : AluF) | fsqrt (f : AluF) | frsq (f : AluF)
  | fexp2 (f : AluF) | flog2 (f : AluF) | ftanh (f : AluF) | fclass (f : AluF) | fldexp (f : AluF) | frnd (f : AluF)
  | cvt (f : AluF) | pack (f : AluF) | unpack (f : AluF) | quant (f : AluF) | scl (f : AluF) | dot (f : AluF)
  | shfl (f : AluF) | qxch (f : AluF) | vote (f : AluF) | gred (f : AluF) | gscan (f : AluF)
  | reorder (f : AluF) | rdlane (f : AluF) | cset (f : AluF) | cfwd (f : AluF) | cstat (f : AluF)
  | rand (f : AluF) | rkey (f : AluF) | sget (f : AluF) | sset (f : AluF) | cap (f : AluF) | clk (f : AluF)
  | ld (f : MemF) | st (f : MemF)
  | amoAdd (f : MemF) | amoMin (f : MemF) | amoMax (f : MemF) | amoAnd (f : MemF) | amoOr (f : MemF)
  | amoXor (f : MemF) | amoXchg (f : MemF) | amoCas (f : MemF) | amoFadd (f : MemF)
  | pref (f : MemF) | pgreq (f : MemF) | smap (f : MemF) | swb (f : MemF) | sdrop (f : MemF)
  | bra (f : CtlF) | brx (f : CtlF) | brt (f : CtlF) | call (f : CtlF) | callx (f : CtlF) | ret (f : CtlF)
  | exit (f : CtlF) | brk (f : CtlF)
  | qpush (f : EngF) | qpop (f : EngF) | qpoll (f : EngF) | mma (f : EngF) | mmd (f : EngF)
  | accwait (f : EngF) | accpatch (f : EngF) | acczero (f : EngF) | accld (f : EngF)
  | cpld (f : EngF) | cpst (f : EngF) | cpred (f : EngF) | cpgat (f : EngF) | tspawn (f : EngF) | tcont (f : EngF)
  | fork (f : EngF) | choose (f : EngF) | wdone (f : EngF) | wjoin (f : EngF) | wabort (f : EngF)
  | wait (f : SysF) | waitr (f : SysF) | fence (f : SysF) | acq (f : SysF) | rel (f : SysF)
  | bind (f : SysF) | unbind (f : SysF) | bsync (f : SysF) | pbinit (f : SysF) | pbarr (f : SysF) | pbwait (f : SysF)
  | ufence (f : SysF) | renter (f : SysF) | rleave (f : SysF) | tmark (f : SysF) | trap (f : SysF) | eret (f : SysF)
  | sleep (f : SysF) | perf (f : SysF)
  | twill (f : TwF) | turn (f : TwF) | tbrk (f : TwF)
  -- queue commands: device partition and queue
  | launch (p q : Nat) | load (p q : Nat) | objupdate (p q : Nat) | extupdate (p q : Nat) | watch (p q : Nat)
  | traceOff (p q : Nat) | traceOn (p q : Nat) | traceDrain (p q : Nat)
  | resolveRetry (p q : Nat) | resolveDeliver (p q : Nat) | preempt (p q : Nat) | restore (p q : Nat)
  | grant (p q : Nat) | migrate (p q : Nat)
  -- management requests
  | summary | attest (p : Nat) (nonce : BitVec 256) | partcount (n : Nat) | partconfig (p : Nat) (cfg : PartCfg)
  | firmware (img : FwImage) | power (st : PowerState)
  -- device events
  | launchActivation (p q : Nat) | blockPlacement (p : Nat) (cores : List Nat) | gangAges (cluster : Nat)
  | blockRetirement (b : Nat) | matrixCommandStart (space n : Nat) | matrixCommandCompletion (space : Nat)
  | copyCompletion (ctx : Nat) | engineFault (ctx : Nat)
  | loadCompletion (ctx n : Nat) | storeCompletion (ctx n : Nat)
  | waitReturn (ctx slot : Nat) | accwaitReturn (ctx slot : Nat) | accpatchApply (ctx slot : Nat)
  | bsyncComplete (b : Nat) | reorderMeet (b part : Nat) | pbwaitReturn (ctx slot : Nat)
  | carryReadWake (ctx slot : Nat) | queueRegisterWake (ctx slot : Nat) | twillPlacesTaken (ctx slot : Nat)
  | orderedStageWake (ctx : Nat) | arbiterWake (ctx slot : Nat) | viewLineRetag (line world : Nat)
  | sleepExpiry (ctx slot : Nat) | taskDequeue (ctx : Nat) | taskRecordAges (launch pri : Nat)
  | noWorkerTake (launch pri : Nat) | taskRetirement (ctx : Nat) | ringFull (launch : Nat)
  | groupSave (ctx : Nat) | faultRingPosting (p : Nat) | icacheLineFill (core code line : Nat)
  | directoryRecall (ctx line : Nat) (write : Bool) | apertureRefusal (ctx n : Nat) | uncorrectableError (u : PoisonUnit)
  | thermalTrip (die : Nat) | clockThrottle (khz : Nat) | thermalGating (cluster : Nat) | clusterReturn (cluster : Nat)
  | firmwareBoot | supplyOff | arithmeticClockCycle | cacheEviction (e : Evicted) | singleBitError
  | remoteStore (p agent obj off : Nat) (bytes : List Byte) | powerFault
deriving DecidableEq, Repr

end Sys2Proof
end

