-- ==== Sys2Proof/WellFormed.lean ====
section
/-! DEFINITION. WellFormed.lean: the causes of an illegal-instruction trap that the encoding alone decides (02 R60), and
the well-formedness of an instruction. The same check serves the decoder (on fields as read, where a specifier may be
illegal) and `WellFormed` (on fields as written). -/

namespace Sys2Proof

/-! ### Fields as read -/

/-- A source field as read: `o = none` for a specifier that R44 does not list. -/
structure RSrc where
  kill : Bool
  abs : Bool
  neg : Bool
  o : Option Opnd
deriving DecidableEq, Repr

/-- The fields of formats A and I as read. `resv`: a bit that the format marks zero is set. -/
structure RAlu where
  resv : Bool
  guard : Guard
  dst : Option Opnd
  sat : Bool
  dsc : BitVec 3
  a : RSrc
  b : RSrc
  c : RSrc
  imm : Option Word
  ty : Option Ty
  var : BitVec 4

structure RMem where
  resv : Bool
  guard : Guard
  data : Option Opnd
  dkill : Bool
  buf : BitVec 4
  off : RSrc
  imm : BitVec 24
  size : BitVec 3
  ord : BitVec 2
  scope : BitVec 3
  res : BitVec 2
  flagp : BitVec 4
  cache : BitVec 2
  var : BitVec 4

structure RCtl where
  resv : Bool
  guard : Guard
  link : Option Opnd
  tgt : BitVec 27
  rcv : BitVec 27
  var : BitVec 4

structure REng where
  resv : Bool
  guard : Guard
  dst : Option Opnd
  q : BitVec 4
  a : RSrc
  b : RSrc
  c : RSrc
  imm : BitVec 19
  var : BitVec 4

structure RSys where
  resv : Bool
  guard : Guard
  dst : Option Opnd
  a : RSrc
  b : RSrc
  imm : BitVec 30
  var : BitVec 8

structure RTw where
  resv : Bool
  guard : Guard
  dst : Option Opnd
  a : RSrc
  sm1 : BitVec 3
  ordered : Bool
  imm : Word
  var : BitVec 4

/-! ### Operands -/

/-- A specifier value is listed in 02 R44: `s` numbers run to 95. -/
def Opnd.legal : Opnd → Bool
  | .s n => n.toNat ≤ 95
  | _ => true

def Opnd.isV : Opnd → Bool | .v _ => true | _ => false
def Opnd.isS : Opnd → Bool | .s _ => true | _ => false
def Opnd.isC : Opnd → Bool | .c _ => true | _ => false
def Opnd.isK : Opnd → Bool | .k _ => true | _ => false
def Opnd.isQ : Opnd → Bool | .q _ => true | _ => false
def Opnd.isP : Opnd → Bool | .p _ => true | _ => false
def Opnd.isSp : Opnd → Bool | .sp _ => true | _ => false
def Opnd.isPs : Opnd → Bool | .ps _ => true | _ => false
def Opnd.isSr : Opnd → Bool | .sr _ => true | _ => false

/-- Special registers of thread scope (01 R24). -/
def Special.perThread : Special → Bool
  | .lane | .quad | .tid => true
  | _ => false

/-- Classes that count as uniform for R68. -/
def Opnd.uniform : Opnd → Bool
  | .s _ | .sp _ | .ps _ | .k _ => true
  | .sr n => !n.perThread
  | _ => false

/-- The register number, for the alignment of pairs and groups of four (01 R18). Carry and queue names hold one word. -/
def Opnd.aligned (o : Opnd) (n : Nat) : Bool :=
  match o with
  | .v r => r.toNat % n == 0
  | .s r => r.toNat % n == 0
  | .k r => r.toNat % n == 0
  | _ => true

def RSrc.zero (r : RSrc) : Bool := !r.kill && !r.abs && !r.neg && r.o == some (.v 0)
def dstZero (o : Option Opnd) : Bool := o == some (.v 0)
/-- Does the operand satisfy `f`? An illegal specifier satisfies nothing. -/
def oIs (o : Option Opnd) (f : Opnd → Bool) : Bool := match o with | some x => f x | none => false

/-- Classes no operation accepts as a destination (01 R18). -/
def Opnd.neverDst : Opnd → Bool
  | .ps _ | .k _ | .sr _ => true
  | _ => false

/-! ### Types -/

def Ty.isFloat : Ty → Bool
  | .f32 | .f16 | .bf16 | .f16x2 | .bf16x2 => true
  | _ => false
def Ty.isSigned : Ty → Bool
  | .i32 | .i64 | .i16x2 | .i8x4 => true
  | _ => false
def Ty.is64 : Ty → Bool
  | .i64 | .u64 => true
  | _ => false
def Ty.isInt : Ty → Bool
  | .i32 | .u32 | .i64 | .u64 => true
  | _ => false
def Ty.isPk : Ty → Bool
  | .i16x2 | .i8x4 | .u8x4 => true
  | _ => false
def Ty.isBit : Ty → Bool
  | .b32 | .u64 => true
  | _ => false
def Ty.isFS : Ty → Bool
  | .f32 | .f16 | .bf16 => true
  | _ => false
/-- Elements of a register of the type (07 R109). -/
def Ty.elems : Ty → Nat
  | .f16x2 | .bf16x2 | .i16x2 => 2
  | .i8x4 | .u8x4 => 4
  | _ => 1

/-- TY codes (02 R55). -/
def Ty.ofCode (n : Nat) : Option Ty :=
  match n with
  | 0 => some .b32 | 1 => some .i32 | 2 => some .u32 | 3 => some .i64 | 4 => some .u64 | 5 => some .f32 | 6 => some .f16
  | 7 => some .bf16 | 8 => some .f16x2 | 9 => some .bf16x2 | 10 => some .i16x2 | 11 => some .i8x4 | 12 => some .u8x4
  | _ => none

/-! ### The map of formats A and I (03 R65 to R67) -/

/-- How an operand field is used. -/
inductive Role
  | unused
  | value      -- R67 value source, or value destination
  | vOnly      -- per-thread destination (R67): other destination classes raise cause 7
  | sgetDst    -- by the scope of SA
  | pred       -- predicate destination (p, sp)
  | predSrc    -- predicate source (p, sp, ps)
  | voteDst | redDst | scanDst
  | carry      -- a carry name only
  | laneBound  -- v or c
  | laneP      -- p0 to p15 only (SA of vote)
  | sk         -- s or k
  | vskPair    -- rkey SA: v, s or k
  | vReg       -- SA of reorder: v
  | sDst       -- an s destination, else cause 7
  | special    -- SA of sget
deriving DecidableEq, Repr

/-- One row of R65: the forms, operand roles, and the TY and VAR sets. -/
structure AluRow where
  fa : Bool
  fi : Bool
  dst : Role
  a : Role
  b : Role
  c : Role
  tys : Ty → Bool
  vars : Ty → Nat → Bool

def var0 (_ : Ty) (v : Nat) : Bool := v == 0
def varRnd (_ : Ty) (v : Nat) : Bool := v ≤ 5
def varTo (n : Nat) (_ : Ty) (v : Nat) : Bool := v ≤ n
def tyZ (t : Ty) : Bool := t == .b32

/-- d, a, b with both forms. -/
def row3 (tys : Ty → Bool) (vars : Ty → Nat → Bool) : AluRow := ⟨true, true, .value, .value, .value, .unused, tys, vars⟩
/-- d, a in format A only. -/
def row2 (tys : Ty → Bool) (vars : Ty → Nat → Bool) : AluRow := ⟨true, false, .value, .value, .unused, .unused, tys, vars⟩
/-- d, a, b, c in format A only. -/
def row4 (tys : Ty → Bool) (vars : Ty → Nat → Bool) : AluRow := ⟨true, false, .value, .value, .value, .value, tys, vars⟩

def tyIntPk (t : Ty) : Bool := t.isInt || t.isPk
def tyI (t : Ty) : Bool := t == .i32 || t == .i64
def tyF32 (t : Ty) : Bool := t == .f32
def tyRed (t : Ty) : Bool := t.isInt || t == .f32
def varRed (t : Ty) (v : Nat) : Bool := v ≤ 2 || (v ≤ 5 && t.isInt)

/-- The row of an OPC value in formats A and I, `none` where unassigned (03 R65). -/
def aluRow (opc : Nat) : Option AluRow :=
  match opc with
  | 0x01 => some ⟨true, true, .value, .value, .unused, .unused, Ty.isBit, var0⟩
  | 0x02 | 0x03 | 0x04 => some (row3 tyIntPk var0)
  | 0x05 => some (row3 Ty.isInt var0)
  | 0x06 => some (row4 tyIntPk var0)
  | 0x07 | 0x08 => some (row3 tyIntPk var0)
  | 0x09 | 0x0A | 0x0B | 0x0C | 0x0D => some (row3 Ty.isBit var0)
  | 0x0E => some (row3 tyI var0)
  | 0x0F => some (row3 Ty.isBit var0)
  | 0x10 => some (row3 (fun t => t == .i32 || t == .u32) var0)
  | 0x11 => some (row4 tyZ var0)
  | 0x12 | 0x13 | 0x14 => some (row2 Ty.isBit var0)
  | 0x15 => some ⟨true, true, .pred, .value, .value, .unused, tyIntPk, varTo 5⟩
  | 0x16 => some ⟨true, false, .value, .value, .value, .predSrc, Ty.isBit, var0⟩
  | 0x17 | 0x18 => some (row3 Ty.isInt var0)
  | 0x19 => some (row4 tyZ var0)
  | 0x1A => some (row3 Ty.isBit (varTo 15))
  | 0x20 | 0x21 | 0x22 => some (row3 Ty.isFloat varRnd)
  | 0x23 => some (row4 Ty.isFloat varRnd)
  | 0x24 | 0x25 => some (row3 Ty.isFloat var0)
  | 0x26 => some ⟨true, true, .pred, .value, .value, .unused, Ty.isFloat, varTo 7⟩
  | 0x27 => some (row3 tyF32 varRnd)
  | 0x28 | 0x29 | 0x2A | 0x2B | 0x2C | 0x2D => some (row2 tyF32 varRnd)
  | 0x2E => some (row2 Ty.isFS var0)
  | 0x2F => some (row3 Ty.isFS varRnd)
  | 0x30 => some (row2 Ty.isFloat (varTo 4))
  | 0x38 => some ⟨false, true, .value, .value, .unused, .unused, fun _ => true, varRnd⟩
  | 0x39 => some (row3 (fun t => t.elems != 1) varRnd)
  | 0x3A => some (row2 (fun t => t.elems != 1) (fun t v => v < t.elems))
  | 0x3B => some ⟨true, false, .vOnly, .value, .value, .sk, tyF32, varRnd⟩
  | 0x3C => some (row3 Ty.isFS varRnd)
  | 0x40 => some (row4 (fun t => t == .i32 || t == .f32)
      (fun t v => if t == .i32 then v == 3 || v == 4 || v == 5 else v == 0 || v == 1 || v == 2 || v == 6 || v == 7))
  | 0x48 => some ⟨true, true, .value, .laneBound, .value, .unused, tyZ, varTo 3⟩
  | 0x49 => some ⟨true, false, .value, .laneBound, .value, .unused, tyZ, varTo 3⟩
  | 0x4A => some ⟨true, false, .voteDst, .laneP, .unused, .unused, tyZ, varTo 2⟩
  | 0x4B => some ⟨true, false, .redDst, .laneBound, .unused, .unused, tyRed, varRed⟩
  | 0x4C => some ⟨true, false, .scanDst, .laneBound, .unused, .unused, tyRed,
      fun t v => varRed t v || (8 ≤ v && varRed t (v - 8))⟩
  | 0x4D => some ⟨false, true, .unused, .laneBound, .unused, .unused, tyZ, var0⟩
  | 0x4E => some ⟨true, true, .redDst, .laneBound, .sk, .unused, tyZ, var0⟩
  | 0x50 => some ⟨true, false, .carry, .laneBound, .unused, .unused, tyZ, var0⟩
  | 0x51 => some ⟨true, false, .carry, .carry, .unused, .unused, tyZ, var0⟩
  | 0x52 => some ⟨true, false, .vOnly, .carry, .unused, .unused, tyZ, var0⟩
  | 0x58 => some ⟨true, false, .vOnly, .unused, .unused, .unused, fun t => t == .b32 || t == .f32, var0⟩
  | 0x59 => some ⟨true, true, .vOnly, .vskPair, .unused, .unused, tyZ, var0⟩
  | 0x60 => some ⟨true, false, .sgetDst, .special, .unused, .unused, tyZ, var0⟩
  | 0x61 => some ⟨true, true, .sDst, .sk, .unused, .unused, tyZ, var0⟩
  | 0x62 => some ⟨true, true, .sDst, .sk, .unused, .unused, tyZ, var0⟩
  | 0x63 => some ⟨true, false, .value, .unused, .unused, .unused, fun t => t == .u64, var0⟩
  | _ => none

/-- Operations whose I form has IMM32 as its only operand, in the place of SA (03 R65, 07 R140, R142, 23 R449). -/
def immForA (opc : Nat) : Bool := opc == 0x01 || opc == 0x59 || opc == 0x61 || opc == 0x62

/-- The roles of the fields of a given form: in format I the SB role is taken by IMM32 (or SA by it, `immForA`). -/
def AluRow.roleA (r : AluRow) (opc : Nat) (isI : Bool) : Role := if isI && immForA opc then .unused else r.a
def AluRow.roleB (r : AluRow) (opc : Nat) (isI : Bool) (var : Nat) : Role :=
  if isI then .unused else if opc == 0x49 && var != 0 then .unused else r.b

/-- The operand widths in registers (1 or 2) of DST, SA, SB, SC (07 R109, with R113, R114, R122, R140, R143). -/
def aluWidths (opc : Nat) (ty : Ty) (imm : Option Word) : Nat × Nat × Nat × Nat :=
  let w (t : Ty) : Nat := if t.is64 then 2 else 1
  match opc with
  | 0x0C | 0x0D | 0x0E | 0x0F => (w ty, w ty, 1, 1)
  | 0x12 | 0x13 => (1, w ty, 1, 1)
  | 0x15 | 0x26 => (1, w ty, w ty, 1)
  | 0x16 => (w ty, w ty, w ty, 1)
  | 0x38 => (w ty, (match Ty.ofCode ((imm.getD 0).toNat % 16) with | some t => w t | none => 1), 1, 1)
  | 0x59 => (2, 2, 1, 1)
  | 0x62 => (2, 1, 1, 1)
  | 0x63 => (2, 1, 1, 1)
  | _ => (w ty, w ty, w ty, w ty)

/-- R68: the destination and every source used are uniform or IMM32. -/
def aluUniform (opc : Nat) (row : AluRow) (isI : Bool) (var : Nat) (dst a b c : Option Opnd) : Bool :=
  let u (role : Role) (o : Option Opnd) := role == .unused || oIs o Opnd.uniform
  row.dst != .unused && u row.dst dst && u (row.roleA opc isI) a && u (row.roleB opc isI var) b && u row.c c

def srcRoleOk : Role → Opnd → Bool
  | .unused, _ => true
  | .value, o => o.isV || o.isS || o.isC || o.isK || o.isQ
  | .predSrc, o => o.isP || o.isSp || o.isPs
  | .laneBound, o => o.isV || o.isC
  | .laneP, o => o.isP
  | .carry, o => o.isC
  | .sk, o => o.isS || o.isK
  | .vskPair, o => o.isV || o.isS || o.isK
  | .vReg, o => o.isV
  | .special, o => o.isSr
  | _, _ => false

/-- Cause 6 or 7 of a destination class (R67, R110, R131, R133), 0 where it is accepted. -/
def dstRoleCause (role : Role) (ballot perThread : Bool) (o : Opnd) : Nat :=
  if role == .unused then 0
  else if o.neverDst then 6
  else match role with
    | .value => if o.isV || o.isS || o.isC || o.isQ then 0 else 6
    | .vOnly => if o.isV then 0 else 7
    | .sgetDst => if perThread then (if o.isV then 0 else 7) else if o.isV || o.isS || o.isC || o.isQ then 0 else 6
    | .pred => if o == .p 15 then 7 else if o.isP || o.isSp then 0 else 6
    | .voteDst => if ballot then (if o.isV || o.isS then 0 else 6)
        else if o == .p 15 then 7 else if o.isP || o.isSp then 0 else 6
    | .redDst => if o.isV || o.isS then 0 else 6
    | .scanDst => if o.isV then 0 else if o.isP || o.isSp then 6 else 7
    | .carry => if o.isC then 0 else 6
    | .sDst => if o.isS then 0 else 7
    | _ => 6

/-- SAT is legal (07 R112). -/
def satOk (opc : Nat) (ty : Ty) : Bool :=
  match opc with
  | 0x02 | 0x03 | 0x04 | 0x06 | 0x20 | 0x21 | 0x22 | 0x23 | 0x27 | 0x2F | 0x3C | 0x38 | 0x40 => true
  | 0x39 => ty.isFloat
  | _ => false
/-- A non-zero DSC is legal (07 R112, 02 R47). -/
def dscOk (opc : Nat) (ty : Ty) : Bool :=
  match opc with
  | 0x20 | 0x21 | 0x22 | 0x23 | 0x27 | 0x38 | 0x39 | 0x40 => ty.isFloat
  | _ => false

/-- A guard an instruction of the uniform front or a group command may carry (02 R43). -/
def Guard.uniformOk (g : Guard) : Bool := g.gu || g.g == 15

def srcModBad (isAlu : Bool) (ty : Ty) (r : RSrc) : Bool :=
  (r.kill && !oIs r.o Opnd.isV) || ((r.abs || r.neg) && !(isAlu && (ty.isFloat || ty.isSigned)))

/-- The first cause, in the order of R60, among the listed (condition, cause) pairs; the list is in that order. -/
def firstCause : List (Bool × Nat) → Nat
  | [] => 0
  | (c, n) :: r => if c then n else firstCause r

/-- Illegal-instruction causes of formats A and I (02 R60, 03 R62 to R68); 0 for a legal slot. DEDUCED, log [21]. DESIGN CHOICE, log [28]:
the zero rule of 02 R48 for IMM32[31:16] under f16 and bf16 is applied to the integer operand b of `fldexp` and `scl` too. -/
def aluCause (opc : Nat) (r : RAlu) : Nat :=
  match aluRow opc with
  | none => 3
  | some row =>
    let isI := r.imm.isSome
    if (if isI then row.fi else row.fa) == false then 3 else
    let ty := r.ty.getD .b32
    let var := r.var.toNat
    let imm := (r.imm.getD 0).toNat
    let ra := row.roleA opc isI
    let rb := row.roleB opc isI var
    let sty := Ty.ofCode (imm % 16)
    let perT := oIs r.a.o (fun o => match o with | .sr n => n.perThread | _ => false)
    let uni := aluUniform opc row isI var r.dst r.a.o r.b.o r.c.o
    let dcause := match r.dst with
      | none => if row.dst == .unused then 0 else 6
      | some o => dstRoleCause row.dst (var == 0) perT o
    let (wd, wa, wb, wc) := aluWidths opc ty r.imm
    let mis (role : Role) (o : Option Opnd) (n : Nat) := role != .unused && oIs o (fun x => !x.aligned n)
    let srcBad (role : Role) (s : RSrc) := role != .unused && !oIs s.o (srcRoleOk role)
    firstCause [
      (r.resv || (row.dst == .unused && !dstZero r.dst) || (ra == .unused && !r.a.zero) || (rb == .unused && !r.b.zero)
        || (row.c == .unused && !r.c.zero)
        || (opc == 0x38 && imm / 16 != 0)
        || (opc != 0x38 && isI && (ty == .f16 || ty == .bf16) && imm / 65536 != 0), 4),
      (r.ty.isNone || !row.tys ty || !row.vars ty var
        || (opc == 0x38 && (match sty with | none => true | some t => t.elems != ty.elems)), 5),
      (dcause == 6 || srcBad ra r.a || srcBad rb r.b || srcBad row.c r.c, 6),
      (dcause == 7 || mis row.dst r.dst wd || mis ra r.a.o wa || mis rb r.b.o wb || mis row.c r.c.o wc
        || (!uni && oIs r.dst (fun o => o.isS || o.isSp) && !(opc == 0x4A || opc == 0x4B || opc == 0x4E)), 7),
      (srcModBad true ty r.a || srcModBad true ty r.b || srcModBad true ty r.c || (r.sat && !satOk opc ty)
        || (r.dsc != 0 && !dscOk opc ty), 8),
      ((uni || opc == 0x4D) && !r.guard.uniformOk, 10)]

/-! ### Format M (03 R70, R71) -/

/-- OPC, legal SIZE, ORD and VAR of the operations of format M. -/
def memOk (opc : Nat) : Option ((Nat → Bool) × (Nat → Bool) × (Nat → Nat → Bool)) :=
  match opc with
  | 0x00 => some (fun z => z ≤ 4, fun o => o != 2, fun v z => v == 0 || (v == 1 && z ≤ 1))
  | 0x01 => some (fun z => z ≤ 4, fun o => o != 1, fun v _ => v == 0)
  | 0x02 | 0x05 | 0x06 | 0x07 | 0x08 | 0x09 => some (fun z => z == 2 || z == 3, fun _ => true, fun v _ => v ≤ 1)
  | 0x03 | 0x04 => some (fun z => z == 2 || z == 3, fun _ => true, fun v _ => v ≤ 3)
  | 0x0A => some (fun z => z == 2, fun _ => true, fun v _ => v ≤ 1)
  | 0x10 | 0x11 | 0x12 | 0x13 | 0x14 => some (fun z => z == 0, fun o => o == 0, fun v _ => v == 0)
  | _ => none

def memBufOk (opc buf : Nat) : Bool :=
  match opc with
  | 0x00 => buf ≤ 14
  | 0x10 | 0x11 | 0x12 => buf ≤ 11
  | 0x13 | 0x14 => buf == 14
  | _ => buf ≤ 12 || buf == 14

def isAmo (opc : Nat) : Bool := 2 ≤ opc && opc ≤ 0x0A

/-- The number of registers DATA names (09 R194; a compare-and-swap names two values, 03 R70). -/
def dataRegs (opc size : Nat) : Nat :=
  let n := match size with | 3 => 2 | 4 => 4 | _ => 1
  if opc == 0x09 then 2 * n else n

def memCause (opc : Nat) (r : RMem) : Nat :=
  match memOk opc with
  | none => 3
  | some (sizeOk, ordOk, varOk) =>
    let size := r.size.toNat
    let noData := opc == 0x10 || opc == 0x11 || opc == 0x13 || opc == 0x14
    let lsp := opc == 0x00 || opc == 0x01 || opc == 0x10
    let writes := opc == 0x00 || (isAmo opc && r.var.getLsbD 0)
    let dataOk := if noData then true
      else if opc == 0x12 then oIs r.data Opnd.isS
      else oIs r.data (fun o => o.isV || o.isS)
    let offOk := if opc == 0x12 then oIs r.off.o (fun o => o.isS || o.isK)
      else oIs r.off.o (fun o => o.isV || o.isS || o.isK)
    let uni := opc == 0x12 || (opc == 0x00 && oIs r.data Opnd.isS && oIs r.off.o (fun o => o.isS || o.isK))
    firstCause [
      (r.resv || (noData && (!dstZero r.data || r.dkill)) || (!lsp && (r.res != 0 || r.flagp != 15 || r.cache != 0))
        || (r.ord == 0 && r.scope != 0), 4),
      (!sizeOk size || !ordOk r.ord.toNat || !varOk r.var.toNat size || !memBufOk opc r.buf.toNat
        || r.res == 3 || (r.ord != 0 && 5 ≤ r.scope.toNat), 5),
      (!dataOk || !offOk, 6),
      (!noData && (oIs r.data (fun o => !o.aligned (dataRegs opc size)) || (writes && !uni && oIs r.data Opnd.isS)), 7),
      ((r.dkill && (writes || !oIs r.data Opnd.isV)) || srcModBad false .b32 r.off, 8),
      (uni && !r.guard.uniformOk, 10)]

/-! ### Format B (03 R72) -/

/-- A branch under this guard and register can diverge, so that RCV is used. -/
def ctlDiverges (opc : Nat) (g : Guard) (link : Option Opnd) : Bool :=
  (opc ≤ 2 && !g.uniformOk) || ((opc == 1 || opc == 2) && oIs link Opnd.isV)

def slotOf (t : BitVec 27) : Nat := t.toNat % 8

def ctlCause (opc : Nat) (r : RCtl) : Nat :=
  if 8 ≤ opc then 3 else
  let direct := opc == 0 || opc == 3
  let noLink := opc == 0 || opc == 6 || opc == 7
  let linkOk := if noLink then true
    else if opc == 1 || opc == 2 then oIs r.link (fun o => o.isV || o.isS)
    else oIs r.link Opnd.isS
  firstCause [
    (r.resv || (noLink && !dstZero r.link) || (!ctlDiverges opc r.guard r.link && r.rcv != 0)
      || (!direct && opc != 2 && r.tgt != 0) || (opc == 2 && slotOf r.tgt != 0), 4),
    (r.var != 0, 5),
    (!linkOk, 6),
    ((direct && 5 ≤ slotOf r.tgt) || 5 ≤ slotOf r.rcv, 9),
    ((opc == 3 || opc == 4 || opc == 5) && !r.guard.uniformOk, 10)]

/-! ### Format E (03 R73) -/

def engAssigned (opc : Nat) : Bool :=
  opc ≤ 2 || (8 ≤ opc && opc ≤ 0x0D) || (0x10 ≤ opc && opc ≤ 0x13) || opc == 0x18 || opc == 0x19 || (0x20 ≤ opc && opc ≤ 0x24)

/-- An `s` base that is a multiple of `m` and whose `n` registers end at or below s95. -/
def sBase (o : Opnd) (m : Nat) : Bool := match o with | .s r => r.toNat % m == 0 && r.toNat + m ≤ 96 | _ => true

/-- Group commands take only a uniform guard or G = 15 (08 R159). -/
def engGroup (opc : Nat) (dst a : Option Opnd) : Bool :=
  match opc with
  | 0x00 => oIs a (fun o => o.isS || o.isK)
  | 0x01 => oIs dst Opnd.isS
  | 0x08 | 0x09 | 0x0B | 0x0D => false
  | _ => true

def engCause (opc : Nat) (r : REng) : Nat :=
  if !engAssigned opc then 3 else
  let isCopy := 0x10 ≤ opc && opc ≤ 0x13
  let qUse := opc ≤ 2
  let tUse := 0x0A ≤ opc && opc ≤ 0x0D
  let sk (o : Opnd) := o.isS || o.isK
  let useA := opc == 0 || opc == 8 || opc == 9 || opc == 0x0A || opc == 0x0B || opc == 0x0D || isCopy || opc == 0x18
    || opc == 0x19 || opc == 0x21 || opc == 0x22
  let useB := opc == 8 || opc == 9 || opc == 0x0B
  let useC := opc == 0x0B
  let useD := opc == 1 || opc == 2 || opc == 0x0D || opc == 0x20 || opc == 0x23
  let okA := match opc with
    | 0x00 => oIs r.a.o (fun o => o.isV || sk o)
    | 0x08 | 0x09 | 0x0B | 0x0D => oIs r.a.o Opnd.isV
    | 0x0A | 0x21 | 0x22 => oIs r.a.o sk
    | _ => oIs r.a.o Opnd.isS
  let okB := if opc == 0x0B then oIs r.b.o Opnd.isV else oIs r.b.o Opnd.isS
  let okD := match opc with
    | 0x01 => oIs r.dst (fun o => o.isV || o.isS)
    | 0x02 | 0x20 => oIs r.dst Opnd.isSp
    | 0x0D => oIs r.dst Opnd.isV
    | _ => oIs r.dst Opnd.isS
  let imm := r.imm.toNat
  firstCause [
    (r.resv || (!useD && !dstZero r.dst) || (!useA && !r.a.zero) || (!useB && !r.b.zero) || (!useC && !r.c.zero)
      || (!qUse && !tUse && r.q != 0) || (!isCopy && opc != 0x20 && imm != 0) || (isCopy && imm / 32768 != 0), 4),
    (r.var != 0 || (qUse && 3 ≤ r.q.toNat) || (opc == 0x20 && !(2 ≤ imm && imm ≤ 4))
      || (isCopy && (6 ≤ imm / 16 % 8 || 10 ≤ imm % 16)), 5),
    ((useA && !okA) || (useB && !okB) || (useC && !oIs r.c.o sk) || (useD && !okD), 6),
    ((useB && opc != 0x0B && oIs r.b.o (fun o => !sBase o 8)) || (isCopy && oIs r.a.o (fun o => !sBase o 8))
      || ((opc == 0x18 || opc == 0x19) && oIs r.a.o (fun o => !sBase o 16)), 7),
    (srcModBad false .b32 r.a || srcModBad false .b32 r.b || srcModBad false .b32 r.c, 8),
    (engGroup opc r.dst r.a.o && !r.guard.uniformOk, 10)]

/-! ### Format S (03 R74) -/

def sysCause (opc : Nat) (r : RSys) : Nat :=
  if 0x13 ≤ opc then 3 else
  let sk (o : Opnd) := o.isS || o.isK
  let useA := opc == 1 || (3 ≤ opc && opc ≤ 6) || (8 ≤ opc && opc ≤ 0x0A)
  let useB := opc == 5 || opc == 8 || opc == 0x0A
  let useD := opc == 0x0A || opc == 0x12
  let useImm := opc == 0 || opc == 5 || opc == 0x0C || opc == 0x0E || opc == 0x0F || opc == 0x11
  let imm16 := opc == 0x0C || opc == 0x0E || opc == 0x0F
  let scopedOp := 2 ≤ opc && opc ≤ 4
  let v := r.var.toNat
  let okA := if opc == 1 then oIs r.a.o sk else oIs r.a.o Opnd.isS
  let okB := if opc == 5 then oIs r.b.o Opnd.isS else oIs r.b.o sk
  let okD := if opc == 0x0A then oIs r.dst Opnd.isSp else oIs r.dst Opnd.isS
  let handle := 3 ≤ opc && opc ≤ 6
  firstCause [
    (r.resv || (!useD && !dstZero r.dst) || (!useA && !r.a.zero) || (!useB && !r.b.zero) || (!useImm && r.imm != 0)
      || (imm16 && r.imm.toNat / 65536 != 0) || (scopedOp && 8 ≤ v) || (!scopedOp && opc != 0 && opc != 1 && opc != 0x12 && v != 0), 4),
    ((scopedOp && 5 ≤ v % 8) || (opc == 0 && v != 0) || (opc == 1 && 5 ≤ v) || (opc == 0x12 && 16 ≤ v) || (opc == 5 && r.imm == 0)
      || (opc == 0x0C && r.imm == 0) || (opc == 0x11 && r.imm == 0), 5),
    ((useA && !okA) || (useB && !okB) || (useD && !okD), 6),
    (handle && (oIs r.a.o (fun o => !o.aligned 2) || (opc == 5 && oIs r.b.o (fun o => !o.aligned 2))), 7),
    (srcModBad false .b32 r.a || srcModBad false .b32 r.b, 8),
    (opc != 0x0F && !r.guard.uniformOk, 10)]

/-! ### Format T (03 R75) -/

def twCause (opc : Nat) (r : RTw) : Nat :=
  if 3 ≤ opc then 3 else
  firstCause [
    (r.resv || !dstZero r.dst || (opc != 0 && (!r.a.zero || r.sm1 != 0 || r.ordered || r.imm != 0)), 4),
    (r.var != 0, 5),
    (opc == 0 && !oIs r.a.o (fun o => o.isS || o.isK), 6),
    (srcModBad false .b32 r.a, 8),
    (!r.guard.uniformOk, 10)]

/-! ### Fields as written -/

def Opnd.raw (o : Opnd) : Option Opnd := if o.legal then some o else none
def Src.raw (s : Src) : RSrc := ⟨s.kill, s.abs, s.neg, s.opnd.raw⟩
def AluF.raw (f : AluF) : RAlu :=
  ⟨false, f.guard, f.dst.raw, f.sat, f.dsc, f.a.raw, f.b.raw, f.c.raw, f.imm, some f.ty, f.var⟩
def MemF.raw (f : MemF) : RMem :=
  ⟨false, f.guard, f.data.raw, f.dkill, f.buf, f.off.raw, f.imm, f.size, f.ord, f.scope, f.res, f.flagp, f.cache, f.var⟩
def CtlF.raw (f : CtlF) : RCtl := ⟨false, f.guard, f.link.raw, f.tgt, f.rcv, 0⟩
def EngF.raw (f : EngF) : REng := ⟨false, f.guard, f.dst.raw, f.q, f.a.raw, f.b.raw, f.c.raw, f.imm, 0⟩
def SysF.raw (f : SysF) : RSys := ⟨false, f.guard, f.dst.raw, f.a.raw, f.b.raw, f.imm, f.var⟩
def TwF.raw (f : TwF) : RTw := ⟨false, f.guard, some (.v 0), f.a.raw, f.sm1, f.ordered, f.imm, 0⟩

/-! ### Instructions and their OPC values (03 R65, R69, R70, R72 to R75) -/

/-- The format and fields of an instruction, with its OPC; `none` for an event. -/
inductive Form
  | nop (g : Guard)
  | alu (opc : Nat) (f : AluF)
  | mem (opc : Nat) (f : MemF)
  | ctl (opc : Nat) (f : CtlF)
  | eng (opc : Nat) (f : EngF)
  | sys (opc : Nat) (f : SysF)
  | tw (opc : Nat) (f : TwF)
deriving DecidableEq, Repr

def Instr.form : Instr → Option Form
  | .nop g => some (.nop g)
  | .mov f => some (.alu 0x01 f)
  | .add f => some (.alu 0x02 f)
  | .sub f => some (.alu 0x03 f)
  | .mul f => some (.alu 0x04 f)
  | .mulhi f => some (.alu 0x05 f)
  | .mad f => some (.alu 0x06 f)
  | .min f => some (.alu 0x07 f)
  | .max f => some (.alu 0x08 f)
  | .and f => some (.alu 0x09 f)
  | .or f => some (.alu 0x0A f)
  | .xor f => some (.alu 0x0B f)
  | .shl f => some (.alu 0x0C f)
  | .shr f => some (.alu 0x0D f)
  | .sra f => some (.alu 0x0E f)
  | .rot f => some (.alu 0x0F f)
  | .bfx f => some (.alu 0x10 f)
  | .bfi f => some (.alu 0x11 f)
  | .popc f => some (.alu 0x12 f)
  | .clz f => some (.alu 0x13 f)
  | .brev f => some (.alu 0x14 f)
  | .cmp f => some (.alu 0x15 f)
  | .sel f => some (.alu 0x16 f)
  | .div f => some (.alu 0x17 f)
  | .rem f => some (.alu 0x18 f)
  | .prm f => some (.alu 0x19 f)
  | .lop f => some (.alu 0x1A f)
  | .fadd f => some (.alu 0x20 f)
  | .fsub f => some (.alu 0x21 f)
  | .fmul f => some (.alu 0x22 f)
  | .ffma f => some (.alu 0x23 f)
  | .fmin f => some (.alu 0x24 f)
  | .fmax f => some (.alu 0x25 f)
  | .fcmp f => some (.alu 0x26 f)
  | .fdiv f => some (.alu 0x27 f)
  | .frcp f => some (.alu 0x28 f)
  | .fsqrt f => some (.alu 0x29 f)
  | .frsq f => some (.alu 0x2A f)
  | .fexp2 f => some (.alu 0x2B f)
  | .flog2 f => some (.alu 0x2C f)
  | .ftanh f => some (.alu 0x2D f)
  | .fclass f => some (.alu 0x2E f)
  | .fldexp f => some (.alu 0x2F f)
  | .frnd f => some (.alu 0x30 f)
  | .cvt f => some (.alu 0x38 f)
  | .pack f => some (.alu 0x39 f)
  | .unpack f => some (.alu 0x3A f)
  | .quant f => some (.alu 0x3B f)
  | .scl f => some (.alu 0x3C f)
  | .dot f => some (.alu 0x40 f)
  | .shfl f => some (.alu 0x48 f)
  | .qxch f => some (.alu 0x49 f)
  | .vote f => some (.alu 0x4A f)
  | .gred f => some (.alu 0x4B f)
  | .gscan f => some (.alu 0x4C f)
  | .reorder f => some (.alu 0x4D f)
  | .rdlane f => some (.alu 0x4E f)
  | .cset f => some (.alu 0x50 f)
  | .cfwd f => some (.alu 0x51 f)
  | .cstat f => some (.alu 0x52 f)
  | .rand f => some (.alu 0x58 f)
  | .rkey f => some (.alu 0x59 f)
  | .sget f => some (.alu 0x60 f)
  | .sset f => some (.alu 0x61 f)
  | .cap f => some (.alu 0x62 f)
  | .clk f => some (.alu 0x63 f)
  | .ld f => some (.mem 0x00 f)
  | .st f => some (.mem 0x01 f)
  | .amoAdd f => some (.mem 0x02 f)
  | .amoMin f => some (.mem 0x03 f)
  | .amoMax f => some (.mem 0x04 f)
  | .amoAnd f => some (.mem 0x05 f)
  | .amoOr f => some (.mem 0x06 f)
  | .amoXor f => some (.mem 0x07 f)
  | .amoXchg f => some (.mem 0x08 f)
  | .amoCas f => some (.mem 0x09 f)
  | .amoFadd f => some (.mem 0x0A f)
  | .pref f => some (.mem 0x10 f)
  | .pgreq f => some (.mem 0x11 f)
  | .smap f => some (.mem 0x12 f)
  | .swb f => some (.mem 0x13 f)
  | .sdrop f => some (.mem 0x14 f)
  | .bra f => some (.ctl 0x00 f)
  | .brx f => some (.ctl 0x01 f)
  | .brt f => some (.ctl 0x02 f)
  | .call f => some (.ctl 0x03 f)
  | .callx f => some (.ctl 0x04 f)
  | .ret f => some (.ctl 0x05 f)
  | .exit f => some (.ctl 0x06 f)
  | .brk f => some (.ctl 0x07 f)
  | .qpush f => some (.eng 0x00 f)
  | .qpop f => some (.eng 0x01 f)
  | .qpoll f => some (.eng 0x02 f)
  | .mma f => some (.eng 0x08 f)
  | .mmd f => some (.eng 0x09 f)
  | .accwait f => some (.eng 0x0A f)
  | .accpatch f => some (.eng 0x0B f)
  | .acczero f => some (.eng 0x0C f)
  | .accld f => some (.eng 0x0D f)
  | .cpld f => some (.eng 0x10 f)
  | .cpst f => some (.eng 0x11 f)
  | .cpred f => some (.eng 0x12 f)
  | .cpgat f => some (.eng 0x13 f)
  | .tspawn f => some (.eng 0x18 f)
  | .tcont f => some (.eng 0x19 f)
  | .fork f => some (.eng 0x20 f)
  | .choose f => some (.eng 0x21 f)
  | .wdone f => some (.eng 0x22 f)
  | .wjoin f => some (.eng 0x23 f)
  | .wabort f => some (.eng 0x24 f)
  | .wait f => some (.sys 0x00 f)
  | .waitr f => some (.sys 0x01 f)
  | .fence f => some (.sys 0x02 f)
  | .acq f => some (.sys 0x03 f)
  | .rel f => some (.sys 0x04 f)
  | .bind f => some (.sys 0x05 f)
  | .unbind f => some (.sys 0x06 f)
  | .bsync f => some (.sys 0x07 f)
  | .pbinit f => some (.sys 0x08 f)
  | .pbarr f => some (.sys 0x09 f)
  | .pbwait f => some (.sys 0x0A f)
  | .ufence f => some (.sys 0x0B f)
  | .renter f => some (.sys 0x0C f)
  | .rleave f => some (.sys 0x0D f)
  | .tmark f => some (.sys 0x0E f)
  | .trap f => some (.sys 0x0F f)
  | .eret f => some (.sys 0x10 f)
  | .sleep f => some (.sys 0x11 f)
  | .perf f => some (.sys 0x12 f)
  | .twill f => some (.tw 0x00 f)
  | .turn f => some (.tw 0x01 f)
  | .tbrk f => some (.tw 0x02 f)
  | _ => none

/-- The instruction of an assigned OPC. -/
def Form.instr : Form → Option Instr
  | .nop g => some (.nop g)
  | .alu opc f =>
    match opc with
    | 0x01 => some (.mov f) | 0x02 => some (.add f) | 0x03 => some (.sub f) | 0x04 => some (.mul f)
    | 0x05 => some (.mulhi f) | 0x06 => some (.mad f) | 0x07 => some (.min f) | 0x08 => some (.max f)
    | 0x09 => some (.and f) | 0x0A => some (.or f) | 0x0B => some (.xor f) | 0x0C => some (.shl f)
    | 0x0D => some (.shr f) | 0x0E => some (.sra f) | 0x0F => some (.rot f) | 0x10 => some (.bfx f)
    | 0x11 => some (.bfi f) | 0x12 => some (.popc f) | 0x13 => some (.clz f) | 0x14 => some (.brev f)
    | 0x15 => some (.cmp f) | 0x16 => some (.sel f) | 0x17 => some (.div f) | 0x18 => some (.rem f)
    | 0x19 => some (.prm f) | 0x1A => some (.lop f) | 0x20 => some (.fadd f) | 0x21 => some (.fsub f)
    | 0x22 => some (.fmul f) | 0x23 => some (.ffma f) | 0x24 => some (.fmin f) | 0x25 => some (.fmax f)
    | 0x26 => some (.fcmp f) | 0x27 => some (.fdiv f) | 0x28 => some (.frcp f) | 0x29 => some (.fsqrt f)
    | 0x2A => some (.frsq f) | 0x2B => some (.fexp2 f) | 0x2C => some (.flog2 f) | 0x2D => some (.ftanh f)
    | 0x2E => some (.fclass f) | 0x2F => some (.fldexp f) | 0x30 => some (.frnd f) | 0x38 => some (.cvt f)
    | 0x39 => some (.pack f) | 0x3A => some (.unpack f) | 0x3B => some (.quant f) | 0x3C => some (.scl f)
    | 0x40 => some (.dot f) | 0x48 => some (.shfl f) | 0x49 => some (.qxch f) | 0x4A => some (.vote f)
    | 0x4B => some (.gred f) | 0x4C => some (.gscan f) | 0x4D => some (.reorder f) | 0x4E => some (.rdlane f)
    | 0x50 => some (.cset f) | 0x51 => some (.cfwd f) | 0x52 => some (.cstat f) | 0x58 => some (.rand f)
    | 0x59 => some (.rkey f) | 0x60 => some (.sget f) | 0x61 => some (.sset f) | 0x62 => some (.cap f)
    | 0x63 => some (.clk f)
    | _ => none
  | .mem opc f =>
    match opc with
    | 0x00 => some (.ld f) | 0x01 => some (.st f) | 0x02 => some (.amoAdd f) | 0x03 => some (.amoMin f)
    | 0x04 => some (.amoMax f) | 0x05 => some (.amoAnd f) | 0x06 => some (.amoOr f) | 0x07 => some (.amoXor f)
    | 0x08 => some (.amoXchg f) | 0x09 => some (.amoCas f) | 0x0A => some (.amoFadd f) | 0x10 => some (.pref f)
    | 0x11 => some (.pgreq f) | 0x12 => some (.smap f) | 0x13 => some (.swb f) | 0x14 => some (.sdrop f)
    | _ => none
  | .ctl opc f =>
    match opc with
    | 0x00 => some (.bra f) | 0x01 => some (.brx f) | 0x02 => some (.brt f) | 0x03 => some (.call f)
    | 0x04 => some (.callx f) | 0x05 => some (.ret f) | 0x06 => some (.exit f) | 0x07 => some (.brk f)
    | _ => none
  | .eng opc f =>
    match opc with
    | 0x00 => some (.qpush f) | 0x01 => some (.qpop f) | 0x02 => some (.qpoll f) | 0x08 => some (.mma f)
    | 0x09 => some (.mmd f) | 0x0A => some (.accwait f) | 0x0B => some (.accpatch f) | 0x0C => some (.acczero f)
    | 0x0D => some (.accld f) | 0x10 => some (.cpld f) | 0x11 => some (.cpst f) | 0x12 => some (.cpred f)
    | 0x13 => some (.cpgat f) | 0x18 => some (.tspawn f) | 0x19 => some (.tcont f) | 0x20 => some (.fork f)
    | 0x21 => some (.choose f) | 0x22 => some (.wdone f) | 0x23 => some (.wjoin f) | 0x24 => some (.wabort f)
    | _ => none
  | .sys opc f =>
    match opc with
    | 0x00 => some (.wait f) | 0x01 => some (.waitr f) | 0x02 => some (.fence f) | 0x03 => some (.acq f)
    | 0x04 => some (.rel f) | 0x05 => some (.bind f) | 0x06 => some (.unbind f) | 0x07 => some (.bsync f)
    | 0x08 => some (.pbinit f) | 0x09 => some (.pbarr f) | 0x0A => some (.pbwait f) | 0x0B => some (.ufence f)
    | 0x0C => some (.renter f) | 0x0D => some (.rleave f) | 0x0E => some (.tmark f) | 0x0F => some (.trap f)
    | 0x10 => some (.eret f) | 0x11 => some (.sleep f) | 0x12 => some (.perf f)
    | _ => none
  | .tw opc f =>
    match opc with
    | 0x00 => some (.twill f) | 0x01 => some (.turn f) | 0x02 => some (.tbrk f)
    | _ => none

/-- The illegal-instruction cause of a form as written; 0 when it is legal (02 R60). -/
def Form.cause : Form → Nat
  | .nop _ => 0
  | .alu opc f => aluCause opc f.raw
  | .mem opc f => memCause opc f.raw
  | .ctl opc f => ctlCause opc f.raw
  | .eng opc f => engCause opc f.raw
  | .sys opc f => sysCause opc f.raw
  | .tw opc f => twCause opc f.raw

/-- An instruction is well-formed when its encoding raises no illegal-instruction trap whatever the state (02 R60). An event
carries no encoding and is well-formed. -/
def WellFormed (i : Instr) : Bool :=
  match i.form with
  | some x => x.cause == 0
  | none => true

end Sys2Proof
end

