-- ==== Sys2Proof/Decode.lean ====
section
/-! DEFINITION. Decode.lean: from the 96 bits of a slot to an instruction or the cause of the illegal-instruction trap
(02 R42 to R54, R60; 03 R62 to R75), the encoder beside it, and the fetch line's word (02 R35 to R39). -/

namespace Sys2Proof

/-! ### Operand specifiers (02 R44) -/

/-- Special register by number 0x40 + n (01 R24). -/
def Special.ofNum (n : Nat) : Option Special :=
  match n with
  | 0 => some .lane | 1 => some .quad | 2 => some .tid | 3 => some .group | 4 => some .blockX | 5 => some .blockY
  | 6 => some .blockZ | 7 => some .gang | 8 => some .grid | 9 => some .width | 10 => some .iter | 11 => some .turn
  | 12 => some .world | 13 => some .core | 14 => some .part | 15 => some .rtop | 16 => some .clock
  | _ => none

def Special.num : Special → Nat
  | .lane => 0 | .quad => 1 | .tid => 2 | .group => 3 | .blockX => 4 | .blockY => 5 | .blockZ => 6 | .gang => 7
  | .grid => 8 | .width => 9 | .iter => 10 | .turn => 11 | .world => 12 | .core => 13 | .part => 14 | .rtop => 15 | .clock => 16

/-- The operand of a 10-bit specifier, `none` where R44 lists nothing. -/
def decodeSpec (w : BitVec 10) : Option Opnd :=
  let n := w.toNat % 256
  match w.toNat / 256 with
  | 0 => some (.v (BitVec.ofNat 8 n))
  | 1 => if n ≤ 95 then some (.s (BitVec.ofNat 7 n)) else none
  | 2 => if n ≤ 63 then some (.c (BitVec.ofNat 6 n)) else none
  | _ =>
    if n ≤ 0x0F then some (.p (BitVec.ofNat 4 n))
    else if n ≤ 0x17 then some (.sp (BitVec.ofNat 3 n))
    else if n ≤ 0x1F then some (.ps (BitVec.ofNat 3 n))
    else if n == 0x20 then some (.q .qm)
    else if n == 0x21 then some (.q .qx)
    else if n == 0x22 then some (.q .qk)
    else if 0x40 ≤ n && n ≤ 0x50 then (Special.ofNum (n - 0x40)).map .sr
    else if 0x80 ≤ n then some (.k (BitVec.ofNat 7 n))
    else none

/-- The specifier of an operand (02 R44). -/
def encodeSpec : Opnd → BitVec 10
  | .v n => BitVec.ofNat 10 n.toNat
  | .s n => BitVec.ofNat 10 (0x100 + n.toNat)
  | .c n => BitVec.ofNat 10 (0x200 + n.toNat)
  | .p n => BitVec.ofNat 10 (0x300 + n.toNat)
  | .sp n => BitVec.ofNat 10 (0x310 + n.toNat)
  | .ps n => BitVec.ofNat 10 (0x318 + n.toNat)
  | .q .qm => 0x320
  | .q .qx => 0x321
  | .q .qk => 0x322
  | .sr n => BitVec.ofNat 10 (0x340 + n.num)
  | .k n => BitVec.ofNat 10 (0x380 + n.toNat)

/-- TY codes (02 R55). -/
def Ty.code : Ty → Nat
  | .b32 => 0 | .i32 => 1 | .u32 => 2 | .i64 => 3 | .u64 => 4 | .f32 => 5 | .f16 => 6 | .bf16 => 7 | .f16x2 => 8
  | .bf16x2 => 9 | .i16x2 => 10 | .i8x4 => 11 | .u8x4 => 12

/-! ### Fields of a slot -/

/-- Bits [lo + n - 1 : lo] of a slot. -/
abbrev field (w : BitVec 96) (lo n : Nat) : BitVec n := w.extractLsb' lo n

def bit (w : BitVec 96) (i : Nat) : Bool := w.getLsbD i

/-- The guard of the common header (02 R42). -/
def readGuard (w : BitVec 96) : Guard := ⟨bit w 16, bit w 15, field w 11 4⟩

/-- The 13-bit source field at `lo` (02 R45). -/
def readSrc (w : BitVec 96) (lo : Nat) : RSrc := ⟨bit w (lo + 12), bit w (lo + 11), bit w (lo + 10), decodeSpec (field w lo 10)⟩

def readDst (w : BitVec 96) : Option Opnd := decodeSpec (field w 17 10)

def readA (w : BitVec 96) : RAlu :=
  ⟨field w 78 18 != 0, readGuard w, readDst w, bit w 27, field w 28 3, readSrc w 31, readSrc w 44, readSrc w 57, none,
    Ty.ofCode (field w 70 4).toNat, field w 74 4⟩

def readI (w : BitVec 96) : RAlu :=
  ⟨field w 84 12 != 0, readGuard w, readDst w, bit w 27, field w 28 3, readSrc w 31, ⟨false, false, false, some (.v 0)⟩,
    ⟨false, false, false, some (.v 0)⟩, some (field w 44 32), Ty.ofCode (field w 76 4).toNat, field w 80 4⟩

def readM (w : BitVec 96) : RMem :=
  ⟨field w 89 7 != 0, readGuard w, readDst w, bit w 27, field w 28 4, readSrc w 32, field w 45 24, field w 69 3, field w 72 2,
    field w 74 3, field w 77 2, field w 79 4, field w 83 2, field w 85 4⟩

def readB (w : BitVec 96) : RCtl :=
  ⟨field w 88 8 != 0 || field w 27 3 != 0, readGuard w, readDst w, field w 30 27, field w 57 27, field w 84 4⟩

def readE (w : BitVec 96) : REng :=
  ⟨field w 93 3 != 0, readGuard w, readDst w, field w 27 4, readSrc w 31, readSrc w 44, readSrc w 57, field w 70 19, field w 89 4⟩

def readS (w : BitVec 96) : RSys :=
  ⟨bit w 95 || field w 27 4 != 0, readGuard w, readDst w, readSrc w 31, readSrc w 44, field w 57 30, field w 87 8⟩

def readT (w : BitVec 96) : RTw :=
  ⟨field w 84 12 != 0 || field w 27 4 != 0, readGuard w, readDst w, readSrc w 31, field w 44 3, bit w 47, field w 48 32,
    field w 80 4⟩

/-- The fields of a slot that raises no cause: every specifier is listed. -/
def RSrc.src (r : RSrc) : Src := ⟨r.kill, r.abs, r.neg, r.o.getD (.v 0)⟩
def RAlu.f (r : RAlu) : AluF :=
  ⟨r.guard, r.dst.getD (.v 0), r.sat, r.dsc, r.a.src, r.b.src, r.c.src, r.imm, r.ty.getD .b32, r.var⟩
def RMem.f (r : RMem) : MemF :=
  ⟨r.guard, r.data.getD (.v 0), r.dkill, r.buf, r.off.src, r.imm, r.size, r.ord, r.scope, r.res, r.flagp, r.cache, r.var⟩
def RCtl.f (r : RCtl) : CtlF := ⟨r.guard, r.link.getD (.v 0), r.tgt, r.rcv⟩
def REng.f (r : REng) : EngF := ⟨r.guard, r.dst.getD (.v 0), r.q, r.a.src, r.b.src, r.c.src, r.imm⟩
def RSys.f (r : RSys) : SysF := ⟨r.guard, r.dst.getD (.v 0), r.a.src, r.b.src, r.imm, r.var⟩
def RTw.f (r : RTw) : TwF := ⟨r.guard, r.a.src, r.sm1, r.ordered, r.imm⟩

/-! ### The decoder -/

/-- What a slot holds: an instruction, or the cause of the illegal-instruction trap it raises whenever it issues (02 R61). -/
inductive Decoded
  | instr (i : Instr)
  | illegal (cause : Nat)
deriving DecidableEq, Repr

def finish (cause : Nat) (x : Form) : Decoded :=
  if cause != 0 then .illegal cause
  else match x.instr with
    | some i => .instr i
    | none => .illegal 3

/-- Decoding of a slot: total, with the cause order of R60. An all-zero slot is `nop` (02 R39, R54). -/
def decode (w : BitVec 96) : Decoded :=
  let opc := (field w 0 8).toNat
  match (field w 8 3).toNat with
  | 0 =>
    if opc == 0 then if field w 17 79 == 0 then .instr (.nop (readGuard w)) else .illegal 4
    else finish (aluCause opc (readA w)) (.alu opc (readA w).f)
  | 1 => if opc == 0 then .illegal 3 else finish (aluCause opc (readI w)) (.alu opc (readI w).f)
  | 2 => finish (memCause opc (readM w)) (.mem opc (readM w).f)
  | 3 => finish (ctlCause opc (readB w)) (.ctl opc (readB w).f)
  | 4 => finish (engCause opc (readE w)) (.eng opc (readE w).f)
  | 5 => finish (sysCause opc (readS w)) (.sys opc (readS w).f)
  | 6 => finish (twCause opc (readT w)) (.tw opc (readT w).f)
  | _ => .illegal 2

/-! ### The encoder -/

def bbit (b : Bool) : BitVec 1 := BitVec.ofBool b

/-- Bits [16:0] (02 R42). -/
def header (g : Guard) (fmt opc : Nat) : BitVec 17 :=
  bbit g.gu ++ bbit g.gn ++ g.g ++ BitVec.ofNat 3 fmt ++ BitVec.ofNat 8 opc

def encodeSrc (s : Src) : BitVec 13 := bbit s.kill ++ bbit s.abs ++ bbit s.neg ++ encodeSpec s.opnd

def encodeForm : Form → BitVec 96
  | .nop g => (0 : BitVec 79) ++ header g 0 0
  | .alu opc f =>
    match f.imm with
    | none => (0 : BitVec 18) ++ f.var ++ BitVec.ofNat 4 f.ty.code ++ encodeSrc f.c ++ encodeSrc f.b ++ encodeSrc f.a ++ f.dsc
        ++ bbit f.sat ++ encodeSpec f.dst ++ header f.guard 0 opc
    | some w => (0 : BitVec 12) ++ f.var ++ BitVec.ofNat 4 f.ty.code ++ w ++ encodeSrc f.a ++ f.dsc ++ bbit f.sat
        ++ encodeSpec f.dst ++ header f.guard 1 opc
  | .mem opc f => (0 : BitVec 7) ++ f.var ++ f.cache ++ f.flagp ++ f.res ++ f.scope ++ f.ord ++ f.size ++ f.imm ++ encodeSrc f.off
      ++ f.buf ++ bbit f.dkill ++ encodeSpec f.data ++ header f.guard 2 opc
  | .ctl opc f => (0 : BitVec 12) ++ f.rcv ++ f.tgt ++ (0 : BitVec 3) ++ encodeSpec f.link ++ header f.guard 3 opc
  | .eng opc f => (0 : BitVec 7) ++ f.imm ++ encodeSrc f.c ++ encodeSrc f.b ++ encodeSrc f.a ++ f.q ++ encodeSpec f.dst
      ++ header f.guard 4 opc
  | .sys opc f => (0 : BitVec 1) ++ f.var ++ f.imm ++ encodeSrc f.b ++ encodeSrc f.a ++ (0 : BitVec 4) ++ encodeSpec f.dst
      ++ header f.guard 5 opc
  | .tw opc f => (0 : BitVec 16) ++ f.imm ++ bbit f.ordered ++ f.sm1 ++ encodeSrc f.a ++ (0 : BitVec 14) ++ header f.guard 6 opc

/-- The 96 bits of an instruction; an event has none. -/
def encode (i : Instr) : Option (BitVec 96) := i.form.map encodeForm

/-! ### Bytes (02 R35) -/

/-- Little-endian: the first byte is the least significant. -/
def leNat : List Byte → Nat
  | [] => 0
  | b :: r => b.toNat + 256 * leNat r

/-- The low `n` bytes of a number, low byte first. -/
def leBytes : Nat → Nat → List Byte
  | 0, _ => []
  | n + 1, w => BitVec.ofNat 8 w :: leBytes n (w / 256)

/-- Decoding of the twelve bytes of a slot. -/
def decodeBytes (bs : List Byte) : Decoded := decode (BitVec.ofNat 96 (leNat (bs.take 12)))

/-- The instruction that the decoder reads from bits numbered as opcode_table.json numbers them. Every instruction is 96
bits, stored little-endian, so the table's numbering is the slot's own. -/
def decodeTableWord (nbits w : Nat) : Option Instr :=
  match decodeBytes (leBytes 12 (w % 2 ^ nbits)) with
  | .instr i => some i
  | .illegal _ => none

/-! ### The fetch line (02 R36 to R38) -/

/-- Parity of the one bits of the low `n` bits: true when odd. -/
def oddParity : Nat → Nat → Bool
  | 0, _ => false
  | n + 1, w => (w % 2 == 1) != oddParity n (w / 2)

/-- The bits of slot k of a line given as a little-endian number of 512 bits. -/
def lineSlot (line k : Nat) : BitVec 96 := BitVec.ofNat 96 (line >>> (96 * k))

def lineWord (line : Nat) : Nat := line >>> 480 % 2 ^ 32

/-- All six parities of a line hold (02 R37). -/
def lineParityOk (line : Nat) : Bool :=
  let lw := lineWord line
  ((List.range 5).all fun k => oddParity 96 (line >>> (96 * k)) == (lw / 2 ^ (5 + k) % 2 == 1))
    && oddParity 31 lw == (lw / 2 ^ 31 % 2 == 1)

/-- Line word bits [30:15] are zero (02 R38). -/
def lineWordOk (line : Nat) : Bool := lineWord line / 2 ^ 15 % 2 ^ 16 == 0

/-- TGTMASK bit k of a line (02 R36). -/
def lineTarget (line k : Nat) : Bool := lineWord line / 2 ^ k % 2 == 1

/-- A line holding an instruction in slot 0, nop in slots 1 to 4 and the line word that R36 and R37 give it. DEDUCED, log [5]. -/
def lineOf (w : Nat) : Nat :=
  let lw := (if oddParity 96 w then 2 ^ 5 else 0) + 1
  let lw := lw + (if oddParity 31 lw then 2 ^ 31 else 0)
  w % 2 ^ 96 + 2 ^ 240 * 2 ^ 240 * lw

end Sys2Proof
end

