-- ==== Sys2Proof/Machine/State.lean ====
section
/-! DEFINITION. Machine/State.lean: the state of the package as plain data, the faults, the refusals, and the state after
reset. Tables (`SMap`) list only the entries that differ from the default named beside them. -/

namespace Sys2Proof.Machine

/-- Memory: (address, byte) pairs; an unlisted address reads 0 (log [4], DESIGN CHOICE). -/
abbrev Memory := List Host.Cell

/-! ### What a group holds (01 R29) -/

/-- State of a carry slot-lane (13 R290). -/
inductive CarrySt | empty | full | void
deriving DecidableEq, Repr

/-- A carry slot-lane: value, tag, state (13 R290). -/
structure Slot where
  val : Word := 0
  tag : BitVec 16 := 0
  st : CarrySt := .empty
deriving DecidableEq, Repr

/-- The loop that a launcher runs (13 R302, R303). -/
structure Loop where
  n : Nat
  s : Nat
  ordered : Bool
  /-- next iteration to launch -/
  next : Nat
  /-- break iteration b; none is −1 -/
  brk : Option Nat
  /-- yield-table offset in the constant segment -/
  table : Nat
  /-- PC of the slot after `twill` -/
  body : Word
  /-- context indices of live iteration groups, in iteration order -/
  live : List Nat
  /-- places kept for the loop (R287) -/
  places : List Nat
  /-- iterations whose stage releases are done: (iteration, stages released) -/
  released : SMap Nat
deriving DecidableEq, Repr

/-- A carry window, with the launcher's current turn (13 R290, R297). `turn = none` is turn −1. -/
structure Window where
  slots : SMap Slot := []
  turn : Option Nat := none
  /-- a loop has ended since the last `cset` or `twill` (R295) -/
  ended : Bool := false
  loop : Option Loop := none
  /-- the loop that ended last, whose fields the window record keeps (R302) -/
  last : Option Loop := none
  /-- `twill` waits for its places (R287) -/
  wait : Bool := false
deriving DecidableEq, Repr

/-- What makes a group an iteration group (13 R285). -/
structure Iter where
  launcher : Nat
  i : Nat
  k : Nat
  cancelled : Bool := false
  /-- waiting for the predecessor's stage release (ordered loop, R299) -/
  waitRel : Bool := false
deriving DecidableEq, Repr

/-- One path of a group: an entry of the divergence stack (11 R264), with what holds it back. -/
structure Path where
  pc : Word
  mask : Mask
  rcv : Word
  /-- reason under which the path is stalled, 0 when it is not (22 R426) -/
  stall : Nat := 0
  /-- while the path sleeps, one more than the cycles, the present one included, in which it does not issue (11 R277) -/
  sleep : Nat := 0
  /-- one-shot suppression of check 5 at this PC (22 R421) -/
  sup : Option Word := none
  /-- in a save area: the path that trapped (20 R390, R396) -/
  trapped : Bool := false
  /-- the instruction at its PC has stalled (22 R421) -/
  tried : Bool := false
deriving DecidableEq, Repr

/-- A trap record (20 R388). -/
structure TrapRec where
  kind : Nat
  cause : Nat := 0
  batch : Bool := false
  engine : Bool := false
  nested : Bool := false
  count : Nat := 1
  ctx : Nat := 0
  detail : DWord := 0
  mask : Mask := 0
  pc : Word := 0
  world : BitVec 16 := 0
  region : BitVec 16 := 0
  /-- MODEL'S OWN: the copy command of the group that goes on when its handler returns (20 R396, R401; log [41]) -/
  cmd : Option Nat := none
deriving DecidableEq, Repr

/-- Counter classes (09 R204). -/
inductive Cls | ld | st | sp | cp | mx | none
deriving DecidableEq, Repr

/-- Where an access goes. -/
inductive Where
  | dev       -- an object of the partition: BUF 0 to 11
  | scr       -- scratchpad: BUF 12
  | acc       -- accumulator memory: BUF 13
  | stash     -- stash window: BUF 14
deriving DecidableEq, Repr

/-- One lane's access of an operation in flight. -/
structure Acc where
  lane : Nat
  /-- object id and offset (dev, stash) -/
  obj : Nat := 0
  off : Nat := 0
  /-- place: HBM or fabric byte address, scratchpad or accumulator byte address -/
  addr : Nat := 0
  remote : Bool := false
  val : Nat := 0
  exp : Nat := 0
  clipped : Bool := false
  /-- its extent was not there when the access was translated: a soft load gives 0 (09 R201), a store parks (R202) -/
  absent : Bool := false
  /-- a store or atomic that waits at the memory side for its extent, or a load that waits for the group's own parked store (09 R202) -/
  held : Bool := false
  /-- of a parked write-back: the bytes that carry poison, by bit (20 R409) -/
  pois : Nat := 0
deriving DecidableEq, Repr

/-- What a lane receives. -/
structure LaneRes where
  lane : Nat
  val : Nat
  present : Bool
  poison : Bool
deriving DecidableEq, Repr

inductive OpKind | load | store | amo | rel | pbinit | pbarr | accld | smap | swb | sdrop | pref
deriving DecidableEq, Repr

/-- An operation in flight (09 R205). `bytes` is the access size. `dst` is the first destination register. -/
structure Op where
  id : Nat
  cls : Cls
  kind : OpKind
  place : Where
  accs : List Acc
  bytes : Nat
  dst : Opnd := .v 0
  signed : Bool := false
  flagp : Nat := 15
  flagMask : Mask := 0
  ord : Nat := 0
  scope : Nat := 0
  cache : Nat := 0
  amo : Nat := 0
  ret : Bool := false
  uniform : Bool := false
  /-- a load under soft residency (09 R201) -/
  soft : Bool := false
  parked : Bool := false
  done : Bool := false
  pc : Word := 0
  /-- the world that the group was in at issue -/
  world : Nat := 0
  /-- what the accesses that have been performed gave, while others wait for their extents (17 R350) -/
  got : List LaneRes := []
  /-- operations that a uniform load waits for because of a `ufence` before it (10 R250) -/
  after : List Nat := []
  /-- MODEL'S OWN: the highest stamp of a copy or matrix command that was outstanding at its issue (log [82]) -/
  stamp : Nat := 0
  /-- the aperture has refused it: it is not performed before its instruction is tried again (17 R349) -/
  refused : Bool := false
deriving DecidableEq, Repr

/-- A copy command (08 R172): its words, options, the two records as read at issue, and progress. -/
structure CopyCmd where
  id : Nat
  op : Nat
  words : List Word
  opt : BitVec 19
  recM : List Word
  recX : List Word
  /-- row of the destination, and with `col` the element, at which it goes on -/
  row : Nat := 0
  col : Nat := 0
  /-- the indices of a `cpgat` that have been read, each once, and whether they were poisoned (08 R177) -/
  idx : List (Nat × Bool) := []
  /-- source rows of a `cpgat` that the engine has checked, and the count and trace units that have acted (22 R419, R422) -/
  checked : Nat := 0
  seen : List Nat := []
  faulted : Bool := false
  /-- it has met poison: the DETAIL of its fault (08 R183) -/
  pois : Option DWord := none
  /-- its place in the order in which the device's outstanding copy and matrix commands were issued -/
  stamp : Nat := 0
  /-- what it has read for several of its pieces, by element (row × 4096 + column) of the box: the codes of a plane tile, and
  the source elements of the groups that a transposed MX tile has met (08 R184) -/
  kept : SMap (Option (Nat × Option DWord)) := []
  /-- planes of a plane tile that have been moved (08 R184) -/
  planes : Nat := 0
  /-- the box row at which it goes on within a unit, after a watchpoint hit at that row (22 R422) -/
  cut : Nat := 0
  /-- a deferred command that is replayed after a commit: its group goes on once it has completed (18 R369, R370) -/
  late : Bool := false
  pc : Word := 0
  mask : Mask := 0
  /-- the bytes of its destination: (object, offset, length); object 2^24 stands for the scratchpad -/
  owns : List (Nat × Nat × Nat) := []
deriving DecidableEq, Repr

/-- A deferred effect of a world (18 R369). -/
inductive Effect
  | store (o : Op)
  | copy (c : CopyCmd)
  | spawn (rec : List Word)
  | cont (rec : List Word)
deriving DecidableEq, Repr

/-- A matrix command in the ring (08 R151). -/
structure MCmd where
  id : Nat
  dual : Bool
  fw : Word
  words : List Word
  ctx : Nat
  running : Bool := false
  /-- stopped between two K-steps by a pre-emption (08 R184) -/
  paused : Bool := false
  /-- K-steps applied -/
  step : Nat := 0
  /-- cycles spent on the running step -/
  cyc : Nat := 0
  /-- scratchpad bytes that it has read for several chunks: address, bytes (08 R170) -/
  kept : List (Nat × List Byte) := []
  /-- of those bytes, the ones that carried poison -/
  keptPois : List Nat := []
  /-- it has read poisoned operand bytes (20 R409) -/
  pois : Bool := false
  /-- its place in the order in which the device's outstanding copy and matrix commands were issued -/
  stamp : Nat := 0
  pc : Word := 0
  mask : Mask := 0
deriving DecidableEq, Repr

/-- A marker in `qm` or `qx`: its word and the commands it waits for (08 R168). -/
structure Marker where
  val : Word
  waits : List Nat
deriving DecidableEq, Repr

/-- A held engine fault (08 R183): class and record. -/
structure Held where
  cls : Cls
  trec : TrapRec
  /-- the copy command that resumes after the handler, if any -/
  cmd : Option Nat := none
deriving DecidableEq, Repr

/-- State of a stash line (09 R198). -/
inductive LineSt | unfilled | clean | dirty
deriving DecidableEq, Repr

/-- A stash window (09 R198, R215). -/
structure Stash where
  word : Word
  recn : Nat
  recw : List Word
  m : Nat
  lines : SMap LineSt := []
deriving DecidableEq, Repr

/-- A `reorder` that waits for the others: the PC slot that issued it, its key and KILL mark, and its mask (11 R278). -/
structure Meet where
  slot : Nat
  key : Opnd
  kill : Bool
  mask : Word
deriving DecidableEq, Repr

/-- What a group is doing. -/
inductive GStat
  | run
  | suspended      -- launcher at `twill`
  | faultPark      -- parked on a fault (20 R399)
  | copyPark       -- world copy after `wdone` (18 R371)
  | idle           -- pool worker without a task
  | retired
deriving DecidableEq, Repr

/-- A group (01 R29). The default is the absent group. -/
structure Group where
  present : Bool := false
  /-- its context is saved and it holds no place (20 R403) -/
  saved : Bool := false
  part : Nat := 0
  blk : Nat := 0
  launch : Nat := 0
  code : Nat := 0
  space : Nat := 0
  gidx : Nat := 0
  width : Nat := 8
  core : Nat := 0
  cpart : Nat := 0
  /-- index in the core partition, 0 to 23 (22 R433) -/
  gslot : Nat := 0
  peak : Nat := 0
  checked : Bool := false
  /-- HANDLER entry, 0 when there is none (20 R389) -/
  handler : Word := 0
  status : GStat := .run
  /-- one more than the cycle in which it issued last, 0 before it has issued -/
  lastIssue : Nat := 0
  /-- cycle of the last instruction that resets the group's age (11 R262) -/
  lastBeat : Nat := 0
  /-- the instruction that issues, or issued last, executes on the uniform front (11 R263) -/
  front : Bool := false
  /-- that instruction leaves the group's age (11 R262) -/
  quiet : Bool := false
  /-- a spill or fill of the divergence stack holds the group until the next cycle has passed (11 R266) -/
  moving : Bool := false
  lastSlot : Nat := 0
  stack : List Path := []
  saves : List (List Path) := []
  recs : List TrapRec := []
  v : SMap Word := []
  mapped : BitVec 256 := 0
  dkill : BitVec 256 := 0
  vpois : BitVec 256 := 0
  s : SMap Word := []
  spois : BitVec 96 := 0
  p : SMap Mask := []
  sp : BitVec 8 := 0
  win : Option Window := none
  it : Option Iter := none
  qm : List Word := []
  qx : List Word := []
  qk : List Word := []
  mkM : List Marker := []
  mkX : List Marker := []
  staged : List Word := []
  cLD : BitVec 6 := 0
  cST : BitVec 6 := 0
  cSP : BitVec 6 := 0
  cCP : BitVec 6 := 0
  cMX : BitVec 6 := 0
  ops : List Op := []
  copies : List CopyCmd := []
  held : List Held := []
  /-- region stack, top first -/
  regions : List (BitVec 16) := []
  exited : Mask := 0
  helper : Mask := 0
  world : Nat := 0
  depth : Nat := 0
  copy : Nat := 0
  fork : Option Nat := none
  stalls : SMap Word := []
  issued : Word := 0
  key : SMap DWord := []
  ctr : SMap DWord := []
  setting : Word := 4
  stash : Option Stash := none
  lastSC : DWord := 0
  /-- operations that uniform loads wait for from now on (10 R250) -/
  ufence : List Nat := []
  tid : SMap Word := []
  bsyncs : Nat := 0
  atBsync : Bool := false
  reorders : Nat := 0
  /-- a `reorder` that waits -/
  atReorder : Option Meet := none
  /-- the PC slot and the record of an instruction parked on a translation fault (20 R399) -/
  parkRec : Option (Nat × TrapRec) := none
  /-- effects of a committed log that are still to be performed (18 R370) -/
  replay : List Effect := []
  /-- paired width-128 member index (23 R447), none otherwise -/
  pair : Option Nat := none
  /-- declared narrow width 4 (23 R447) -/
  narrow : Bool := false
deriving DecidableEq, Repr

/-! ### Blocks and launches -/

/-- A scratchpad space: the allocation, tiles and ring of one part of a block or of one world copy (08 R152, 18 R362). Its
bytes stand under keys from `base` on, one range for each space, so that a restore on another core moves nothing. -/
structure Space where
  present : Bool := false
  blk : Nat := 0
  core : Nat := 0
  base : Nat := 0
  size : Nat := 0
  /-- number of accumulator tiles -/
  acc : Nat := 0
  /-- bytes that the space takes of its core's scratchpad: allocation, ring and shadow (11 R257) -/
  total : Nat := 0
  ring : List MCmd := []
  /-- race shadows by word: 1024 + slot × 8 + gen when a group wrote it (22 R430), 0 untracked -/
  shadow : SMap Nat := []
deriving DecidableEq, Repr

/-- A task that a worker runs (15 R324, R338). -/
structure Task where
  words : List Word
  cont : Option (List Word) := none
deriving DecidableEq, Repr

/-- A block runs, is parked for residency (09 R201), halts for a save, is saved (20 R403), or retires after a kill (20 R407). -/
inductive BStat | running | parked | halting | saved | retiring
deriving DecidableEq, Repr

structure Block where
  present : Bool := false
  launch : Nat := 0
  part : Nat := 0
  index : Nat := 0
  x : Nat := 0
  y : Nat := 0
  z : Nat := 0
  gang : Nat := 0
  groups : List Nat := []
  /-- spaces of the parts, by part number -/
  spaces : List Nat := []
  status : BStat := .running
  /-- (object, first page) of missing extents (09 R201) -/
  missing : List (Nat × Nat) := []
  gen : Nat := 0
  /-- phase barriers initialised: (space, byte) (20 R406) -/
  pbars : List (Nat × Nat) := []
  kind19 : Nat := 0
  preempts : Nat := 0
  /-- count of part 0's core clock when the block was last placed, and cycles that it ran before (22 R429) -/
  start : Nat := 0
  ran : Nat := 0
  races : Nat := 0
  killed : Bool := false
  /-- a saved block that RESTORE has put in the ready set (11 R260) -/
  restoring : Bool := false
  /-- index in its pool of a worker (15 R322) -/
  worker : Option Nat := none
  task : Option Task := none
  ngroups : Nat := 0
  issuedSum : DWord := 0
  stallSum : SMap Word := []
  lastRegions : List (BitVec 16) := []
deriving DecidableEq, Repr

/-- The Tartan section of a launch (15 R311) and its scoreboard on chip (R316). -/
structure Tartan where
  sbh : DWord
  order : Nat
  vecs : List (Int × Int × Int)
  /-- indices of the blocks whose bit is set -/
  score : List Nat := []
deriving DecidableEq, Repr

/-- A retirement of a task in progress (15 R328): what it has still to enqueue or to count down. -/
structure Retire where
  /-- context number of the worker, 0xFFFFFFFF where the device takes the record itself (15 R327) -/
  ctx : Nat
  arg : DWord
  world : Nat
  region : Nat
  /-- the continuation set by `tcont` -/
  k : Option (List Word)
  /-- the join cell to count down, 0 when there is none or it is done -/
  succ : DWord
  /-- the record that a join cell's CONT names -/
  cont : Option (List Word) := none
deriving DecidableEq, Repr

/-- A task pool (15 R322, R323). -/
structure Pool where
  ring : DWord
  faults : DWord
  wcount : List Nat
  /-- (scratch, regs, acc) by width code -/
  res : List (Nat × Nat × Nat)
  head : List Nat
  tail : List Nat
  logc : Nat
  logf : Nat
  outst : Nat
  fcount : Nat
  /-- indices taken out of order in a sub-ring: (priority, index) -/
  taken : List (Nat × Nat) := []
  /-- cycle since which the head of each sub-ring has stood there -/
  since : List Nat := [0, 0, 0, 0]
  /-- the head record of a sub-ring has aged (R326) -/
  aged : List Bool := [false, false, false, false]
  /-- workers placed: (width code, block) -/
  workers : List (Nat × Nat) := []
  /-- retirements that stall on a full sub-ring (15 R332) -/
  retiring : List Retire := []
deriving DecidableEq, Repr

inductive LStat | absent | queued | active | placed | ended
deriving DecidableEq, Repr

structure Launch where
  st : LStat := .absent
  seq : Word := 0
  part : Nat := 0
  queue : Nat := 0
  code : Nat := 0
  kind : Nat := 0
  kernel : Nat := 0
  groups : Nat := 0
  gang : Nat := 0
  x : Nat := 0
  y : Nat := 0
  z : Nat := 0
  args : SMap Word := []
  /-- handle of the ARGS image -/
  argsAt : DWord := 0
  handler : Word := 0
  checked : Bool := false
  race : Nat := 0
  seed : DWord := 0
  recbase : DWord := 0
  status : DWord := 0
  next : Nat := 0
  placed : List Nat := []
  retired : Nat := 0
  faulted : Bool := false
  ringFull : Bool := false
  tart : Option Tartan := none
  pool : Option Pool := none
  /-- gang reservation: cluster, cores reserved by part, start cycle (11 R258) -/
  resv : Option (Nat × List Nat × Nat) := none
  aged : Bool := false
  /-- reservation of a saved gang: its number, cluster, cores reserved by part, start cycle (11 R258) -/
  back : Option (Nat × Nat × List Nat × Nat) := none
  backAged : Bool := false
deriving DecidableEq, Repr

/-! ### Code objects (23 R444) -/

structure Kernel where
  entry : Nat
  width : Nat
  regs : Nat
  scratch : Nat
  acc : Nat
  /-- records named by `.object`: (record number, its 8 words) (23 R443) -/
  objects : List (Nat × List Word) := []
deriving DecidableEq, Repr

structure Code where
  present : Bool := false
  part : Nat := 0
  /-- text bytes, hot lines first (23 R454) -/
  text : Memory := []
  hot : Nat := 0
  size : Nat := 0
  /-- home-aperture object of the cold text -/
  coldObj : Nat := 0
  /-- constant segment -/
  seg : Memory := []
  segSize : Nat := 0
  /-- k0 to k127 -/
  k : SMap Word := []
  kernels : List Kernel := []
  tables : List (List Nat) := []
  /-- declared Ulbel width where the text was translated (23 R447) -/
  ulbel : Option Nat := none
deriving DecidableEq, Repr

/-! ### Worlds (18) -/

/-- One copy of a fork. `world` is the tag: home partition × 4096 + id (18 R364). -/
structure Copy where
  ctx : Nat
  world : Nat
  verdict : Option Word := none
  imposed : Option Word := none
  log : List Effect := []
deriving DecidableEq, Repr

structure Fork where
  present : Bool := false
  part : Nat := 0
  blk : Nat := 0
  /-- tag, depth, copy index and fork of the parent; tag 0 outside any world -/
  pWorld : Nat := 0
  pDepth : Nat := 0
  pCopy : Nat := 0
  pFork : Option Nat := none
  copies : List Copy := []
deriving DecidableEq, Repr

/-- A view line: 64 bytes of line `line` as the world tagged `world` sees it (18 R365). -/
structure View where
  line : Nat
  world : Nat
  remote : Bool
  bytes : List Byte
  /-- the view carries poison (20 R409) -/
  pois : Bool := false
deriving DecidableEq, Repr

/-! ### The device partition -/

inductive ExtSt | resident | leaving | away | returning
deriving DecidableEq, Repr

/-- An extent descriptor as the device holds it (17 R346). -/
structure Ext where
  st : ExtSt
  first : Nat
  nm1 : Nat
  loc : Nat
  /-- a return is wanted once the extent is AWAY (09 R214) -/
  want : Bool := false
deriving DecidableEq, Repr

/-- An object table entry as the device holds it (17 R345). -/
structure Obj where
  live : Bool := false
  host : Bool := false
  perm : Nat := 0
  endpoint : Nat := 0
  size : Nat := 0
  xlist : Nat := 0
  exts : List Ext := []
deriving DecidableEq, Repr

/-- A binding-table entry (10 R223). -/
structure Binding where
  obj : Nat
  base : Nat
  len : Nat
  guard : DWord
deriving DecidableEq, Repr

/-- A watchpoint unit (22 R417). -/
structure WatchUnit where
  action : Nat := 0
  kinds : Nat := 0
  rfilt : BitVec 16 := 0
  obj : Nat := 0
  lo : Nat := 0
  hi : Nat := 0
  hits : Word := 0
deriving DecidableEq, Repr

/-- A command queue (23 R437, R438). -/
structure CmdQ where
  base : Nat := 0
  log : Nat := 0
  pri : Nat := 0
  gen : Nat := 0
  head : Nat := 0
  /-- the endpoint that has written the ring, once one has (23 R438) -/
  writer : Option Nat := none
  /-- launches of this queue not yet ended, oldest first -/
  launches : List Nat := []
  /-- a TAIL too far ahead, until TAIL is written again (23 R438) -/
  overTail : Option Nat := none
deriving DecidableEq, Repr

/-- A window granted to the management controller (17 R357). -/
structure GrantWin where
  obj : Nat
  perm : Nat
  off : Nat
  len : Nat
deriving DecidableEq, Repr

structure Part where
  otbase : Nat := 0
  otlog : Nat := 0
  frbase : Nat := 0
  frlog : Nat := 0
  ctxbase : Nat := 0
  ctxcount : Nat := 0
  ovbase : Nat := 0
  ovsize : Nat := 0
  queues : SMap CmdQ := []
  /-- quota by core partition, default 4095 (18 R364) -/
  quota : SMap Nat := []
  /-- rate ceiling by port, default the fused one -/
  rate : SMap Nat := []
  objs : SMap Obj := []
  binds : List Binding := []
  watches : SMap WatchUnit := []
  frTail : Word := 0
  /-- postings waiting on chip: each a batch of records and the group parked on it -/
  posts : List (Option Nat × List TrapRec) := []
  /-- parked requests in acceptance order: (context, operation) -/
  parked : List (Nat × Nat) := []
  /-- writes of the device's own agents that wait for an extent: object, offset, bytes, oldest first -/
  heldWrites : List (Nat × Nat × List Byte) := []
  grants : List GrantWin := []
  nextSeq : Word := 1
  /-- the queue served last, by priority (11 R255) -/
  lastServed : SMap Nat := []
  killed : Word := 0
  /-- world tags in use (18 R364) -/
  tags : List Nat := []
deriving DecidableEq, Repr

/-! ### Cores, clusters, the device -/

structure Core where
  /-- SC clock (10 R229) -/
  sc : DWord := 0
  /-- cycles for which its clocks stood still; its cycle counter (07 R143) is `now` without them -/
  stopped : Nat := 0
deriving DecidableEq, Repr

/-- An accumulator tile (08 R154, R158, R165). -/
structure Tile where
  ver : BitVec 16 := 0
  ovf : Bool := false
  int : Bool := false
deriving DecidableEq, Repr

/-- A trace packet (22 R433): its time, the GID that orders packets of one cycle, TYPE, subtype and the bytes after the
header. The DT of types 1 to 5, LONGDELTA and the interval SYNC are formed when the packet leaves the buffer. -/
structure Pkt where
  time : Nat
  gid : Nat
  typ : Nat
  sub : Nat
  body : List Byte
deriving DecidableEq, Repr

structure Cluster where
  on : Bool := false
  /-- packets, oldest first -/
  buf : List Pkt := []
  /-- packets that found the buffer full and are not yet reported by a LOSS (22 R435) -/
  dropped : Nat := 0
  /-- time of the last timed packet, and of the last SYNC, before the first packet of the buffer -/
  lastTime : Nat := 0
  lastSync : Nat := 0
  gated : Bool := false
  lost : Nat := 0
deriving DecidableEq, Repr

/-- An L1 copy of a line of device memory (10 R228). -/
structure L1Line where
  core : Nat
  line : Nat
  bytes : List Byte
  /-- its retention priority: 0 stream, 1 normal, 2 keep (09 R200) -/
  rank : Nat := 1
deriving DecidableEq, Repr

/-- A cached text line: it has passed its six parity checks (02 R37). -/
structure ILine where
  core : Nat
  code : Nat
  line : Nat
  bits : Nat
deriving DecidableEq, Repr

/-- SUMMARY's STATE (20 R410), and off (23 R452). -/
inductive DevSt | running | recovery | thermal | powerFault | partChange | off
deriving DecidableEq, Repr

/-- Which occurrence the machine's surroundings bring next. -/
inductive Occ
  | issue (ctx slot : Nat)
  | event (i : Instr)
deriving DecidableEq, Repr

structure State where
  /-- MODEL'S OWN: occurrences to come, first first (log [1], DESIGN CHOICE) -/
  agenda : List Occ := []
  /-- MODEL'S OWN: the group and slot that issue, the text line word and slot size are read through them -/
  cur : Nat × Nat := (0, 0)
  /-- MODEL'S OWN: free values drawn (log [2], DESIGN CHOICE) -/
  fresh : Nat := 0
  /-- device cycles since reset, the time of ages and traces -/
  now : Nat := 0
  npart : Nat := 1
  dev : DevSt := .running
  halted : List Nat := []
  /-- the firmware image that the device holds (17 R358) -/
  image : Option FwImage := none
  svn : Nat := 0
  minSvn : Nat := 0
  fwDigest : List Byte := []
  corrected : DWord := 0
  poisonUnits : DWord := 0
  khz : Nat := 1750000
  power : PowerState := .run
  hbm : Memory := []
  remote : Memory := []
  scr : Memory := []
  acc : Memory := []
  l1 : List L1Line := []
  icache : List ILine := []
  sc : SMap DWord := []
  poisLines : List Nat := []
  poisScr : List Nat := []
  poisAcc : List Nat := []
  cores : SMap Core := []
  tiles : SMap Tile := []
  clusters : SMap Cluster := []
  parts : SMap Part := []
  groups : SMap Group := []
  blocks : SMap Block := []
  spaces : SMap Space := []
  launches : SMap Launch := []
  codes : SMap Code := []
  forks : SMap Fork := []
  views : List View := []
  /-- committed worlds and the tag they link into, 0 for memory (18 R373) -/
  links : List (Nat × Nat) := []
  /-- dropped worlds whose lines are not yet scrubbed -/
  dropped : List Nat := []
  /-- saved partitions moved away by MIGRATE: (partition, endpoint) -/
  migrated : List (Nat × Nat) := []
  /-- the last response of the management endpoint -/
  reply : List Byte := []
  /-- status of the last management request (23 R440) -/
  replyCode : Nat := 0
deriving DecidableEq, Repr

/-- Reasons for which the machine stops. -/
inductive Fault
  /-- Raised by the step when the supply is off (23 R452: the device is off). Safe: nothing runs. -/
  | supplyOff
  /-- Raised by REMOTE_STORE when a second agent writes a command ring (23 R438: the outcome is undefined). Safe: the model
  stops where the manual gives no effect. -/
  | twoRingWriters
deriving DecidableEq, Repr

/-- Reasons for which the model gives no meaning. -/
inductive Refusal
  /-- Raised by `exec` for an instruction that has no meaning yet. Safe: the model stops. -/
  | notModelled (mnemonic : String)
deriving DecidableEq, Repr

/-- The machine right after reset: no launch, no group, no code, nothing in memory (log [4], DESIGN CHOICE, [13]). -/
def State.reset : State := {}

end Sys2Proof.Machine
end

