-- ==== Sys2Proof/Machine/Ops.lean ====
section
/-! DEFINITION. Machine/Ops.lean: the named operations over the state: tables, paths, masks, register names, the trace, the
fault ring, taking a trap (20 R387 to R400, R407) and returning from one. -/

namespace Sys2Proof.Machine

/-! ### Entries of the tables -/

def State.group (s : State) (n : Nat) : Group := get {} s.groups n
def State.setGroup (s : State) (n : Nat) (g : Group) : State := { s with groups := put {} s.groups n g }
def State.block (s : State) (n : Nat) : Block := get {} s.blocks n
def State.setBlock (s : State) (n : Nat) (b : Block) : State := { s with blocks := put {} s.blocks n b }
def State.space (s : State) (n : Nat) : Space := get {} s.spaces n
def State.setSpace (s : State) (n : Nat) (x : Space) : State := { s with spaces := put {} s.spaces n x }
def State.launch (s : State) (n : Nat) : Launch := get {} s.launches n
def State.setLaunch (s : State) (n : Nat) (l : Launch) : State := { s with launches := put {} s.launches n l }
def State.code (s : State) (n : Nat) : Code := get {} s.codes n
def State.setCode (s : State) (n : Nat) (c : Code) : State := { s with codes := put {} s.codes n c }
def State.part (s : State) (n : Nat) : Part := get {} s.parts n
def State.setPart (s : State) (n : Nat) (p : Part) : State := { s with parts := put {} s.parts n p }
def State.core (s : State) (n : Nat) : Core := get {} s.cores n
def State.setCore (s : State) (n : Nat) (c : Core) : State := { s with cores := put {} s.cores n c }
def State.tile (s : State) (n : Nat) : Tile := get {} s.tiles n
def State.setTile (s : State) (n : Nat) (t : Tile) : State := { s with tiles := put {} s.tiles n t }
def State.cluster (s : State) (n : Nat) : Cluster := get {} s.clusters n
def State.setCluster (s : State) (n : Nat) (c : Cluster) : State := { s with clusters := put {} s.clusters n c }
def State.fork (s : State) (n : Nat) : Fork := get {} s.forks n
def State.setFork (s : State) (n : Nat) (f : Fork) : State := { s with forks := put {} s.forks n f }

/-- The cycle counter of a core, which counts from reset (07 R143). -/
def State.coreCycles (s : State) (n : Nat) : DWord := BitVec.ofNat 64 (s.now - (s.core n).stopped)

/-- The cycle count of a cluster, which is that of its cores (22 R433, R434). DEDUCED, log [110]. -/
def State.clusterCycles (s : State) (c : Nat) : Nat := (s.coreCycles (8 * c)).toNat
/-- Cycles that a block has run, on the clock of the core of its part 0, without those in which it was saved (22 R429). -/
def State.blockCycles (s : State) (k : Block) : Nat := k.ran + ((s.coreCycles (s.space (k.spaces.headD 0)).core).toNat - k.start)

/-- The context index of the issuing group, its PC slot, and the group. -/
def State.ctx (s : State) : Nat := s.cur.1
def State.slot (s : State) : Nat := s.cur.2
def State.g (s : State) : Group := s.group s.ctx
/-- Write the issuing group. -/
def State.setG (s : State) (g : Group) : State := s.setGroup s.ctx g

/-- The keys of the present groups that satisfy `f`. -/
def State.groupsWhere (s : State) (f : Group → Bool) : List Nat :=
  (s.groups.filter fun e => e.2.present && f e.2).map (·.1)

/-- A cluster that the state IDLE gates: no resident block, no undrained trace (23 R451). -/
def State.idleCluster (s : State) (c : Nat) : Bool :=
  (s.cluster c).buf.isEmpty && !s.spaces.any fun e => e.2.present && e.2.core / 8 == c && (s.block e.2.blk).status != .saved

/-- The clocks of a core run: its die is not halted and its cluster is not gated (17 R357, 22 R435, 23 R451). -/
def State.clocked (s : State) (core : Nat) : Bool :=
  !s.halted.contains (core / 96) && !(s.cluster (core / 8)).gated && !(s.power == .idle && s.idleCluster (core / 8)) && s.dev != .off

/-! ### Paths and program counters (01 R14, 11 R264 to R266) -/

def noRcv : Word := 0xFFFFFFFF
/-- No path: what an empty slot reads as. -/
def noPath : Path := { pc := noRcv, mask := 0, rcv := noRcv }

def lineOfPc (pc : Word) : Nat := pc.toNat / 8
def slotOfPc (pc : Word) : Nat := pc.toNat % 8
def pcOf (line slot : Nat) : Word := BitVec.ofNat 32 (line * 8 + slot)
/-- The slot after `pc` (02 R39). -/
def pcNext (pc : Word) : Word := if slotOfPc pc < 4 then pc + 1 else pcOf (lineOfPc pc + 1) 0
/-- The PC of a byte address of slot 0 of a line (02 R58). -/
def pcOfAddr (a : Nat) : Word := pcOf (a / 64) 0

/-- The path in slot 0 or 1: slot 1 holds the entry below the top when the two share an rcv (R264). -/
def pathIn (st : List Path) (slot : Nat) : Option Path :=
  match st, slot with
  | a :: _, 0 => some a
  | a :: b :: _, 1 => if a.rcv == b.rcv then some b else none
  | _, _ => none

/-- Occupied PC slots. -/
def slotsUsed (st : List Path) : Nat :=
  match st with
  | [] => 0
  | [_] => 1
  | a :: b :: _ => if a.rcv == b.rcv then 2 else 1

/-- Spilled entries (R264). -/
def spilled (st : List Path) : Nat := st.length - slotsUsed st

def Group.path (g : Group) (slot : Nat) : Path := (pathIn g.stack slot).getD noPath
def Group.setPath (g : Group) (slot : Nat) (p : Path) : Group := { g with stack := setAt g.stack slot p }

/-- A path that is about to issue the instruction at its own rcv. -/
def atRcv (p : Path) : Bool := p.pc == p.rcv && p.sleep == 0

/-- Removal of entries whose mask is empty and of paths in a slot that stand at their rcv (R266); `n` bounds the removals. -/
def tidy : Nat → List Path → List Path
  | 0, st => st
  | n + 1, st =>
    match st.filter (·.mask != 0) with
    | [] => []
    | [a] => if atRcv a then [] else [a]
    | a :: b :: r =>
      if atRcv a then tidy n (b :: r)
      else if a.rcv == b.rcv && atRcv b then tidy n (a :: r)
      else a :: b :: r

/-- PC slot 1 is occupied or an entry is spilled (01 R21); entries spilled below a handler stay spilled (20 R390). -/
def Group.diverged (g : Group) : Bool := 1 < g.stack.length || g.saves.any (fun st => 0 < spilled st)

/-! ### Lanes (01 R32 to R34) -/

def Group.ended (g : Group) : Mask := g.exited ||| g.helper
/-- Lanes that have neither exited nor become helpers. -/
def Group.liveLanes (g : Group) : Mask := fullMask g.width &&& ~~~g.ended

/-- The lowest-numbered live lane of the quad of lane `l`. -/
def Group.leader (g : Group) (l : Nat) : Option Nat :=
  let q := l / 4 * 4
  [q, q + 1, q + 2, q + 3].find? fun j => bitOf g.liveLanes j

/-- The helpers that stand in a path of mask `m`: those whose leader is in it. -/
def Group.helpersIn (g : Group) (m : Mask) : Mask :=
  maskOf g.width fun l => bitOf g.helper l && (match g.leader l with | some j => bitOf m j | none => false)

/-- Ended lanes are helpers while their quad holds a live lane, and have exited otherwise (R32, R33). -/
def Group.settleHelpers (g : Group) : Group :=
  let e := g.ended
  let h := maskOf g.width fun l => bitOf e l && (let q := l / 4 * 4; [q, q + 1, q + 2, q + 3].any fun j => j < g.width && !bitOf e j)
  { g with helper := h, exited := fullMask g.width &&& e &&& ~~~h }

/-! ### Special values -/

/-- World word of a group: id in [11:0], depth in [13:12] (01 R24). -/
def Group.worldWord (g : Group) : Nat := if g.world == 0 then 0 else g.world % 4096 + g.depth * 4096
def Group.topRegion (g : Group) : BitVec 16 := g.regions.headD 0
/-- SECOND and DEPTH of a kind-19 DETAIL (22 R420). -/
def Group.regionFields (g : Group) : Nat :=
  (if g.regions.length < 2 then 0 else (g.regions.getD 1 0).toNat) * 2 ^ 48 + g.regions.length * 2 ^ 44

/-! ### Names written by operations in flight (09 R206) -/

/-- Registers that `n` names cover from an operand on. -/
def opndSpan (o : Opnd) (n : Nat) : List Opnd :=
  (List.range n).map fun i => match o with
    | .v r => .v (r + BitVec.ofNat 8 i)
    | .s r => .s (r + BitVec.ofNat 7 i)
    | x => x

def regsOf (bytes : Nat) : Nat := if bytes == 16 then 4 else if bytes == 8 then 2 else 1

/-- The names an operation will write at completion. -/
def Op.writes (o : Op) : List Opnd :=
  if o.done then [] else
  (if o.kind == .load || o.kind == .accld || (o.kind == .amo && o.ret) then opndSpan o.dst (regsOf o.bytes) else [])
    ++ (if o.flagp < 15 then [.p (BitVec.ofNat 4 o.flagp)] else [])

def Cls.reason : Cls → Nat
  | .ld => 1 | .st => 2 | .sp => 3 | .cp => 4 | .mx => 5 | .none => 14

/-- An ACQ in flight holds later accesses back (10 R226). DEDUCED, log [61]. -/
def Group.heldBack (g : Group) : Option Nat :=
  (g.ops.find? fun o => !o.done && (o.ord == 1 || o.ord == 3)).map (·.cls.reason)

/-- The stall reason of an operation that will write one of the names, if there is one. -/
def Group.pendingWrite (g : Group) (names : List Opnd) : Option Nat :=
  (g.ops.find? fun o => o.writes.any names.contains).map (·.cls.reason)

/-- Vector names that an operation in flight will write. -/
def Group.pendingV (g : Group) (n : Nat) : Bool :=
  g.ops.any fun o => o.writes.contains (.v (BitVec.ofNat 8 n))

/-! ### Vector names (01 R19 to R22) -/

def bit256 (n : Nat) : BitVec 256 := BitVec.ofNat 256 (2 ^ n)

/-- Free the names of a set: their mappings, values and poison go. DEDUCED, log [17]. DEDUCED, log [18]. -/
def Group.free (g : Group) (ns : BitVec 256) : Group :=
  { g with mapped := g.mapped &&& ~~~ns, dkill := g.dkill &&& ~~~ns, vpois := g.vpois &&& ~~~ns,
           v := g.v.filter fun e => !ns.getLsbD (e.1 / 64) }

/-- The names of a set that no operation in flight will write. DEDUCED, log [18]. -/
def Group.settled (g : Group) (ns : BitVec 256) : BitVec 256 :=
  if ns == 0 then 0 else
  (List.range 256).foldl (fun m n => if ns.getLsbD n && !g.pendingV n then m ||| bit256 n else m) 0

/-- The group stands on a single path: the divergence stack holds one entry, with every lane that has not exited (01 R21), or
none any more. -/
def Group.single (g : Group) : Bool :=
  match g.stack with
  | [] => true
  | [p] => !g.diverged && g.liveLanes &&& ~~~p.mask == 0
  | _ => false

/-- Deferred KILLs take effect once the group stands on a single path (R21), each after the operations in flight that write
the name (09 R206). DEDUCED, log [18]. -/
def Group.flushKills (g : Group) : Group := if !g.single then g else g.free (g.settled g.dkill)

/-- KILL of a set of names: at once on a single path, deferred otherwise. DEDUCED, log [18]. -/
def Group.kill (g : Group) (ns : BitVec 256) : Group := { g with dkill := g.dkill ||| ns }.flushKills

def popcount256 (m : BitVec 256) : Nat := (List.range 256).foldl (fun n i => if m.getLsbD i then n + 1 else n) 0

/-- Names that operations in flight will map (09 R206). They count toward the budget from their issue on. DESIGN CHOICE, log [29]. -/
def Group.promised (g : Group) : BitVec 256 :=
  g.ops.foldl (fun m o => o.writes.foldl (fun m x => match x with | .v n => m ||| bit256 n.toNat | _ => m) m) 0

/-- The live count that remains after the KILLs `ks` and with the names `ws` mapped (R20, 04 R83). -/
def Group.needs (g : Group) (ks ws : BitVec 256) : Nat :=
  popcount256 ((g.kill ks).mapped ||| g.promised ||| ws)

/-! ### Reads and writes of registers -/

def Group.rdV (g : Group) (n l : Nat) : Word := get 0 g.v (n * 64 + l)
def Group.rdS (g : Group) (n : Nat) : Word := get 0 g.s n
def Group.pmask (g : Group) (n : Nat) : Mask := if n == 15 then ~~~(0 : Mask) else get 0 g.p n
/-- Stage predicate k (01 R25). -/
def Group.stage (g : Group) (k : Nat) : Bool := match g.it with | some it => it.k == k | none => false

/-- Write lane `l` of a vector name; the first write maps it, and a write clears poison (R19, 20 R409). DEDUCED, log [17]. -/
def Group.wrV (g : Group) (n l : Nat) (x : Word) : Group :=
  { g with v := put 0 g.v (n * 64 + l) x, mapped := g.mapped ||| bit256 n, vpois := g.vpois &&& ~~~(bit256 n) }
def Group.wrS (g : Group) (n : Nat) (x : Word) : Group :=
  { g with s := put 0 g.s n x, spois := g.spois &&& ~~~(BitVec.ofNat 96 (2 ^ n)) }
def Group.wrP (g : Group) (n : Nat) (m : Mask) : Group := if n == 15 then g else { g with p := put 0 g.p n m }
def Group.wrSp (g : Group) (n : Nat) (b : Bool) : Group :=
  let m : BitVec 8 := BitVec.ofNat 8 (2 ^ n)
  { g with sp := if b then g.sp ||| m else g.sp &&& ~~~m }

/-- An undefined word (log [2], DESIGN CHOICE). -/
def State.free (s : State) : Word × State := (Config.freeWord s.fresh, { s with fresh := s.fresh + 1 })

/-! ### What stops an instruction before it changes anything -/

inductive Stop
  /-- stalled under a reason; the instruction issues again -/
  | stall (reason : Nat)
  | trap (kind cause : Nat) (detail : DWord) (mask : Mask)
  /-- an engine fault reported at a wait, with the record held (20 R401) -/
  | held (h : Held)
  /-- translation faults: the pages (cause, handle of the base) with their lanes, in order of lowest lane -/
  | xlat (pages : List (Nat × DWord × Mask))
  /-- absent extents under hard residency: (object, first page) -/
  | absent (l : List (Nat × Nat))
deriving DecidableEq, Repr

abbrev Chk := Except Stop

/-- Stop unless the condition holds. -/
def need (b : Bool) (x : Stop) : Chk Unit := if b then .ok () else .error x

/-- Stall where a reason is given. -/
def needNone (r : Option Nat) : Chk Unit := match r with | some n => .error (.stall n) | none => .ok ()

/-! ### Trace (22 R432 to R435) -/

def wcode (w : Nat) : Nat := if w == 8 then 0 else if w == 16 then 1 else if w == 32 then 2 else 3
def Group.gid (g : Group) : Nat := g.core % 8 * 8192 + g.cpart * 2048 + g.gslot * 64 + wcode g.width * 16

/-- The bytes of the packets of a buffer, with the encoder's last times (R434). DEDUCED, log [110]. -/
def pktBytes (t sync : Nat) (p : Pkt) : List Byte × Nat × Nat :=
  if p.typ == 6 then (BitVec.ofNat 8 0xC0 :: leBytes 8 p.time, p.time, p.time)
  else if p.typ == 7 then (BitVec.ofNat 8 (0xE0 + p.sub) :: p.body, t, sync)
  else
    let gap := p.time - t
    if sync + 65536 ≤ p.time || 2 ^ 32 ≤ gap then
      (BitVec.ofNat 8 0xC0 :: leBytes 8 p.time ++ BitVec.ofNat 8 (p.typ * 32) :: p.body, p.time, p.time)
    else if 31 < gap then
      (BitVec.ofNat 8 0xC1 :: leBytes 4 gap ++ BitVec.ofNat 8 (p.typ * 32) :: p.body, p.time, sync)
    else (BitVec.ofNat 8 (p.typ * 32 + gap) :: p.body, p.time, sync)

/-- Bytes that the packets of a buffer take. -/
def bufSize (t sync : Nat) : List Pkt → Nat
  | [] => 0
  | p :: r => let (b, t', y') := pktBytes t sync p; b.length + bufSize t' y' r

/-- Packets of a buffer, with the LONGDELTA or the SYNC that goes before one (R434). -/
def bufCount (t sync : Nat) : List Pkt → Nat
  | [] => 0
  | p :: r =>
    (if p.typ != 6 && p.typ != 7 && (sync + 65536 ≤ p.time || 31 < p.time - t) then 2 else 1)
      + bufCount (pktBytes t sync p).2.1 (pktBytes t sync p).2.2 r

def traceCap : Nat := 65536

/-- Packets of one cycle stand in ascending GID, those of one group in program order (R432). -/
def insertPkt (p : Pkt) : List Pkt → List Pkt
  | [] => [p]
  | q :: r => if q.time == p.time && p.gid < q.gid && q.typ ≤ 5 then p :: q :: r else q :: insertPkt p r

/-- Store a packet in a cluster's buffer, or drop and count it (R435). -/
def State.putPkt (s : State) (c : Nat) (p : Pkt) : State :=
  let k := s.cluster c
  if k.gated then s.setCluster c { k with lost := k.lost + 1 } else
  let b := insertPkt p k.buf
  if 0 < k.dropped || traceCap < bufSize k.lastTime k.lastSync b then s.setCluster c { k with dropped := k.dropped + 1 }
  else s.setCluster c { k with buf := b }

/-- A packet of a group, if its cluster traces it. -/
def State.emit (s : State) (g : Group) (typ : Nat) (body : List Byte) : State :=
  let c := g.core / 8
  if (s.cluster c).on && g.setting.getLsbD 2 then s.putPkt c ⟨s.clusterCycles c, g.gid, typ, 0, leBytes 2 g.gid ++ body⟩ else s

def maskBytes (g : Group) (m : Mask) : List Byte := leBytes (g.width / 8) m.toNat
def State.emitBranch (s : State) (g : Group) (pc : Word) (m : Mask) : State := s.emit g 1 (leBytes 4 pc.toNat ++ maskBytes g m)
def State.emitIndirect (s : State) (g : Group) (pc t : Word) (m : Mask) : State :=
  s.emit g 2 (leBytes 4 pc.toNat ++ leBytes 4 t.toNat ++ maskBytes g m)
/-- GROUP packet: 0 start, 1 retire, 2 saved, 3 restored, 4 trap entry, 5 `eret`. -/
def State.emitGroup (s : State) (g : Group) (event value : Nat) : State := s.emit g 3 (BitVec.ofNat 8 event :: leBytes 4 value)
def State.emitWatch (s : State) (g : Group) (evt unit : Nat) (pc : Word) : State :=
  s.emit g 5 (BitVec.ofNat 8 (evt * 16 + unit) :: leBytes 4 pc.toNat)

/-! ### Records (20 R388) -/

def TrapRec.flags (r : TrapRec) : Nat :=
  r.cause % 16 + (if r.batch then 16 else 0) + (if r.engine then 32 else 0) + (if r.nested then 64 else 0)

/-- The CTX field of a record: the context number within its partition, 0xFFFFFFFF in a return request (20 R388, R397). -/
def TrapRec.ctxField (r : TrapRec) : Nat := if r.ctx == 0xFFFFFFFF then 0xFFFFFFFF else r.ctx % 65536

/-- The 32 bytes of a record. -/
def TrapRec.bytes (r : TrapRec) : List Byte :=
  leBytes 1 r.kind ++ leBytes 1 r.flags ++ leBytes 2 r.count ++ leBytes 4 r.ctxField ++ leBytes 8 r.detail.toNat
    ++ leBytes 8 r.mask.toNat ++ leBytes 4 r.pc.toNat ++ leBytes 2 r.world.toNat ++ leBytes 2 r.region.toNat

/-- Word n of a record, 0 to 7 (20 R397). -/
def TrapRec.word (r : TrapRec) (n : Nat) : Word := BitVec.ofNat 32 (leNat ((r.bytes.drop (4 * n)).take 4))

/-- The 16 bytes of a PC slot or stack entry (01 R15). -/
def Path.bytes (p : Path) : List Byte := leBytes 8 p.mask.toNat ++ leBytes 4 p.pc.toNat ++ leBytes 4 p.rcv.toNat

/-- Address of a context (20 R402), `none` where the partition's pool does not hold it. -/
def State.ctxAddr (s : State) (ctx : Nat) : Option Nat :=
  let p := s.part (ctx / 65536)
  if ctx % 65536 < p.ctxcount then some (p.ctxbase + 131072 * (ctx % 65536)) else none

/-- Bytes of a context. -/
def State.wrCtx (s : State) (ctx off : Nat) (b : List Byte) : State :=
  match s.ctxAddr ctx with
  | some a => { s with hbm := wrBytes s.hbm (a + off) b }
  | none => s

/-- Queue a posting for the fault ring, with the group that parks on it (20 R398). -/
def State.post (s : State) (part : Nat) (park : Option Nat) (rs : List TrapRec) : State :=
  let p := s.part part
  s.setPart part { p with posts := p.posts ++ [(park, rs)] }

/-! ### Residency (09 R201, 17 R351, R352) -/

/-- The extent that holds a page. -/
def Obj.ext (o : Obj) (page : Nat) : Option Ext := o.exts.find? fun x => x.first ≤ page && page ≤ x.first + x.nm1
def Obj.setExt (o : Obj) (x : Ext) : Obj := { o with exts := o.exts.map fun y => if y.first == x.first then x else y }
def Part.obj (p : Part) (n : Nat) : Obj := get {} p.objs n
def Part.setObj (p : Part) (n : Nat) (o : Obj) : Part := { p with objs := put {} p.objs n o }

/-- A handle (09 R187). -/
def handle (obj off : Nat) : DWord := BitVec.ofNat 64 (obj % 2 ^ 24 * 2 ^ 40 + off % 2 ^ 40)

/-- The return-request record of an extent (20 R388). -/
def returnRec (obj first : Nat) : TrapRec :=
  { kind := 33, ctx := 0xFFFFFFFF, pc := 0xFFFFFFFF, detail := handle obj (first * 65536) }

/-- Ask for the return of an extent: AWAY becomes RETURNING with one merged record; a LEAVING extent is asked for once it is
AWAY. -/
def State.askReturn (s : State) (part obj page : Nat) : State :=
  let p := s.part part
  match (p.obj obj).ext page with
  | none => s
  | some x =>
    match x.st with
    | .away => (s.setPart part (p.setObj obj ((p.obj obj).setExt { x with st := .returning, want := false }))).post part none
        [returnRec obj x.first]
    | .leaving => s.setPart part (p.setObj obj ((p.obj obj).setExt { x with want := true }))
    | _ => s

/-! ### The end of groups and worlds -/

/-- A group's counts go to its block record (22 R428, R429); a group that has ended holds none any more. -/
def Block.absorbStalls (b : Block) (g : Group) : Block :=
  { b with stallSum := (List.range 16).foldl (fun m r => put 0 m r (get 0 m r + get 0 g.stalls r)) b.stallSum }
def Block.absorb (b : Block) (g : Group) : Block :=
  { b.absorbStalls g with issuedSum := b.issuedSum + BitVec.ofNat 64 g.issued.toNat }

/-- Tags that a view line of world `a` is found under, its own first. -/
def linkChain (links : List (Nat × Nat)) : Nat → Nat → List Nat
  | 0, a => [a]
  | n + 1, a => match links.find? (·.1 == a) with | some e => a :: linkChain links n e.2 | none => [a]

/-- A world id is in use while a copy of it lives or a line is tagged with it (R364). -/
def State.tagBusy (s : State) (w : Nat) : Bool :=
  s.forks.any (fun e => e.2.copies.any fun c => c.world == w && c.imposed.isNone)
    || s.views.any fun v => v.world == w || (linkChain s.links s.links.length v.world).contains w

/-- Ids whose lines have all been scrubbed or retagged return to their home partition. -/
def State.gcTags (s : State) : State :=
  let s := { s with
    links := s.links.filter fun e => s.tagBusy e.1
    dropped := s.dropped.filter fun w => s.views.any fun v => (linkChain s.links s.links.length v.world).contains w }
  { s with parts := mapVals (fun (p : Part) => { p with tags := p.tags.filter s.tagBusy }) s.parts }

/-- A world is dropped: its lines wait to be scrubbed (18 R373, R376), and what groups that have retired still had in flight in it is
discarded. -/
def State.dropWorld (s : State) (w : Nat) : State :=
  let gs := mapVals (fun (g : Group) => if g.status == .retired then { g with ops := g.ops.filter (·.world != w) } else g) s.groups
  { s with
    dropped := s.dropped ++ [w]
    groups := gs
    parts := mapVals (fun (p : Part) => { p with parked := p.parked.filter fun e => (get {} gs e.1).ops.any (·.id == e.2) }) s.parts }

/-- Drop the worlds of the live copies of the forks that satisfy `f`: their logs go. -/
def State.dropForks (s : State) (f : Nat → Fork → Bool) : State :=
  let gone := s.forks.filter fun e => f e.1 e.2
  let s := ((gone.map fun e => (e.2.copies.filter (·.imposed.isNone)).map (·.world)).flatten).foldl State.dropWorld s
  ({ s with forks := s.forks.filter fun e => !f e.1 e.2 } : State).gcTags

/-- A group of a killed block: it stops, its issued stores are still performed, the rest is discarded, and its world's stash lines go with the
world (20 R407). -/
def Group.killed (g : Group) : Group :=
  { g with
    status := .retired, stack := [], saves := [], recs := [], win := none, it := none, copies := [], held := [], qm := [], qx := [],
    qk := [], mkM := [], mkX := [], staged := [], parkRec := none, stalls := [],
    ops := g.ops.filter fun o => (o.kind == .store || o.kind == .amo || o.kind == .rel || (o.kind == .swb && o.parked)) && !o.done && !o.refused,
    stash := if g.world == 0 then g.stash else g.stash.map fun (x : Stash) => { x with lines := [] },
    cLD := 0, cSP := 0, cCP := 0, cMX := 0, atBsync := false, atReorder := none, replay := [], fork := none }

/-- The record of a trap of the path in slot `slot` of a group. DEDUCED, log [24]. -/
def trapRec (ctx : Nat) (g : Group) (slot : Nat) (kind cause : Nat) (detail : DWord) (mask : Mask) (engine : Bool) : TrapRec :=
  { kind := kind, cause := cause, engine := engine, nested := g.recs != [], ctx := ctx, detail := detail, mask := mask,
    pc := (g.path slot).pc, world := BitVec.ofNat 16 g.worldWord, region := g.topRegion }

/-- Kill a block (20 R407): its groups stop, its worlds are dropped, engine commands are discarded and one kind-31 record is
posted. What it still holds is released at its retirement (R406). DEDUCED, log [24]. DEDUCED, log [25]. -/
def killBlock (s : State) (ctx : Nat) (r : TrapRec) : State :=
  let g := s.group ctx
  let b := s.block g.blk
  let mine := s.groups.filter fun e => e.2.present && e.2.blk == g.blk && e.2.status != .retired
  let b := mine.foldl (fun b e => b.absorb e.2) b
  let s := s.setBlock g.blk { b with status := .retiring, killed := true, missing := [], lastRegions := g.regions }
  let s := { s with groups := mapVals (fun (x : Group) => if x.present && x.blk == g.blk && x.status != GStat.retired then x.killed else x) s.groups }
  let s := { s with spaces := mapVals (fun (x : Space) => if x.blk == g.blk then { x with ring := x.ring.filter fun c => c.running && c.cyc != 0 } else x) s.spaces }
  let s := s.dropForks fun _ f => f.blk == g.blk
  let p := s.part g.part
  let s := s.setPart g.part { p with killed := p.killed + 1 }
  let s := s.setLaunch b.launch { s.launch b.launch with faulted := true }
  s.post g.part none
    [{ r with kind := 31, cause := 0, detail := BitVec.ofNat 64 (r.kind + r.cause * 256) }]

/-! ### The context in memory (20 R402) -/

def bytesOfWords (l : List Word) : List Byte := (l.map fun w => leBytes 4 w.toNat).flatten
/-- The five counters as a context holds them (20 R402). -/
def Group.cntWord (g : Group) : Nat := g.cLD.toNat + g.cST.toNat * 64 + g.cSP.toNat * 4096 + g.cCP.toNat * 2 ^ 18 + g.cMX.toNat * 2 ^ 24
/-- The iteration that a context runs. -/
def Loop.iterOf (s : State) (c : Nat) : Nat := match (s.group c).it with | some it => it.i | none => 0

/-! ### The window record (13 R302) -/

def CarrySt.num : CarrySt → Nat | .empty => 0 | .full => 1 | .void => 2
def CarrySt.ofNum (n : Nat) : CarrySt := if n == 1 then .full else if n == 2 then .void else .empty
/-- The key of a carry slot-lane. -/
def slotKey (slot lane : Nat) : Nat := slot * 64 + lane
/-- A flag's bit. -/
def bit1 (b : Bool) (n : Nat) : Nat := if b then n else 0

def slotBytes (x : Slot) : List Byte := leBytes 4 x.val.toNat ++ leBytes 2 x.tag.toNat ++ leBytes 1 x.st.num ++ [0]

/-- The fields of the loop that runs, or of the one that ended last, by offset in the record; the address of a yield table is a
free value (log [111], DESIGN CHOICE). -/
def loopFields (s : State) (code : Nat) (lp : Loop) (width : Nat) : List (Nat × List Byte) :=
  [(0, leBytes 4 lp.n), (4, leBytes 1 lp.s ++ leBytes 1 (bit1 lp.ordered 1 + bit1 lp.brk.isSome 2) ++ leBytes 2 width),
   (8, leBytes 4 lp.next), (0xC, leBytes 4 (lp.brk.getD 0xFFFFFFFF)), (0x10, leBytes 8 (Config.tableAddr code lp.table).toNat), (0x18, leBytes 1 lp.live.length),
   (0x1A, (lp.live.map fun c => leBytes 2 c).flatten),
   (0x2A, (lp.live.map fun c => leBytes 1 (match (s.group c).it with | some it => it.k | none => 0)).flatten),
   (0x34, (lp.live.map fun c => leBytes 4 (Loop.iterOf s c)).flatten)]

/-- The window record (R302). -/
def windowFields (s : State) (code : Nat) (w : Window) (width : Nat) : List (Nat × List Byte) :=
  (match w.loop <|> w.last with
    | some lp => loopFields s code lp width
    | none => [(4, leBytes 1 0 ++ leBytes 1 0 ++ leBytes 2 width), (0xC, leBytes 4 0xFFFFFFFF)])
  ++ [(0x100, ((List.range 64).map fun sl => ((List.range width).map fun l => slotBytes (get {} w.slots (slotKey sl l))).flatten).flatten)]


/-- Paths of a level that stand in PC slots, and those spilled, bottom first. -/
def slotPaths (st : List Path) : List Path := st.take (slotsUsed st)
def spillPaths (st : List Path) : List Path := (st.drop (slotsUsed st)).reverse
/-- The path of a handler's base entry counts its helpers in its mask (R390). -/
def Group.shown (g : Group) (level : Nat) (p : Path) : Path :=
  if 0 < level && p.rcv == noRcv && p.pc != noRcv then { p with mask := p.mask ||| g.helpersIn p.mask } else p
/-- The 32 bytes of the two PC slots of a level's stack. -/
def Group.twoSlots (g : Group) (level : Nat) (st : List Path) : List Byte :=
  (g.shown level ((pathIn st 0).getD noPath)).bytes ++ (g.shown level ((pathIn st 1).getD noPath)).bytes
def pathsBytes (l : List Path) : List Byte := (l.map Path.bytes).flatten

/-- The stack of handler level L of a group: 0 is the program's. -/
def Group.levelStack (g : Group) (l : Nat) : List Path :=
  if l == g.recs.length then g.stack else if l < g.recs.length then g.saves.getD (g.recs.length - 1 - l) [] else []
/-- The record of level L, 1 or 2. -/
def Group.levelRec (g : Group) (l : Nat) : List Byte :=
  if 1 ≤ l && l ≤ g.recs.length then (g.recs.getD (g.recs.length - l) { kind := 0 }).bytes else List.replicate 32 0
/-- The save area of level L: the slots of the level below. -/
def Group.saveArea (g : Group) (l : Nat) : List Byte := if l ≤ g.recs.length then g.twoSlots (l - 1) (g.levelStack (l - 1)) else List.replicate 32 0

/-- `%world` with the copy index in [15:14]. -/
def Group.worldFull (g : Group) : Nat := g.worldWord + (if g.world == 0 then 0 else g.copy % 4 * 16384)

def Group.predBits (g : Group) (l : Nat) : Nat := (List.range 16).foldl (fun x k => x + bit1 (bitOf (g.pmask k) l) (2 ^ k)) 0

/-- Mapped names, ascending. -/
def Group.names (g : Group) : List Nat := (List.range 256).filter fun n => g.mapped.getLsbD n

/-- The context of a group, by offset. DEDUCED, log [105]. -/
def ctxFields (s : State) (g : Group) : List (Nat × List Byte) :=
  let cflags := bit1 g.win.isSome 1 + bit1 g.checked 2 + bit1 g.it.isSome 4 + bit1 (g.status == .faultPark) 8
  let words (l : List Word) : List Byte := bytesOfWords l
  [(0, leBytes 4 1), (4, leBytes 1 (wcode g.width) ++ leBytes 1 cflags ++ leBytes 2 g.peak), (8, leBytes 4 g.setting.toNat),
   (0xC, leBytes 4 g.cntWord),
   (0x10, g.twoSlots g.recs.length g.stack), (0x30, leBytes 8 g.exited.toNat ++ leBytes 8 g.helper.toNat),
   (0x40, leBytes 2 (spillPaths (g.levelStack 0)).length ++ leBytes 1 g.regions.length ++ leBytes 1 g.recs.length),
   (0x44, leBytes 4 g.worldFull), (0x48, (g.regions.reverse.map fun r => leBytes 2 r.toNat).flatten),
   (0x58, leBytes 4 (g.sp.toNat + g.staged.length * 256)), (0x5C, leBytes 12 g.spois.toNat),
   (0x80, words ((List.range 96).map g.rdS)), (0x200, words ((List.range 16).map fun r => get 0 g.stalls r)),
   (0x240, words g.qm), (0x340, words g.qx), (0x440, words g.qk), (0x540, words g.staged),
   (0x580, leBytes 1 g.qm.length ++ leBytes 1 g.qx.length ++ leBytes 1 g.qk.length),
   (0x584, match g.stash with | some x => leBytes 4 x.word.toNat ++ leBytes 4 x.recn | none => []),
   (0x590, leBytes 8 (match g.stash with | some x => x.m | none => 0) ++ leBytes 8 g.lastSC.toNat),
   (0x5A0, g.saveArea 1 ++ g.saveArea 2), (0x5E0, g.levelRec 1 ++ g.levelRec 2),
   (0x800, ((List.range g.width).map fun l => leBytes 2 (g.predBits l)).flatten),
   (0x880, ((List.range g.width).map fun l => leBytes 8 (get 0 g.key l).toNat ++ leBytes 8 (get 0 g.ctr l).toNat).flatten),
   (0xC80, pathsBytes (if 1 ≤ g.recs.length then spillPaths (g.levelStack 1) else [])),
   (0xD00, pathsBytes (if 2 ≤ g.recs.length then spillPaths (g.levelStack 2) else [])),
   (0x1000, pathsBytes (spillPaths (g.levelStack 0)))]
  ++ (match g.win with | some w => (windowFields s g.code w g.width).map fun f => (0x1400 + f.1, f.2) | none => [])
  ++ [(0x9500, leBytes 32 g.mapped.toNat ++ leBytes 32 g.dkill.toNat ++ leBytes 32 g.vpois.toNat),
      (0x9560, (g.names.map fun n => words ((List.range g.width).map fun l => g.rdV n l)).flatten)]

/-- Write a group's context: the listed fields, and zero elsewhere. -/
def State.writeCtx (s : State) (ctx : Nat) : State :=
  match s.ctxAddr ctx with
  | none => s
  | some a => (ctxFields s (s.group ctx)).foldl (fun s f => s.wrCtx ctx f.1 f.2) { s with hbm := zeroN s.hbm a 131072 }

/-- Where the spilled entries of a level lie in the context (11 R266, 20 R391, R402). -/
def spillBase (level : Nat) : Nat := if level == 0 then 0x1000 else if level == 1 then 0xC80 else 0xD00
/-- The spilled entries of every level as they stand go to the context area (01 R15, 11 R266). -/
def State.putSpills (s : State) (ctx : Nat) : State :=
  (List.range ((s.group ctx).recs.length + 1)).foldl (fun s l =>
    s.wrCtx ctx (spillBase l) (pathsBytes (spillPaths ((s.group ctx).levelStack l)))) s

/-! ### Taking a trap (20 R389 to R392) and returning (R396) -/

/-- Entry to the handler at the next level; a group that waits at a barrier or in a `reorder` waits there again after the return. The context of a group in its handler (R402) is written here (log [26], DEDUCED).
DEDUCED, log [25]. -/
def enterHandler (s : State) (ctx slot : Nat) (r : TrapRec) : State :=
  let g := s.group ctx
  let p := g.path slot
  let saved := if slot < g.stack.length then setAt g.stack slot { p with stall := 0, sup := none, trapped := true } else g.stack
  let g' := { g with
    recs := r :: g.recs
    saves := saved :: g.saves
    stack := [{ pc := g.handler, mask := p.mask, rcv := noRcv }]
    status := .run
    parkRec := none
    atBsync := false
    atReorder := none
    lastSlot := 0 }
  let s := (s.setGroup ctx g').writeCtx ctx
  let b := s.block g.blk
  let s := if r.kind == 19 then s.setBlock g.blk { b with kind19 := b.kind19 + 1 } else s
  s.emitGroup g' 4 r.pc.toNat

/-- Take a trap with its record: enter the handler, or kill the block at the third level or without a handler. -/
def takeRec (s : State) (ctx slot : Nat) (r : TrapRec) : State :=
  let g := s.group ctx
  if 2 ≤ g.recs.length || g.handler == 0 then killBlock s ctx r else enterHandler s ctx slot r

/-- The instruction has issued (11 R262, 20 R397); one that occupies no beat leaves the age. DEDUCED, log [46]. -/
def Group.countIssue (g : Group) (slot now : Nat) : Group :=
  { g with issued := g.issued + 1, lastIssue := now + 1, lastBeat := if g.quiet then g.lastBeat else now, lastSlot := slot }

/-- A new divergence stack. An entry that is filled or spilled holds the group until the next cycle has passed (11 R266; log [85],
DESIGN CHOICE). -/
def Group.restack (g : Group) (st : List Path) : Group := { g with stack := st, moving := g.moving || spilled st != spilled g.stack }

/-- Take a trap of the issuing path. -/
def takeTrap (s : State) (kind cause : Nat) (detail : DWord) (mask : Mask) : State :=
  let s := s.setG (s.g.countIssue s.slot s.now)
  takeRec s s.ctx s.slot (trapRec s.ctx s.g s.slot kind cause detail mask false)

/-- RESUME(k, PC): after a breakpoint or a user trap the next instruction, else the same (R387). DEDUCED, log [41]. -/
def resumePc (kind : Nat) (pc : Word) : Word := if kind == 26 || kind == 27 then pcNext pc else pc

/-- The path that trapped resumes, and after a watchpoint it is marked for one-shot suppression if its mask still contains the record's
(22 R421); its sibling goes on at its own PC. DEDUCED, log [41]. -/
def resumePath (r : TrapRec) (st : List Path) : List Path :=
  st.map fun p => if p.trapped then
    { p with pc := resumePc r.kind p.pc, sup := if r.kind == 19 && r.mask &&& ~~~p.mask == 0 then some r.pc else none, trapped := false,
             tried := false } else p

/-- Return from the handler at the current level: the saved paths come back without the lanes that exited meanwhile. DEDUCED, log [41]. -/
def Group.leaveHandler (g : Group) : Group :=
  match g.recs, g.saves with
  | r :: rs, st :: ss =>
    let new := tidy (st.length + 1) (resumePath r st)
    ({ g with recs := rs, saves := ss, stack := new, moving := g.moving || spilled new != spilled st } : Group).flushKills
  | _, _ => g

/-- The copy command that a record holds runs again from its progress (R396, R401). -/
def Group.resumeCopies (g : Group) (r : TrapRec) : Group :=
  { g with copies := g.copies.map fun c => if r.cmd == some c.id then { c with faulted := false } else c }

/-- Requests that the aperture refused are made again (17 R349, 20 R399). -/
def Group.unrefused (g : Group) : Group := { g with ops := g.ops.map fun o => { o with refused := false } }

/-! ### Moving on -/

/-- The path in `slot` continues at `pc`. -/
def Group.goto (g : Group) (slot : Nat) (pc : Word) : Group :=
  let g := g.setPath slot { g.path slot with pc := pc, stall := 0, sup := none, tried := false }
  (g.restack (tidy (g.stack.length + 1) g.stack)).flushKills

/-- The issuing path goes to the next instruction, and the issue is counted. -/
def Group.next (g : Group) (slot now : Nat) : Group := (g.countIssue slot now).goto slot (pcNext (g.path slot).pc)

/-- Finish an instruction of the issuing path: next instruction, in the state `s`. -/
def State.advance (s : State) : State := s.setG (s.g.next s.slot s.now)

/-- The issuing path stalls under a reason, and has tried its instruction (22 R421). DESIGN CHOICE, log [1]. -/
def State.stallAt (s : State) (reason : Nat) : State :=
  s.setG (s.g.setPath s.slot { s.g.path s.slot with stall := reason, tried := true })

/-- Fault-ring records of a translation fault (20 R400): one, or a header of kind 32 and one for each page. -/
def xlatRecs (ctx : Nat) (g : Group) (slot : Nat) (engine : Bool) (pages : List (Nat × DWord × Mask)) : List TrapRec :=
  let base := trapRec ctx g slot 18 0 0 0 engine
  match pages with
  | [] => []
  | [(c, h, m)] => [{ base with cause := c, detail := h, mask := m }]
  | (c, h, m) :: r =>
    let all := (c, h, m) :: r
    let n := all.length
    { base with kind := 32, batch := true, count := n, detail := h, mask := all.foldl (fun x e => x ||| e.2.2) 0 }
      :: all.map fun e => { base with cause := e.1, batch := true, count := n, detail := e.2.1, mask := e.2.2 }

/-- The instruction posts its records and parks (20 R399). -/
def parkXlat (s : State) (pages : List (Nat × DWord × Mask)) : State :=
  let g := s.g
  let rs := xlatRecs s.ctx g s.slot false pages
  let one := (rs.filter (·.kind == 18)).headD { kind := 18 }
  let s := s.setG { (g.countIssue s.slot s.now).setPath s.slot { g.path s.slot with stall := 15, sup := none } with
    status := .faultPark, parkRec := some (s.slot, { one with batch := false, count := 1, nested := g.recs != [] }) }
  s.post g.part (some s.ctx) rs

/-- The block is switched out until the extents return (09 R201). -/
def parkAbsent (s : State) (l : List (Nat × Nat)) : State :=
  let g := s.g
  let b := s.block g.blk
  let s := (s.stallAt 13).setBlock g.blk { b with status := .parked, missing := l }
  l.foldl (fun s e => s.askReturn g.part e.1 e.2) s

/-- The mask of the issuing path. -/
def State.pathMask0 (s : State) : Mask := (s.g.path s.slot).mask

/-- The record of a held fault at the wait that raises it: ENGINE, the wait's path, the regions as they stand there (20 R401, 22 R420). -/
def heldRec (ctx : Nat) (g : Group) (slot : Nat) (h : Held) : TrapRec :=
  let d := if h.trec.kind == 19 then BitVec.ofNat 64 (g.regionFields + h.trec.detail.toNat % 2 ^ 44) else h.trec.detail
  { trapRec ctx g slot h.trec.kind h.trec.cause d (g.path slot).mask true with cmd := h.cmd }

/-- Take a stop of the issuing path. A held translation fault, which the ring already has, parks the group (20 R401). -/
def takeStop (s : State) : Stop → State
  | .stall r => s.stallAt r
  | .trap k c d m => takeTrap s k c d m
  | .held h =>
    let g := s.g.countIssue s.slot s.now
    let g := { g with held := g.held.erase h }
    let r := heldRec s.ctx g s.slot h
    if h.trec.kind == 18 then
      s.setG { g.setPath s.slot { g.path s.slot with stall := 15, sup := none } with status := .faultPark, parkRec := some (s.slot, r) }
    else takeRec (s.setG g) s.ctx s.slot r
  | .xlat ps => parkXlat s ps
  | .absent l => parkAbsent s l

/-- The outcome of an instruction: the state it answers, or the stop it meets. -/
def settle (s : State) (r : Chk State) : Host.Outcome State Fault Refusal :=
  match r with
  | .ok t => .next t
  | .error e => .next (takeStop s e)

/-- An instruction acts for a group that is there; without one nothing happens. -/
def onGroup (s : State) (r : Chk State) : Host.Outcome State Fault Refusal :=
  if s.g.present then settle s r else .next s

end Sys2Proof.Machine
end

