-- ==== Sys2Proof/Machine/Access.lean ====
section
/-! DEFINITION. Machine/Access.lean: buffer records and physical offsets (09 R188 to R192), translation (17 R348), views
(18 R365, R366), L1 copies (10 R228), stash lines (09 R198), scratchpad, and the bytes that an access reads and writes. -/

namespace Sys2Proof.Machine

/-! ### Buffer records -/

structure Rec where
  w : List Word
deriving DecidableEq, Repr

def Rec.word (r : Rec) (i : Nat) : Nat := (r.w.getD i 0).toNat
def Rec.obj (r : Rec) : Nat := r.word 0 % 2 ^ 24
def Rec.fmt (r : Rec) : Nat := r.word 0 / 2 ^ 24 % 16
def Rec.soft (r : Rec) : Bool := r.word 0 / 2 ^ 28 % 2 == 1
def Rec.zord (r : Rec) : Bool := r.word 0 / 2 ^ 29 % 2 == 1
def Rec.xpose (r : Rec) : Bool := r.word 0 / 2 ^ 30 % 2 == 1
def Rec.clip (r : Rec) : Bool := r.word 0 / 2 ^ 31 % 2 == 1
def Rec.base (r : Rec) : Nat := r.word 1 + r.word 2 % 256 * 2 ^ 32
def Rec.esize (r : Rec) : Nat := r.word 2 / 256 % 16
def Rec.tile (r : Rec) : Nat := r.word 2 / 4096 % 16
def Rec.swz (r : Rec) : Nat := r.word 2 / 65536
def Rec.stride (r : Rec) : Nat := r.word 3
def Rec.extent (r : Rec) : Nat := r.word 4 + r.word 5 % 256 * 2 ^ 32
def Rec.planeLog (r : Rec) : Nat := r.word 6 % 64
def Rec.planeOff (r : Rec) : Nat := 2 ^ r.planeLog
def Rec.fp6 (r : Rec) : Bool := r.fmt == 1 || r.fmt == 2

/-- Record n of a group: s(8n) to s(8n + 7). -/
def Group.record (g : Group) (n : Nat) : Rec := ⟨(List.range 8).map fun i => g.rdS (8 * n + i)⟩

/-- 2^k is the smallest power of two not less than x. -/
def smallestPow (k x : Nat) : Bool := x ≤ 2 ^ k && (k == 0 || 2 ^ (k - 1) < x)

/-- Record-format conditions of R189 and, for FP6, of 06 R104. -/
def Rec.bad (r : Rec) : Bool :=
  r.word 5 / 256 != 0 || r.word 6 / 64 != 0 || r.word 7 != 0 || 11 ≤ r.fmt || 4 < r.esize
    || (!r.zord && (r.tile != 0 || r.xpose))
    || (r.zord && (r.tile == 0 || 6 < r.tile || r.stride == 0 || r.stride % 2 ^ (r.tile + r.esize) != 0
        || [0, 1, 2, 6, 10].contains r.fmt))
    || (r.swz != 0 && r.extent % 2 ^ 20 != 0)
    || 2 ^ 40 < r.base + r.extent
    || (if r.fp6 then !smallestPow r.planeLog r.extent || 39 < r.planeLog else r.word 6 != 0)

/-- The physical offset of a logical offset (R191). -/
def Rec.phys (r : Rec) (o : Nat) : Nat :=
  let p := if !r.zord then o else
    let row := o / r.stride
    let cb := o % r.stride
    let col := cb / 2 ^ r.esize
    let w := cb % 2 ^ r.esize
    let (row, col) := if r.xpose then (col, row) else (row, col)
    let t := 2 ^ r.tile
    row / t * (r.stride * t) + col / t * (t * t * 2 ^ r.esize) + morton (row % t) (col % t) * 2 ^ r.esize + w
  if r.swz == 0 then p
  else p - p / 16 % 65536 * 16 + (p / 16 % 65536 ^^^ r.swz) * 16

def Rec.aligned (r : Rec) (o : Int) (n : Nat) : Bool :=
  o % (n : Int) == 0 && (!r.zord || 2 ^ r.esize ≥ (o % (2 ^ r.esize : Nat)).toNat + n)

def Rec.inBounds (r : Rec) (o : Int) (n : Nat) : Bool :=
  0 ≤ o && o.toNat + n ≤ r.extent && r.phys o.toNat + n ≤ r.extent

/-- Object offset of the byte at a logical offset. -/
def Rec.at (r : Rec) (o : Nat) : Nat := r.base + r.phys o

/-- DETAIL of kinds 14 to 17 through a record (20 R455). -/
def Rec.detail (r : Rec) (o : Int) : DWord := handle r.obj (((r.base : Int) + o) % (2 ^ 40 : Nat)).toNat

/-- The object bytes that an access reaches: through the stash window the whole line, which its fill, its ownership or its write-back moves
(09 R198). -/
def Op.span (o : Op) (a : Acc) : Nat × Nat := if o.place == .stash then (a.off - a.addr % 64, 64) else (a.off, o.bytes)

/-! ### Translation (17 R346 to R349) -/

/-- Where a byte lies: in HBM or behind a fabric endpoint. -/
structure Place where
  remote : Bool
  addr : Nat
deriving DecidableEq, Repr

/-- Access kinds of PERM: 0 load, 1 store, 2 atomic, 3 copy source, 4 copy destination. -/
def translate (p : Part) (obj off kind : Nat) : Except Nat (ExtSt × Place) :=
  let o := p.obj obj
  if 2 ^ p.otlog ≤ obj || !o.live then .error 1
  else if o.size ≤ off then .error 2
  else match o.ext (off / 65536) with
    | none => .error 2
    | some x =>
      if o.perm / 2 ^ kind % 2 == 0 then .error 3
      else
        let d := (off / 65536 - x.first) * 65536 + off % 65536
        .ok (x.st, if o.host then ⟨true, o.endpoint * 2 ^ 64 + x.loc + d⟩ else ⟨false, x.loc % 2 ^ 23 * 65536 + d⟩)

def isAway (st : ExtSt) : Bool := st == .away || st == .returning

/-- The place of an object byte, whatever PERM says; while its extent is AWAY or RETURNING it has none, and LOC is not read (17 R346).
DESIGN CHOICE, log [112]. -/
def placeOf (p : Part) (obj off : Nat) : Option Place :=
  match (p.obj obj).ext (off / 65536) with
  | none => none
  | some x =>
    if isAway x.st then none else
    let d := (off / 65536 - x.first) * 65536 + off % 65536
    some (if (p.obj obj).host then ⟨true, (p.obj obj).endpoint * 2 ^ 64 + x.loc + d⟩ else ⟨false, x.loc % 2 ^ 23 * 65536 + d⟩)

/-- State and first page of the extents that hold `n` bytes of an object (17 R350). -/
def Part.rangeStates (p : Part) (obj off n : Nat) : List (ExtSt × Nat) :=
  ([off, off + n - 1].map (· / 65536)).eraseDups.filterMap fun pg => ((p.obj obj).ext pg).map fun x => (x.st, x.first)

/-- DEDUCED, log [95]: view lines follow an extent that moves. -/
def limbo (part obj off : Nat) : Nat := 2 ^ 100 + (part * 2 ^ 24 + obj) * 2 ^ 40 + off

/-- The offset in an object of the bytes of a line. DEDUCED, log [95]. -/
def offOfLine (o : Obj) (part obj : Nat) (remote : Bool) (line : Nat) : Option Nat :=
  let a := line * 64
  if limbo part obj 0 ≤ a && a < limbo part obj (2 ^ 40) then some (a - limbo part obj 0)
  else if o.host != remote then none
  else o.exts.findSome? fun x =>
    let b := if o.host then o.endpoint * 2 ^ 64 + x.loc else x.loc % 2 ^ 23 * 65536
    if (x.st == .resident || x.st == .leaving) && b ≤ a && a < b + (x.nm1 + 1) * 65536 then some (x.first * 65536 + (a - b)) else none

def objOf (h : DWord) : Nat := h.toNat / 2 ^ 40
def offOf (h : DWord) : Nat := h.toNat % 2 ^ 40

/-! ### Views (18 R365, R366, R373)

A committed world is linked into the tag of its parent, 0 for memory; its lines are found under that tag until they are retagged
or written home. `views` lists the newest line first. -/

/-- The tag under which the lines of world `w` are found. -/
def tagOf (links : List (Nat × Nat)) : Nat → Nat → Nat
  | 0, w => w
  | n + 1, w => match links.find? (·.1 == w) with | some e => tagOf links n e.2 | none => w

def State.effTag (s : State) (w : Nat) : Nat := tagOf s.links s.links.length w

/-- The parent's tag of a live world: an ended copy names none, since its id may be in use again (18 R364). -/
def State.parentTag (s : State) (w : Nat) : Nat :=
  match s.forks.find? fun e => e.2.copies.any fun c => c.world == w && c.imposed.isNone with
  | some e => e.2.pWorld
  | none => 0

/-- Tags that a group in world `w` resolves through, its own first, memory last (depth is at most 3). -/
def State.chain (s : State) : Nat → Nat → List Nat
  | 0, _ => [0]
  | n + 1, w => if w == 0 then [0] else w :: s.chain n (s.parentTag w)

def State.viewAt (s : State) (tag : Nat) (remote : Bool) (line : Nat) : Option View :=
  s.views.find? fun v => v.line == line && v.remote == remote && !s.dropped.contains v.world && s.effTag v.world == tag

/-- The home byte at a place. -/
def State.homeByte (s : State) (p : Place) : Byte := if p.remote then rdByte s.remote p.addr else rdByte s.hbm p.addr
def State.setHome (s : State) (p : Place) (b : Byte) : State :=
  if p.remote then { s with remote := wrByte s.remote p.addr b } else { s with hbm := wrByte s.hbm p.addr b }

/-- The index in an operation's bytes of a place in an extent that is LEAVING. -/
def Acc.byteAt (a : Acc) (p : Part) (n : Nat) (q : Place) : Option Nat :=
  (List.range n).find? fun i => placeOf p a.obj (a.off + i) == some q
    && ((p.obj a.obj).ext ((a.off + i) / 65536)).any fun x => x.st == .leaving

/-- What a parked write-back of a partition holds of a place, the newest first: the operation's access, and the index in its bytes. -/
def State.parkedWb (s : State) (tag : Nat) (q : Place) : Option (Acc × Nat) :=
  s.parts.findSome? fun e => e.2.parked.reverse.findSome? fun k =>
    match (s.group k.1).ops.find? (·.id == k.2) with
    | none => none
    | some o =>
      if o.kind == .swb && o.place == .dev && s.effTag o.world == tag then
        o.accs.reverse.findSome? fun a => if a.held then (a.byteAt e.2 o.bytes q).map (a, ·) else none
      else none

/-- A byte of a DIRTY stash line that was recalled while its extent was LEAVING: the write-back waits (09 R202), and readers are served what
it will write (10 R224). DEDUCED, log [71]. -/
def State.parkedByte (s : State) (tag : Nat) (q : Place) : Option Byte :=
  (s.parkedWb tag q).map fun e => BitVec.ofNat 8 (e.1.val / 256 ^ e.2)

def viaChain (s : State) (p : Place) : List Nat → Byte
  | [] => s.homeByte p
  | t :: r => match s.parkedByte t p, s.viewAt t p.remote (p.addr / 64) with
    | some b, _ => b
    | none, some v => v.bytes.getD (p.addr % 64) 0
    | none, none => viaChain s p r

/-- A byte as world `w` sees it (0 outside any world). -/
def State.seeByte (s : State) (w : Nat) (p : Place) : Byte := viaChain s p (s.chain 4 w)

/-- A byte carries poison as a chain of worlds sees it: that of a parked write-back, of a view line, of its home line (20 R409). -/
def poisChain (s : State) (p : Place) : List Nat → Bool
  | [] => !p.remote && s.poisLines.contains (p.addr / 64)
  | t :: r => match s.parkedWb t p, s.viewAt t p.remote (p.addr / 64) with
    | some e, _ => e.1.pois / 2 ^ e.2 % 2 == 1
    | none, some v => v.pois
    | none, none => poisChain s p r
def State.poisByte (s : State) (w : Nat) (p : Place) : Bool := poisChain s p (s.chain 4 w)
/-- Some line or view line carries poison. -/
def State.marks (s : State) : Bool := !s.poisLines.isEmpty || s.views.any (·.pois)
/-- Something that a read may be served from carries poison. -/
def State.anyPois (s : State) : Bool := s.marks || s.groups.any fun e => e.2.ops.any fun o => o.kind == .swb && o.accs.any (·.pois != 0)

/-- The mark of a home line; what a fabric endpoint holds carries none. -/
def State.homePois (s : State) (p : Place) (b : Bool) : State :=
  if p.remote then s
  else if !b then { s with poisLines := s.poisLines.filter (· != p.addr / 64) }
  else if s.poisLines.contains (p.addr / 64) then s else { s with poisLines := s.poisLines ++ [p.addr / 64] }
/-- The mark of the line that a write of world `w` at a place goes to: its view line, else the home line. -/
def State.setPois (s : State) (w : Nat) (p : Place) (b : Bool) : State :=
  match s.viewAt w p.remote (p.addr / 64) with
  | some v => { s with views := s.views.map fun x => if x.line == v.line && x.world == v.world && x.remote == v.remote then { x with pois := b } else x }
  | none => s.homePois p b

def setView (l : List View) (line world : Nat) (remote : Bool) (i : Nat) (b : Byte) : List View :=
  match l with
  | [] => []
  | v :: r => if v.line == line && v.world == world && v.remote == remote then { v with bytes := setAt v.bytes i b } :: r
    else v :: setView r line world remote i b

/-- Write a byte as world `w`: to its view line, which the first write creates with the poison of what it copies, or to the home. -/
def State.putByte (s : State) (w : Nat) (p : Place) (b : Byte) : State :=
  let line := p.addr / 64
  match s.viewAt w p.remote line with
  | some v => { s with views := setView s.views line v.world p.remote (p.addr % 64) b }
  | none =>
    if w == 0 then s.setHome p b
    else
      let bytes := (List.range 64).map fun i => s.seeByte w ⟨p.remote, line * 64 + i⟩
      let bad := s.anyPois && (List.range 64).any fun i => s.poisByte w ⟨p.remote, line * 64 + i⟩
      { s with views := ⟨line, w, p.remote, setAt bytes (p.addr % 64) b, bad⟩ :: s.views }

/-- The device partition of a core (17 R354), and of a world tag by its home core partition. -/
def State.partOfCore (s : State) (c : Nat) : Nat := c / (Config.cores / s.npart)
def State.partOfTag (s : State) (w : Nat) : Nat := s.partOfCore (w / 4096 / 4)
/-- Overflow places of a partition in use: one for each view line of its worlds (18 R368). -/
def State.viewCount (s : State) (part : Nat) : Nat := (s.views.filter fun v => s.partOfTag v.world == part).length

/-! ### L1 copies (10 R228) -/

def State.l1Find (s : State) (core line : Nat) : Option L1Line := s.l1.find? fun x => x.core == core && x.line == line
/-- DEDUCED, log [63]: L1 copies are made only by plain loads outside worlds and are never stale beyond what 10 R228 allows. -/
def State.l1Drop (s : State) (core line : Nat) : State := { s with l1 := s.l1.filter fun x => !(x.core == core && x.line == line) }
/-- Drop the copies of a core whose line satisfies `f`. -/
def State.l1Invalidate (s : State) (core : Nat) (f : Nat → Bool) : State :=
  { s with l1 := s.l1.filter fun x => !(x.core == core && f x.line) }

/-- The retention priority that CACHE gives (09 R200). -/
def cacheRank (c : Nat) : Nat := if c == 1 then 0 else if c == 2 then 2 else 1

/-- Fill an L1 copy of a line from its home under a retention priority; the cache of a core holds 4,096 lines (00 R2), and of the lowest
priority the oldest gives way (09 R200; log [115], DESIGN CHOICE). DEDUCED, log [63]. -/
def State.l1Fill (s : State) (core line rank : Nat) : State :=
  match s.l1Find core line with
  | some _ => s
  | none =>
    let x : L1Line := ⟨core, line, (List.range 64).map fun i => s.seeByte 0 ⟨false, line * 64 + i⟩, rank⟩
    { s with l1 := x :: keepRanked (fun y => y.core == core) (·.rank) 3 (Config.l1Lines - 1) s.l1 }

/-! ### Scratchpad and accumulators -/

/-- Key of a scratchpad byte. DEDUCED, log [90]. -/
def scrKey (x : Space) (byte : Nat) : Nat := x.base + byte
/-- Key of byte `b` of a tile of a space. DEDUCED, log [90]. -/
def accKey (x : Space) (tile b : Nat) : Nat := x.base / 4 + tile * 16384 + b
def tileKey (sp tile : Nat) : Nat := sp * 16 + tile

/-- The parts of a scratchpad address and the checks of R195: the space and byte, or `none` for a bounds fault;
a block of the gang that has retired has no scratchpad. DESIGN CHOICE, log [75]. -/
def State.scrAt (s : State) (g : Group) (a : Int) (n : Nat) : Option (Nat × Nat) :=
  if a < 0 || (2 ^ 29 : Nat) ≤ a then none else
  let a := a.toNat
  let byte := a % 2 ^ 20
  let part := a / 2 ^ 20 % 4
  let gblk := a / 2 ^ 22 % 64
  let isGang := a / 2 ^ 28 % 2 == 1
  let b := s.block g.blk
  let l := s.launch b.launch
  let blk : Option Nat := if isGang then
      if l.gang == 0 || l.gang ≤ gblk then none
      else (s.blocks.find? fun e => e.2.present && e.2.launch == b.launch && e.2.gang == b.gang && e.2.index % l.gang == gblk).map (·.1)
    else if gblk == 0 then some g.blk else none
  match blk with
  | none => none
  | some k =>
    match (if k == g.blk && part == 0 && g.fork.isSome then some g.space else (s.block k).spaces[part]?) with
    | none => none
    | some sp => if byte + n ≤ (s.space sp).size then some (sp, byte) else none

/-- Length and first line of a stash window. -/
def Stash.lines0 (x : Stash) : Nat := x.word.toNat / 2 ^ 20
def Stash.wline (x : Stash) : Nat := x.word.toNat / 64 % 2 ^ 14
/-- A stash window covers any of the bytes; that of a group that has exited stands until its block exits (R198). -/
def State.inStash (s : State) (sp byte n : Nat) : Bool :=
  s.groups.any fun e => e.2.present && e.2.space == sp && (match e.2.stash with
    | some x => byte < (x.wline + x.lines0) * 64 && x.wline * 64 < byte + n
    | none => false)

def State.scrRead (s : State) (sp byte n : Nat) : Nat := rdN s.scr (scrKey (s.space sp) byte) n
/-- A scratchpad write at a key clears the poison of the words that it writes to (20 R409). -/
def State.scrPut (s : State) (k n x : Nat) : State :=
  { s with scr := wrN s.scr k n x, poisScr := s.poisScr.filter fun w => !(k < w * 4 + 4 && w * 4 < k + n) }
def State.scrWrite (s : State) (sp byte n x : Nat) : State := s.scrPut (scrKey (s.space sp) byte) n x

/-- Race shadow of the words of a range (22 R430). -/
def State.shadow (s : State) (sp byte n v : Nat) : State :=
  let x := s.space sp
  if (s.launch (s.block x.blk).launch).race == 0 then s
  else s.setSpace sp { x with shadow := (List.range ((byte + n + 3) / 4 - byte / 4)).foldl (fun m i => put 0 m (byte / 4 + i) v) x.shadow }

/-! ### Object bytes -/

/-- The stash lines, in the worlds that satisfy `f`, that shadow bytes of an object range: (context, line). -/
def State.stashOver (s : State) (part : Nat) (f : Nat → Bool) (obj off n : Nat) : List (Nat × Nat) :=
  (s.groups.filterMap fun e =>
    match e.2.stash with
    | some x =>
      if !(e.2.present && e.2.part == part && f e.2.world) then none else
      let r : Rec := ⟨x.recw⟩
      if r.obj != obj then none
      else some ((List.range x.lines0).filterMap fun k =>
        let o := r.base + x.m + 64 * k
        if get LineSt.unfilled x.lines k != .unfilled && o < off + n && off < o + 64 then some (e.1, k) else none)
    | none => none).flatten

/-- Worlds of a chain up to the first that has a view line of a place. -/
def tagsTo (s : State) (p : Place) : List Nat → List Nat
  | [] => []
  | t :: r => t :: (if (s.viewAt t p.remote (p.addr / 64)).isSome then [] else tagsTo s p r)

/-- The worlds in which a byte that world `w` reads may have been written last: up to the first view line (18 R365). -/
def State.readTags (s : State) (part w obj off : Nat) : List Nat :=
  match placeOf (s.part part) obj off with
  | some p => tagsTo s p (s.chain 4 w)
  | none => s.chain 4 w

/-- Write object bytes as world `w`; those that translate. -/
def State.putObj (s : State) (part w obj off : Nat) : List Byte → State
  | [] => s
  | b :: r =>
    match placeOf (s.part part) obj off with
    | some p => (s.putByte w p b).putObj part w obj (off + 1) r
    | none => s.putObj part w obj (off + 1) r

def State.seeObj (s : State) (part w obj off n : Nat) : List Byte :=
  (List.range n).map fun i => match placeOf (s.part part) obj (off + i) with
    | some p => s.seeByte w p
    | none => 0

/-- An unused operation id of a group. -/
def Group.newId (g : Group) : Nat :=
  1 + Max.max (g.ops.foldl (fun m o => Max.max m o.id) 0) (g.copies.foldl (fun m c => Max.max m c.id) 0)

def setLine (x : Stash) (k : Nat) (st : LineSt) : Stash := { x with lines := put .unfilled x.lines k st }

/-- HBM lines of an object range. -/
def State.hbmLines (s : State) (part obj off n : Nat) : List Nat :=
  ((List.range n).filterMap fun i => match placeOf (s.part part) obj (off + i) with
    | some p => if p.remote then none else some (p.addr / 64)
    | none => none).eraseDups

/-- The lines of which some places are all 64 bytes: their first places. -/
def wholeLines (l : List Place) : List Place :=
  ((l.map fun p => (⟨p.remote, p.addr / 64 * 64⟩ : Place)).eraseDups).filter fun q => (List.range 64).all fun i => l.contains ⟨q.remote, q.addr + i⟩

/-- Lines that world `w` writes whole are clean again (20 R409). -/
def State.cleanPlaces (s : State) (w : Nat) (l : List Place) : State :=
  if !s.marks then s else (wholeLines l).foldl (fun s p => s.setPois w p false) s
def State.cleanLines (s : State) (part w : Nat) (bs : List (Nat × Nat)) : State :=
  s.cleanPlaces w (bs.filterMap fun b => placeOf (s.part part) b.1 b.2)

/-- The bytes of a stash line in scratchpad that carry poison, by bit. -/
def State.poisMask (s : State) (key : Nat) : Nat := (List.range 64).foldl (fun x i => if s.poisScr.contains ((key + i) / 4) then x + 2 ^ i else x) 0

/-- `n` bytes of an object, written by world `w`, carry poison where `m` has a bit: a line that takes a poisoned byte is poisoned, one that is written
whole without any is clear (20 R409). -/
def State.markLines (s : State) (part w obj off n m : Nat) : State :=
  let bad := if m == 0 then [] else (List.range n).filter fun i => m / 2 ^ i % 2 == 1
  (bad.filterMap fun i => placeOf (s.part part) obj (off + i)).foldl (fun s p => s.setPois w p true)
    (s.cleanLines part w ((List.range n).map fun i => (obj, off + i)))

/-- The accesses of the single bytes of an access of a parked write-back. -/
def Acc.single (a : Acc) (n : Nat) : List Acc :=
  (List.range n).map fun i => { a with off := a.off + i, val := a.val / 256 ^ i % 256, pois := a.pois / 2 ^ i % 2 }

/-- A write-back of `n` bytes, the whole or a part of a stash line that lies in one page: performed where the extent is RESIDENT, parked as
a store elsewhere, nothing where it does not translate (09 R198, R202, 17 R348). A parked write-back counts in ST, as the store that it
parks as, until it is performed (R198, R202, R207); with 62 counted it joins the group's last one, whose accesses are its bytes then. DEDUCED,
log [71]. -/
def State.writeBytes (s : State) (ctx obj off m : Nat) (bytes : List Byte) : State :=
  let g := s.group ctx
  match translate (s.part g.part) obj off 1 with
  | .error _ => s
  | .ok (.resident, _) => (s.putObj g.part g.world obj off bytes).markLines g.part g.world obj off bytes.length m
  | .ok _ =>
    let a : Acc := { lane := 0, obj := obj, off := off, val := leNat bytes, absent := true, held := true, pois := m }
    let o : Op := { id := g.newId, cls := .st, kind := .swb, place := .dev, bytes := bytes.length, parked := true, world := g.world, accs := [a] }
    let last := if g.cST.toNat < 62 then none else
      g.ops.reverse.find? fun x => x.kind == .swb && x.place == .dev && x.parked && x.world == g.world
    let s := match last with
      | some x => s.setGroup ctx { g with ops := g.ops.map fun (y : Op) =>
          if y.id == x.id then ({ y with bytes := 1, accs := (y.accs.map fun (b : Acc) => b.single y.bytes).flatten ++ a.single bytes.length } : Op) else y }
      | none =>
        let p := s.part g.part
        (s.setGroup ctx { g with ops := g.ops ++ [o], cST := g.cST + 1 }).setPart g.part { p with parked := p.parked ++ [(ctx, o.id)] }
    s.askReturn g.part obj (off / 65536)

/-- Write back a DIRTY stash line, which becomes CLEAN (R198): each of the pages that it lies in for itself, since BASE is free (R192). -/
def State.writeBack (s : State) (ctx k : Nat) : State :=
  let g := s.group ctx
  match g.stash with
  | none => s
  | some x =>
    if get LineSt.unfilled x.lines k != .dirty then s else
    let r : Rec := ⟨x.recw⟩
    let off := r.base + x.m + 64 * k
    let key := scrKey (s.space g.space) ((x.wline + k) * 64)
    let bytes := rdBytes s.scr key 64
    let m := s.poisMask key
    let n := Min.min 64 (65536 - off % 65536)
    let s := (s.setGroup ctx { g with stash := some (setLine x k .clean) }).writeBytes ctx r.obj off m (bytes.take n)
    if n == 64 then s else s.writeBytes ctx r.obj (off + n) (m / 2 ^ n) (bytes.drop n)

/-- Write back every DIRTY line of a group's window; `clear` leaves every line UNFILLED. -/
def State.writeBackAll (s : State) (ctx : Nat) (clear : Bool) : State :=
  match (s.group ctx).stash with
  | none => s
  | some x =>
    let s := (List.range x.lines0).foldl (fun s k => s.writeBack ctx k) s
    if clear then
      match (s.group ctx).stash with
      | some y => s.setGroup ctx { s.group ctx with stash := some { y with lines := [] } }
      | none => s
    else s

/-- A stash line changes its state. -/
def State.setStash (s : State) (ctx k : Nat) (st : LineSt) : State :=
  match (s.group ctx).stash with
  | some x => s.setGroup ctx { s.group ctx with stash := some (setLine x k st) }
  | none => s

/-- Stash lines of nested worlds that hold what world `w` supplied are stale once `w` writes: they become UNFILLED (R198, 18 R365). -/
def State.staleLines (s : State) (part w obj off n : Nat) : State :=
  ((s.stashOver part (fun x => x != w && (s.readTags part x obj off).contains w) obj off n).filter fun e =>
    (match (s.group e.1).stash with | some x => get LineSt.unfilled x.lines e.2 == .clean | none => false)).foldl
      (fun s e => s.setStash e.1 e.2 .unfilled) s

/-- Directory recall by another agent than the group `me`, of whole lines: DIRTY stash lines that the access would see are written
back; a writer leaves those of its world UNFILLED (R198). A write-back into a LEAVING extent waits, and the reader is served what it will write.
DEDUCED, log [71]. -/
def State.recall (s : State) (part w obj off n : Nat) (write : Bool) (me : Option Nat := none) : State :=
  let a := off / 64 * 64
  let m := (off + n + 63) / 64 * 64 - a
  let tags := s.readTags part w obj off ++ s.readTags part w obj (off + n - 1)
  let s := ((s.stashOver part tags.contains obj a m).filter fun e => some e.1 != me).foldl (fun s e =>
    let s := s.writeBack e.1 e.2
    if write && (s.group e.1).world == w then s.setStash e.1 e.2 .unfilled else s) s
  if write then s.staleLines part w obj a m else s

/-- A handle names `n` bytes inside a live object. -/
def Part.holds (p : Part) (h : DWord) (n : Nat) : Bool :=
  objOf h != 0 && objOf h < 2 ^ p.otlog && (p.obj (objOf h)).live && offOf h + n ≤ (p.obj (objOf h)).size

/-- A byte as the device's own agents see it: what waits for its extent first, then its place; an AWAY byte is open. -/
def State.devByte (s : State) (part obj off : Nat) : Byte :=
  match (s.part part).heldWrites.reverse.find? fun w => w.1 == obj && w.2.1 ≤ off && off < w.2.1 + w.2.2.length with
  | some w => w.2.2.getD (off - w.2.1) 0
  | none => match placeOf (s.part part) obj off with
    | some p => s.seeByte 0 p
    | none => if (((s.part part).obj obj).ext (off / 65536)).isSome then Config.awayByte obj off else 0

/-- Read and write through a handle as the device's own agents do, outside any world. DESIGN CHOICE, log [70]. -/
def State.devRead (s : State) (part : Nat) (h : DWord) (n : Nat) : Nat :=
  let t := s.recall part 0 (objOf h) (offOf h) n false
  leNat ((List.range n).map fun i => t.devByte part (objOf h) (offOf h + i))
/-- The device's own agents write bytes of an object; lines that are written whole are clean (20 R409). -/
def State.devPut (s : State) (part obj off : Nat) (bs : List Byte) : State :=
  ((s.recall part 0 obj off bs.length true).putObj part 0 obj off bs).cleanLines part 0 ((List.range bs.length).map fun i => (obj, off + i))
/-- DESIGN CHOICE, log [70]: a write by the device's own agents to an extent that is not RESIDENT waits as a store does (09 R202). -/
def State.devWrite (s : State) (part : Nat) (h : DWord) (bs : List Byte) : State :=
  let p := s.part part
  let obj := objOf h
  let off := offOf h
  if (p.rangeStates obj off bs.length).any (·.1 != .resident) then
    ([off, off + bs.length - 1].map (· / 65536)).eraseDups.foldl (fun s pg => s.askReturn part obj pg)
      (s.setPart part { p with heldWrites := p.heldWrites ++ [(obj, off, bs)] })
  else s.devPut part obj off bs

/-! ### Ranges that the engine owns (08 R182) -/

/-- Ranges of one object meet in a line, of a scratchpad in a byte. -/
def spotsMeet (d q : Nat × Nat × Nat) : Bool :=
  if d.1 < 2 ^ 24 then q.2.1 / 64 * 64 < d.2.1 + d.2.2 && d.2.1 / 64 * 64 < q.2.1 + q.2.2 else q.2.1 < d.2.1 + d.2.2 && d.2.1 < q.2.1 + q.2.2

/-- Outstanding copy commands of a partition that satisfy `f`, by context, own some ranges and have not finished with them (08 R182). DEDUCED,
log [82]. -/
def State.ownedSpots (s : State) (part : Nat) (f : Nat → CopyCmd → Bool) (qs : List (Nat × Nat × Nat)) : Bool :=
  s.groups.any fun e => e.2.part == part && e.2.copies.any fun c => f e.1 c && c.owns.any fun d => qs.any fun q => d.1 == q.1 && spotsMeet d q

/-! ### Worlds with live siblings (18 R367, 10 R232) -/

/-- Some sibling of the group, at its fork or at an enclosing one, still lives; `n` bounds the depth. -/
def State.siblings (s : State) : Nat → Option Nat → Nat → Bool
  | 0, _, _ => false
  | n + 1, fk, me =>
    match fk with
    | none => false
    | some f =>
      let k := s.fork f
      (k.copies.zipIdx.any fun e => e.2 != me && e.1.imposed.isNone) || s.siblings n k.pFork k.pCopy

def State.liveSiblings (s : State) (g : Group) : Bool := s.siblings 4 g.fork g.copy

/-- One entry of the effect log of the group's world; a full log traps (R369). -/
def State.defer (s : State) (g : Group) (e : Effect) (m : Mask) : Chk State :=
  match g.fork with
  | none => .ok s
  | some f =>
    let k := s.fork f
    if 64 ≤ (k.copies.getD g.copy ⟨0, 0, none, none, []⟩).log.length then .error (.trap 21 7 0 m)
    else .ok (s.setFork f { k with copies := modAt k.copies g.copy fun c => { c with log := c.log ++ [e] } })

end Sys2Proof.Machine
end

