-- ==== Sys2Proof/Machine/Flags.lean ====
section
/-! DEFINITION. Machine/Flags.lean: guards, executing lanes (02 R43, 07 R108), predicates, and the carry window's presence rules
(13 R290 to R296). -/

namespace Sys2Proof.Machine

/-! ### Guards -/

/-- A uniform guard: `sp`G, or `ps`(G - 8), against GN. -/
def Guard.passes (gd : Guard) (g : Group) : Bool :=
  let n := gd.g.toNat
  (if n < 8 then g.sp.getLsbD n else g.stage (n - 8)) != gd.gn

/-- The lanes whose guard passes. -/
def Guard.lanes (gd : Guard) (g : Group) : Mask :=
  if gd.gu then (if Guard.passes gd g then fullMask g.width else 0)
  else fullMask g.width &&& (if gd.gn then ~~~(g.pmask gd.g.toNat) else g.pmask gd.g.toNat)

/-- The lanes that stand in the issuing path: its mask and the helpers of its leaders. -/
def State.pathMask (s : State) : Mask := s.pathMask0

/-- Executing lanes: active lanes whose guard passes, and helpers whose own guard passes (R108). -/
def State.execLanes (s : State) (gd : Guard) : Mask :=
  (s.pathMask ||| s.g.helpersIn s.pathMask) &&& Guard.lanes gd s.g

/-- Executing lanes that are not helpers. -/
def State.execLive (s : State) (gd : Guard) : Mask := s.execLanes gd &&& ~~~s.g.helper

/-- Does an instruction of the uniform front or a group command execute? Its guard is uniform or G = 15 (R43). -/
def State.groupPasses (s : State) (gd : Guard) : Bool := Guard.lanes gd s.g != 0

/-- Value of a predicate operand in a lane. -/
def Group.pred (g : Group) (o : Opnd) (l : Nat) : Bool :=
  match o with
  | .p n => bitOf (g.pmask n.toNat) l
  | .sp n => g.sp.getLsbD n.toNat
  | .ps n => g.stage n.toNat
  | _ => false

/-- Write a lane predicate in the lanes of `m` with the lanes of `x` true. -/
def Group.setPred (g : Group) (n : Nat) (m x : Mask) : Group := g.wrP n ((g.pmask n &&& ~~~m) ||| (x &&& m))

/-! ### Carry windows -/

/-- The context that holds the carry file of a group: its launcher's, or its own. -/
def State.winCtx (s : State) (ctx : Nat) : Nat := match (s.group ctx).it with | some it => it.launcher | none => ctx

def State.window (s : State) (ctx : Nat) : Option Window := (s.group (s.winCtx ctx)).win

/-- The current turn (R290): −1 outside a loop. -/
def State.turnOf (s : State) (ctx : Nat) : Int :=
  match (s.group ctx).it with
  | some it => (it.i + it.k : Nat)
  | none => match (s.group ctx).win with
    | some w => (match w.turn with | some t => (t : Int) | none => -1)
    | none => -1

/-- The slot that cK denotes at turn t, and the expected tag (R291). -/
def carrySlot (k : Nat) (t : Int) : Nat := (((k : Int) - t) % 64).toNat
def carryTag (k : Nat) (t : Int) : BitVec 16 := BitVec.ofInt 16 (t - k)
/-- Tag `a` is later than tag `b`, as 16-bit serial numbers. -/
def tagLater (a b : BitVec 16) : Bool := a != b && (a - b).toNat < 32768
/-- Tag `a` is earlier than tag `b` (08 R153). -/
def tagEarlier (a b : BitVec 16) : Bool := 32768 ≤ (a - b).toNat

inductive CarryRead
  | val (w : Word)
  | void
  | wait
  | overrun (slot : Nat) (tag : BitVec 16)
deriving DecidableEq, Repr

/-- A read of cK in a lane (R292). -/
def State.carryRead (s : State) (ctx k lane : Nat) : CarryRead :=
  let t := s.turnOf ctx
  let w := (s.window ctx).getD {}
  let x := get {} w.slots (slotKey (carrySlot k t) lane)
  let e := carryTag k t
  let idle := if (s.group ctx).it.isSome then CarryRead.wait else .void
  match x.st with
  | .empty => idle
  | .full => if x.tag == e then .val x.val else if tagLater x.tag e then .overrun (carrySlot k t) x.tag else idle
  | .void => if x.tag == e then .void else if tagLater x.tag e then .overrun (carrySlot k t) x.tag else idle

/-- The trap of a write of cK in a lane, if it meets one: kind 11 or 12 with its slot and tag (R293). -/
def State.carryBad (s : State) (ctx k lane : Nat) : Option (Nat × DWord) :=
  let t := s.turnOf ctx
  let w := (s.window ctx).getD {}
  let sl := carrySlot k t
  let x := get {} w.slots (slotKey sl lane)
  let d := BitVec.ofNat 64 (sl + x.tag.toNat * 65536)
  if x.st == .full && x.tag == carryTag k t then some (12, d)
  else if x.st != .empty && tagLater x.tag (carryTag k t) then some (11, d)
  else none

/-- The lanes of one state, and whether they write VOID. -/
def State.setSlots (s : State) (ctx : Nat) (f : SMap Slot → SMap Slot) : State :=
  let c := s.winCtx ctx
  match (s.group c).win with
  | some w => s.setGroup c { s.group c with win := some { w with slots := f w.slots } }
  | none => s

/-- Write cK in a lane (R293): FULL, or VOID for a helper or a forwarded void. -/
def State.carryWrite (s : State) (ctx k lane : Nat) (x : Word) (void : Bool) : State :=
  let t := s.turnOf ctx
  s.setSlots ctx fun m => put {} m (slotKey (carrySlot k t) lane) ⟨if void then 0 else x, carryTag k t, if void then .void else .full⟩

/-- Void slot-lane (lane, slot) at a tag (R294). -/
def voidSlot (m : SMap Slot) (slot lane : Nat) (tag : BitVec 16) : SMap Slot :=
  let x := get {} m (slotKey slot lane)
  if x.st != .empty && (x.tag == tag || tagLater x.tag tag) then m
  else put {} m (slotKey slot lane) ⟨0, tag, .void⟩

/-- Void the names of a yield mask at turn t in every lane. -/
def voidNames (m : SMap Slot) (width : Nat) (mask : DWord) (t : Int) : SMap Slot :=
  (List.range 64).foldl (fun m k =>
    if mask.getLsbD k then (List.range width).foldl (fun m l => voidSlot m (carrySlot k t) l (carryTag k t)) m else m) m

/-- YMASK_k of a loop's yield table in the constant segment (R288). -/
def State.ymask (s : State) (code table k : Nat) : DWord := BitVec.ofNat 64 (rdN (s.code code).seg (table + 8 + 8 * k) 8)

/-- May the group write cK at its current turn (R293)? -/
def State.mayYield (s : State) (ctx k : Nat) : Bool :=
  let g := s.group ctx
  match g.it with
  | none => true
  | some it => match (s.group it.launcher).win.bind (·.loop) with
    | some lp => (s.ymask g.code lp.table it.k).getLsbD k
    | none => true

/-- Clear a window: every slot-lane EMPTY, the turn back to −1 (R295). -/
def clearWindow : Window := {}

/-- The first `cset` or `twill` opens the window, and clears it after a loop (R26, R295). -/
def Group.openWindow (g : Group) : Group :=
  match g.win with
  | none => { g with win := some clearWindow }
  | some w => if w.ended then { g with win := some clearWindow } else g

end Sys2Proof.Machine
end

