-- ==== Sys2Proof/Machine/Tokens.lean ====
section
/-! DEFINITION. Machine/Tokens.lean: the queue registers (01 R28, 08 R167 to R169), staged task records and the task ring
(15 R323 to R337). -/

namespace Sys2Proof.Machine

/-- Store a token; a full queue discards its oldest, and the new token carries LOST (R167). -/
def pushTok (q : List Word) (w : Word) : List Word := if q.length < 64 then q ++ [w] else q.drop 1 ++ [w ||| 0x8000]

/-- Store the tokens of markers that wait for nothing more, in the order in which they were pushed (R168). -/
def dueMarkers : List Marker → List Word → List Marker × List Word
  | [], q => ([], q)
  | m :: r, q => if m.waits.isEmpty then dueMarkers r (pushTok q (BitVec.ofNat 32 (m.val.toNat % 65536 * 65536 + 0x4000))) else (m :: r, q)

def Group.settleM (g : Group) : Group := { g with mkM := (dueMarkers g.mkM g.qm).1, qm := (dueMarkers g.mkM g.qm).2 }
def Group.settleX (g : Group) : Group := { g with mkX := (dueMarkers g.mkX g.qx).1, qx := (dueMarkers g.mkX g.qx).2 }

def dropWait (id : Nat) (l : List Marker) : List Marker := l.map fun m => { m with waits := m.waits.filter (· != id) }

/-- A command has completed or faulted: markers stop waiting for it. -/
def Group.doneM (g : Group) (id : Nat) : Group :=
  ({ g with mkM := dropWait id g.mkM } : Group).settleM
def Group.doneX (g : Group) (id : Nat) : Group :=
  ({ g with mkX := dropWait id g.mkX } : Group).settleX

/-! ### Task records (15 R324) -/

def recWord (r : List Word) (i : Nat) : Nat := (r.getD i 0).toNat
def recEntry (r : List Word) : Nat := recWord r 0
def recCtl (r : List Word) : Nat := recWord r 5 / 65536
def recPri (r : List Word) : Nat := recCtl r / 4 % 4
def recW (r : List Word) : Nat := recCtl r % 4
def recReceipt (r : List Word) : Bool := recCtl r / 16 % 2 == 1
def recSucc (r : List Word) : DWord := BitVec.ofNat 64 (recWord r 6 + recWord r 7 * 2 ^ 32)
def recArg (r : List Word) : DWord := BitVec.ofNat 64 (recWord r 2 + recWord r 3 * 2 ^ 32)
/-- The checks that `tspawn` and `tcont` make. -/
def recOk (r : List Word) : Bool := recWord r 1 == 0 && recEntry r % 64 == 0 && recCtl r / 32 == 0
def setSucc (r : List Word) (h : DWord) : List Word := setAt (setAt r 6 (h.truncate 32)) 7 ((h >>> 32).truncate 32)

/-! ### Sub-rings (15 R323, R329) -/

def Pool.ringAt (p : Pool) (pri i : Nat) : DWord :=
  p.ring + BitVec.ofNat 64 (0x40 + 64 * 2 ^ p.logc * pri + 64 * (i % 2 ^ p.logc))
/-- Indices from the oldest record that waits to TAIL. A record taken out of order behind a waiting one keeps its place until
the waiting one is taken, so that no record is overwritten (log [20], DEDUCED). -/
def Pool.count (p : Pool) (pri : Nat) : Nat := (p.tail.getD pri 0 + 2 ^ 32 - p.head.getD pri 0) % 2 ^ 32
def Pool.full (p : Pool) (pri : Nat) : Bool := 2 ^ p.logc ≤ p.count pri

def wordsOf (n : Nat) (bs : List Byte) : List Word :=
  match n with
  | 0 => []
  | n + 1 => BitVec.ofNat 32 (leNat (bs.take 4)) :: wordsOf n (bs.drop 4)

def State.ringRec (s : State) (part : Nat) (p : Pool) (pri i : Nat) : List Word :=
  wordsOf 16 (leBytes 64 (s.devRead part (p.ringAt pri i) 64))

/-- Enqueue a record at TAIL of its sub-ring (R329); OUTSTANDING rises first. -/
def State.enqueue (s : State) (l : Nat) (r : List Word) : State :=
  let x := s.launch l
  match x.pool with
  | none => s
  | some p =>
    let pri := recPri r
    let t := p.tail.getD pri 0
    let s := s.devWrite x.part (p.ringAt pri t) (bytesOfWords r)
    let p := { p with tail := setAt p.tail pri ((t + 1) % 2 ^ 32), outst := p.outst + 1,
                      since := if p.count pri == 0 then setAt p.since pri s.now else p.since }
    s.setLaunch l { s.launch l with pool := some p }

/-- The pool launch whose task the group runs. -/
def State.taskLaunch (s : State) (g : Group) : Option Nat :=
  let b := s.block g.blk
  if b.worker.isSome && b.task.isSome then some b.launch else none

/-- The group's earlier accesses that a REL waits for (10 R226): the reason of the first that has not completed. -/
def Group.relWait (g : Group) : Option Nat := (g.ops.find? fun o => !o.done && o.cls != .none).map (·.cls.reason)

/-- The word that a receipt carries (R337). -/
def receipt (pos pri : Nat) : Word := BitVec.ofNat 32 (pos % 65536 * 65536 + pri)

/-- `tspawn` of a record, and the completion of a staged one (R336, R338). -/
def State.spawn (s : State) (ctx : Nat) (r : List Word) (m : Mask) : Chk State :=
  let g := s.group ctx
  match s.taskLaunch g with
  | none => .error (.trap 28 0 0 m)
  | some l =>
    if !recOk r then .error (.trap 8 0 (BitVec.ofNat 64 (recEntry r)) m)
    else if s.liveSiblings g then s.defer g (.spawn r) m
    else match g.relWait with
      | some n => .error (.stall n)
      | none =>
        match (s.launch l).pool with
        | none => .error (.trap 28 0 0 m)
        | some p =>
          if p.full (recPri r) then .error (.stall 10)
          else
            let pos := p.tail.getD (recPri r) 0
            let s := s.enqueue l r
            .ok (if recReceipt r then s.setGroup ctx { s.group ctx with qk := pushTok (s.group ctx).qk (receipt pos (recPri r)) } else s)

/-! ### Pushing and popping -/

/-- Ids of the group's matrix commands that have not completed. -/
def State.mIds (s : State) (ctx : Nat) : List Nat := ((s.space (s.group ctx).space).ring.filter (·.ctx == ctx)).map (·.id)
/-- Ids of the group's copy commands that have neither completed nor faulted. -/
def Group.xIds (g : Group) : List Nat := (g.copies.filter fun c => !c.faulted).map (·.id)

/-- A write of a queue register: a marker, or one word of a task record (R168, R169, R336). -/
def State.pushQ (s : State) (ctx : Nat) (q : Queue) (w : Word) (m : Mask) : Chk State :=
  let g := s.group ctx
  match q with
  | .qm =>
    if w.toNat / 65536 != 0 then .error (.trap 8 0 (w.setWidth 64) m)
    else if 64 ≤ g.mkM.length then .error (.stall 10)
    else .ok (s.setGroup ctx ({ g with mkM := g.mkM ++ [⟨w, s.mIds ctx⟩] } : Group).settleM)
  | .qx =>
    if w.toNat / 65536 != 0 then .error (.trap 8 0 (w.setWidth 64) m)
    else if 64 ≤ g.mkX.length then .error (.stall 10)
    else .ok (s.setGroup ctx ({ g with mkX := g.mkX ++ [⟨w, g.xIds⟩] } : Group).settleX)
  | .qk =>
    if g.staged.length < 15 then .ok (s.setGroup ctx { g with staged := g.staged ++ [w] })
    else (s.spawn ctx (g.staged ++ [w]) m).map fun s => s.setGroup ctx { s.group ctx with staged := [] }

def Group.queue (g : Group) : Queue → List Word
  | .qm => g.qm | .qx => g.qx | .qk => g.qk
def Group.popQ (g : Group) : Queue → Group
  | .qm => { g with qm := g.qm.drop 1 }
  | .qx => { g with qx := g.qx.drop 1 }
  | .qk => { g with qk := g.qk.drop 1 }

end Sys2Proof.Machine
end

