-- ==== Sys2Proof/Machine/Operands.lean ====
section
/-! DEFINITION. Machine/Operands.lean: reading the source operands of formats A and I in every form, and committing a result in
the lanes or on the uniform front (02 R45, R48; 07 R108 to R111). -/

namespace Sys2Proof.Machine

/-! ### Elements of a register and the source modifiers -/

/-- Bits of an element of a type (07 R109). -/
def tyBits : Ty → Nat
  | .i64 | .u64 => 64
  | .f16 | .bf16 | .f16x2 | .bf16x2 | .i16x2 => 16
  | .i8x4 | .u8x4 => 8
  | _ => 32

/-- Element i of a register. -/
def elemAt (ty : Ty) (x i : Nat) : Nat := x / 2 ^ (tyBits ty * i) % 2 ^ tyBits ty

/-- A register from `n` elements of `b` bits, the first lowest. -/
def packBits (b : Nat) : List Nat → Nat
  | [] => 0
  | x :: r => x % 2 ^ b + 2 ^ b * packBits b r

/-- A register whose element i is `f i`. -/
def buildElems (ty : Ty) (f : Nat → Nat) : Nat := packBits (tyBits ty) ((List.range ty.elems).map f)

/-- ABS, then NEG, of one element of `b` bits: on its sign bit under a floating-point TY, in two's complement under a signed
one (R45). -/
def modBits (b : Nat) (float signed abs neg : Bool) (x : Nat) : Nat :=
  if float then
    let x := if abs then x % 2 ^ (b - 1) else x
    if neg then (if x / 2 ^ (b - 1) == 1 then x % 2 ^ (b - 1) else x + 2 ^ (b - 1)) else x
  else if signed then
    let v := sgn b x
    let v := if abs && v < 0 then -v else v
    let v := sgn b (wrap b v)
    wrap b (if neg then -v else v)
  else x

/-- ABS, then NEG, of one element of a type (R45). -/
def modElem (ty : Ty) (abs neg : Bool) (x : Nat) : Nat := modBits (tyBits ty) ty.isFloat ty.isSigned abs neg x

/-- ABS and NEG of every element of a register. -/
def modify (ty : Ty) (abs neg : Bool) (x : Nat) : Nat :=
  if abs || neg then buildElems ty fun i => modElem ty abs neg (elemAt ty x i) else x

/-- NEG and ABS of `cvt`: their kind follows TY, which is the destination's, and each element is one of the source type (R45).
DEDUCED, log [15]. -/
def modifySrc (ty sty : Ty) (abs neg : Bool) (x : Nat) : Nat :=
  if abs || neg then buildElems sty fun i => modBits (tyBits sty) ty.isFloat ty.isSigned abs neg (elemAt sty x i) else x

/-! ### Sources -/

/-- A source that an instruction uses: its field, the registers it names, and the type by which its modifiers act. -/
structure SrcUse where
  src : Src
  n : Nat
  ty : Ty
deriving DecidableEq, Repr

/-- What one lane meets. -/
inductive LaneStop
  | stall (reason : Nat)
  | trap (kind cause : Nat) (detail : DWord)
deriving DecidableEq, Repr

def pair (n : Nat) (f : Nat → Word) : Nat := (f 0).toNat + (if n == 2 then (f 1).toNat * 2 ^ 32 else 0)

/-- Value of a special register in a lane (01 R24). -/
def State.special (s : State) (ctx l : Nat) : Special → Nat
  | .lane => l + 64 * (s.group ctx).pair.getD 0
  | .quad => (l + 64 * (s.group ctx).pair.getD 0) / 4
  | .tid => (get 0 (s.group ctx).tid l).toNat
  | .group => (s.group ctx).gidx
  | .blockX => (s.block (s.group ctx).blk).x
  | .blockY => (s.block (s.group ctx).blk).y
  | .blockZ => (s.block (s.group ctx).blk).z
  | .gang =>
    let b := s.block (s.group ctx).blk
    if (s.launch b.launch).gang == 0 then 0xFFFFFFFF else b.gang
  | .grid => (s.launch (s.group ctx).launch).seq.toNat
  | .width => if (s.group ctx).pair.isSome then 128 else if (s.group ctx).narrow then 4 else (s.group ctx).width
  | .iter => match (s.group ctx).it with | some it => it.i | none => 0xFFFFFFFF
  | .turn => wrap 32 (s.turnOf ctx)
  | .world => (s.group ctx).worldWord
  | .core => (s.group ctx).core
  | .part => (s.group ctx).cpart
  | .rtop => (s.group ctx).topRegion.toNat + (s.group ctx).regions.length * 65536
  | .clock => (s.coreCycles (s.group ctx).core).toNat % 2 ^ 32

/-- The value of a source in a lane before modifiers, and whether a carry read found a void. DEDUCED, log [14]. -/
def State.rdOpnd (s : State) (ctx : Nat) (pops : List (Queue × Word)) (o : Opnd) (n l : Nat) : Except LaneStop (Nat × Bool) :=
  let g := s.group ctx
  match o with
  | .v r => .ok (pair n fun i => g.rdV (r.toNat + i) l, false)
  | .s r => .ok (pair n fun i => g.rdS (r.toNat + i), false)
  | .k r => .ok (pair n fun i => get 0 (s.code g.code).k (r.toNat + i), false)
  | .q q => .ok (match pops.find? (·.1 == q) with | some e => e.2.toNat | none => 0, false)
  | .c k => match s.carryRead ctx k.toNat l with
    | .val w => .ok (w.toNat, false)
    | .void => .ok (0, true)
    | .wait => .error (.stall 9)
    | .overrun sl tag => .error (.trap 11 0 (BitVec.ofNat 64 (sl + tag.toNat * 65536)))
  | .sr x => .ok (s.special ctx l x, false)
  | x => .ok (if g.pred x l then 1 else 0, false)

/-- Values of the sources in a lane, and whether some read was void. -/
def State.rdSrcs (s : State) (ctx : Nat) (pops : List (Queue × Word)) : List SrcUse → Nat → Except LaneStop (List Nat × Bool)
  | [], _ => .ok ([], false)
  | u :: r, l => do
    let (x, v) ← s.rdOpnd ctx pops u.src.opnd u.n l
    let (xs, v') ← s.rdSrcs ctx pops r l
    .ok (modify u.ty u.src.abs u.src.neg x :: xs, v || v')

/-- The words that the queue sources pop, one for each queue (R111); an empty queue stalls. -/
def popsFor (g : Group) : List SrcUse → Chk (List (Queue × Word))
  | [] => .ok []
  | u :: r => do
    let rest ← popsFor g r
    match u.src.opnd with
    | .q q =>
      if rest.any (·.1 == q) then .ok rest
      else match g.queue q with
        | w :: _ => .ok ((q, w) :: rest)
        | [] => .error (.stall 10)
    | _ => .ok rest

/-- The vector names of a source. -/
def SrcUse.names (u : SrcUse) : List Nat :=
  match u.src.opnd with | .v r => (List.range u.n).map (r.toNat + ·) | _ => []

def nameSet (l : List Nat) : BitVec 256 := l.foldl (fun m n => m ||| bit256 n) 0

/-- The names that KILL marks free. -/
def killSet (us : List SrcUse) : BitVec 256 := nameSet ((us.filter (·.src.kill)).map SrcUse.names).flatten

def specOf (o : Opnd) : DWord := (encodeSpec o).setWidth 64

/-- Checked mode's unmapped reads and poisoned names of the sources (R22, 20 R409): the trap, if one is met. DEDUCED, log [19]. -/
def nameStop (g : Group) : List SrcUse → Option (Nat × DWord)
  | [] => none
  | u :: r =>
    let un := if g.checked then u.names.find? fun n => !g.mapped.getLsbD n else none
    let po := u.names.find? fun n => g.vpois.getLsbD n
    let ps := match u.src.opnd with
      | .s n => ((List.range u.n).find? fun i => g.spois.getLsbD (n.toNat + i)).map fun i => n.toNat + i
      | _ => none
    match un, po with
    | some n, _ => some (7, BitVec.ofNat 64 n)
    | none, some n => some (29, BitVec.ofNat 64 n)
    | none, none => match ps with | some n => some (29, specOf (.s (BitVec.ofNat 7 n))) | none => nameStop g r

/-! ### Gathering the lanes -/

/-- Results of the lanes: the first lane that stops decides; a trap that only a helper meets drops that helper (01 R32). DEDUCED, log [19]. -/
def gather {α : Type} (helper : Mask) (rs : List (Nat × Except LaneStop α)) : Chk (List (Nat × α)) :=
  let stops : List (Nat × LaneStop) := rs.filterMap fun e => match e.2 with
    | .error (.trap k c d) => if bitOf helper e.1 then none else some (e.1, LaneStop.trap k c d)
    | .error x => some (e.1, x)
    | .ok _ => none
  match stops with
  | (_, .stall r) :: _ => .error (.stall r)
  | (l, .trap k c d) :: r =>
    let m := r.foldl (fun m e => match e.2 with | .trap k' _ _ => if k' == k then m ||| oneBit e.1 else m | _ => m) (oneBit l)
    .error (.trap k c d m)
  | [] => .ok (rs.filterMap fun e => match e.2 with | .ok x => some (e.1, x) | .error _ => none)

/-- Draw `k` words of a lane's stream (R138). -/
def Group.drawn (g : Group) (l k : Nat) : List Word :=
  (List.range k).map fun i => arx (get 0 g.ctr l + BitVec.ofNat 64 i) (get 0 g.key l)

def Group.stepCtr (g : Group) (ls : List Nat) (k : Nat) : Group :=
  if k == 0 then g else { g with ctr := ls.foldl (fun m l => put 0 m l (get 0 m l + BitVec.ofNat 64 k)) g.ctr }

/-! ### Committing -/

/-- The names that a destination covers. -/
def dstNames (dst : Opnd) (n : Nat) : List Opnd :=
  match dst with
  | .v _ | .s _ => opndSpan dst n
  | .p _ | .sp _ => [dst]
  | _ => []

def dstV (dst : Opnd) (n : Nat) : BitVec 256 :=
  match dst with | .v r => nameSet ((List.range n).map (r.toNat + ·)) | _ => 0

/-- DEDUCED, log [14]: a 64-bit operand of a carry or queue class is one 32-bit word, zero-extended. -/
def wordN (x i : Nat) : Word := BitVec.ofNat 32 (x / 2 ^ (32 * i))

/-- Write a value to `n` registers of a vector name in a lane. -/
def Group.wrVs (g : Group) (r n l x : Nat) : Group := (List.range n).foldl (fun g i => g.wrV (r + i) l (wordN x i)) g
def Group.wrSs (g : Group) (r n x : Nat) : Group := (List.range n).foldl (fun g i => g.wrS (r + i) (wordN x i)) g

/-- A trap of the executing lanes, or nothing written when only helpers execute. -/
def trapOr (live : Mask) (res : List (Nat × Nat)) (t : Option (Nat × Nat × DWord)) : Chk (List (Nat × Nat)) :=
  match t with
  | none => .ok res
  | some (k, c, d) => if live == 0 then .ok [] else .error (.trap k c d live)

/-- The results that a destination takes, or the trap that it raises: a carry name outside the yield mask or already written
(13 R293), a register budget that is passed (R20). DEDUCED, log [14]. -/
def State.dstRes (s : State) (ctx : Nat) (live : Mask) (uses : List SrcUse) (dst : Opnd) (n : Nat) (res : List (Nat × Nat)) :
    Chk (List (Nat × Nat)) :=
  match dst with
  | .c k =>
    match trapOr live res (if s.mayYield ctx k.toNat then none else some (13, 6, 0)) with
    | .error e => .error e
    | .ok r => gather (s.group ctx).helper (r.map fun e => (e.1, match s.carryBad ctx k.toNat e.1 with
        | some (kd, d) => .error (LaneStop.trap kd 0 d)
        | none => .ok e.2))
  | .v _ =>
    let m := (s.group ctx).needs (killSet uses) (dstV dst n)
    trapOr live res (if (s.group ctx).peak < m then some (6, 0, BitVec.ofNat 64 m) else none)
  | _ => .ok res

/-- A queue destination takes the value of the lowest executing lane that is no helper (R110). -/
def State.dstPush (s : State) (ctx : Nat) (live : Mask) (dst : Opnd) (res : List (Nat × Nat)) : Chk State :=
  match dst with
  | .q q =>
    match res.find? (fun e => bitOf live e.1) with
    | some e => s.pushQ ctx q (wordN e.2 0) live
    | none => .ok s
  | _ => .ok s

/-- p14 in the lanes that read a void (13 R292). -/
def Group.voided (g : Group) (m : Mask) : Group := if m == 0 then g else g.setPred 14 m m

/-- The pops of the queue sources. -/
def Group.popped (g : Group) (pops : List (Queue × Word)) : Group := pops.foldl (fun g e => g.popQ e.1) g

/-- Registers and predicates of the destination. -/
def Group.dstWrite (g : Group) (dst : Opnd) (n : Nat) (res : List (Nat × Nat)) : Group :=
  match dst with
  | .v r => res.foldl (fun g e => g.wrVs r.toNat n e.1 e.2) g
  | .p r => g.setPred r.toNat (res.foldl (fun m e => m ||| oneBit e.1) 0)
      (res.foldl (fun m e => if e.2 != 0 then m ||| oneBit e.1 else m) 0)
  | _ => g

/-- Carry slot-lanes of the destination. -/
def State.dstYield (s : State) (ctx : Nat) (dst : Opnd) (res : List (Nat × Nat)) : State :=
  match dst with
  | .c k => res.foldl (fun s e => s.carryWrite ctx k.toNat e.1 (wordN e.2 0) (bitOf (s.group ctx).helper e.1)) s
  | _ => s

/-- The lanes of `old` without those that `new` no longer holds: a helper that would trap writes nothing (01 R32). -/
def keptLanes (old new : List (Nat × Nat)) : Mask :=
  old.foldl (fun m e => if new.any (·.1 == e.1) then m else m &&& ~~~(oneBit e.1)) (~~~(0 : Mask))

/-- Commit the results of a lane instruction: stalls and traps of the destination first, then pops, p14, KILLs and writes. -/
def State.commitLanes (s : State) (ctx : Nat) (live : Mask) (uses : List SrcUse) (pops : List (Queue × Word)) (voids : Mask)
    (dst : Opnd) (n draws : Nat) (ls : List Nat) (res : List (Nat × Nat)) : Chk State :=
  match (s.group ctx).pendingWrite (dstNames dst n ++ (if voids == 0 then [] else [.p 14])) with
  | some r => .error (.stall r)
  | none =>
    match s.dstRes ctx live uses dst n res with
    | .error e => .error e
    | .ok kept =>
      match (s.setGroup ctx ((s.group ctx).popped pops)).dstPush ctx live dst kept with
      | .error e => .error e
      | .ok t =>
        let m := keptLanes res kept
        let g := ((((t.group ctx).voided (voids &&& m)).kill (killSet uses)).stepCtr (ls.filter (bitOf m)) draws).dstWrite dst n kept
        .ok ((t.setGroup ctx g).dstYield ctx dst kept)

/-- Commit the one result of the uniform front. -/
def State.commitUniform (s : State) (ctx : Nat) (uses : List SrcUse) (dst : Opnd) (n draws lane x : Nat) : Chk State :=
  let g := s.group ctx
  match g.pendingWrite (dstNames dst n) with
  | some r => .error (.stall r)
  | none =>
    let g := (g.kill (killSet uses)).stepCtr [lane] draws
    .ok (s.setGroup ctx (match dst with
      | .s r => g.wrSs r.toNat n x
      | .sp r => g.wrSp r.toNat (x != 0)
      | _ => g))

/-! ### The shared form of the instructions of formats A and I -/

/-- A value instruction: its sources, its destination and registers, the words it draws, and its result in a lane. -/
structure ValOp where
  uses : List SrcUse
  dst : Opnd
  n : Nat
  draws : Nat
  fn : Nat → List Nat → List Word → Except LaneStop Nat

/-- The lowest live lane of the issuing path, whose stream serves the uniform front (R100). -/
def State.frontLane (s : State) : Nat := (lanesOf (s.pathMask &&& s.g.liveLanes)).headD 0

/-- Illegal instruction with the bits of the slot as DETAIL (20 R387). DEDUCED, log [24]. -/
def illegalStop (x : Form) (cause : Nat) (m : Mask) : Stop := .trap 1 cause ((encodeForm x).truncate 64) m

/-- An odd `v` or `s` name. -/
def Opnd.odd : Opnd → Bool
  | .v r => r.toNat % 2 == 1
  | .s r => r.toNat % 2 == 1
  | _ => false

/-- A carry name is used in a group that holds no window (01 R26). -/
def usesCarry (f : AluF) (opc : Nat) : Bool := opc != 0x50 && (f.dst.isC || f.a.opnd.isC || f.b.opnd.isC || f.c.opnd.isC)

def State.needWindow (s : State) (opc : Nat) (f : AluF) : Chk Unit :=
  need (!(usesCarry f opc) || (s.window s.ctx).isSome) (illegalStop (.alu opc f) 7 s.pathMask)

/-- A carry destination outside the yield mask traps before any slot-lane is examined (13 R293). -/
def State.needYield (s : State) (live : Mask) (dst : Opnd) : Chk Unit :=
  match dst with
  | .c k => need (live == 0 || s.mayYield s.ctx k.toNat) (.trap 13 6 0 live)
  | _ => .ok ()

/-- Execute in the lanes of a mask (R108). -/
def State.runOn (s : State) (e : Mask) (op : ValOp) : Chk State := do
  let live := e &&& ~~~s.g.helper
  if e == 0 then .ok s else
  match nameStop s.g op.uses with
  | some (k, d) => if live == 0 then .ok s else .error (.trap k 0 d live)
  | none =>
    s.needYield live op.dst
    let pops ← popsFor s.g op.uses
    let ls := lanesOf e
    let vs ← gather s.g.helper (ls.map fun l => (l, do
      let (xs, v) ← s.rdSrcs s.ctx pops op.uses l
      let y ← op.fn l xs (s.g.drawn l op.draws)
      .ok (y, v)))
    let voids := vs.foldl (fun m x => if x.2.2 then m ||| oneBit x.1 else m) 0
    s.commitLanes s.ctx live op.uses pops voids op.dst op.n op.draws (vs.map (·.1)) (vs.map fun x => (x.1, x.2.1))

/-- Execute in the lanes that pass a guard. -/
def State.runLanes (s : State) (gd : Guard) (op : ValOp) : Chk State := s.runOn (s.execLanes gd) op

/-- Execute on the uniform front (R68): once, when the guard passes. -/
def State.runUniform (s : State) (gd : Guard) (op : ValOp) : Chk State := do
  if !s.groupPasses gd then .ok s else
  match nameStop s.g op.uses with
  | some (k, d) => .error (.trap k 0 d s.pathMask)
  | none =>
    let l := s.frontLane
    match (do let (xs, _) ← s.rdSrcs s.ctx [] op.uses l; op.fn l xs (s.g.drawn l op.draws) : Except LaneStop Nat) with
    | .error (.stall r) => .error (.stall r)
    | .error (.trap k c d) => .error (.trap k c d s.pathMask)
    | .ok y => s.commitUniform s.ctx op.uses op.dst op.n op.draws l y

/-- Does a form execute on the uniform front? -/
def onFront (opc : Nat) (f : AluF) : Bool :=
  match aluRow opc with
  | some row => aluUniform opc row f.imm.isSome f.var.toNat f.dst.raw f.a.opnd.raw f.b.opnd.raw f.c.opnd.raw
  | none => false

/-- The source type of `cvt` (R122). -/
def cvtSrc (f : AluF) : Ty := (Ty.ofCode ((f.imm.getD 0).toNat % 16)).getD .b32

/-- The type by which the modifiers of SA act (R45, R123); those of `cvt` act in its own meaning. -/
def modTyA (opc : Nat) (f : AluF) : Ty :=
  if opc == 0x39 then (match f.ty with | .f16x2 | .bf16x2 => .f32 | .i16x2 => .i32 | _ => .i16x2)
  else f.ty
/-- The type by which the modifiers of SB act: a count, control, exponent or scale is a signed integer (R45). DEDUCED, log [15]: the
sources of `dot` are one element of TY. -/
def modTyB (opc : Nat) (f : AluF) : Ty :=
  if [0x0C, 0x0D, 0x0E, 0x0F, 0x10, 0x2F, 0x3B, 0x3C].contains opc then .i32 else modTyA opc f
/-- The type by which the modifiers of SC act (R45). -/
def modTyC (opc : Nat) (f : AluF) : Ty := if opc == 0x3B then .i32 else f.ty

/-- The sources that a form uses, from its row (03 R65). -/
def aluUses (opc : Nat) (f : AluF) : List SrcUse :=
  match aluRow opc with
  | none => []
  | some row =>
    let (_, wa, wb, wc) := aluWidths opc f.ty f.imm
    (if row.roleA opc f.imm.isSome == .unused then [] else [⟨if opc == 0x38 then { f.a with abs := false, neg := false } else f.a, wa, modTyA opc f⟩])
      ++ (if row.roleB opc f.imm.isSome f.var.toNat == .unused then [] else [⟨f.b, wb, modTyB opc f⟩])
      ++ (if row.c == .unused then [] else [⟨f.c, wc, modTyC opc f⟩])

/-- IMM32 as an operand (R48). -/
def immVal (ty : Ty) (w : Word) : Nat := if ty == .i64 then wrap 64 (sgn 32 w.toNat) else w.toNat

/-- Operand values in the places a, b, c: IMM32 stands for b, or for a where it is the only operand (R48, R65). -/
def placeImm (opc : Nat) (f : AluF) (xs : List Nat) : List Nat :=
  match f.imm with
  | none => xs
  | some w =>
    if immForA opc then [immVal f.ty w]
    else if opc == 0x38 || opc == 0x4D then xs
    else match xs with
      | [] => [immVal f.ty w]
      | x :: r => x :: immVal (if [0x0C, 0x0D, 0x0E, 0x0F, 0x10, 0x2F, 0x3C].contains opc then .b32 else f.ty) w :: r

/-- Words drawn under stochastic rounding: one for each result element (R100). -/
def drawsOf (opc : Nat) (f : AluF) : Nat :=
  if f.var != 5 then 0
  else if [0x20, 0x21, 0x22, 0x23, 0x27, 0x28, 0x29, 0x2A, 0x2B, 0x2C, 0x2D, 0x2F, 0x3B, 0x3C].contains opc then f.ty.elems
  else if opc == 0x38 then (if f.ty.isFloat || (cvtSrc f).isFloat then f.ty.elems else 0)
  else if opc == 0x39 then (if f.ty.isFloat then 2 else 0)
  else 0

/-- The value instruction of a form with a pure result function on the operand values and the drawn words. -/
def valOp (opc : Nat) (f : AluF) (fn : List Nat → List Word → Nat) : ValOp :=
  ⟨aluUses opc f, f.dst, (aluWidths opc f.ty f.imm).1, drawsOf opc f, fun _ xs ws => .ok (fn (placeImm opc f xs) ws)⟩

/-- Run a value instruction where it executes, and move on. -/
def State.runVal (s : State) (opc : Nat) (f : AluF) (op : ValOp) : Chk State := do
  s.needWindow opc f
  let t ← if onFront opc f then s.runUniform f.guard op else s.runLanes f.guard op
  .ok t.advance

/-- The meaning of a value instruction. -/
def execVal (opc : Nat) (f : AluF) (fn : List Nat → List Word → Nat) (s : State) : Host.Outcome State Fault Refusal :=
  onGroup s (s.runVal opc f (valOp opc f fn))

end Sys2Proof.Machine
end

