-- ==== Sys2Proof/Machine/Fetch.lean ====
section
/-! DEFINITION. Machine/Fetch.lean: which path may issue (11 R261 to R263), what its slot holds (02 R35 to R41, R59 to R61), and the
placing of one instruction where the next step fetches it. -/

namespace Sys2Proof.Machine

/-- The log of a committed world is not performed yet: the group goes on when its last entry has been issued and its copies are done. -/
def Group.replaying (g : Group) : Bool := !g.replay.isEmpty || g.copies.any fun c => c.late && !c.faulted

/-- May the path in a slot of a group issue? -/
def canIssue (s : State) (ctx slot : Nat) : Bool :=
  let g := s.group ctx
  g.present && g.status == .run && !g.saved && s.clocked g.core && (s.block g.blk).status == .running && (match pathIn g.stack slot with
    | some p => p.sleep == 0
    | none => false)
    && (match g.it with | some it => !it.waitRel | none => true) && !g.atBsync && g.atReorder.isNone && !g.moving && !g.replaying

/-- A line of cold text has a place in the code's home-aperture object (23 R445, R454). -/
def State.coldPlaced (s : State) (c : Code) (line : Nat) : Bool :=
  let off := 64 * line - c.hot
  let p := s.part c.part
  p.holds (handle c.coldObj off) 64 && (placeOf p c.coldObj off).isSome && (placeOf p c.coldObj (off + 63)).isSome

/-- The bits of a text line: cold text is read in its home-aperture object, and while it has no place there stands as section 5 gave it
(23 R445, R454). DEDUCED, log [54]. DEDUCED, log [55]. -/
def State.textLine (s : State) (code line : Nat) : Nat :=
  let c := s.code code
  if c.hot ≤ 64 * line && s.coldPlaced c line then s.devRead c.part (handle c.coldObj (64 * line - c.hot)) 64 else rdN c.text (64 * line) 64

/-- A line of a code object as a fill brings it: one whose parities fail is discarded and fetched once more, and a copy that fails
again is not kept (02 R37). DEDUCED, log [55]. -/
def State.fillLine (s : State) (code line : Nat) : Option Nat :=
  let first := s.textLine code line
  if lineParityOk first then some first
  else
    let second := s.textLine code line
    if lineParityOk second then some second else none

/-- A core holds a line of a code object in its instruction cache. -/
def State.cached (s : State) (core code line : Nat) : Option ILine := s.icache.find? fun x => x.core == core && x.code == code && x.line == line

/-- A text line that the group's core has, or fetches now: its bits, and whether they passed the parity checks. DEDUCED, log [54]. -/
def lineBits (s : State) (g : Group) (line : Nat) : Nat × Bool :=
  match s.cached g.core g.code line with
  | some x => (x.bits, true)
  | none => (s.textLine g.code line, (s.fillLine g.code line).isSome)

/-- A line of cold text that the group's core has still to fetch from the home aperture (02 R41, 23 R445). -/
def coldMiss (s : State) (g : Group) (line : Nat) : Bool :=
  (s.code g.code).hot ≤ 64 * line && (s.cached g.core g.code line).isNone

inductive Fetched
  | instr (i : Instr)
  | stop (e : Stop)
deriving DecidableEq, Repr

/-- Cause 7 where it depends on the group: a carry name without a window, `cset` in an iteration group, an odd destination of a
wide ballot (01 R26, 07 R131, R134). -/
def lateUse (s : State) (g : Group) (ctx : Nat) (w : BitVec 96) : Bool :=
  let fmt := (field w 8 3).toNat
  let opc := (field w 0 8).toNat
  if fmt != 0 && fmt != 1 then false else
  let f := (if fmt == 0 then readA w else readI w).f
  (usesCarry f opc && (s.window ctx).isNone) || (opc == 0x50 && g.it.isSome) || (opc == 0x4A && f.var == 0 && g.width == 64 && Opnd.odd f.dst)

/-- The instruction at the PC of the issuing path, or the trap that its slot raises whenever it issues, or the wait for a cold line.
A PC whose slot is 5 to 7 names no instruction (00 R5; log [113], DEDUCED). -/
def fetch (s : State) : Fetched :=
  let g := s.g
  let p := g.path s.slot
  let c := s.code g.code
  let line := lineOfPc p.pc
  let k := slotOfPc p.pc
  if c.size < 64 * (line + 1) || 4 < k then .stop (.trap 1 1 0 p.mask)
  else
    let (bits, good) := lineBits s g line
    let w := lineSlot bits k
    if !good then .stop (.trap 2 0 0 p.mask)
    else if coldMiss s g line then .stop (.stall 11)
    else if !lineWordOk bits then .stop (.trap 1 1 (w.truncate 64) p.mask)
    else match decode w with
      | .instr i => .instr i
      | .illegal n => .stop (.trap 1 (if 7 < n && lateUse s g s.ctx w then 7 else n) (w.truncate 64) p.mask)

/-! ### The uniform front and the age of a group (11 R262, R263) -/

/-- Does an instruction execute on the uniform front (01 R11, 03 R68, R69, R71)? DEDUCED, log [114]. -/
def runsOnFront (i : Instr) : Bool :=
  match i.form with
  | some (.nop _) => true
  | some (.alu opc f) => onFront opc f
  | some (.mem opc f) => opc == 0x12 || (opc == 0 && f.data.isS)
  | some (.eng opc f) => engGroup opc (some f.dst) (some f.a.opnd)
  | some (.sys _ _) => true
  | some (.tw _ _) => true
  | _ => false

/-- An instruction that leaves the group's age: one of the uniform front, but `nop`, which counts for the age rule (03 R69). -/
def leavesAge (i : Instr) : Bool := match i.form with | some (.nop _) => false | _ => runsOnFront i

/-- The issuing group notes where its instruction executes. -/
def State.noteFront (s : State) (i : Instr) : State := s.setG { s.g with front := runsOnFront i, quiet := leavesAge i }

/-- The age of a group (R262). -/
def ageOf (s : State) (ctx : Nat) : Nat := s.now - (s.group ctx).lastBeat

/-- Is group `a` chosen before group `b`: older, then higher PRI, then lower context index (R262)? -/
def before (s : State) (a b : Nat) : Bool :=
  let x := ageOf s a
  let y := ageOf s b
  let p := (s.group a).setting.toNat % 4
  let q := (s.group b).setting.toNat % 4
  y < x || (x == y && (q < p || (p == q && a < b)))

/-- A slot of the group that can issue and is not stalled: of two, the one that did not issue last. -/
def readySlot (s : State) (ctx : Nat) : Option Nat :=
  let ok (k : Nat) := canIssue s ctx k && ((s.group ctx).path k).stall == 0
  let l := (s.group ctx).lastSlot
  if ok 0 && ok 1 then some (1 - l) else if ok 0 then some 0 else if ok 1 then some 1 else none

/-- The group has issued in this cycle. -/
def Group.issuedNow (g : Group) (now : Nat) : Bool := g.present && g.lastIssue == now + 1

/-- The issue slot, or the uniform front, of the group's core partition has issued in this cycle (R262, R263). -/
def portTaken (s : State) (g : Group) (front : Bool) : Bool :=
  s.groups.any fun e => e.2.issuedNow s.now && e.2.core == g.core && e.2.cpart == g.cpart && e.2.front == front

/-- Does the next instruction of a slot execute on the uniform front? -/
def nextFront (s : State) (ctx slot : Nat) : Bool :=
  match fetch { s with cur := (ctx, slot) } with | .instr i => runsOnFront i | .stop _ => false

/-- The oldest ready group whose port of its core partition has not issued in this cycle. -/
def oldestReady (s : State) : Option (Nat × Nat) :=
  let c := (s.groups.map (·.1)).filter fun n =>
    !(s.group n).issuedNow s.now && (match readySlot s n with | some k => !portTaken s (s.group n) (nextFront s n k) | none => false)
  match c with
  | [] => none
  | a :: r => let n := r.foldl (fun a b => if before s b a then b else a) a; (readySlot s n).map (n, ·)

/-- DESIGN CHOICE, log [6]: a choice of a place where several fit falls on the lowest number. -/
def freshKey {α : Type} (m : SMap α) : Nat := m.foldl (fun k e => Max.max k (e.1 + 1)) 0

/-- A width-8 group of one block at the first slot of a text that holds one instruction, which issues next (log [5], DEDUCED). -/
def placeOne (s : State) (w : Nat) : State :=
  let c := freshKey s.codes
  let n := freshKey s.groups
  let b := freshKey s.blocks
  let l := freshKey s.launches
  let x := freshKey s.spaces
  let text := wrN [] 0 64 (lineOf w)
  let s := s.setCode c { present := true, text := text, hot := 64, size := 64 }
  let s := s.setLaunch l { st := .placed, seq := 1, code := c, x := 1, y := 1, z := 1, next := 1 }
  let s := s.setSpace x { present := true, blk := b, base := x * 2 ^ 20 }
  let s := s.setBlock b { present := true, launch := l, groups := [n], spaces := [x], ngroups := 1 }
  let p : Path := { pc := 0, mask := 0xFF, rcv := noRcv }
  let s := s.setGroup n { present := true, blk := b, launch := l, code := c, space := x, width := 8, peak := 256, stack := [p] }
  { s with agenda := .issue n 0 :: s.agenda }

end Sys2Proof.Machine
end

