-- ==== Sys2Proof/Machine/WorldOps.lean ====
section
/-! DEFINITION. Machine/WorldOps.lean: the end of a group, of a world copy and of a fork (11 R275, 18 R373 to R378), and the places that view lines need (18 R368). -/

namespace Sys2Proof.Machine

/-- A group that has left: it issues no more, its window and tokens are gone, its operations in flight and its copy commands go
on (11 R275, 08 R182). -/
def Group.left (g : Group) : Group :=
  { g with
    status := .retired, stack := [], saves := [], recs := [], win := none, it := none, held := [], qm := [], qx := [],
    qk := [], mkM := [], mkX := [], staged := [], parkRec := none, atBsync := false, atReorder := none }

/-- Add the stall counters of a group to those of another (22 R428). DEDUCED, log [91]. -/
def Group.addStalls (g x : Group) : Group :=
  { g with stalls := (List.range 16).foldl (fun m r => put 0 m r (get 0 m r + get 0 x.stalls r)) g.stalls }

/-- Requests of a group that are parked at the memory side are dropped. -/
def State.unpark (s : State) (ctx : Nat) : State :=
  let p := (s.group ctx).part
  s.setPart p { s.part p with parked := (s.part p).parked.filter (·.1 != ctx) }

/-- A fork that is nested below copy j of fork f; `n` bounds the depth. -/
def State.under (s : State) : Nat → Nat → Nat → Nat → Bool
  | 0, _, _, _ => false
  | n + 1, f, j, k =>
    match (s.fork k).pFork with
    | none => false
    | some x => (x == f && (s.fork k).pCopy == j) || s.under n f j x

def State.nested (s : State) (f j : Nat) : List Nat := (s.forks.map (·.1)).filter fun k => s.under 4 f j k

/-- The group of a copy ends: its operations are discarded, its clones are freed, and its counters go to the group `heir`. DEDUCED, log [91]. -/
def State.endGroup (s : State) (ctx heir : Nat) (keepSpace : Nat) : State :=
  let g := s.group ctx
  if g.status == .retired then s else
  let s := s.emitGroup g 1 (g.path 0).pc.toNat
  let s := (s.unpark ctx).setGroup ctx { g.left with ops := [], copies := [], stash := none, cLD := 0, cST := 0, cSP := 0, cCP := 0, cMX := 0 }
  let s := if heir == ctx then s else (s.setGroup ctx { s.group ctx with stalls := [] }).setGroup heir ((s.group heir).addStalls g)
  let s := s.setBlock g.blk { s.block g.blk with issuedSum := (s.block g.blk).issuedSum + BitVec.ofNat 64 g.issued.toNat }
  if g.space == keepSpace then s else s.setSpace g.space {}

/-- Groups of copy j of fork f: the copy, and the iterations that it has launched. -/
def State.copyGroups (s : State) (f j : Nat) : List Nat := s.groupsWhere fun g => g.fork == some f && g.copy == j

/-- Drop the worlds nested below copy j of fork f, with their groups (R378). -/
def State.dropNested (s : State) (f j me heir keep : Nat) : State :=
  let ks := s.nested f j
  let gs := s.groupsWhere fun g => match g.fork with | some k => ks.contains k | none => false
  let s := gs.foldl (fun s c => if c == me then s else s.endGroup c heir keep) s
  s.dropForks fun k _ => ks.contains k

/-- Copy j of fork f ends with a code: its view, log and clones go (R376). -/
def State.endCopy (s : State) (f j : Nat) (code : Word) : State :=
  let c := (s.fork f).copies.getD j ⟨0, 0, none, none, []⟩
  let heir := ((s.fork f).copies.getD 0 ⟨0, 0, none, none, []⟩).ctx
  let keep := (s.group heir).space
  let s := s.dropNested f j c.ctx heir keep
  let s := (c.ctx :: s.copyGroups f j).foldl (fun s x => s.endGroup x heir keep) s
  let s := s.dropWorld c.world
  let k := s.fork f
  (s.setFork f { k with copies := modAt k.copies j fun c => { c with imposed := some code, log := [] } }).gcTags

/-! ### Places for view lines (R368) -/

/-- Lines of an object range. -/
def linesOf (obj off n : Nat) : List (Nat × Nat) :=
  (List.range ((off + n + 63) / 64 - off / 64)).map fun i => (obj, off / 64 + i)

/-- Lines of the object that the accesses of an operation reach. -/
def Op.lines (o : Op) : List (Nat × Nat) := (o.accs.map fun a => if a.clipped then [] else linesOf a.obj (o.span a).1 (o.span a).2).flatten

/-- Object lines that operations in flight, copies and DIRTY stash lines of the worlds of a partition will write: the store that makes a
stash line DIRTY takes the place of its view line. DESIGN CHOICE, log [96]. -/
def State.linesDue (s : State) (part : Nat) : List (Nat × Nat × Nat) :=
  (s.groups.map fun e =>
    let g := e.2
    if g.part != part then [] else
    (g.ops.map fun o =>
      if o.world != 0 && !o.done && (o.kind == .store || o.kind == .amo || o.kind == .rel) && (o.place == .dev || o.place == .stash) then
        o.lines.map fun l => (o.world, l.1, l.2)
      else if o.world != 0 && !o.done && o.kind == .swb && o.parked then o.lines.map fun l => (o.world, l.1, l.2)
      else []).flatten
      ++ (if g.world == 0 then [] else
        (g.copies.map fun c => (c.owns.map fun d => if d.1 < 2 ^ 24 then (linesOf d.1 d.2.1 d.2.2).map fun l => (g.world, l.1, l.2) else []).flatten).flatten
        ++ (match g.stash with
          | some x =>
            let r : Rec := ⟨x.recw⟩
            ((x.lines.filter (·.2 == .dirty)).map fun l => (linesOf r.obj (r.base + x.m + 64 * l.1) 64).map fun l => (g.world, l.1, l.2)).flatten
          | none => []))).flatten

/-- A line of which the world has a view line already; those of an extent that is away stand at their keys (log [95]). -/
def State.hasView (s : State) (part w obj line : Nat) : Bool :=
  match placeOf (s.part part) obj (64 * line) with
  | some p => (s.viewAt w p.remote (p.addr / 64)).isSome
  | none => (s.viewAt w false (limbo part obj (64 * line) / 64)).isSome || (s.viewAt w true (limbo part obj (64 * line) / 64)).isSome

/-- The overflow area takes the view lines that the lines `new` of a world still need, beside those already promised. -/
def State.viewRoom (s : State) (part w : Nat) (new : List (Nat × Nat)) : Bool :=
  let all := ((s.linesDue part) ++ new.map fun l => (w, l.1, l.2)).eraseDups.filter fun l => !s.hasView part l.1 l.2.1 l.2.2
  s.viewCount part + all.length ≤ (s.part part).ovsize / 128

/-- What a write that finds no place meets: an abort of copy j ≠ 0, a world-state trap in copy 0. -/
def State.exhausted (s : State) (m : Mask) : Chk State :=
  match s.g.fork with
  | none => .ok s
  | some f => if s.g.copy == 0 then .error (.trap 21 9 0 m) else .ok (s.endCopy f s.g.copy 0xFFFFFFFF)

end Sys2Proof.Machine
end

