-- ==== Sys2Proof/Machine/Perform.lean ====
section
/-! DEFINITION. Machine/Perform.lean: the memory side: guards of bytes (10 R222), acquires (10 R228), SC stamps (10 R229), phase
barriers (10 R247, R248), and performing an operation in flight (09 R205, R209 to R216; 10 R242). -/

namespace Sys2Proof.Machine

/-! ### Guards and acquires -/

/-- The guard of a byte: one that the binding table names, or the object's default guard (R222). -/
inductive GuardId
  | bound (h : DWord)
  | dflt (obj : Nat)
deriving DecidableEq, Repr

def Binding.covers (b : Binding) (obj off : Nat) : Bool := b.obj == obj && b.base ≤ off && off < b.base + b.len * 65536
def Part.guardOf (p : Part) (obj off : Nat) : GuardId :=
  match p.binds.find? fun b => b.covers obj off with
  | some b => .bound b.guard
  | none => .dflt obj

/-- The object bytes that an HBM line holds. -/
def Part.owners (p : Part) (line : Nat) : List (Nat × Nat) :=
  (p.objs.map fun e =>
    if e.2.host then [] else e.2.exts.filterMap fun x =>
      let a := x.loc % 2 ^ 23 * 65536
      if (x.st == .resident || x.st == .leaving) && a ≤ line * 64 && line * 64 < a + (x.nm1 + 1) * 65536
      then some (e.1, x.first * 65536 + (line * 64 - a)) else none).flatten

/-- An acquire of scope `blk` or wider by a group of a core, on some guards (R228). DEDUCED, log [63]. -/
def State.acquire (s : State) (part core : Nat) (gs : List GuardId) : State :=
  s.l1Invalidate core fun line => ((s.part part).owners line).any fun o => gs.contains ((s.part part).guardOf o.1 o.2)
/-- The same on every guard. -/
def State.acquireAll (s : State) (core : Nat) : State := s.l1Invalidate core fun _ => true

/-! ### SC stamps (R229) -/

/-- Key of the line of a place: 0 HBM, 1 fabric, 2 scratchpad and stash, 3 accumulators. -/
def scKey (space addr : Nat) : Nat := addr / 64 * 4 + space
/-- The stamp of an SC lane access, which is above the last stamp of every line that it touches. -/
def State.stamp (s : State) (ctx : Nat) (keys : List Nat) : State :=
  let g := s.group ctx
  let t := BitVec.ofNat 64 ((keys.map fun k => (get 0 s.sc k).toNat).foldl Max.max (s.core g.core).sc.toNat + 1)
  let s := s.setCore g.core { s.core g.core with sc := t }
  { s with sc := keys.foldl (fun m k => put 0 m k t) s.sc }.setGroup ctx { g with lastSC := t }

/-! ### Phase barriers -/

def State.pbExp (s : State) (sp byte : Nat) : Nat := s.scrRead sp byte 8 % 65536
/-- PENDING of a barrier word, never above EXPECTED (R247). -/
def State.pbPend (s : State) (sp byte : Nat) : Nat := Min.min (s.scrRead sp byte 8 / 65536 % 65536) (s.pbExp sp byte)
def State.pbPhase (s : State) (sp byte : Nat) : Nat := s.scrRead sp byte 8 / 2 ^ 32 % 2
/-- Write all 8 bytes of a barrier word, in one step and with [63:33] zero (R247). -/
def State.pbPut (s : State) (sp byte exp pend phase : Nat) : State :=
  (s.scrWrite sp byte 8 (exp + pend * 65536 + phase * 2 ^ 32)).shadow sp byte 8 0
/-- One arrival (R248); what it derives from a poisoned word stays poisoned (20 R409). -/
def State.arrive (s : State) (sp byte : Nat) : State :=
  let e := s.pbExp sp byte
  if e == 0 then s else
  let pend := s.pbPend sp byte - 1
  { (if pend == 0 then s.pbPut sp byte e e (1 - s.pbPhase sp byte) else s.pbPut sp byte e pend (s.pbPhase sp byte)) with poisScr := s.poisScr }

/-! ### Counters (09 R205) -/

def Group.cnt (g : Group) : Cls → BitVec 6
  | .ld => g.cLD | .st => g.cST | .sp => g.cSP | .cp => g.cCP | .mx => g.cMX | .none => 0
def Group.setCnt (g : Group) (c : Cls) (x : BitVec 6) : Group :=
  match c with
  | .ld => { g with cLD := x }
  | .st => { g with cST := x }
  | .sp => { g with cSP := x }
  | .cp => { g with cCP := x }
  | .mx => { g with cMX := x }
  | .none => g
def Group.rise (g : Group) (c : Cls) : Group := g.setCnt c (g.cnt c + 1)
def Group.fall (g : Group) (c : Cls) : Group := g.setCnt c (g.cnt c - 1)

/-- Operations that have completed with every earlier one of their class leave; `blk` holds the classes with an earlier one
left. -/
def sweep : List Op → List Cls → List Op × List Cls
  | [], _ => ([], [])
  | o :: r, blk =>
    if o.done && !blk.contains o.cls then let (k, f) := sweep r blk; (k, o.cls :: f)
    else let (k, f) := sweep r (o.cls :: blk); (o :: k, f)

/-- The counters fall in issue order; deferred KILLs that waited take effect. -/
def Group.retireOps (g : Group) : Group :=
  let (k, f) := sweep g.ops []
  let g := f.foldl Group.fall { g with ops := k, ufence := g.ufence.filter fun i => k.any (·.id == i) }
  g.flushKills

/-! ### Reading and writing the memory of one lane -/

/-- A byte through the core's L1: a copy serves it, however old; else the home does, and a copy may be kept, as CACHE says (09 R200). -/
def State.byteL1 (s : State) (core cache : Nat) (p : Place) : State × Byte :=
  if p.remote then (s, s.seeByte 0 p) else
  match s.l1Find core (p.addr / 64) with
  | some x => (s, x.bytes.getD (p.addr % 64) 0)
  | none => (if cache == 3 then s else s.l1Fill core (p.addr / 64) (cacheRank cache), s.seeByte 0 p)

/-- The bytes of a plain load outside any world. -/
def State.bytesL1 (s : State) (core cache part obj off : Nat) : Nat → State × List Byte
  | 0 => (s, [])
  | n + 1 =>
    let (s, b) := match placeOf (s.part part) obj off with
      | some p => s.byteL1 core cache p
      | none => (s, 0)
    let (s, r) := s.bytesL1 core cache part obj (off + 1) n
    (s, b :: r)

/-- Bytes of an object are poisoned as world `w` sees them (20 R409). -/
def State.poisObj (s : State) (part w obj off n : Nat) : Bool :=
  s.anyPois && (List.range n).any fun i => match placeOf (s.part part) obj (off + i) with
    | some p => s.poisByte w p
    | none => false
/-- DEDUCED, log [69]: a poisoned barrier word traps the `pbwait` that reads it. -/
def State.poisScrAt (s : State) (key n : Nat) : Bool := s.poisScr.any fun w => w * 4 < key + n && key < w * 4 + 4

/-- The core's own L1 copies of the lines of a range go: its groups read the lines no older from now on (10 R224). -/
def State.l1Forget (s : State) (g : Group) (obj off n : Nat) : State := (s.hbmLines g.part obj off n).foldl (fun s l => s.l1Drop g.core l) s

/-- A load of object bytes: an ACQ, an SC load, a world copy and an access across two lines read at the home or the view, which leaves no
older L1 copy behind (R193, 10 R224, R228); others may use L1. -/
def State.loadObj (s : State) (g : Group) (o : Op) (a : Acc) : State × Nat :=
  let s := s.recall g.part o.world a.obj a.off o.bytes false
  if o.world == 0 && o.ord == 0 && (s.hbmLines g.part a.obj a.off o.bytes).length ≤ 1 then
    let (s, bs) := s.bytesL1 g.core o.cache g.part a.obj a.off o.bytes
    (s, leNat bs)
  else (s.l1Forget g a.obj a.off o.bytes, leNat (s.seeObj g.part o.world a.obj a.off o.bytes))

/-- A store of object bytes at the point of coherence; the core's own L1 copies of the lines go (10 R228). -/
def State.storeObj (s : State) (g : Group) (w obj off n x : Nat) (me : Option Nat := none) : State :=
  ((s.recall g.part w obj off n true me).putObj g.part w obj off (leBytes n x)).l1Forget g obj off n

/-- A store of whole lines clears their poison (20 R409). -/
def State.clearCovered (s : State) (part : Nat) (o : Op) : State :=
  s.cleanLines part o.world (o.accs.map fun a => if a.clipped then [] else (List.range o.bytes).map fun i => (a.obj, a.off + i)).flatten

/-- The offset in the window of a stash access. -/
def State.stashOff (s : State) (ctx : Nat) (a : Acc) : Nat :=
  let g := s.group ctx
  match g.stash with
  | some x => a.addr - scrKey (s.space g.space) (x.wline * 64)
  | none => 0

/-- Fill an UNFILLED stash line by a coherent read (R198); poison travels with the bytes (20 R409). -/
def State.stashFill (s : State) (ctx k : Nat) : State :=
  let g := s.group ctx
  match g.stash with
  | none => s
  | some x =>
    if get LineSt.unfilled x.lines k != .unfilled then s else
    let r : Rec := ⟨x.recw⟩
    let off := r.base + x.m + 64 * k
    let s := s.recall g.part g.world r.obj off 64 false (some ctx)
    let bytes := s.seeObj g.part g.world r.obj off 64
    let s := s.l1Forget g r.obj off 64
    let key := scrKey (s.space g.space) ((x.wline + k) * 64)
    let bad := (List.range 16).filter fun i => s.poisObj g.part g.world r.obj (off + 4 * i) 4
    let s := { s with scr := wrBytes s.scr key bytes,
                      poisScr := (s.poisScr.filter fun w => !(key / 4 ≤ w && w < key / 4 + 16)) ++ bad.map (key / 4 + ·) }
    s.setGroup ctx { s.group ctx with stash := some (setLine x k .clean) }

/-- Take a stash line in exclusive ownership and make it DIRTY; no older L1 copy of it stays in the core (10 R235). -/
def State.stashOwn (s : State) (ctx k : Nat) : State :=
  let s := s.stashFill ctx k
  let g := s.group ctx
  match g.stash with
  | none => s
  | some x =>
    let r : Rec := ⟨x.recw⟩
    let s := (s.recall g.part g.world r.obj (r.base + x.m + 64 * k) 64 true (some ctx)).l1Forget g r.obj (r.base + x.m + 64 * k) 64
    s.setGroup ctx { s.group ctx with stash := some (setLine x k .dirty) }

/-- The function of an atomic (R212). -/
def amoFn (opc : Nat) (signed : Bool) (n old x exp : Nat) : Nat :=
  let b := 8 * n
  let le (p q : Nat) : Bool := if signed then sgn b p ≤ sgn b q else p ≤ q
  match opc with
  | 2 => (old + x) % 2 ^ b
  | 3 => if le old x then old else x
  | 4 => if le x old then old else x
  | 5 => old &&& x
  | 6 => old ||| x
  | 7 => old ^^^ x
  | 8 => x
  | 9 => if old == exp then x else old
  | _ => roundTo fFP32 0 false 0 (FVal.add false (decodeF fFP32 old) (decodeF fFP32 x)).r

/-- Shadow of a store by a group through BUF 12 (22 R430). -/
def State.shadowOf (s : State) (g : Group) (sp : Nat) : Nat :=
  let x := s.space sp
  1024 + (if x.core == g.core then g.cpart * 24 + g.gslot else 127) * 8 + (s.block x.blk).gen

/-- The keys of the stamps of the memory lines of an access; a stash line keeps that of the lines it holds (10 R229). A stamp stays with the
place when an extent moves. DESIGN CHOICE, log [73]. -/
def State.lineKeys (s : State) (part obj off n other : Nat) : List Nat :=
  (([off, off + n - 1].map fun x =>
    match placeOf (s.part part) obj x with | some p => scKey (if p.remote then 1 else 0) p.addr | none => other)).eraseDups

/-- Perform one lane's access. DEDUCED, log [72]: the flag of a store through BUF 12 or 14, which meets no extent of its own, is true. A parked
write-back recalls nothing: the stash lines that follow it in time hold what is newer (log [71]). An SC lane whose access is clipped or gives 0
because its extent is absent performs nothing, and takes no stamp. DESIGN CHOICE, log [30]. -/
def State.performAcc (s : State) (ctx : Nat) (o : Op) (a : Acc) : State × LaneRes :=
  let g := s.group ctx
  let sc := o.ord == 3
  if a.clipped then (s, ⟨a.lane, 0, o.kind != .store, false⟩) else
  match o.kind, o.place with
  | .load, .dev =>
    if a.absent then (s, ⟨a.lane, 0, false, false⟩) else
    let s := if sc then s.stamp ctx (s.lineKeys g.part a.obj a.off o.bytes 0) else s
    let (s, x) := s.loadObj g o a
    (s, ⟨a.lane, x, true, s.poisObj g.part o.world a.obj a.off o.bytes⟩)
  | .store, .dev =>
    let s := if sc then s.stamp ctx (s.lineKeys g.part a.obj a.off o.bytes 0) else s
    (s.storeObj g o.world a.obj a.off o.bytes a.val, ⟨a.lane, 0, !a.absent, false⟩)
  | .amo, .dev =>
    let s := if sc then s.stamp ctx (s.lineKeys g.part a.obj a.off o.bytes 0) else s
    let s := s.recall g.part o.world a.obj a.off o.bytes true
    let old := leNat (s.seeObj g.part o.world a.obj a.off o.bytes)
    let bad := s.poisObj g.part o.world a.obj a.off o.bytes
    (s.storeObj g o.world a.obj a.off o.bytes (amoFn o.amo o.signed o.bytes old a.val a.exp), ⟨a.lane, old, true, bad⟩)
  | .load, .acc =>
    let s := if sc then s.stamp ctx [scKey 3 a.addr] else s
    (s, ⟨a.lane, rdN s.acc a.addr o.bytes, true, s.poisAcc.any fun w => w * 4 < a.addr + o.bytes && a.addr < w * 4 + 4⟩)
  | .accld, _ => (s, ⟨a.lane, rdN s.acc a.addr 4, true, s.poisAcc.contains (a.addr / 4)⟩)
  | k, .stash =>
    let line := s.stashOff ctx a / 64
    match k with
    | .load =>
      let s := s.stashFill ctx line
      let s := if sc then s.stamp ctx (s.lineKeys g.part a.obj a.off o.bytes (scKey 2 a.addr)) else s
      (s, ⟨a.lane, rdN s.scr a.addr o.bytes, true, s.poisScrAt a.addr o.bytes⟩)
    | .store =>
      let s := s.stashOwn ctx line
      let s := if sc then s.stamp ctx (s.lineKeys g.part a.obj a.off o.bytes (scKey 2 a.addr)) else s
      (s.scrPut a.addr o.bytes a.val, ⟨a.lane, 0, true, false⟩)
    | .amo =>
      let s := s.stashOwn ctx line
      let s := if sc then s.stamp ctx (s.lineKeys g.part a.obj a.off o.bytes (scKey 2 a.addr)) else s
      let old := rdN s.scr a.addr o.bytes
      let bad := s.poisScrAt a.addr o.bytes
      (s.scrPut a.addr o.bytes (amoFn o.amo o.signed o.bytes old a.val a.exp), ⟨a.lane, old, true, bad⟩)
    | .swb => (s.writeBack ctx line, ⟨a.lane, 0, true, false⟩)
    | .sdrop =>
      (s.setStash ctx line .unfilled, ⟨a.lane, 0, true, false⟩)
    | _ => (s, ⟨a.lane, 0, true, false⟩)
  | .load, .scr =>
    let s := if sc then s.stamp ctx [scKey 2 a.addr] else s
    (s, ⟨a.lane, s.scrRead a.obj a.off o.bytes, true, s.poisScrAt a.addr o.bytes⟩)
  | .store, .scr =>
    let s := if sc then s.stamp ctx [scKey 2 a.addr] else s
    ((s.scrWrite a.obj a.off o.bytes a.val).shadow a.obj a.off o.bytes (s.shadowOf g a.obj), ⟨a.lane, 0, true, false⟩)
  | .amo, .scr =>
    let s := if sc then s.stamp ctx [scKey 2 a.addr] else s
    let old := s.scrRead a.obj a.off o.bytes
    let bad := s.poisScrAt a.addr o.bytes
    ((s.scrWrite a.obj a.off o.bytes (amoFn o.amo o.signed o.bytes old a.val a.exp)).shadow a.obj a.off o.bytes 0, ⟨a.lane, old, true, bad⟩)
  | .pbinit, _ => (s.pbPut a.obj a.off a.val a.val 0, ⟨a.lane, 0, true, false⟩)
  | .pbarr, _ => (s.arrive a.obj a.off, ⟨a.lane, 0, true, false⟩)
  | .swb, _ => (((s.putObj g.part o.world a.obj a.off (leBytes o.bytes a.val)).l1Forget g a.obj a.off o.bytes).markLines g.part o.world a.obj a.off o.bytes
      a.pois, ⟨a.lane, 0, true, false⟩)
  | .pref, _ => (s, ⟨a.lane, 0, !a.absent, false⟩)
  | _, _ => (s, ⟨a.lane, 0, true, false⟩)

/-- Perform the lanes in ascending order (R211, R212). DEDUCED, log [60]. -/
def State.performAccs (s : State) (ctx : Nat) (o : Op) : List Acc → State × List LaneRes
  | [] => (s, [])
  | a :: r =>
    let (s, x) := s.performAcc ctx o a
    let (s, xs) := s.performAccs ctx o r
    (s, x :: xs)

/-! ### Writing what came back -/

def extend (bytes : Nat) (signed : Bool) (x : Nat) : Nat :=
  if signed && bytes ≤ 2 then wrap 32 (sgn (8 * bytes) x) else x

/-- The destination registers and the flag, with the poison that the bytes carried (R209, 20 R409). -/
def Group.receive (g : Group) (o : Op) (rs : List LaneRes) : Group :=
  let n := regsOf o.bytes
  let bad := rs.any (·.poison)
  let g := if o.kind == .load || o.kind == .accld || (o.kind == .amo && o.ret) then
      (match o.dst with
        | .v r =>
          let g := rs.foldl (fun g x => g.wrVs r.toNat n x.lane (extend o.bytes o.signed x.val)) g
          if bad then { g with vpois := g.vpois ||| nameSet ((List.range n).map (r.toNat + ·)) } else g
        | .s r =>
          let g := rs.foldl (fun g x => g.wrSs r.toNat n (extend o.bytes o.signed x.val)) g
          if bad then { g with spois := (List.range n).foldl (fun m i => m ||| BitVec.ofNat 96 (2 ^ (r.toNat + i))) g.spois } else g
        | _ => g)
    else g
  if o.flagp < 15 then
    let t := rs.foldl (fun m x => if x.present then m ||| (if o.uniform then o.flagMask else oneBit x.lane) else m) 0
    g.setPred o.flagp o.flagMask t
  else g

/-- The guards of the bytes that an operation reaches (R225); scratchpad acts on the block scratchpad guard, which has no L1
lines. DEDUCED, log [64]. -/
def State.opGuards (s : State) (g : Group) (o : Op) : List GuardId :=
  if o.place == .dev then (o.accs.filterMap fun a => if a.clipped then none else
      some [(s.part g.part).guardOf a.obj a.off, (s.part g.part).guardOf a.obj (a.off + o.bytes - 1)]).flatten.eraseDups
  else []

/-- `rel` at its guard's home (R242): GEN rises by one, or, where bytes +4 to +15 are not zero, the guard-format fault is held and GEN stays
(R221). -/
def State.performRel (s : State) (ctx : Nat) (o : Op) : State :=
  let g := s.group ctx
  match o.accs with
  | [] => s
  | a :: _ =>
    let s := s.recall g.part o.world a.obj a.off 16 false
    let w := leNat (s.seeObj g.part o.world a.obj a.off 16)
    if w / 2 ^ 32 != 0 then
      let r : TrapRec := { trapRec ctx g 0 22 0 (handle a.obj a.off) 0 true with pc := o.pc }
      s.setGroup ctx { g with held := g.held ++ [{ cls := .st, trec := r }] }
    else s.storeObj g o.world a.obj a.off 4 ((w + 1) % 2 ^ 32)

/-- Mark an operation as completed. -/
def Group.finish (g : Group) (id : Nat) : Group :=
  ({ g with ops := g.ops.map fun o => if o.id == id then { o with done := true } else o } : Group).retireOps

/-- An access of an operation waits: for its extent, or for the group's own parked store (R202). -/
def Op.waits (o : Op) (a : Acc) : Bool := a.held && o.place == .dev

/-- Bytes that two operations of one group share. -/
def opOverlap (a b : Op) : Bool :=
  let mem (w : Where) : Bool := w == .dev || w == .stash
  a.accs.any fun x => b.accs.any fun y => !x.clipped && !y.clipped &&
    (if mem a.place && mem b.place then x.obj == y.obj && x.off < y.off + b.bytes && y.off < x.off + a.bytes
     else if a.place == b.place then x.addr < y.addr + b.bytes && y.addr < x.addr + a.bytes
     else false)

/-- The lines that an access touches, as ranges of whole lines of the object. -/
def Acc.whole (a : Acc) (n : Nat) : Acc × Nat := ({ a with off := a.off / 64 * 64 }, (a.off + n + 63) / 64 * 64 - a.off / 64 * 64)

/-- A load in whose lines the group's own parked store lies; the accesses of one line share their translation (R202, 17 R350). -/
def Group.behind (g : Group) (o : Op) (accs : List Acc) (a : Acc) : Bool :=
  let stores := (g.ops.takeWhile (·.id != o.id)).filter fun x => !x.done && x.parked
  let meets (b : Acc) : Bool := stores.any fun x => opOverlap { o with accs := [b] } x
  !stores.isEmpty && !a.clipped && accs.any fun b => meets b && !b.clipped && b.obj == a.obj
    && (a.whole o.bytes).1.off < (b.whole o.bytes).1.off + (b.whole o.bytes).2 && (b.whole o.bytes).1.off < (a.whole o.bytes).1.off + (a.whole o.bytes).2

/-- One more than the stamps of the outstanding copy and matrix commands, and than those that operations in flight have noted. -/
def State.copyStamp (s : State) : Nat :=
  1 + Max.max (s.groups.foldl (fun m e => e.2.ops.foldl (fun m o => Max.max m o.stamp) (e.2.copies.foldl (fun m c => Max.max m c.stamp) m)) 0)
    (s.spaces.foldl (fun m e => e.2.ring.foldl (fun m c => Max.max m c.stamp) m) 0)

/-- The range that a lane's access touches, in the form of `CopyCmd.owns`. -/
def Op.spot (o : Op) (a : Acc) : Option (Nat × Nat × Nat) :=
  if a.clipped then none else
  match o.place with
  | .dev => some (a.obj, o.span a)
  | .stash => some (a.obj, o.span a)
  | .scr => some (2 ^ 24 + a.obj, a.off, o.bytes)
  | .acc => none

/-- Lines of an operation that an outstanding copy command owns; the group's own earlier operations precede the engine. -/
def State.ownedBy (s : State) (part ctx : Nat) (o : Op) : Bool :=
  s.ownedSpots part (fun n c => !(n == ctx && o.id < c.id)) (o.accs.filterMap o.spot)

/-- An access of a load is not translated yet: it waits for the group's own parked store (R202), for a store that a `ufence` orders before it
(10 R250), or for a line that a copy command issued before it owns (08 R182). -/
def State.untranslated (s : State) (ctx : Nat) (o : Op) (a : Acc) : Bool :=
  let g := s.group ctx
  g.behind o o.accs a || (g.ops.any fun x => !x.done && o.after.contains x.id)
    || s.ownedSpots g.part (fun n c => c.stamp ≤ o.stamp && !(n == ctx && o.id < c.id)) ([a].filterMap o.spot)

/-- A load whose accesses have been translated where nothing that they waited for is left (R202, R203). -/
def State.freed (s : State) (ctx : Nat) (o : Op) : Op :=
  if o.kind != .load || o.place != .dev then o else
  let g := s.group ctx
  { o with accs := o.accs.map fun a =>
      if !a.held || s.untranslated ctx o a then a
      else { a with held := false, absent := o.soft && ((s.part g.part).rangeStates a.obj a.off o.bytes).any fun e => e.1 == .away || e.1 == .returning } }
/-- Perform an operation: the accesses that wait for no extent, each line under its own extent's state (17 R350); with none left it
completes. DEDUCED, log [60]. -/
def State.performOp (s : State) (ctx : Nat) (o : Op) : State :=
  let o := s.freed ctx o
  if o.kind == .rel then
    let s := s.performRel ctx o
    s.setGroup ctx ((s.group ctx).finish o.id)
  else
    let later := o.accs.filter o.waits
    let q := { o with accs := o.accs.filter fun a => !o.waits a }
    let (s, rs) := s.performAccs ctx o q.accs
    let g := s.group ctx
    let s := if o.kind == .store && o.place == .dev then s.clearCovered g.part q else s
    let s := if (o.ord == 1 || o.ord == 3) && 1 ≤ o.scope then s.acquire g.part g.core (s.opGuards g q) else s
    let g := s.group ctx
    if later.isEmpty then s.setGroup ctx ((g.receive o (o.got ++ rs)).finish o.id)
    else s.setGroup ctx { g with ops := g.ops.map fun x => if x.id == o.id then { o with accs := later, got := o.got ++ rs } else x }

/-! ### When an operation may be performed -/

/-- Does operation `o` wait for the earlier operation `x` of its group: same address (10 R235), and a `ufence` between them (10 R250)? -/
def waitsFor (o x : Op) : Bool :=
  !x.done && (
    if o.uniform && o.kind == .load && !x.uniform && x.kind != .load then
      (x.parked && opOverlap o x) || o.after.contains x.id || (!(x.kind == .store || x.kind == .amo) && opOverlap o x)
    else opOverlap o x)

/-- The stash line of an access holds nothing. -/
def State.unfilled (s : State) (ctx : Nat) (a : Acc) : Bool :=
  match (s.group ctx).stash with
  | some x => get LineSt.unfilled x.lines (s.stashOff ctx a / 64) == .unfilled
  | none => false

/-- The extents that are away of the bytes that an operation has still to read: a load or a fill that waited while the extent went
(R201, R203): object and first page. -/
def State.lostExts (s : State) (ctx : Nat) (o : Op) : List (Nat × Nat) :=
  if !(if o.place == .dev then o.kind == .load else o.place == .stash && (o.kind == .load || o.kind == .store || o.kind == .amo)) then [] else
  (o.accs.map fun a =>
    if a.clipped || a.absent || !(o.place == .dev || s.unfilled ctx a) then [] else
    (((s.part (s.group ctx).part).rangeStates a.obj (o.span a).1 (o.span a).2).filter fun e => isAway e.1).map fun e => (a.obj, e.2)).flatten.eraseDups
def State.lostPlace (s : State) (ctx : Nat) (o : Op) : Bool := !(s.lostExts ctx o).isEmpty

/-- The accesses of an operation that wait neither for extents nor for parked stores. -/
def State.openPart (s : State) (ctx : Nat) (o : Op) : Op :=
  let o := s.freed ctx o
  { o with accs := o.accs.filter fun a => !o.waits a }

/-- Nothing but its extents, or the engine where `eng` says so, may hold an operation in flight back, or the part of it that waits neither for
extents nor for parked stores. -/
def State.opFree (s : State) (ctx : Nat) (o : Op) (eng : Bool) : Bool :=
  let g := s.group ctx
  let q := s.openPart ctx o
  !o.done && !o.refused && (o.accs.isEmpty || !q.accs.isEmpty) && (eng || !s.ownedBy g.part ctx q)
    && (g.ops.takeWhile (·.id != o.id)).all fun x => !waitsFor q x

/-- An operation in flight may be performed now, or the part of it that waits neither for extents nor for parked stores. -/
def State.opReady (s : State) (ctx : Nat) (o : Op) : Bool := s.opFree ctx o false && !s.lostPlace ctx (s.openPart ctx o)

/-- A hard load or a fill that nothing but its extents holds back asks for their return, and its block parks (R201). -/
def State.parkLost (s : State) (ctx : Nat) (o : Op) : State :=
  let g := s.group ctx
  let miss := s.lostExts ctx (s.openPart ctx o)
  let b := s.block g.blk
  if miss.isEmpty || !(b.status == .running || b.status == .parked) || g.status == .retired then s else
  miss.foldl (fun s e => s.askReturn g.part e.1 e.2) (s.setBlock g.blk { b with status := .parked, missing := (b.missing ++ miss).eraseDups })

/-- Is the operation a load for the outcome rows: one that returns something to the group? -/
def Op.returns (o : Op) : Bool := o.kind == .load || o.kind == .accld || o.kind == .pref || (o.kind == .amo && o.ret)

/-- The counters of a saved context fall in memory too, and its last SC stamp rises (R207, 10 R230). -/
def State.syncCnt (s : State) (ctx : Nat) : State :=
  if (s.group ctx).saved && (s.group ctx).status != .retired then (s.wrCtx ctx 0xC (leBytes 4 (s.group ctx).cntWord)).wrCtx ctx 0x598 (leBytes 8 (s.group ctx).lastSC.toNat) else s

/-- The operations of a list that satisfy `want`, and the earlier ones that they wait for. -/
def neededOps (want : Op → Bool) : List Op → List Op
  | [] => []
  | o :: r =>
    let k := neededOps want r
    if !o.done && (want o || k.any fun y => waitsFor y o) then o :: k else k

/-- Perform operation `id` of a group with the earlier ones that it waits for, as far as they are ready. -/
def State.performNeeded (s : State) (ctx id : Nat) : State :=
  (neededOps (fun o => o.id == id) (s.group ctx).ops).foldl (fun (s : State) o => if s.opReady ctx o then (s.performOp ctx o).syncCnt ctx else s) s

/-- Complete operation `n` of a group, if it is ready. A core whose clocks stand still receives nothing (17 R357); a saved group's operations go
on at the memory side. -/
def State.complete (s : State) (ctx n : Nat) (ret : Bool) : State :=
  let g := s.group ctx
  if !(s.clocked g.core || g.saved) then s else
  match g.ops.find? (·.id == n) with
  | some o =>
    if Op.returns o != ret then s
    else if s.opReady ctx o then (s.performOp ctx o).syncCnt ctx
    else if s.opFree ctx o false then s.parkLost ctx o else s
  | none => s

/-- LOAD_COMPLETION and STORE_COMPLETION: an operation in flight is performed (R205). -/
def execLoadCompletion (ctx n : Nat) (s : State) : Host.Outcome State Fault Refusal := .next (s.complete ctx n true)
def execStoreCompletion (ctx n : Nat) (s : State) : Host.Outcome State Fault Refusal := .next (s.complete ctx n false)

end Sys2Proof.Machine
end

