-- ==== Sys2Proof/Machine/Place.lean ====
section
/-! DEFINITION. Machine/Place.lean: what the groups and blocks of a core take (01 R20, 11 R256, R257, 13 R287), and making a
group (01 R29), an iteration group (13 R286) and the spaces of a block. -/

namespace Sys2Proof.Machine

def Group.resident (g : Group) : Bool := g.present && g.status != .retired && !g.saved

/-- A group that takes a slot and registers of its core partition: every group of a resident block, one that has retired too, until its
block retires (01 R20, 11 R257). An iteration group stands in a place of its loop; a world copy that has ended has given its place up
(18 R376). DEDUCED, log [45]. -/
def Group.holdsPlace (g : Group) : Bool := g.present && !g.saved && g.it.isNone && !(g.status == .retired && g.fork.isSome)
/-- Groups that take a place of a core partition. -/
def State.standing (s : State) (core cp : Nat) : List Group :=
  s.groups.filterMap fun e => if e.2.holdsPlace && e.2.core == core && e.2.cpart == cp then some e.2 else none
/-- The places that a loop keeps for its iterations (13 R287). -/
def Group.kept (g : Group) : List Nat := match g.win.bind (·.loop) with | some lp => lp.places | none => []

/-- The retirement in progress of the worker of a context number (15 R332). -/
def Pool.retireOf (p : Pool) (ctx : Nat) : Option Retire := p.retiring.find? (·.ctx == ctx)

/-- What a block asks of the core of one of its parts (11 R256, R257). -/
structure Demand where
  groups : Nat
  width : Nat
  peak : Nat
  total : Nat
  acc : Nat
deriving DecidableEq, Repr

/-- Groups of a part that go to partition `cp`: ranks cp, cp + 4, … -/
def Demand.inPart (d : Demand) (cp : Nat) : Nat := (d.groups + 3 - cp) / 4

/-- Bytes that race detection reserves (22 R430). -/
def raceShare (race scratch : Nat) : Nat := if race == 0 then 0 else ((3 * scratch + 7) / 8 + 63) / 64 * 64
def spaceTotal (race scratch acc : Nat) : Nat := scratch + (if 1 ≤ acc then Config.ringBytes else 0) + raceShare race scratch

/-- Parts of a block of G groups, and the groups of part i. -/
def partsOf (g : Nat) : Nat := (g + 95) / 96
def perPart (g : Nat) : Nat := (g + partsOf g - 1) / partsOf g
def groupsOfPart (g i : Nat) : Nat := Min.min (perPart g) (g - i * perPart g)

def kernelOf (s : State) (l : Launch) : Kernel := (s.code l.code).kernels.getD l.kernel ⟨0, 8, 1, 0, 0, []⟩

/-- Demand of part i of a block of a launch. -/
def State.demand (s : State) (l : Launch) (i : Nat) : Demand :=
  let k := kernelOf s l
  ⟨groupsOfPart l.groups i, k.width, k.regs, spaceTotal l.race k.scratch k.acc, k.acc⟩

/-- What a part takes of a core: places and register bytes by core partition, scratchpad, tiles (11 R257). -/
structure Claim where
  places : List Nat
  bytes : List Nat
  total : Nat
  acc : Nat
deriving DecidableEq, Repr

def Demand.claim (d : Demand) : Claim :=
  ⟨(List.range 4).map d.inPart, (List.range 4).map fun cp => d.inPart cp * d.peak * d.width * 4, d.total, d.acc⟩

/-- Register names that a group's own place holds: a worker keeps REGS of its width code (15 R322). -/
def State.regsHeld (s : State) (g : Group) : Nat :=
  match (s.block g.blk).worker, (s.launch g.launch).pool with
  | some _, some p => Max.max g.peak (p.res.getD (wcode g.width) (0, 0, 0)).2.1
  | _, _ => g.peak
/-- Register bytes of a group and of the places that its loop keeps (01 R20). -/
def State.bytesOf (s : State) (g : Group) : Nat := (s.regsHeld g + g.kept.length * g.peak) * g.width * 4

/-! ### What a saved block takes (11 R258, R260, 20 R405) -/

/-- The part of its block that a group stands in: a group of a launch by its index, a copy or an iteration with it. -/
def State.partIndex (s : State) (b : Nat) (g : Group) : Nat :=
  let n := (s.block b).spaces.length
  if n ≤ 1 then 0 else g.gidx / perPart (s.launch g.launch).groups

/-- Groups of part i of a block that take a place of their own when the block is resident. -/
def State.partGroups (s : State) (b i : Nat) : List Nat :=
  s.groupsWhere fun g => g.blk == b && ({ g with saved := false } : Group).holdsPlace && s.partIndex b g == i

/-- Spaces of part i: the part's own, and the clones of world copies, which stand on part 0's core. -/
def State.partSpaces (s : State) (b i : Nat) : List Nat :=
  let own := (s.block b).spaces
  (s.spaces.filter fun e => e.2.present && e.2.blk == b && (own.getD i 0 == e.1 && i < own.length || (i == 0 && !own.contains e.1))).map (·.1)

/-- What part i of a saved block takes. -/
def State.savedClaim (s : State) (b i : Nat) : Claim :=
  let gs := (s.partGroups b i).map s.group
  let xs := (s.partSpaces b i).map s.space
  let sum (f : Group → Nat) (cp : Nat) : Nat := gs.foldl (fun t g => if g.cpart == cp then t + f g else t) 0
  ⟨(List.range 4).map (sum fun g => 1 + g.kept.length), (List.range 4).map (sum s.bytesOf),
    xs.foldl (fun t x => t + x.total) 0, xs.foldl (fun t x => t + x.acc) 0⟩

/-- Blocks of a gang of a launch that have not retired. -/
def State.gangBlocks (s : State) (lid gang : Nat) : List Nat :=
  (s.blocks.filter fun e => e.2.present && e.2.launch == lid && e.2.gang == gang).map (·.1)
/-- Their parts, in order: block and part number. -/
def State.savedParts (s : State) (lid gang : Nat) : List (Nat × Nat) :=
  ((s.gangBlocks lid gang).map fun b => (List.range (s.block b).spaces.length).map fun i => (b, i)).flatten

/-- What the gangs that hold reservations on a core ask for it (11 R258). -/
def State.reserved (s : State) (core : Nat) : List Claim :=
  (s.launches.map fun e =>
    (match e.2.resv with
      | some (_, cs, _) => (cs.zipIdx.filter (·.1 == core)).map fun c => (s.demand e.2 (c.2 % partsOf e.2.groups)).claim
      | none => [])
    ++ (match e.2.back with
      | some (g, _, cs, _) => ((cs.zip (s.savedParts e.1 g)).filter (·.1 == core)).map fun c => s.savedClaim c.2.1 c.2.2
      | none => [])).flatten

/-- DESIGN CHOICE, log [6]: a choice of a place where several fit falls on the lowest number. -/
def State.slotsFree (s : State) (core cp : Nat) : List Nat :=
  let gs := s.standing core cp
  (List.range Config.groupsPerPartition).filter fun n => !gs.any fun g => g.gslot == n || g.kept.contains n
def State.bytesTaken (s : State) (core cp : Nat) : Nat := (s.standing core cp).foldl (fun t g => t + s.bytesOf g) 0

/-- `n` more places of together `bytes` register bytes fit in a core partition beside the reservations (01 R20, 11 R257). -/
def State.placesFit (s : State) (core cp n bytes : Nat) : Bool :=
  let r := s.reserved core
  n + r.foldl (fun t c => t + c.places.getD cp 0) 0 ≤ (s.slotsFree core cp).length
    && s.bytesTaken core cp + r.foldl (fun t c => t + c.bytes.getD cp 0) 0 + bytes ≤ Config.vrfBytes

/-- `n` more groups fit in a core partition. DEDUCED, log [45]. -/
def State.fits (s : State) (core cp n width peak : Nat) : Bool := s.placesFit core cp n (n * peak * width * 4)

/-- The spaces of a core whose blocks are not saved. -/
def State.spacesOn (s : State) (core : Nat) : List Space :=
  s.spaces.filterMap fun e => if e.2.present && e.2.core == core && (s.block e.2.blk).status != .saved then some e.2 else none
def State.scratchFree (s : State) (core : Nat) : Nat :=
  Config.scratchBytes - (s.spacesOn core).foldl (fun t x => t + x.total) 0 - (s.reserved core).foldl (fun t d => t + d.total) 0
def State.tilesFree (s : State) (core : Nat) : Nat :=
  Config.tilesPerCore - (s.spacesOn core).foldl (fun t x => t + x.acc) 0 - (s.reserved core).foldl (fun t d => t + d.acc) 0

/-- A `twill` that waits for its places keeps a partition shut (13 R287). -/
def State.twillWaits (s : State) (core cp : Nat) : Bool :=
  (s.standing core cp).any fun g => match g.win with | some w => w.wait | none => false

/-- The core can take work: its die is not halted and its cluster not gated in a thermal emergency. Power gating ends when a block
is placed. -/
def State.coreUp (s : State) (core : Nat) : Bool := !s.halted.contains (core / 96) && !(s.cluster (core / 8)).gated

/-- What a part takes fits on a core (R257). -/
def State.claimFits (s : State) (core : Nat) (c : Claim) : Bool :=
  (List.range 4).all (fun cp => c.places.getD cp 0 == 0
      || (s.placesFit core cp (c.places.getD cp 0) (c.bytes.getD cp 0) && !s.twillWaits core cp))
    && c.total ≤ s.scratchFree core && c.acc ≤ s.tilesFree core && s.coreUp core
def State.fitsPart (s : State) (core : Nat) (d : Demand) : Bool := s.claimFits core d.claim

/-! ### Making a space and a group -/

/-- The keys of a space: its scratchpad bytes, tiles, stamps and poison read as at block start. -/
def State.freshSpace (s : State) (id : Nat) (x : Space) : State :=
  let b := id * 2 ^ 20
  { s with
    scr := zeroN s.scr b (2 ^ 20)
    acc := zeroN s.acc (b / 4) (2 ^ 18)
    tiles := s.tiles.filter fun e => e.1 / 16 != id
    sc := s.sc.filter fun e => !((e.1 % 4 == 2 && b ≤ e.1 / 4 * 64 && e.1 / 4 * 64 < b + 2 ^ 20)
      || (e.1 % 4 == 3 && b / 4 ≤ e.1 / 4 * 64 && e.1 / 4 * 64 < b / 4 + 2 ^ 18))
    poisScr := s.poisScr.filter fun w => !(b ≤ w * 4 && w * 4 < b + 2 ^ 20)
    poisAcc := s.poisAcc.filter fun w => !(b / 4 ≤ w * 4 && w * 4 < b / 4 + 2 ^ 18)
  }.setSpace id { x with base := b }

/-- A context index that may be used again: its group is absent, or is an iteration or a world copy that has ended and left nothing behind,
no matrix command either (13 R286). -/
def State.ctxDone (s : State) (c : Nat) : Bool :=
  let g := s.group c
  !g.present || (g.status == .retired && (g.it.isSome || g.fork.isSome) && g.ops.isEmpty && g.copies.isEmpty && g.stash.isNone
    && !(s.space g.space).ring.any (·.ctx == c))

/-- The lowest context index of a partition that no group holds. DESIGN CHOICE, log [6]. DESIGN CHOICE, log [112]. -/
def State.freeCtx (s : State) (part : Nat) : Nat :=
  part * 65536 + ((List.range (s.groups.length + 1)).find? fun i => s.ctxDone (part * 65536 + i)).getD 0

/-- Context indices that a partition's groups hold, with those set aside for the iterations of their loops (20 R402, 13 R287). -/
def State.ctxTaken (s : State) (part : Nat) : Nat :=
  s.groups.foldl (fun t e => if e.2.present && e.1 / 65536 == part && !(e.2.it.isSome && e.2.status != .retired) && !s.ctxDone e.1
    then t + 1 + e.2.kept.length else t) 0
/-- The context pool of a partition, of CTXCOUNT contexts, has room for `n` more groups (20 R402). DESIGN CHOICE, log [6]: what does not fit
there waits as for any other resource. -/
def State.ctxRoom (s : State) (part n : Nat) : Bool := s.ctxTaken part + n ≤ (s.part part).ctxcount
/-- The folded launch seed (07 R137). -/
def fold64 (x : DWord) : Nat := (x.toNat / 2 ^ 32) ^^^ (x.toNat % 2 ^ 32)

/-- Lane keys of a starting group: KH is the folded seed. -/
def keysOf (f width : Nat) (kl : Nat → Nat) : SMap DWord :=
  (List.range width).foldl (fun m l => put 0 m l (BitVec.ofNat 64 (f * 2 ^ 32 + kl l % 2 ^ 32))) []

/-- `s0` to `s95`: the ARGS image, over which the records of the kernel's `.object` lines are laid (23 R443). -/
def argRegs (args : SMap Word) (k : Kernel) : SMap Word :=
  k.objects.foldl (fun m o => (List.range 8).foldl (fun m i => put 0 m (8 * o.1 + i) (o.2.getD i 0)) m) args

/-- A launched group (R29). -/
def State.startGroup (s : State) (l : Launch) (lid b gidx core cp gslot space : Nat) (linear : Nat) : Group :=
  let k := kernelOf s l
  let c := s.code l.code
  let w := k.width
  let narrow := c.ulbel == some 4
  let tids := (List.range w).foldl (fun m i => put 0 m i (BitVec.ofNat 32 (gidx * w + i))) []
  { present := true, part := l.part, blk := b, launch := lid, code := l.code, space := space, gidx := gidx, width := w, core := core,
    cpart := cp, gslot := gslot, peak := k.regs, checked := l.checked, handler := pcOfAddr l.handler.toNat, lastBeat := s.now,
    stack := [{ pc := pcOfAddr k.entry, mask := if narrow then 0xF else fullMask w, rcv := noRcv }],
    exited := if narrow then 0xF0 else 0, narrow := narrow, pair := if c.ulbel == some 128 then some (gidx % 2) else none,
    s := argRegs l.args k, tid := tids, key := keysOf (fold64 l.seed) w fun i => linear * (l.groups * w) + gidx * w + i }

/-- A group begins: it is placed and traced. -/
def State.enter (s : State) (ctx : Nat) (g : Group) : State := (s.setGroup ctx g).emitGroup g 0 (ctx % 65536)

/-- Iteration group i of a launcher (13 R286); whatever handler executed the `twill`, it starts at level 0, with no trap record. DEDUCED, log [44]. -/
def iterGroup (s : State) (lc : Nat) (lp : Loop) (i gslot : Nat) : Group :=
  let g := s.group lc
  { present := true, part := g.part, blk := g.blk, launch := g.launch, code := g.code, space := g.space, gidx := g.gidx,
    width := g.width, core := g.core, cpart := g.cpart, gslot := gslot, peak := g.peak, checked := g.checked, handler := g.handler,
    lastBeat := s.now, stack := [{ pc := lp.body, mask := (g.path 0).mask, rcv := noRcv }],
    v := g.v, mapped := g.mapped, vpois := g.vpois, s := g.s, spois := g.spois, p := del g.p 14, sp := g.sp,
    it := some { launcher := lc, i := i, k := 0 },
    regions := g.regions, exited := g.exited, helper := g.helper, world := g.world, depth := g.depth, copy := g.copy, fork := g.fork,
    key := g.key, ctr := (List.range g.width).foldl (fun m l => put 0 m l (BitVec.ofNat 64 ((i + 1) * 2 ^ 40))) [],
    tid := g.tid, narrow := g.narrow, pair := g.pair }

end Sys2Proof.Machine
end

