-- ==== Sys2Proof/Machine/Twill.lean ====
section
/-! DEFINITION. Machine/Twill.lean: Twill loops: launching, ending and retiring iterations, and `twill`, `turn`, `tbrk`
(13 R285 to R306). -/

namespace Sys2Proof.Machine

def State.loopOf (s : State) (lc : Nat) : Option Loop := (s.group lc).win.bind (·.loop)
def State.setLoop (s : State) (lc : Nat) (lp : Loop) : State :=
  match (s.group lc).win with
  | some w => s.setGroup lc { s.group lc with win := some { w with loop := some lp } }
  | none => s

/-- The effective trip count N′ (R297). -/
def Loop.trip (lp : Loop) : Nat := match lp.brk with | some b => b + 1 | none => lp.n

/-- Launch the next iteration into a kept place (R285, R287). -/
def State.launchIter (s : State) (lc : Nat) (lp : Loop) : State :=
  let used := lp.live.map fun c => (s.group c).gslot
  let slot := (lp.places.find? fun p => !used.contains p).getD 0
  let c := s.freeCtx (s.group lc).part
  let g := iterGroup s lc lp lp.next slot
  let wait := lp.ordered && lp.live.any fun d => Loop.iterOf s d + 1 == lp.next && get 0 lp.released (Loop.iterOf s d) == 0
  let g := { g with it := some { launcher := lc, i := lp.next, k := 0, waitRel := wait } }
  (s.enter c g).setLoop lc { lp with next := lp.next + 1, live := lp.live ++ [c] }

/-- May the next iteration launch: it is below N′, and the one S before it has retired? It makes no other test (R287). -/
def State.mayLaunch (s : State) (lc : Nat) (lp : Loop) : Bool :=
  lp.next < lp.trip && lp.next < lp.n && !lp.live.any fun c => Loop.iterOf s c + lp.s ≤ lp.next

def State.launchIters (s : State) (lc : Nat) : Nat → State
  | 0 => s
  | n + 1 => match s.loopOf lc with
    | some lp => if s.mayLaunch lc lp then (s.launchIter lc lp).launchIters lc n else s
    | none => s

/-- Step 2 of R297: a slot-lane that is EMPTY or earlier than E(s) is voided at E(s). -/
def endSlots (width t : Nat) (m : SMap Slot) : SMap Slot :=
  (List.range 64).foldl (fun m sl =>
    let e : BitVec 16 := BitVec.ofInt 16 ((t : Int) - ((sl + t) % 64 : Nat))
    (List.range width).foldl (fun m l =>
      let x := get {} m (slotKey sl l)
      if x.st == .empty || tagEarlier x.tag e then put {} m (slotKey sl l) ⟨0, e, .void⟩ else m) m) m

/-- The PC of a slot's byte address (R288). -/
def pcOfByte (a : Nat) : Word := pcOf (a / 64) (a % 64 / 12)
def State.resumeOf (s : State) (code table : Nat) : Nat := rdN (s.code code).seg table 4

/-- The end of a loop (R297). -/
def State.endLoop (s : State) (lc : Nat) : State :=
  let g := s.group lc
  match g.win, s.loopOf lc with
  | some w, some lp =>
    let t := lp.trip + lp.s - 1
    let w' : Window := { slots := endSlots g.width t w.slots, turn := some t, ended := true, loop := none, last := some { lp with live := [], places := [], released := [] } }
    s.setGroup lc ({ g with win := some w', status := .run } |>.goto 0 (pcOfByte (s.resumeOf g.code lp.table)))
  | _, _ => s

/-- Launch what may launch, and end the loop when nothing is left. -/
def State.advanceLoop (s : State) (lc : Nat) : State :=
  let s := s.launchIters lc 8
  match s.loopOf lc with
  | some lp => if lp.live.isEmpty && (lp.trip ≤ lp.next || lp.n ≤ lp.next) then s.endLoop lc else s
  | none => s

/-- Void the yields of stages `k0` to S − 1 of iteration i (R294). -/
def State.voidStages (s : State) (code lc i k0 : Nat) : State :=
  match s.loopOf lc, (s.group lc).win with
  | some lp, some w =>
    let m := (List.range lp.s).foldl (fun m k =>
      if k0 ≤ k then voidNames m (s.group lc).width (s.ymask code lp.table k) (i + k : Nat) else m) w.slots
    s.setGroup lc { s.group lc with win := some { w with slots := m } }
  | _, _ => s

/-- An iteration group retires: its counters go to the launcher (22 R428), and the loop moves on. It stays an iteration, whose place is its
loop's. -/
def State.retireIter (s : State) (ctx : Nat) : State :=
  let g := s.group ctx
  match g.it with
  | none => s
  | some it =>
    let lc := it.launcher
    let s := s.emitGroup g 1 (g.path 0).pc.toNat
    let s := s.setGroup ctx { g.left with it := g.it, stalls := [] }
    let s := s.setGroup lc ((s.group lc).addStalls g)
    let b := s.block g.blk
    let s := s.setBlock g.blk { b with issuedSum := b.issuedSum + BitVec.ofNat 64 g.issued.toNat }
    match s.loopOf lc with
    | some lp => (s.setLoop lc { lp with live := lp.live.filter (· != ctx) }).advanceLoop lc
    | none => s

/-- Every lane of an iteration group has exited (R294): its yields are voided and it retires. -/
def State.exitIter (s : State) (ctx : Nat) : State :=
  let g := s.group ctx
  match g.it with
  | some it => (s.voidStages g.code it.launcher it.i it.k).retireIter ctx
  | none => s

/-! ### `twill` -/

def loopTrap (s : State) (cause : Nat) : Stop := .trap 13 cause 0 s.pathMask

/-- The yield table is well placed (R288). -/
def State.tableOk (s : State) (code table : Nat) : Bool :=
  table % 8 == 0 && table + 72 ≤ (s.code code).segSize && rdN (s.code code).seg (table + 4) 4 == 0
    && s.resumeOf code table % 64 % 12 == 0 && s.resumeOf code table % 64 < 60

/-- EMPTY slot-lanes become VOID with the tag of a turn before the loop (R296). -/
def seedVoids (width : Nat) (m : SMap Slot) : SMap Slot :=
  (List.range 64).foldl (fun m sl => (List.range width).foldl (fun m l =>
    if (get {} m (slotKey sl l)).st == .empty then
      put {} m (slotKey sl l) ⟨0, BitVec.ofInt 16 (-(if sl == 0 then 64 else sl : Nat)), .void⟩ else m) m) m

/-- The trip count operand. -/
def State.skVal (s : State) (o : Opnd) : Nat :=
  match s.rdOpnd s.ctx [] o 1 0 with | .ok (x, _) => x | .error _ => 0

/-- A one-word operand in a lane. -/
def State.linkVal0 (s : State) (o : Opnd) (l : Nat) : Word :=
  match s.rdOpnd s.ctx [] o 1 l with | .ok (x, _) => BitVec.ofNat 32 x | .error _ => 0

/-- A poisoned source of a group command. -/
def State.needSrc (s : State) (a : Src) : Chk Unit :=
  match nameStop s.g [⟨a, 1, .b32⟩] with
  | some (k, d) => .error (.trap k 0 d s.pathMask)
  | none => .ok ()

def execTwill (f : TwF) (s : State) : Host.Outcome State Fault Refusal :=
  onGroup s (do
    if !s.groupPasses f.guard then .ok s.advance else
    s.needSrc f.a
    let g := s.g
    let st := f.sm1.toNat + 1
    let n := s.skVal f.a.opnd
    need g.it.isNone (loopTrap s 1)
    need (!g.diverged) (loopTrap s 2)
    need (n < 2 ^ 31) (loopTrap s 4)
    need (s.tableOk g.code f.imm.toNat) (loopTrap s 3)
    need ((st + 1) * g.peak * g.width * 4 ≤ Config.vrfBytes) (loopTrap s 7)
    needNone g.relWait
    let g := g.openWindow
    let w := g.win.getD {}
    let w := { w with slots := seedVoids g.width w.slots }
    let t := s.setG { g with win := some w }
    if !(s.fits g.core g.cpart st g.width g.peak && s.ctxRoom g.part st) then .ok ((t.setG { t.g with win := some { w with wait := true } }).stallAt 8)
    else
    let lp : Loop := { n := n, s := st, ordered := f.ordered, next := 0, brk := none, table := f.imm.toNat, body := pcNext (g.path s.slot).pc,
                       live := [], places := (s.slotsFree g.core g.cpart).take st, released := [] }
    let g' := (g.countIssue s.slot s.now).setPath s.slot { g.path s.slot with stall := 0, sup := none }
    let t := t.setG { g' with status := .suspended, win := some { w with loop := some lp, wait := false } }
    .ok (t.advanceLoop s.ctx))

/-! ### `turn` and `tbrk` -/

def execTurn (f : TwF) (s : State) : Host.Outcome State Fault Refusal :=
  onGroup s (do
    if !s.groupPasses f.guard then .ok s.advance else
    let g := s.g
    match g.it with
    | none => .error (loopTrap s 5)
    | some it =>
      need (!g.diverged) (loopTrap s 2)
      match s.loopOf it.launcher with
      | none => .ok s.advance
      | some lp =>
        let t := s.setSlots s.ctx fun m => voidNames m g.width (s.ymask g.code lp.table it.k) (it.i + it.k : Nat)
        let last := it.k + 1 == lp.s || (match lp.brk with | some b => b < it.i | none => false)
        match (if lp.ordered || last then g.relWait else none) with
        | some r => .ok (t.stallAt r)
        | none =>
          let t := if lp.ordered then t.setLoop it.launcher { lp with released := put 0 lp.released it.i (it.k + 1) } else t
          let t := t.setG (t.g.countIssue s.slot s.now)
          if it.k + 1 == lp.s then .ok (t.retireIter s.ctx)
          else if last then .ok ((t.voidStages g.code it.launcher it.i (it.k + 1)).retireIter s.ctx)
          else
            let k := it.k + 1
            let wait := lp.ordered && lp.live.any fun d => Loop.iterOf s d + 1 == it.i && get 0 lp.released (Loop.iterOf s d) ≤ k
            .ok (t.setG ({ t.g with it := some { it with k := k, waitRel := wait } } |>.goto s.slot lp.body)))

/-- `tbrk` in iteration i (R298). -/
def State.breakLoop (s : State) (lc i : Nat) : State :=
  match s.loopOf lc with
  | none => s
  | some lp =>
    let s := s.setLoop lc { lp with brk := some i }
    let s := lp.live.foldl (fun s c => match (s.group c).it with
      | some it => if i < it.i then s.setGroup c { s.group c with it := some { it with cancelled := true } } else s
      | none => s) s
    (List.range lp.s).foldl (fun s d =>
      let j := i + d
      if 0 < d && lp.next ≤ j && j < lp.n then s.voidStages (s.group lc).code lc j 0 else s) s

def execTbrk (f : TwF) (s : State) : Host.Outcome State Fault Refusal :=
  onGroup s (do
    if !s.groupPasses f.guard then .ok s.advance else
    match s.g.it with
    | none => .error (loopTrap s 5)
    | some it =>
      let gone : Bool := match (s.loopOf it.launcher).bind (fun (l : Loop) => l.brk) with | some b => b < it.i | none => false
      let t := if gone then s else s.breakLoop it.launcher it.i
      .ok t.advance)

end Sys2Proof.Machine
end

