-- ==== Sys2Proof/Machine/Control.lean ====
section
/-! DEFINITION. Machine/Control.lean: branches and the divergence stack (11 R264 to R274), exit (R275, 18 R377, 20 R394), `brk`,
and `reorder` (R278, R279). -/

namespace Sys2Proof.Machine

/-! ### Dividing a path (R265, R266, R268) -/

/-- Spilled entries that the stack at the current level may hold: 64, or 8 in a handler (20 R391). -/
def Group.spillCap (g : Group) : Nat := if g.recs.isEmpty then 64 else 8

/-- Put a target set among sets keyed by ascending target PC. -/
def addSet (pc : Word) (m : Mask) : List (Word × Mask) → List (Word × Mask)
  | [] => [(pc, m)]
  | (q, n) :: r => if pc == q then (q, n ||| m) :: r else if pc.toNat < q.toNat then (pc, m) :: (q, n) :: r else (q, n) :: addSet pc m r

/-- The target sets of the lanes of a mask. -/
def targetSets (m : Mask) (t : Nat → Word) : List (Word × Mask) :=
  (lanesOf m).foldl (fun l i => addSet (t i) (oneBit i) l) []

/-- The stack after a branch of the path in `slot` to several sets. -/
def divide (st : List Path) (slot : Nat) (sets : List (Word × Mask)) (rcv : Word) : List Path :=
  let st := match st, slot with
    | a :: b :: r, 1 => b :: a :: r
    | l, _ => l
  match st with
  | [] => []
  | e :: r =>
    let j : Path := { pc := rcv, mask := e.mask, rcv := e.rcv }
    let new : List Path := sets.map fun x => { pc := x.1, mask := x.2, rcv := rcv }
    tidy (new.length + r.length + 2) (new.filter (fun p => p.pc != p.rcv) ++ j :: r)

/-- The path in the issuing slot branches: `t` gives each lane's next PC. -/
def State.branch (s : State) (t : Nat → Word) (rcv : Word) : Chk State :=
  let g := s.g
  let p := g.path s.slot
  match targetSets p.mask t with
  | [] => .ok s.advance
  | [(pc, _)] => .ok (s.setG ((g.countIssue s.slot s.now).goto s.slot pc))
  | sets =>
    let st := divide g.stack s.slot sets rcv
    if g.spillCap < spilled st then .error (.trap 5 0 0 p.mask)
    else
      let g := g.countIssue s.slot s.now
      .ok ((s.setG ({ g.restack st with lastSlot := 0 } : Group).flushKills).putSpills s.ctx)

/-- A PC field of format B: line delta and slot, from the branch's own line (02 R50); `none` before the text base. -/
def fieldPc (pc : Word) (t : BitVec 27) : Word :=
  let line : Int := (lineOfPc pc : Int) + sgn 24 (t.toNat / 8)
  BitVec.ofInt 32 (line * 8 + (t.toNat % 8 : Nat))

/-- A direct target is a marked slot of the text (02 R57). DESIGN CHOICE, log [117]: the stored mask bits count also in a line whose parity
or line word is bad; the trap is then the line's own, when a path issues there. -/
def State.marked (s : State) (pc : Word) : Bool :=
  let line := lineOfPc pc
  64 * (line + 1) ≤ (s.code s.g.code).size && lineTarget (lineBits s s.g line).1 (slotOfPc pc)

/-- Branching lanes of the path (R270). -/
def State.taking (s : State) (gd : Guard) : Mask := s.pathMask &&& Guard.lanes gd s.g

def State.direct (s : State) (pc : Word) (m : Mask) : Chk Unit :=
  need (m == 0 || s.marked pc) (.trap 3 0 (pc.setWidth 64) m)

/-- A misaligned indirect target among the lanes of a mask (02 R58). -/
def indirect (m : Mask) (t : Nat → Word) : Chk Unit :=
  match (lanesOf m).filter fun l => (t l).toNat % 64 != 0 with
  | [] => .ok ()
  | l :: r => .error (.trap 4 0 (BitVec.ofNat 64 (r.foldl (fun a i => Min.min a (t i).toNat) (t l).toNat))
      (r.foldl (fun x i => x ||| oneBit i) (oneBit l)))

/-- Names of a register operand without modifiers. -/
def State.needOpnd (s : State) (o : Opnd) (m : Mask) : Chk Unit :=
  match nameStop s.g [⟨⟨false, false, false, o⟩, 1, .b32⟩] with
  | some (k, d) => .error (.trap k 0 d m)
  | none => .ok ()

/-- INDIRECT packets, one for each target set of the path, ascending (11 R265, 22 R433). -/
def State.traceSets (s : State) (pc : Word) (sets : List (Word × Mask)) : State :=
  sets.foldl (fun s x => s.emitIndirect s.g pc x.1 x.2) s

def execBra (f : CtlF) (s : State) : Host.Outcome State Fault Refusal :=
  onGroup s (do
    let m := s.taking f.guard
    let pc := (s.g.path s.slot).pc
    let t := fieldPc pc f.tgt
    s.direct t m
    let u ← s.branch (fun l => if bitOf m l then t else pcNext pc) (fieldPc pc f.rcv)
    .ok (if m == 0 then u else u.emitBranch s.g pc m))

/-- `brx` and `brt` with an executing lane: `t` gives a branching lane's target, the others go to the next PC. -/
def State.jump (s : State) (f : CtlF) (m : Mask) (t : Nat → Word) : Chk State := do
  let p := s.g.path s.slot
  let next (l : Nat) : Word := if bitOf m l then t l else pcNext p.pc
  let u ← s.branch next (fieldPc p.pc f.rcv)
  .ok (u.traceSets p.pc (targetSets p.mask next))

def execBrx (f : CtlF) (s : State) : Host.Outcome State Fault Refusal :=
  onGroup s (do
    let m := s.taking f.guard
    if m == 0 then .ok s.advance else
    let a := s.linkVal0 f.link
    indirect m a
    s.needOpnd f.link m
    s.jump f m fun l => pcOfAddr (a l).toNat)

def execBrt (f : CtlF) (s : State) : Host.Outcome State Fault Refusal :=
  onGroup s (do
    let m := s.taking f.guard
    if m == 0 then .ok s.advance else
    let n := f.tgt.toNat / 8
    match (s.code s.g.code).tables[n]? with
    | none => .error (.trap 25 0 (BitVec.ofNat 64 n) m)
    | some tab =>
      let entry (l : Nat) : Option Nat := tab[(s.linkVal0 f.link l).toNat]?
      let b := maskOf 64 fun l => bitOf m l && (entry l).isSome
      let a (l : Nat) : Word := BitVec.ofNat 32 ((entry l).getD 0)
      indirect b a
      s.needOpnd f.link m
      s.jump f b fun l => pcOfAddr (a l).toNat)

/-- The link that `call` and `callx` write (02 R58). -/
def linkOf (pc : Word) : Word := BitVec.ofNat 32 (64 * (lineOfPc pc + 1))

/-- Write `s`L, which no operation in flight may be about to write. -/
def State.writeS (s : State) (o : Opnd) (x : Word) : Chk State := do
  needNone (s.g.pendingWrite [o])
  match o with
  | .s n => .ok (s.setG (s.g.wrS n.toNat x))
  | _ => .ok s

def execCall (f : CtlF) (s : State) : Host.Outcome State Fault Refusal :=
  onGroup s (do
    let m := s.taking f.guard
    if m == 0 then .ok s.advance else
    let pc := (s.g.path s.slot).pc
    let t := fieldPc pc f.tgt
    s.direct t m
    let u ← s.writeS f.link (linkOf pc)
    .ok ((u.setG ((u.g.countIssue s.slot s.now).goto s.slot t)).emitBranch s.g pc m))

def execCallx (f : CtlF) (s : State) : Host.Outcome State Fault Refusal :=
  onGroup s (do
    let m := s.taking f.guard
    if m == 0 then .ok s.advance else
    let pc := (s.g.path s.slot).pc
    let a := s.linkVal0 f.link 0
    indirect m fun _ => a
    s.needOpnd f.link m
    let u ← s.writeS f.link (linkOf pc)
    .ok ((u.setG ((u.g.countIssue s.slot s.now).goto s.slot (pcOfAddr a.toNat))).emitIndirect s.g pc (pcOfAddr a.toNat) m))

def execRet (f : CtlF) (s : State) : Host.Outcome State Fault Refusal :=
  onGroup s (do
    let m := s.taking f.guard
    if m == 0 then .ok s.advance else
    let pc := (s.g.path s.slot).pc
    let a := s.linkVal0 f.link 0
    indirect m fun _ => a
    s.needOpnd f.link m
    .ok ((s.setG ((s.g.countIssue s.slot s.now).goto s.slot (pcOfAddr a.toNat))).emitIndirect s.g pc (pcOfAddr a.toNat) m))

/-! ### `exit` (R275) -/

/-- Lanes end: they leave every mask, and helpers are settled (01 R16, R32, R33). DEDUCED, log [40]. -/
def Group.endLanes (g : Group) (m : Mask) : Group :=
  let strip (st : List Path) : List Path := st.map fun p => { p with mask := p.mask &&& ~~~m }
  ({ g with exited := g.exited ||| m, stack := strip g.stack, saves := g.saves.map strip } : Group).settleHelpers

/-- A handler whose lanes have all ended returns to the paths that it saved (log [40], DEDUCED); `n` bounds the levels. -/
def Group.dropEmptyLevels : Nat → Group → Group
  | 0, g => g
  | n + 1, g => if g.stack.isEmpty && !g.recs.isEmpty then g.leaveHandler.dropEmptyLevels n else g

/-- A group leaves its block: its counts go to the block record (22 R428, R429). -/
def State.retireGroup (s : State) (ctx : Nat) (pc : Word) : State :=
  let g := s.group ctx
  let s := s.emitGroup g 1 pc.toNat
  let s := s.setBlock g.blk { (s.block g.blk).absorb g with lastRegions := g.regions }
  s.setGroup ctx { g.left with stalls := [] }

/-- An operation that would change memory as a world sees it. -/
def Op.changes (o : Op) : Bool :=
  (o.kind == .store || o.kind == .amo || o.kind == .swb || o.kind == .rel) && (o.place == .dev || o.place == .stash)

/-- Copy 0 leaves the world of fork f for its parent's: siblings end, the view, its stash lines and the log are dropped, and operations in
flight that would write it have no effect (18 R376, R377). -/
def State.leaveWorld (s : State) (ctx f : Nat) : State :=
  let k := s.fork f
  let w := (k.copies.getD 0 ⟨0, 0, none, none, []⟩).world
  let s := (List.range k.copies.length).foldl (fun s j =>
    if j != 0 && (((s.fork f).copies.getD j ⟨0, 0, none, none, []⟩).imposed).isNone then s.endCopy f j 0xFFFFFFFE else s) s
  let g := s.group ctx
  let ops := g.ops.map fun o => if o.world != w then o
    else if o.changes then { o with done := true } else { o with world := k.pWorld }
  let stash := g.stash.map fun (x : Stash) => { x with lines := [] }
  let g := Group.retireOps { g with world := k.pWorld, depth := k.pDepth, copy := k.pCopy, fork := k.pFork, ops := ops, stash := stash }
  let s := (s.setGroup ctx g).dropWorld w
  let s := if k.pFork.isSome then s else s.setBlock g.blk { s.block g.blk with spaces := [g.space] }
  (s.setFork f {}).gcTags

/-- Copy 0 of the group's fork, and of every fork around it as long as the group is copy 0, has a live sibling (18 R377). -/
def State.arbiterHeld (s : State) : Nat → Option Nat → Nat → Bool
  | 0, _, _ => false
  | n + 1, fk, c =>
    match fk with
    | some f => c == 0 && (((s.fork f).copies.zipIdx.any fun e => e.2 != 0 && e.1.imposed.isNone)
        || s.arbiterHeld n (s.fork f).pFork (s.fork f).pCopy)
    | none => false

/-- The last lanes of a group have exited: its worlds are left, innermost first, and the group ends. DEDUCED, log [40]. -/
def State.lastExit (s : State) (ctx : Nat) (pc : Word) : Nat → State
  | 0 => s.retireGroup ctx pc
  | n + 1 =>
    let g := s.group ctx
    if g.it.isSome then s.exitIter ctx else
    match g.fork with
    | none => s.retireGroup ctx pc
    | some f =>
      if g.copy == 0 then ((s.setGroup ctx { g with copies := [] }).leaveWorld ctx f).lastExit ctx pc n
      else s.endCopy f g.copy 0xFFFFFFFE

def execExit (f : CtlF) (s : State) : Host.Outcome State Fault Refusal :=
  onGroup s (do
    let m := s.execLive f.guard
    if m == 0 then .ok s.advance else
    let g := s.g
    let pc := (g.path s.slot).pc
    let last := (g.liveLanes &&& ~~~m) == 0
    need (!(last && g.it.isNone && s.arbiterHeld 4 g.fork g.copy)) (.trap 21 8 0 m)
    if last && g.it.isSome then needNone g.relWait
    let g := (g.countIssue s.slot s.now).endLanes m
    if last then .ok ((s.setG g).lastExit s.ctx pc 4)
    else
      let g := (g.goto s.slot (pcNext pc)).dropEmptyLevels 2
      .ok (((s.setG g).putSpills s.ctx).emitBranch g pc m))

/-- `brk`: a breakpoint trap of the executing lanes (R276). -/
def execBrk (f : CtlF) (s : State) : Host.Outcome State Fault Refusal :=
  onGroup s (do
    let m := s.execLive f.guard
    need (m == 0) (.trap 26 0 0 m)
    .ok s.advance)

/-! ### `reorder` -/

/-- The vector names of a mask: bit j names `v`(8j) to `v`(8j + 7). -/
def maskNames (m : Word) : List Nat := ((List.range 32).map fun j => if m.getLsbD j then (List.range 8).map (8 * j + ·) else []).flatten

def State.partOfGroup (s : State) (g : Group) : Nat := g.gidx / perPart (s.launch g.launch).groups

/-- Groups that meet in a `reorder`: those of the part in one world that have not retired, in group order; iteration groups do
not count (13 R286). DEDUCED, log [43]. -/
def State.meeting (s : State) (b part w : Nat) : List Nat :=
  let cs := s.groupsWhere fun g => g.blk == b && g.it.isNone && g.status != GStat.retired && s.partOfGroup g == part && g.world == w
  sortBy (fun a c => (s.group a).gidx ≤ (s.group c).gidx) cs

/-- The lanes of a carry key that stop the instruction (13 R292): the first stall or overrun of an active lane. -/
def State.keyStop (s : State) (key : Opnd) : Chk Unit :=
  match key with
  | .c k => (gather 0 ((lanesOf s.pathMask).map fun l => (l, s.rdOpnd s.ctx [] (.c k) 1 l))).map fun _ => ()
  | _ => .ok ()

/-- `reorder` arrives and waits for the groups of its part. DEDUCED, log [43]: only groups that live are counted. An iteration group
is counted in no `reorder` (13 R286), so its own traps alone. -/
def execReorder (f : AluF) (s : State) : Host.Outcome State Fault Refusal :=
  onGroup s (do
    s.needWindow 0x4D f
    if !s.groupPasses f.guard then .ok s.advance else
    let g := s.g
    let mask := f.imm.getD 0
    if (match f.a.opnd with | .v n => g.vpois.getLsbD n.toNat | _ => false) then .error (.trap 29 0 (specOf f.a.opnd) s.pathMask)
    need g.it.isNone (.trap 24 0 0 s.pathMask)
    s.keyStop f.a.opnd
    needNone (g.pendingWrite (f.a.opnd :: ((maskNames mask).map fun n => .v (BitVec.ofNat 8 n)) ++ (List.range 15).map fun n => .p (BitVec.ofNat 4 n)))
    .ok ((s.setG { g with atReorder := some ⟨s.slot, f.a.opnd, f.a.kill, mask⟩ }).stallAt 6))

/-- A thread in the sort: key (2^32 for an ended one), old group, old lane. -/
structure Thread where
  k : Nat
  ctx : Nat
  lane : Nat
deriving DecidableEq, Repr

/-- Lane `l` of `g` takes the thread that stood at lane `m` of `x`. -/
def Group.takeThread (g x : Group) (names : List Nat) (l m : Nat) : Group :=
  let v := names.foldl (fun t n => put 0 t (n * 64 + l) (x.rdV n m)) g.v
  let p := (List.range 15).foldl (fun t n => put 0 t n (let old : Mask := get 0 t n; setBit old l (bitOf (x.pmask n) m))) g.p
  let win := g.win.map fun w => { w with slots := (List.range 64).foldl (fun t sl =>
    put {} t (slotKey sl l) (get {} (x.win.getD {}).slots (slotKey sl m))) w.slots }
  { g with v := v, p := p, win := win, key := put 0 g.key l (get 0 x.key m), ctr := put 0 g.ctr l (get 0 x.ctr m),
           tid := put 0 g.tid l (get 0 x.tid m) }

/-- Every path list holds the live lanes: lanes that ended leave every mask, and a lane that came alive stands in the first path of a
level that holds none (DEDUCED, log [43]). -/
def Group.setLive (g : Group) : Group :=
  let fit (st : List Path) : List Path :=
    let cut := st.map fun p => { p with mask := p.mask &&& g.liveLanes }
    let new := g.liveLanes &&& ~~~(cut.foldl (fun m p => m ||| p.mask) 0)
    match cut with
    | [] => []
    | p :: r => { p with mask := p.mask ||| new } :: r
  { g with stack := fit g.stack, saves := g.saves.map fit }

/-- One group after the threads have moved. -/
def State.resorted (s : State) (c rank width : Nat) (order : List Thread) (names : List Nat) (anyWin : Bool) : Group :=
  let g := s.group c
  let old := s.group
  let g0 := if anyWin then { g with win := some (g.win.getD {}) } else g
  let mine := (order.drop (rank * width)).take width
  let g1 := mine.zipIdx.foldl (fun g e => g.takeThread (old e.1.ctx) names e.2 e.1.lane) g0
  let ended := mine.zipIdx.foldl (fun m e => if bitOf (old e.1.ctx).ended e.1.lane then m ||| oneBit e.2 else m) (0 : Mask)
  let g2 := Group.settleHelpers { g1 with exited := ended, helper := 0 }
  -- poison travels with the values that move (20 R409)
  let bad := nameSet (names.filter fun n => mine.any fun t => (old t.ctx).vpois.getLsbD n)
  { g2.setLive with mapped := g2.mapped ||| nameSet names, vpois := (g2.vpois &&& ~~~(nameSet names)) ||| bad }

/-- The key of a thread: its vector register, or its own carry, which is 0 when void (07 R128). -/
def State.keyVal (s : State) (c l : Nat) : Nat :=
  match ((s.group c).atReorder.map (·.key)).getD (.v 0) with
  | .c k => (match s.carryRead c k.toNat l with | .val w => w.toNat | _ => 0)
  | .v n => ((s.group c).rdV n.toNat l).toNat
  | _ => 0

/-- p14 in the lanes whose carry key is void (13 R292). -/
def State.keyVoids (s : State) (c : Nat) : Mask :=
  match ((s.group c).atReorder.map (·.key)).getD (.v 0) with
  | .c k => maskOf (s.group c).width fun l => bitOf (s.group c).liveLanes l && s.carryRead c k.toNat l == .void
  | _ => 0

/-- The threads of the meeting groups, ascending by (key, position). DEDUCED, log [43]. -/
def State.sortThreads (s : State) (cs : List Nat) (width : Nat) : List Thread :=
  let all := (cs.map fun c => (List.range width).map fun l =>
    (⟨if bitOf (s.group c).ended l then 2 ^ 32 else s.keyVal c l, c, l⟩ : Thread)).flatten
  sortBy (fun a b => a.k ≤ b.k) all

/-- The meeting fails in every group (R278, R279). -/
def State.meetTrap (s : State) (cs : List Nat) (kind : Nat) (detail : DWord) : State :=
  cs.foldl (fun s c =>
    let g := s.group c
    let k := (g.atReorder.map (·.slot)).getD 0
    let s := s.setGroup c { (g.countIssue k s.now) with atReorder := none }
    takeRec s c k (trapRec c (s.group c) k kind 0 detail (g.path k).mask false)) s

/-- The KILL that a waiting `reorder` puts on its own key, and the live count that it needs (04 R83). -/
def Group.keyKill (g : Group) : BitVec 256 := match g.atReorder with | some ⟨_, .v n, true, _⟩ => bit256 n.toNat | _ => 0
def Group.meetNeeds (g : Group) (names : List Nat) : Nat := g.needs g.keyKill (nameSet names)

/-- REORDER_MEET: every group of the part stands at its k-th `reorder`; threads move. -/
def State.reorderMeet (s : State) (b part : Nat) : State :=
  let ws := (s.groups.filterMap fun e => if e.2.blk == b && e.2.atReorder.isSome then some e.2.world else none).eraseDups
  if (s.block b).status != .running then s else
  match ws.find? fun w => (s.meeting b part w).all fun c => (s.group c).atReorder.isSome && s.clocked (s.group c).core with
  | none => s
  | some w =>
    let cs := s.meeting b part w
    match cs with
    | [] => s
    | c0 :: _ =>
      let mask := ((s.group c0).atReorder.map (·.mask)).getD 0
      let width := (s.group c0).width
      let names := maskNames mask
      let bad := cs.any fun c =>
        let g := s.group c
        g.diverged || (g.win.bind (·.loop)).isSome || s.liveSiblings g || (g.atReorder.map (·.mask)) != some mask
      let need := cs.foldl (fun m c => Max.max m ((s.group c).meetNeeds names)) 0
      if bad then s.meetTrap cs 24 0
      else if cs.any fun c => (s.group c).peak < (s.group c).meetNeeds names then s.meetTrap cs 6 (BitVec.ofNat 64 need)
      else
        let s := cs.foldl (fun s c => s.setGroup c ((s.group c).voided (s.keyVoids c))) s
        let anyWin := cs.any fun c => (s.group c).win.isSome
        let order := s.sortThreads cs width
        let gs := cs.zipIdx.map fun e => (e.1, s.resorted e.1 e.2 width order names anyWin)
        gs.foldl (fun s e =>
          let k := ((s.group e.1).atReorder.map (·.slot)).getD 0
          let dead := (s.group e.1).keyKill &&& ~~~(nameSet names)
          let g := (Group.next { e.2 with atReorder := none, reorders := e.2.reorders + 1 } k s.now).kill dead
          let s := s.setGroup e.1 g
          if g.liveLanes == 0 then s.retireGroup e.1 ((s.group e.1).path k).pc else s) s

def execReorderMeet (b part : Nat) (s : State) : Host.Outcome State Fault Refusal := .next (s.reorderMeet b part)

end Sys2Proof.Machine
end

