-- ==== Sys2Proof/Machine/Int.lean ====
section
/-! DEFINITION. Machine/Int.lean: moves, integer and bit operations (07 R113 to R116). -/

namespace Sys2Proof.Machine

/-! ### Result functions -/

def argA (xs : List Nat) : Nat := xs.getD 0 0
def argB (xs : List Nat) : Nat := xs.getD 1 0
def argC (xs : List Nat) : Nat := xs.getD 2 0

/-- The integer that an element stands for, by the signedness of the type (R109). -/
def toInt (ty : Ty) (x : Nat) : Int := if ty.isSigned then sgn (tyBits ty) x else (x % 2 ^ tyBits ty : Nat)

def loOf (ty : Ty) : Int := if ty.isSigned then -(2 ^ (tyBits ty - 1) : Nat) else 0
def hiOf (ty : Ty) : Int := if ty.isSigned then (2 ^ (tyBits ty - 1) : Nat) - 1 else (2 ^ tyBits ty : Nat) - 1
def clampInt (lo hi x : Int) : Int := Max.max lo (Min.min hi x)

/-- An exact result narrowed to an element: wrapped, or clamped under SAT (R112, R113). -/
def narrow (ty : Ty) (sat : Bool) (x : Int) : Nat := wrap (tyBits ty) (if sat then clampInt (loOf ty) (hiOf ty) x else x)

/-- An element-by-element integer operation on the exact values. -/
def intOp (f : AluF) (op : Int → Int → Int → Int) (xs : List Nat) (_ : List Word) : Nat :=
  buildElems f.ty fun i => narrow f.ty f.sat
    (op (toInt f.ty (elemAt f.ty (argA xs) i)) (toInt f.ty (elemAt f.ty (argB xs) i)) (toInt f.ty (elemAt f.ty (argC xs) i)))

/-- A bit operation on the whole operand. -/
def bitOp (f : AluF) (op : Nat → Nat → Nat → Nat) (xs : List Nat) (_ : List Word) : Nat :=
  op (argA xs) (argB xs) (argC xs) % 2 ^ tyBits f.ty

def shlN (n a c : Nat) : Nat := if n ≤ c then 0 else a * 2 ^ c % 2 ^ n
def shrN (n a c : Nat) : Nat := if n ≤ c then 0 else a % 2 ^ n / 2 ^ c
def sraN (n a c : Nat) : Nat := wrap n (sgn n a / (2 ^ Min.min c n : Nat))
def rotN (n a c : Nat) : Nat := let c := c % n; (a * 2 ^ c + a % 2 ^ n / 2 ^ (n - c)) % 2 ^ n

/-- Start and length of a bit field (R114). -/
def fieldS (b : Nat) : Nat := b % 32
def fieldLen (b : Nat) : Nat := Min.min (b / 256 % 64) 32
def bfxN (signed : Bool) (a b : Nat) : Nat :=
  let n := fieldLen b
  let x := a % 2 ^ 32 / 2 ^ fieldS b % 2 ^ n
  if n == 0 then 0 else if signed then wrap 32 (sgn n x) else x
def bfiN (a b c : Nat) : Nat :=
  let m := (2 ^ fieldLen b - 1) * 2 ^ fieldS b % 2 ^ 32
  let x := a % 2 ^ fieldLen b * 2 ^ fieldS b % 2 ^ 32
  x + (c % 2 ^ 32 - (c % 2 ^ 32 &&& m))

def popN : Nat → Nat → Nat
  | 0, _ => 0
  | n + 1, x => x % 2 + popN n (x / 2)
def clzN (n x : Nat) : Nat := if x % 2 ^ n == 0 then n else n - 1 - Nat.log2 (x % 2 ^ n)
def revN : Nat → Nat → Nat
  | 0, _ => 0
  | n + 1, x => x % 2 * 2 ^ n + revN n (x / 2)

/-- Comparison cc (02 R56, 04 R87): eq, ne, lt, le, gt, ge. -/
def cmpInt (cc : Nat) (a b : Int) : Bool :=
  match cc with
  | 0 => a == b | 1 => a != b | 2 => a < b | 3 => a ≤ b | 4 => b < a | _ => b ≤ a

def divInt (a b : Int) : Int := if b == 0 then -1 else Int.tdiv a b
def remInt (a b : Int) : Int := if b == 0 then a else a - b * Int.tdiv a b

/-- Byte i of `prm` (R116). -/
def prmByte (a b c i : Nat) : Nat :=
  let n := c / 16 ^ i % 16
  let x := (a % 2 ^ 32 + b % 2 ^ 32 * 2 ^ 32) / 256 ^ (n % 8) % 256
  if 8 ≤ n then (if 128 ≤ x then 255 else 0) else x

/-- The truth table of `lop` (R113): result bit is bit (2 × a-bit + b-bit) of N. -/
def lopN (t : Nat) : Nat → Nat → Nat → Nat
  | 0, _, _ => 0
  | n + 1, a, b => t / 2 ^ (2 * (a % 2) + b % 2) % 2 + 2 * lopN t n (a / 2) (b / 2)

/-! ### Meanings -/

/-- `nop` has no effect in any lane; its issue is counted (03 R69). -/
def execNop (_ : Guard) (s : State) : Host.Outcome State Fault Refusal := onGroup s (.ok s.advance)

def execMov (f : AluF) (s : State) : Host.Outcome State Fault Refusal := execVal 0x01 f (bitOp f fun a _ _ => a) s
def execAdd (f : AluF) (s : State) : Host.Outcome State Fault Refusal := execVal 0x02 f (intOp f fun a b _ => a + b) s
def execSub (f : AluF) (s : State) : Host.Outcome State Fault Refusal := execVal 0x03 f (intOp f fun a b _ => a - b) s
def execMul (f : AluF) (s : State) : Host.Outcome State Fault Refusal := execVal 0x04 f (intOp f fun a b _ => a * b) s
def execMulhi (f : AluF) (s : State) : Host.Outcome State Fault Refusal :=
  execVal 0x05 f (intOp f fun a b _ => a * b / (2 ^ tyBits f.ty : Nat)) s
def execMad (f : AluF) (s : State) : Host.Outcome State Fault Refusal := execVal 0x06 f (intOp f fun a b c => a * b + c) s
def execMin (f : AluF) (s : State) : Host.Outcome State Fault Refusal := execVal 0x07 f (intOp f fun a b _ => Min.min a b) s
def execMax (f : AluF) (s : State) : Host.Outcome State Fault Refusal := execVal 0x08 f (intOp f fun a b _ => Max.max a b) s
def execAnd (f : AluF) (s : State) : Host.Outcome State Fault Refusal := execVal 0x09 f (bitOp f fun a b _ => a &&& b) s
def execOr (f : AluF) (s : State) : Host.Outcome State Fault Refusal := execVal 0x0A f (bitOp f fun a b _ => a ||| b) s
def execXor (f : AluF) (s : State) : Host.Outcome State Fault Refusal := execVal 0x0B f (bitOp f fun a b _ => a ^^^ b) s
def execShl (f : AluF) (s : State) : Host.Outcome State Fault Refusal :=
  execVal 0x0C f (bitOp f fun a b _ => shlN (tyBits f.ty) a (b % 2 ^ 32)) s
def execShr (f : AluF) (s : State) : Host.Outcome State Fault Refusal :=
  execVal 0x0D f (bitOp f fun a b _ => shrN (tyBits f.ty) a (b % 2 ^ 32)) s
def execSra (f : AluF) (s : State) : Host.Outcome State Fault Refusal :=
  execVal 0x0E f (bitOp f fun a b _ => sraN (tyBits f.ty) a (b % 2 ^ 32)) s
def execRot (f : AluF) (s : State) : Host.Outcome State Fault Refusal :=
  execVal 0x0F f (bitOp f fun a b _ => rotN (tyBits f.ty) a (b % 2 ^ 32)) s
def execBfx (f : AluF) (s : State) : Host.Outcome State Fault Refusal :=
  execVal 0x10 f (bitOp f fun a b _ => bfxN f.ty.isSigned a b) s
def execBfi (f : AluF) (s : State) : Host.Outcome State Fault Refusal := execVal 0x11 f (bitOp f fun a b c => bfiN a b c) s
def execPopc (f : AluF) (s : State) : Host.Outcome State Fault Refusal :=
  execVal 0x12 f (bitOp f fun a _ _ => popN (tyBits f.ty) a) s
def execClz (f : AluF) (s : State) : Host.Outcome State Fault Refusal :=
  execVal 0x13 f (bitOp f fun a _ _ => clzN (tyBits f.ty) a) s
def execBrev (f : AluF) (s : State) : Host.Outcome State Fault Refusal :=
  execVal 0x14 f (bitOp f fun a _ _ => revN (tyBits f.ty) a) s

/-- True where the comparison holds for every element (R116). -/
def cmpAll (f : AluF) (xs : List Nat) (_ : List Word) : Nat :=
  if (List.range f.ty.elems).all fun i => cmpInt f.var.toNat (toInt f.ty (elemAt f.ty (argA xs) i)) (toInt f.ty (elemAt f.ty (argB xs) i))
  then 1 else 0
def execCmp (f : AluF) (s : State) : Host.Outcome State Fault Refusal := execVal 0x15 f (cmpAll f) s
def execSel (f : AluF) (s : State) : Host.Outcome State Fault Refusal :=
  execVal 0x16 f (bitOp f fun a b p => if p == 0 then b else a) s
def execDiv (f : AluF) (s : State) : Host.Outcome State Fault Refusal := execVal 0x17 f (intOp f fun a b _ => divInt a b) s
def execRem (f : AluF) (s : State) : Host.Outcome State Fault Refusal := execVal 0x18 f (intOp f fun a b _ => remInt a b) s
def execPrm (f : AluF) (s : State) : Host.Outcome State Fault Refusal :=
  execVal 0x19 f (bitOp f fun a b c => packBits 8 ((List.range 4).map fun i => prmByte a b c i)) s
def execLop (f : AluF) (s : State) : Host.Outcome State Fault Refusal :=
  execVal 0x1A f (bitOp f fun a b _ => lopN f.var.toNat (tyBits f.ty) a b) s

end Sys2Proof.Machine
end

