-- ==== Sys2Proof/Machine/Watch.lean ====
section
/-! DEFINITION. Machine/Watch.lean: watchpoints (22 R417 to R422), race detection (22 R430, R431), and the shared form of the
instructions that they check. -/

namespace Sys2Proof.Machine

/-- The path issues with check 5 skipped once (22 R421). -/
def State.suppressed (s : State) : Bool := (s.g.path s.slot).sup == some (s.g.path s.slot).pc

def WatchUnit.on (u : WatchUnit) (g : Group) (evt : Nat) : Bool :=
  u.action != 0 && u.kinds / 2 ^ evt % 2 == 1 && (u.rfilt == 0 || u.rfilt == g.topRegion)

/-- Does a data unit watch a byte of a range (R418)? -/
def WatchUnit.sees (u : WatchUnit) (g : Group) (evt obj off n : Nat) : Bool :=
  u.on g evt && u.obj == obj && off ≤ u.hi && u.lo < off + n

/-- DETAIL of a kind-19 record (R420). -/
def watchDetail (g : Group) (unit evt whr : Nat) : DWord :=
  BitVec.ofNat 64 (g.regionFields + unit * 2 ^ 40 + evt * 2 ^ 36 + whr % 2 ^ 32)

/-- A range that a lane touches. -/
structure Touch where
  lane : Nat
  obj : Nat
  off : Nat
  n : Nat
deriving DecidableEq, Repr

/-- Count and trace units, but for some, act on an instruction that touches some ranges (R419). -/
def State.countWatch (s : State) (g : Group) (evt : Nat) (ts : List Touch) (pc : Word) (skip : List Nat := []) : State :=
  (List.range 16).foldl (fun s i =>
    let p := s.part g.part
    let u := get {} p.watches i
    if !skip.contains i && ts.any (fun t => u.sees g evt t.obj t.off t.n) then
      if u.action == 2 then
        s.setPart g.part { p with watches := put {} p.watches i { u with hits := if u.hits == 0xFFFFFFFF then u.hits else u.hits + 1 } }
      else if u.action == 3 then s.emitWatch g evt i pc
      else s
    else s) s

/-- The units that see some range. -/
def Part.seers (p : Part) (g : Group) (evt : Nat) (ts : List Touch) : List Nat :=
  (List.range 16).filter fun i => ts.any fun t => (get {} p.watches i).sees g evt t.obj t.off t.n

/-- The trap units that some range hits. -/
def Part.trapUnits (p : Part) (g : Group) (evt : Nat) (ts : List Touch) : List (Nat × WatchUnit) :=
  (List.range 16).filterMap fun i =>
    let u := get {} p.watches i
    if u.action == 1 && ts.any (fun t => u.sees g evt t.obj t.off t.n) then some (i, u) else none

/-- The watchpoint trap of a memory instruction: every lane that hits, the lowest unit, the lowest lane's first byte. -/
def Part.watchTrap (p : Part) (g : Group) (evt : Nat) (ts : List Touch) (mask : Option Mask) : Option Stop :=
  let us := p.trapUnits g evt ts
  match us, ts.filter fun t => us.any fun u => u.2.sees g evt t.obj t.off t.n with
  | (i, _) :: _, h :: r =>
    some (.trap 19 0 (watchDetail g i evt h.off) (mask.getD ((h :: r).foldl (fun m t => m ||| oneBit t.lane) 0)))
  | _, _ => none

/-- The lowest watched byte that a copy command touches (R420). -/
def Part.lowestWatched (p : Part) (g : Group) (evt : Nat) (ts : List Touch) : Nat :=
  let us := p.trapUnits g evt ts
  (ts.map fun t => (us.filter fun u => u.2.sees g evt t.obj t.off t.n).map fun u => Max.max t.off u.2.lo).flatten.foldl Min.min (2 ^ 40)

/-- The watchpoint trap of a copy command: WHERE is the lowest watched byte (R420). -/
def Part.copyTrap (p : Part) (g : Group) (evt : Nat) (ts : List Touch) (mask : Option Mask) : Option Stop :=
  match p.watchTrap g evt ts mask with
  | some (.trap k n d m) => some (.trap k n (BitVec.ofNat 64 (d.toNat / 2 ^ 32 * 2 ^ 32 + p.lowestWatched g evt ts % 2 ^ 32)) m)
  | x => x

/-- Check 5 of an instruction on some ranges: counts and traces happen, then a trap may be raised. -/
def State.watched (s : State) (evt : Nat) (ts : List Touch) : State :=
  if s.suppressed then s else s.countWatch s.g evt ts (s.g.path s.slot).pc
def State.watchStop (s : State) (evt : Nat) (ts : List Touch) (mask : Option Mask) : Option Stop :=
  if s.suppressed then none else (s.part s.g.part).watchTrap s.g evt ts mask

/-! ### Races -/

/-- A word of the group's own part that another group wrote in this barrier generation: the writer's slot. -/
def State.raceAt (s : State) (sp byte n : Nat) : Option Nat :=
  let g := s.g
  if sp != g.space then none else
  (List.range ((byte + n + 3) / 4 - byte / 4)).findSome? fun i =>
    let w := get 0 (s.space sp).shadow (byte / 4 + i)
    let slot := w / 8 % 128
    if w / 1024 == 1 && slot != g.cpart * 24 + g.gslot && slot != 127 && w % 8 == (s.block g.blk).gen then some slot else none

/-- The racing lanes of a BUF 12 access: (lane, byte, writer slot). DEDUCED, log [66]. -/
def State.races (s : State) (accs : List Acc) (n : Nat) : List (Nat × Nat × Nat) :=
  if s.suppressed || (s.launch (s.block s.g.blk).launch).race == 0 then [] else
  accs.filterMap fun a => (s.raceAt a.obj a.off n).map fun k => (a.lane, a.off, k)

/-- Mode 1: the report is counted and traced. DEDUCED, log [66]. -/
def State.countRace (s : State) (evt : Nat) (rs : List (Nat × Nat × Nat)) : State :=
  let g := s.g
  let b := s.block g.blk
  if rs.isEmpty || (s.launch b.launch).race != 1 then s
  else (s.setBlock g.blk { b with races := Min.min (b.races + 1) 65535 }).emitWatch g evt 0 (g.path s.slot).pc

/-- Mode 2: a kind-19 trap. -/
def State.raceStop (s : State) (evt : Nat) (rs : List (Nat × Nat × Nat)) : Option Stop :=
  match rs with
  | [] => none
  | (_, byte, slot) :: _ =>
    if (s.launch (s.block s.g.blk).launch).race == 2 then
      some (.trap 19 0 (watchDetail s.g 0 evt (byte % 2 ^ 20 + slot * 2 ^ 20)) (rs.foldl (fun m r => m ||| oneBit r.1) 0))
    else none

/-! ### The form of a checked instruction -/

/-- The earlier checks, then what the watch units do whatever follows, then the rest. -/
def phased {α : Type} (s : State) (p1 : Chk α) (act : α → State) (p2 : α → State → Chk State) :
    Host.Outcome State Fault Refusal :=
  if s.g.present then
    match p1 with
    | .error e => .next (takeStop s e)
    | .ok a => settle (act a) (p2 a (act a))
  else .next s

end Sys2Proof.Machine
end

