-- ==== Sys2Proof/Machine/Mem.lean ====
section
/-! DEFINITION. Machine/Mem.lean: issuing the memory instructions (09 R208 to R216): addresses, the checks of R208 in their
order, the stalls of R205, R206 and 10 R226, world rules (18 R367 to R369), residency (09 R201, R202), and each instruction. -/

namespace Sys2Proof.Machine

/-! ### Fields -/

def MemF.place (f : MemF) : Where :=
  if f.buf.toNat < 12 then .dev else if f.buf.toNat == 12 then .scr else if f.buf.toNat == 13 then .acc else .stash
def MemF.bytes (f : MemF) : Nat := 2 ^ f.size.toNat
/-- `.ret` of an atomic. -/
def memRet (opc : Nat) (f : MemF) : Bool := isAmo opc && f.var.getLsbD 0
/-- An instruction that writes DATA at completion. -/
def memLoads (opc : Nat) (f : MemF) : Bool := opc == 0x00 || memRet opc f
/-- A uniform load (03 R71). -/
def memUniform (opc : Nat) (f : MemF) : Bool := opc == 0x00 && f.data.isS && !f.off.opnd.isV
def memCls (opc : Nat) (f : MemF) : Cls :=
  if Where.dev != MemF.place f then .sp else if memLoads opc f || opc == 0x10 then .ld else .st
/-- The registers of a buffer record, which an instruction reads at issue (R189). -/
def recUse (n : Nat) : List SrcUse := if n < 12 then [⟨⟨false, false, false, .s (BitVec.ofNat 7 (8 * n))⟩, 8, .b32⟩] else []
/-- The sources: OFF, DATA where it is read, and the record. -/
def memUses (opc : Nat) (f : MemF) : List SrcUse :=
  ⟨f.off, 1, .b32⟩ :: (if opc == 0x01 || isAmo opc || opc == 0x12 then
    [⟨⟨f.dkill, false, false, f.data⟩, if opc == 0x12 then 1 else dataRegs opc f.size.toNat, .b32⟩] else [])
    ++ recUse f.buf.toNat
/-- The access kind by the bits of PERM and of KINDS: 0 load, 1 store, 2 atomic. -/
def memKind (opc : Nat) : Nat := if opc == 0x01 then 1 else if isAmo opc then 2 else 0
/-- The names written at completion. -/
def memDst (opc : Nat) (f : MemF) : List Opnd :=
  (if memLoads opc f then dstNames f.data (regsOf (MemF.bytes f)) else [])
    ++ (if f.flagp.toNat < 15 then [.p f.flagp] else [])

/-! ### Lanes and addresses (R190, R195, R197, R198) -/

/-- The executing lanes that access memory: one stands for a uniform load. -/
def State.memLanes (s : State) (opc : Nat) (f : MemF) : List Nat :=
  if memUniform opc f then (if s.groupPasses f.guard then [s.frontLane] else [])
  else lanesOf (s.execLive f.guard)

/-- The mask that a trap of the instruction carries whatever lanes fail: the path's, on the uniform front. -/
def State.memMask (s : State) (opc : Nat) (f : MemF) : Option Mask := if memUniform opc f then some s.pathMask else none

def State.memOff (s : State) (f : MemF) (l : Nat) : Int :=
  (match s.rdOpnd s.ctx [] f.off.opnd 1 l with | .ok (x, _) => (x : Int) | .error _ => 0) + f.imm.toInt

/-- The record through which an access goes. -/
def State.memRec (s : State) (f : MemF) : Rec :=
  match MemF.place f, s.g.stash with
  | .stash, some x => ⟨x.recw⟩
  | _, _ => s.g.record f.buf.toNat

/-- A BUF 13 address (R197): the byte of accumulator memory, if the tile is the block's. -/
def State.accAt (s : State) (g : Group) (o : Int) (n : Nat) : Option Nat :=
  let x := s.space g.space
  if o < 0 || x.acc ≤ o.toNat / 16384 || 16384 < o.toNat % 16384 + n then none
  else some (accKey x (o.toNat / 16384) (o.toNat % 16384))

/-- One lane's access; `clipped` where it lies out of bounds. -/
def State.memAcc (s : State) (f : MemF) (l : Nat) : Acc :=
  let g := s.g
  let o := s.memOff f l
  let n := MemF.bytes f
  let r := s.memRec f
  match MemF.place f with
  | .dev => if r.inBounds o n then { lane := l, obj := r.obj, off := r.at o.toNat } else { lane := l, clipped := true }
  | .scr => match s.scrAt g o n with
    | some (sp, b) => if s.inStash sp b n then { lane := l, clipped := true }
      else { lane := l, obj := sp, off := b, addr := scrKey (s.space sp) b }
    | none => { lane := l, clipped := true }
  | .acc => match s.accAt g o n with
    | some a => { lane := l, addr := a }
    | none => { lane := l, clipped := true }
  | .stash => match g.stash with
    | some x => if 0 ≤ o && o.toNat + n ≤ 64 * x.lines0 then
        { lane := l, obj := r.obj, off := r.base + x.m + o.toNat, addr := scrKey (s.space g.space) (x.wline * 64 + o.toNat) }
        else { lane := l, clipped := true }
    | none => { lane := l, clipped := true }

/-- DETAIL of kinds 14 to 17 for a lane (20 R455). -/
def State.memDetail (s : State) (f : MemF) (l : Nat) : DWord :=
  let o := s.memOff f l
  match MemF.place f, s.g.stash with
  | .dev, _ => (s.memRec f).detail o
  | .stash, some x => (s.memRec f).detail (x.m + o)
  | _, _ => BitVec.ofInt 64 o

/-! ### Checks 1 to 4 of R208 -/

/-- Raise a trap with the lanes that fail it; its DETAIL is that of the lowest. -/
def raiseLanes (kind : Nat) (mask : Option Mask) (det : Nat → DWord) (bad : List Nat) : Chk Unit :=
  match bad with
  | [] => .ok ()
  | l :: _ => .error (.trap kind 0 (det l) (mask.getD (bad.foldl (fun m l => m ||| oneBit l) 0)))

/-- Check 1: null object, then record format (R189). -/
def State.checkRec (s : State) (f : MemF) (mask : Option Mask) (ls : List Nat) : Chk Unit :=
  if MemF.place f != .dev then .ok () else
  let r := s.memRec f
  if r.obj == 0 then raiseLanes 14 mask (s.memDetail f) ls
  else if r.bad then raiseLanes 15 mask (s.memDetail f) ls
  else .ok ()

/-- Check 2: alignment (R192). -/
def State.misaligned (s : State) (f : MemF) (l : Nat) : Bool :=
  let o := s.memOff f l
  let n := MemF.bytes f
  if MemF.place f == .dev then !(s.memRec f).aligned o n else o % (n : Int) != 0

/-- The pages of an access that fail translation: cause, handle of the page base, lane. -/
def xlatHits (p : Part) (kind n : Nat) (a : Acc) : List (Nat × DWord × Nat) :=
  if a.clipped then [] else
  ([a.off, a.off + n - 1].map (· / 65536)).eraseDups.filterMap fun pg =>
    match translate p a.obj (Max.max a.off (pg * 65536)) kind with
    | .error c => some (c, handle a.obj (pg * 65536), a.lane)
    | .ok _ => none

/-- The distinct pages, each with its lanes, in order of lowest lane (20 R400). -/
def groupPages (hits : List (Nat × DWord × Nat)) : List (Nat × DWord × Mask) :=
  (hits.map fun h => h.2.1).eraseDups.filterMap fun h =>
    match hits.filter (·.2.1 == h) with
    | [] => none
    | (c, h, l) :: r => some (c, h, r.foldl (fun m e => m ||| oneBit e.2.2) (oneBit l))

/-- The pages that fail translation: cause, handle of the page base, lanes; in order of lowest lane (20 R400). -/
def xlatPages (p : Part) (kind n : Nat) (accs : List Acc) : List (Nat × DWord × Mask) := groupPages ((accs.map (xlatHits p kind n)).flatten)

/-- The whole stash line of an access. -/
def State.lineAcc (s : State) (a : Acc) : Acc := { a with off := a.off - s.stashOff s.ctx a % 64 }

/-- The requests that an access through BUF 14 makes: a fill of an UNFILLED line, which needs the load bit, and the ownership that a store
or atomic takes of a line that is not DIRTY (17 R348). DEDUCED, log [64]. -/
def State.stashHits (s : State) (opc : Nat) (a : Acc) : List (Nat × DWord × Nat) :=
  let p := s.part s.g.part
  let dirty := match s.g.stash with
    | some x => get LineSt.unfilled x.lines (s.stashOff s.ctx a / 64) == .dirty
    | none => false
  (if s.unfilled s.ctx a then xlatHits p 0 64 (s.lineAcc a) else [])
    ++ (if memKind opc != 0 && !dirty then xlatHits p (memKind opc) 64 (s.lineAcc a) else [])

/-- Extent states of the bytes of an access. -/
def extStates (p : Part) (n : Nat) (a : Acc) : List (ExtSt × Nat) := if a.clipped then [] else p.rangeStates a.obj a.off n

/-- The pages for which check 4 fails. -/
def State.memPages (s : State) (opc : Nat) (f : MemF) (accs : List Acc) : List (Nat × DWord × Mask) :=
  match MemF.place f with
  | .dev => xlatPages (s.part s.g.part) (memKind opc) (MemF.bytes f) accs
  | .stash => groupPages ((accs.map (s.stashHits opc)).flatten)
  | _ => []

/-- The accesses of an instruction that pass checks 1 to 4. -/
def State.memChecks (s : State) (opc : Nat) (f : MemF) (ls : List Nat) : Chk (List Acc) := do
  let mask := s.memMask opc f
  s.checkRec f mask ls
  raiseLanes 16 mask (s.memDetail f) (ls.filter (s.misaligned f))
  let accs := ls.map (s.memAcc f)
  if !(MemF.place f == .dev && (s.memRec f).clip) then
    raiseLanes 17 mask (s.memDetail f) ((accs.filter (·.clipped)).map (·.lane))
  match s.memPages opc f accs with
    | [] => .ok ()
    | ps => .error (.xlat (match mask with | some m => ps.map fun e => (e.1, e.2.1, m) | none => ps))
  .ok accs

/-! ### Stalls -/

/-- The stalls at issue: ACQ in flight, REL with accesses in flight, pending names (R206), a full counter (R205). DEDUCED, log [61]. -/
def Group.memStalls (g : Group) (c : Cls) (ord : Nat) (dst : List Opnd) : Chk Unit := do
  needNone g.heldBack
  if ord == 2 || ord == 3 then needNone g.relWait
  needNone (g.pendingWrite dst)
  need ((g.cnt c).toNat < 62) (.stall c.reason)

/-- Names and budget: unmapped and poisoned sources, then the register budget of a load. -/
def State.memNames (s : State) (opc : Nat) (f : MemF) (ls : List Nat) : Chk Unit := do
  let m := (s.memMask opc f).getD (ls.foldl (fun m l => m ||| oneBit l) 0)
  match nameStop s.g (memUses opc f) with
  | some (k, d) => .error (.trap k 0 d m)
  | none => .ok ()
  if memLoads opc f then
    let c := s.g.needs (killSet (memUses opc f)) (dstV f.data (regsOf (MemF.bytes f)))
    need (c ≤ s.g.peak || !f.data.isV) (.trap 6 0 (BitVec.ofNat 64 c) m)

/-! ### Issuing -/

/-- DATA of a lane as a number of the access size. -/
def State.dataVal (s : State) (f : MemF) (first n l : Nat) : Nat :=
  (List.range (regsOf n)).foldr (fun i x => x * 2 ^ 32 + (match f.data with
    | .v r => (s.g.rdV (r.toNat + first + i) l).toNat
    | .s r => (s.g.rdS (r.toNat + first + i)).toNat
    | _ => 0)) 0 % 2 ^ (8 * n)

/-- The residency mode of a load (R201). -/
def State.softLoad (s : State) (f : MemF) : Bool := f.res == 1 || (f.res == 0 && (s.memRec f).soft)

/-- World escape, check 6 (18 R367, R382). -/
def State.escapes (s : State) (opc : Nat) (f : MemF) (accs : List Acc) : Chk Unit :=
  let g := s.g
  if g.world == 0 || !isAmo opc || !(MemF.place f == .dev || MemF.place f == .stash) then .ok () else do
  need (!(memRet opc f && 3 ≤ f.scope.toNat)) (.trap 20 2 0 (accs.foldl (fun m a => m ||| oneBit a.lane) 0))
  let host := accs.filter fun a => !a.clipped && ((s.part g.part).obj a.obj).host
  need host.isEmpty (.trap 20 3 0 (host.foldl (fun m a => m ||| oneBit a.lane) 0))

/-- A store that a world holds back until the commit (18 R367). -/
def State.defers (s : State) (opc : Nat) (f : MemF) (accs : List Acc) : Bool :=
  s.g.world != 0 && opc == 0x01 && (MemF.place f == .dev || MemF.place f == .stash)
    && (f.scope == 4 || accs.any fun a => !a.clipped && ((s.part s.g.part).obj a.obj).host)

/-- The extents for which a hard load or a stash fill parks its block (R201). -/
def State.missingExts (s : State) (opc : Nat) (f : MemF) (accs : List Acc) : List (Nat × Nat) :=
  let p := s.part s.g.part
  let n := MemF.bytes f
  let hard := match MemF.place f with
    | .dev => opc == 0x00 && !s.softLoad f
    | .stash => true
    | _ => false
  if !hard then [] else
  (accs.map fun a =>
    let r := if MemF.place f == .dev then extStates p n a else if s.unfilled s.ctx a then extStates p 64 (s.lineAcc a) else []
    (r.filter fun e => isAway e.1).map fun e => (a.obj, e.2)).flatten.eraseDups

/-- The operation that an instruction puts in flight, with the extent states as its requests are translated. Accesses of a load that wait for
something are translated later (R202, R203, 17 R350). -/
def State.memOp (s : State) (opc : Nat) (f : MemF) (accs : List Acc) : Op :=
  let p := s.part s.g.part
  let n := MemF.bytes f
  let dev := MemF.place f == .dev
  let kind : OpKind := if opc == 0x00 then .load else if opc == 0x01 then .store else .amo
  let id := s.g.newId
  let after := if memUniform opc f then s.g.ufence else []
  let wait (a : Acc) : Bool := dev && kind == .load && s.untranslated s.ctx
    { id := id, cls := .ld, kind := .load, place := .dev, accs := accs, bytes := n, after := after, stamp := s.copyStamp } a
  let absent (a : Acc) : Bool := dev && (extStates p n a).any fun e =>
    if kind == .load then s.softLoad f && isAway e.1 && !wait a else e.1 != .resident
  let accs := accs.map fun a => { a with
    val := if kind == .load then 0 else s.dataVal f 0 n a.lane
    exp := if opc == 9 then s.dataVal f (regsOf n) n a.lane else 0
    absent := absent a
    held := if kind == .load then wait a else absent a }
  { id := id, cls := memCls opc f, kind := kind, place := MemF.place f, accs := accs, bytes := n, dst := f.data,
    signed := if opc == 0x00 then f.var == 1 else f.var.getLsbD 1,
    flagp := f.flagp.toNat, flagMask := if memUniform opc f then s.pathMask else s.execLive f.guard,
    ord := f.ord.toNat, scope := f.scope.toNat, cache := f.cache.toNat, amo := opc, ret := memRet opc f,
    uniform := memUniform opc f, soft := opc == 0x00 && s.softLoad f, parked := kind != .load && accs.any (·.absent), pc := (s.g.path s.slot).pc, world := s.g.world,
    after := after, stamp := s.copyStamp - 1 }

/-- Ask for the extents that the accesses of an operation wait for. -/
def State.askFor (s : State) (part : Nat) (o : Op) : State :=
  (o.accs.filter (·.absent)).foldl (fun s a =>
    ([a.off, a.off + o.bytes - 1].map (· / 65536)).eraseDups.foldl (fun s pg => s.askReturn part a.obj pg) s) s

/-- Put an operation in flight; a parked one asks for its extents (R202). -/
def State.launchOp (s : State) (o : Op) : State :=
  let g := s.g
  let s := s.setG (Group.rise { g with ops := g.ops ++ [o] } o.cls)
  if !o.parked then s else
  let p := s.part g.part
  let s := s.setPart g.part { p with parked := p.parked ++ [(s.ctx, o.id)] }
  s.askFor g.part o

/-- A deferred store counts complete at once, with its flag; one through the stash window is held back as a store to its object
(18 R367, R369). -/
def State.launchDeferred (s : State) (o : Op) (m : Mask) : Chk State := do
  let s ← s.defer s.g (.store { o with place := .dev, cls := .st }) m
  let rs : List LaneRes := o.accs.map fun a => ⟨a.lane, 0, !a.clipped && !a.absent, false⟩
  let g := Group.rise { s.g with ops := s.g.ops ++ [{ o with done := true, parked := false }] } o.cls
  .ok (s.setG (g.receive o rs).retireOps)

/-- What an instruction meets before check 5. DEDUCED, log [19]. -/
def State.memFirst (s : State) (opc : Nat) (f : MemF) : Chk (List Acc) := do
  let ls := s.memLanes opc f
  if ls.isEmpty then .ok [] else
  s.memNames opc f ls
  let accs ← s.memChecks opc f ls
  s.g.memStalls (memCls opc f) f.ord.toNat (memDst opc f)
  .ok accs

/-- The ranges that check 5 looks at. -/
def memTouches (f : MemF) (accs : List Acc) : List Touch :=
  if MemF.place f == .dev || MemF.place f == .stash then
    accs.filterMap fun a => if a.clipped then none else some ⟨a.lane, a.obj, a.off, MemF.bytes f⟩
  else []

def State.memRaces (s : State) (opc : Nat) (f : MemF) (accs : List Acc) : List (Nat × Nat × Nat) :=
  if MemF.place f == .scr && !isAmo opc then s.races accs (MemF.bytes f) else []

/-- Counts, traces and race reports of check 5. -/
def State.memSeen (s : State) (opc : Nat) (f : MemF) (accs : List Acc) : State :=
  (s.watched (memKind opc) (memTouches f accs)).countRace (7 + memKind opc) (s.memRaces opc f accs)

/-- From check 5 on. In a world a store through the window takes the place of its view line as it issues. DESIGN CHOICE, log [96]. -/
def State.memLast (opc : Nat) (f : MemF) (accs : List Acc) (s : State) : Chk State := do
  if accs.isEmpty then .ok s.advance else
  let mask := s.memMask opc f
  match s.watchStop (memKind opc) (memTouches f accs) mask with
  | some e => .error e
  | none => .ok ()
  match s.raceStop (7 + memKind opc) (s.memRaces opc f accs) with
  | some e => .error e
  | none => .ok ()
  s.escapes opc f accs
  let miss := if s.defers opc f accs then [] else s.missingExts opc f accs
  need miss.isEmpty (.absent miss)
  let o := s.memOp opc f accs
  let ks := killSet (memUses opc f)
  let m := accs.foldl (fun m a => m ||| oneBit a.lane) (0 : Mask)
  if s.defers opc f accs then
    let s ← s.launchDeferred o m
    .ok (s.setG (s.g.kill ks)).advance
  else if s.g.world != 0 && opc != 0x00 && (MemF.place f == .dev || MemF.place f == .stash)
      && !s.viewRoom s.g.part s.g.world o.lines then s.exhausted m
  else
    let s := s.launchOp o
    .ok (s.setG (s.g.kill ks)).advance

/-- The meaning of `ld`, `st` and the atomics. -/
def execMem (opc : Nat) (f : MemF) (s : State) : Host.Outcome State Fault Refusal :=
  phased s (s.memFirst opc f) (s.memSeen opc f) (State.memLast opc f)

def execLd (f : MemF) (s : State) : Host.Outcome State Fault Refusal := execMem 0x00 f s
def execSt (f : MemF) (s : State) : Host.Outcome State Fault Refusal := execMem 0x01 f s
def execAmoAdd (f : MemF) (s : State) : Host.Outcome State Fault Refusal := execMem 0x02 f s
def execAmoMin (f : MemF) (s : State) : Host.Outcome State Fault Refusal := execMem 0x03 f s
def execAmoMax (f : MemF) (s : State) : Host.Outcome State Fault Refusal := execMem 0x04 f s
def execAmoAnd (f : MemF) (s : State) : Host.Outcome State Fault Refusal := execMem 0x05 f s
def execAmoOr (f : MemF) (s : State) : Host.Outcome State Fault Refusal := execMem 0x06 f s
def execAmoXor (f : MemF) (s : State) : Host.Outcome State Fault Refusal := execMem 0x07 f s
def execAmoXchg (f : MemF) (s : State) : Host.Outcome State Fault Refusal := execMem 0x08 f s
def execAmoCas (f : MemF) (s : State) : Host.Outcome State Fault Refusal := execMem 0x09 f s
def execAmoFadd (f : MemF) (s : State) : Host.Outcome State Fault Refusal := execMem 0x0A f s

/-! ### `pref` and `pgreq` (R213, R214) -/

/-- The accesses of `pref`: lanes out of bounds or that do not translate are ignored. -/
def State.prefAccs (s : State) (f : MemF) (ls : List Nat) : List Acc :=
  ls.map fun l =>
    let a := s.memAcc f l
    match translate (s.part s.g.part) a.obj a.off 0 with
    | .ok (st, _) => if a.clipped then a else { a with absent := isAway st }
    | .error _ => { lane := l, clipped := true }

/-- Ask for the return of the extents of some accesses. -/
def State.askAll (s : State) (accs : List Acc) : State :=
  accs.foldl (fun s a => if a.clipped then s else s.askReturn s.g.part a.obj (a.off / 65536)) s

/-- Bring lines into the core's L1 (outside any world; a device-memory line that is present, and that no engine owns: 08 R182, 10 R231). -/
def State.bring (s : State) (cache : Nat) (accs : List Acc) : State :=
  if s.g.world != 0 then s else
  accs.foldl (fun s a => if a.clipped || a.absent || s.ownedSpots s.g.part (fun _ _ => true) [(a.obj, a.off, 1)] then s else
    let s := s.recall s.g.part 0 a.obj a.off 1 false
    match placeOf (s.part s.g.part) a.obj a.off with
    | some p => if p.remote then s else s.l1Fill s.g.core (p.addr / 64) (cacheRank cache)
    | none => s) s

def execPref (f : MemF) (s : State) : Host.Outcome State Fault Refusal :=
  onGroup s (do
    let ls := lanesOf (s.execLive f.guard)
    if ls.isEmpty then .ok s.advance else
    s.memNames 0x10 f ls
    s.checkRec f none ls
    let flag := f.flagp.toNat < 15
    needNone s.g.heldBack
    needNone (s.g.pendingWrite (memDst 0x10 f))
    need (!flag || s.g.cLD.toNat < 62) (.stall 1)
    let accs := s.prefAccs f ls
    let t := if f.cache == 3 then s else s.bring f.cache.toNat accs
    let t := if s.softLoad f then t else t.askAll (accs.filter (·.absent))
    let o : Op := { id := s.g.newId, cls := .ld, kind := .pref, place := .dev, accs := accs, bytes := 1, flagp := f.flagp.toNat,
                    flagMask := s.execLive f.guard, pc := (s.g.path s.slot).pc, world := s.g.world }
    let t := if flag then t.launchOp o else t
    .ok (t.setG (t.g.kill (killSet (memUses 0x10 f)))).advance)

def execPgreq (f : MemF) (s : State) : Host.Outcome State Fault Refusal :=
  onGroup s (do
    let ls := lanesOf (s.execLive f.guard)
    if ls.isEmpty then .ok s.advance else
    s.memNames 0x11 f ls
    s.checkRec f none ls
    let t := s.askAll (ls.map (s.memAcc f))
    .ok (t.setG (t.g.kill (killSet (memUses 0x11 f)))).advance)

/-! ### The stash (R215, R216) -/

/-- Windows of other groups of the space overlap lines `a` to `a + n`; that of a group that has exited stands until its block exits
(R198). -/
def State.windowClash (s : State) (sp a n : Nat) : Bool :=
  s.groups.any fun e => e.1 != s.ctx && e.2.present && e.2.space == sp && (match e.2.stash with
    | some x => a < x.wline + x.lines0 && x.wline < a + n
    | none => false)

/-- Counts in SP and completes at once; an earlier SP operation may still hold the counter. -/
def State.countSp (s : State) : State :=
  let o : Op := { id := s.g.newId, cls := .sp, kind := .smap, place := .stash, accs := [], bytes := 0, done := true }
  s.setG (Group.rise { s.g with ops := s.g.ops ++ [o] } .sp).retireOps

/-- `smap` (R215). It waits under reason 3 for the group's own accesses through the window. DEDUCED, log [64]: the order of the checks of the stash and
guard instructions, and that wait. -/
def execSmap (f : MemF) (s : State) : Host.Outcome State Fault Refusal :=
  onGroup s (do
    if !s.groupPasses f.guard then .ok s.advance else
    match nameStop s.g (memUses 0x12 f) with
    | some (k, d) => .error (.trap k 0 d s.pathMask)
    | none => .ok ()
    let g := s.g
    let w := s.dataVal f 0 4 0
    let lines := w / 2 ^ 20
    let wline := w / 64 % 2 ^ 14
    let m := s.memOff f 0
    let r := s.memRec f
    let unmap := lines == 0 && wline == 0
    if !unmap then
      need (r.obj != 0) (.trap 14 0 (r.detail m) s.pathMask)
      need (!r.bad) (.trap 15 0 (r.detail m) s.pathMask)
      need (w % 64 == 0 && lines != 0 && m % 64 == 0 && (wline + lines) * 64 ≤ (s.space g.space).size
          && !s.windowClash g.space wline lines) (.trap 8 0 (BitVec.ofNat 64 w) s.pathMask)
      need (!r.zord && !r.xpose && r.swz == 0) (.trap 15 0 (r.detail m) s.pathMask)
      need (0 ≤ m && m.toNat + 64 * lines ≤ r.extent) (.trap 17 0 (r.detail m) s.pathMask)
    needNone g.heldBack
    need (g.cSP.toNat < 62 && !g.ops.any fun o => !o.done && o.place == .stash) (.stall 3)
    let t := s.writeBackAll s.ctx true
    let new : Option Stash := if unmap then none else some ⟨BitVec.ofNat 32 w, f.buf.toNat, r.w, m.toNat, []⟩
    .ok (t.setG { t.g with stash := new }).countSp.advance)

/-- The line of an access is DIRTY, or an own store or atomic in flight makes it so. -/
def State.willDirty (s : State) (a : Acc) : Bool :=
  (match s.g.stash with | some x => get LineSt.unfilled x.lines (s.stashOff s.ctx a / 64) == .dirty | none => false)
    || s.g.ops.any fun o => !o.done && o.place == .stash && (o.kind == .store || o.kind == .amo)
      && o.accs.any fun b => !b.clipped && b.addr / 64 == a.addr / 64

/-- `swb` and `sdrop`: an SP operation on the window lines that the lanes name. A write-back is a store to its line, which check 4 reaches (R208,
17 R348). -/
def execStashOp (opc : Nat) (kind : OpKind) (f : MemF) (s : State) : Host.Outcome State Fault Refusal :=
  onGroup s (do
    let ls := lanesOf (s.execLive f.guard)
    if ls.isEmpty then .ok s.advance else
    s.memNames opc f ls
    let accs := ls.map (s.memAcc f)
    raiseLanes 17 none (s.memDetail f) ((accs.filter (·.clipped)).map (·.lane))
    match (if kind == .swb then groupPages (((accs.filter s.willDirty).map fun a => xlatHits (s.part s.g.part) 1 64 (s.lineAcc a)).flatten) else []) with
    | [] => .ok ()
    | ps => .error (.xlat ps)
    s.g.memStalls .sp 0 []
    let whole (a : Acc) : Acc :=
      let k := (s.memOff f a.lane).toNat % 64
      { a with off := a.off - k, addr := a.addr - k }
    let o : Op := { id := s.g.newId, cls := .sp, kind := kind, place := .stash, accs := accs.map whole, bytes := 64, pc := (s.g.path s.slot).pc,
                    world := s.g.world }
    let t := s.launchOp o
    .ok (t.setG (t.g.kill (killSet (memUses opc f)))).advance)
def execSwb (f : MemF) (s : State) : Host.Outcome State Fault Refusal := execStashOp 0x13 .swb f s
def execSdrop (f : MemF) (s : State) : Host.Outcome State Fault Refusal := execStashOp 0x14 .sdrop f s

end Sys2Proof.Machine
end

