-- ==== Sys2Proof/Machine/Engine.lean ====
section
/-! DEFINITION. Machine/Engine.lean: the matrix engine: operand layouts (08 R144 to R148), the format word (R149, R150), commands
and versions (R151 to R156), exact accumulation (R157, R158), tokens, and the engine instructions (R159 to R169). -/

namespace Sys2Proof.Machine

/-! ### Operands in scratchpad -/

/-- Row pitch and block size of element layout (R145). -/
def rowPitch (fmt : Nat) : Nat := match elemBits fmt with | 4 => 32 | 6 => 32 | 8 => 64 | _ => 128
def blockBytes (fmt : Nat) : Nat := match elemBits fmt with | 4 => 2048 | 6 => 3072 | 8 => 4096 | _ => 8192
def planeBytes (fmt : Nat) : Nat := elemBits fmt * 512

def State.sb (s : State) (sp a : Nat) : Nat := s.scrRead sp a 1

/-- The code at a stored row and column of an element-layout block. -/
def State.elemCode (s : State) (sp a fmt row col : Nat) : Nat :=
  match elemBits fmt with
  | 4 => s.sb sp (a + row * 32 + col / 2) / 16 ^ (col % 2) % 16
  | 6 => s.sb sp (a + row * 32 + col / 2) / 16 ^ (col % 2) % 16 * 4 + s.sb sp (a + 2048 + row * 16 + col / 4) / 4 ^ (col % 4) % 4
  | 8 => s.sb sp (a + row * 64 + col)
  | _ => s.scrRead sp (a + row * 128 + 2 * col) 2

/-- The code of the element with a Morton index in a plane tile (R146). -/
def State.planeCode (s : State) (sp a fmt i : Nat) : Nat :=
  (List.range (elemBits fmt)).foldl (fun x p => x + s.sb sp (a + 512 * p + i / 8) / 2 ^ (i % 8) % 2 * 2 ^ p) 0

/-- Bytes that hold an element. -/
def elemSpan (a fmt row col : Nat) : List Nat :=
  match elemBits fmt with
  | 4 => [a + row * 32 + col / 2]
  | 6 => [a + row * 32 + col / 2, a + 2048 + row * 16 + col / 4]
  | 8 => [a + row * 64 + col]
  | _ => [a + row * 128 + 2 * col]
def planeSpan (a fmt i : Nat) : List Nat := (List.range (elemBits fmt)).map fun p => a + 512 * p + i / 8
def State.spanPois (s : State) (sp : Nat) (l : List Nat) : Bool := l.any fun a => s.poisScrAt (scrKey (s.space sp) a) 1

/-! ### The format word (R149) and the command block (R151) -/

def fwA (w : Nat) : Nat := w % 16
def fwB (w : Nat) : Nat := w / 16 % 16
def fwASc (w : Nat) : Nat := w / 256 % 16
def fwBSc (w : Nat) : Nat := w / 4096 % 16
def fwAxp (w : Nat) : Bool := w / 2 ^ 16 % 2 == 1
def fwBxp (w : Nat) : Bool := w / 2 ^ 17 % 2 == 1
def fwMode (w : Nat) : Nat := w / 2 ^ 18 % 4
def fwInt (w : Nat) : Bool := w / 2 ^ 20 % 2 == 1
def fwSat (w : Nat) : Bool := w / 2 ^ 21 % 2 == 1

/-- R150. -/
def fwLegal (dual : Bool) (w : Nat) : Bool :=
  let a := fwA w
  let b := fwB w
  w / 2 ^ 22 == 0
    && ((a ≤ 6 && b ≤ 6) || (a == 7 && b == 7) || (a == 8 && b == 8))
    && fwASc w ≤ 2 && fwBSc w ≤ 2 && (a ≤ 6 || (fwASc w == 0 && fwBSc w == 0))
    && (if dual then fwMode w == 2 else fwMode w ≤ 1)
    && (!fwInt w || ((a == 5 || a == 6) && (b == 5 || b == 6) && fwASc w == 0 && fwBSc w == 0 && !dual && !fwSat w))
    && (!dual || (fwASc w == 0 && fwBSc w == 0))

def mcW (c : List Word) (i : Nat) : Nat := (c.getD i 0).toNat
def mcTile (c : List Word) : Nat := mcW c 2 % 16
def mcTile2 (c : List Word) : Nat := mcW c 2 / 16 % 16
def mcExp (c : List Word) : BitVec 16 := BitVec.ofNat 16 (mcW c 2 / 256)
def mcExp2 (c : List Word) : BitVec 16 := BitVec.ofNat 16 (mcW c 7)
def mcSteps (c : List Word) : Nat := mcW c 3 % 16 + 1
def MCmd.tiles (m : MCmd) : List Nat := if m.dual then [mcTile m.words, mcTile2 m.words] else [mcTile m.words]

/-- A range that the engine reads lies in the allocation, with an alignment (R147). -/
def rangeOk (size a al n : Nat) : Bool := a % al == 0 && a < 2 ^ 20 && a + n ≤ size

/-- A scale operand: absent, 128 bytes a step, or one byte a step (R147, R148). -/
def scaleOk (size mode a ks : Nat) : Bool :=
  match mode with
  | 0 => a == 0
  | 1 => rangeOk size a 128 (128 * ks)
  | _ => rangeOk size a 1 ks

/-- R147 and R151 for a legal format word. -/
def blockOk (x : Space) (dual : Bool) (fw : Nat) (c : List Word) : Bool :=
  let ks := mcSteps c
  let a := fwA fw
  let b := fwB fw
  mcW c 2 / 2 ^ 24 == 0 && mcW c 3 / 16 == 0 && mcW c 7 / 65536 == 0 && mcTile c < x.acc
    && (if dual then mcTile2 c < x.acc && mcTile c != mcTile2 c && rangeOk x.size (mcW c 0) 512 (planeBytes b * ks)
          && rangeOk x.size (mcW c 1) 512 (planeBytes b * ks) && rangeOk x.size (mcW c 6) 64 (blockBytes a * ks)
        else mcTile2 c == 0 && mcW c 6 == 0 && mcW c 7 == 0 && rangeOk x.size (mcW c 0) 64 (blockBytes a * ks)
          && rangeOk x.size (mcW c 1) 512 (planeBytes b * ks))
    && scaleOk x.size (fwASc fw) (mcW c 4) ks && scaleOk x.size (fwBSc fw) (mcW c 5) ks

/-! ### Exact accumulation (R157, R158) -/

/-- An element: under a scale, INT8 and INT4 take their fixed-point readings (06 R97). -/
def scaledElem (fmt mode code : Nat) : FVal :=
  let v := elemVal fmt code
  if mode == 0 then v else if fmt == 5 then v.scale (-6) else if fmt == 6 then v.scale (-2) else v

/-- The scale of row or column `i`, half `h`, of step j. -/
def State.scaleAt (s : State) (sp mode a j i h : Nat) : Nat :=
  match mode with
  | 0 => 127
  | 1 => s.sb sp (a + 128 * j + 2 * i + h)
  | _ => s.sb sp (a + j)

/-- The exact sum of 32 products, scaled; an exact zero is +0. -/
def chunkSum (x y : Nat → FVal) (h sa sb : Nat) : FVal :=
  if sa == 255 || sb == 255 then .nan else
  ((List.range 32).foldl (fun t k => FVal.add false t ((x (32 * h + k)).mul (y (32 * h + k)))) (.fin false 0 0)).scale ((sa : Int) + sb - 254)

/-- The value of an exact integer. -/
def FVal.toInt : FVal → Int
  | .fin n m e => alignTo n m e 0
  | _ => 0

def sat32 (x : Int) : Int := clampInt (-(2 ^ 31 : Nat)) ((2 ^ 31 : Nat) - 1) x

/-- One chunk into an accumulator element: the new word and whether it was clamped. -/
def accumulate (int sat : Bool) (acc : Nat) (v : FVal) : Nat × Bool :=
  if int then
    let x := sgn 32 acc + v.toInt
    (wrap 32 (sat32 x), sat32 x != x)
  else
    let r := roundTo fFP32 0 false 0 (FVal.add false (decodeF fFP32 acc) v).r
    (if sat && r % 2 ^ 31 == 0x7F800000 then r - 0x7F800000 + 0x7F7FFFFF else r, false)

def State.tileWord (s : State) (sp t e : Nat) : Nat := rdN s.acc (accKey (s.space sp) t (4 * e)) 4
def State.setTileWord (s : State) (sp t e x : Nat) : State := { s with acc := wrN s.acc (accKey (s.space sp) t (4 * e)) 4 x }

/-- Chunk `h` of a K-step of one product into a tile: `x m k` and `y n k` give the elements, `px m` and `py n` tell whether the bytes
that row m and column n read are poisoned. Answers whether poison was met, in a tile word that is added to as well (R157, R183). -/
def State.chunkTile (s : State) (sp t fw h : Nat) (zero : Bool) (x y : Nat → Nat → FVal) (sa sb : Nat → Nat → Nat)
    (px py : Nat → Bool) : State × Bool :=
  let res : List (Nat × Nat × Bool × Bool) := (List.range 4096).map fun e =>
    let m := e / 64
    let n := e % 64
    let (a, o) := accumulate (fwInt fw) (fwSat fw) (if zero then 0 else s.tileWord sp t e) (chunkSum (x m) (y n) h (sa m h) (sb n h))
    (e, a, o, px m || py n || (!zero && s.poisAcc.contains (accKey (s.space sp) t (4 * e) / 4)))
  let k := tileKey sp t
  let ovf := res.any (·.2.2.1)
  let key (e : Nat) := accKey (s.space sp) t (4 * e) / 4
  let s' := res.foldl (fun s r => s.setTileWord sp t r.1 r.2.1) s
  let bad := (res.filter (·.2.2.2)).map fun r => key r.1
  let keep := if zero then s'.poisAcc.filter fun w => !(key 0 ≤ w && w < key 0 + 4096) else s'.poisAcc
  ({ s' with poisAcc := keep ++ bad.filter (!keep.contains ·) }.setTile k { s.tile k with ovf := (s.tile k).ovf || ovf }, !bad.isEmpty)

/-- The scale byte of row or column `i`, half `h`, of step j is poisoned. -/
def State.scalePois (s : State) (sp mode a j i h : Nat) : Bool :=
  match mode with
  | 0 => false
  | 1 => s.spanPois sp [a + 128 * j + 2 * i + h]
  | _ => s.spanPois sp [a + j]

/-- Chunks of a K-step: two of each product (R157). -/
def MCmd.chunks (c : MCmd) : Nat := if c.dual then 4 else 2

/-- Scratchpad ranges of which a word serves several chunks: the scales of the command, the tile D of its step. -/
def MCmd.shared (c : MCmd) : List (Nat × Nat) :=
  let w := mcW c.words
  let fw := c.fw.toNat
  let scale (mode a : Nat) : List (Nat × Nat) := match mode with | 0 => [] | 1 => [(a, 128 * mcSteps c.words)] | _ => [(a, mcSteps c.words)]
  if c.dual then [(w 0 + c.step * planeBytes (fwB fw), planeBytes (fwB fw))] else scale (fwASc fw) (w 4) ++ scale (fwBSc fw) (w 5)

/-- Scratchpad ranges that a command reads in its step. -/
def MCmd.reads (c : MCmd) : List (Nat × Nat) :=
  let w := mcW c.words
  let a := blockBytes (fwA c.fw.toNat)
  let b := planeBytes (fwB c.fw.toNat)
  (if c.dual then [(w 1 + c.step * b, b), (w 6 + c.step * a, a)] else [(w 0 + c.step * a, a), (w 1 + c.step * b, b)]) ++ c.shared

/-- A copy command of another group that was issued earlier has still to write some of what a command is about to read (10 R231). DEDUCED,
log [82]. -/
def State.readsOwned (s : State) (sp : Nat) (c : MCmd) : Bool :=
  s.groups.any fun e => e.1 != c.ctx && e.2.copies.any fun k => k.stamp < c.stamp && k.owns.any fun d =>
    d.1 == 2 ^ 24 + sp && c.reads.any fun r => spotsMeet d (d.1, r)

/-- The command reads them once, with their poison, so that each word is old or new (R170, R183): the scales at its first cycle, D at the first
cycle of each step. -/
def State.latch (s : State) (sp : Nat) (c : MCmd) : MCmd :=
  if c.cyc == 0 && (c.dual || c.step == 0) then
    { c with
      kept := c.shared.map fun r => (r.1, rdBytes s.scr (scrKey (s.space sp) r.1) r.2)
      keptPois := if s.poisScr.isEmpty then [] else (c.shared.map fun r => ((List.range r.2).map (r.1 + ·)).filter fun a => s.spanPois sp [a]).flatten }
  else c

/-- Scratchpad, with its poison, as a command reads the ranges that it keeps. -/
def State.readBy (s : State) (sp : Nat) (c : MCmd) : State :=
  let key (a : Nat) := scrKey (s.space sp) a
  { s with
    scr := c.kept.foldl (fun m r => wrBytes m (key r.1) r.2) s.scr
    poisScr := (s.poisScr.filter fun w => !c.kept.any fun r => key r.1 < w * 4 + 4 && w * 4 < key r.1 + r.2.length)
      ++ (c.keptPois.map fun a => key a / 4).eraseDups }

/-- Apply chunk `h` of K-step j of a command (R157, R164). -/
def State.applyChunk (s : State) (sp : Nat) (c : MCmd) (j h : Nat) : State × Bool :=
  let fw := c.fw.toNat
  let w := mcW c.words
  let fa := fwA fw
  let fb := fwB fw
  let v := s.readBy sp c
  let dirty := !s.poisScr.isEmpty || !v.poisScr.isEmpty
  let u := if c.dual then v else s
  let half (h : Nat) (span : Nat → List Nat) : Bool := (List.range 32).any fun k => u.spanPois sp (span (32 * h + k))
  if !c.dual then
    let aAt := w 0 + j * blockBytes fa
    let bAt := w 1 + j * planeBytes fb
    let rc (m k : Nat) : Nat × Nat := if fwAxp fw then (k, m) else (m, k)
    let bi (n k : Nat) : Nat := if fwBxp fw then morton n k else morton k n
    s.chunkTile sp (mcTile c.words) fw h (j == 0 && h == 0 && fwMode fw == 0)
      (fun m k => scaledElem fa (fwASc fw) (v.elemCode sp aAt fa (rc m k).1 (rc m k).2))
      (fun n k => scaledElem fb (fwBSc fw) (v.planeCode sp bAt fb (bi n k)))
      (v.scaleAt sp (fwASc fw) (w 4) j) (v.scaleAt sp (fwBSc fw) (w 5) j)
      (fun m => dirty && (v.scalePois sp (fwASc fw) (w 4) j m h || half h fun k => elemSpan aAt fa (rc m k).1 (rc m k).2))
      (fun n => dirty && (v.scalePois sp (fwBSc fw) (w 5) j n h || half h fun k => planeSpan bAt fb (bi n k)))
  else
    let dAt := w 0 + j * planeBytes fb
    let wAt := w 1 + j * planeBytes fb
    let xAt := w 6 + j * blockBytes fa
    let d (r c : Nat) := elemVal fb (v.planeCode sp dAt fb (morton r c))
    let wi (r c : Nat) : Nat := if fwBxp fw then morton c r else morton r c
    let xr (k m : Nat) : Nat × Nat := if fwAxp fw then (m, k) else (k, m)
    let one (_ _ : Nat) : Nat := 127
    if h < 2 then
      s.chunkTile sp (mcTile c.words) fw h (j == 0 && h == 0) (fun m k => d m k) (fun n k => elemVal fb (v.planeCode sp wAt fb (wi n k))) one one
        (fun m => dirty && half h fun k => planeSpan dAt fb (morton m k)) (fun n => dirty && half h fun k => planeSpan wAt fb (wi n k))
    else
      s.chunkTile sp (mcTile2 c.words) fw (h - 2) false (fun m k => elemVal fa (v.elemCode sp xAt fa (xr k m).1 (xr k m).2)) (fun n k => d k n) one one
        (fun m => dirty && half (h - 2) fun k => elemSpan xAt fa (xr k m).1 (xr k m).2)
        (fun n => dirty && half (h - 2) fun k => planeSpan dAt fb (morton k n))

/-- Cycles of a K-step (R156). DESIGN CHOICE, log [120]. -/
def MCmd.stepCycles (c : MCmd) : Nat :=
  let p := elemBits (fwB c.fw.toNat)
  if c.dual then 2 * p else p

/-- The engines work for a group while its block is neither halting nor saved and its core's clocks run (R184). -/
def State.enginesRun (s : State) (blk core : Nat) : Bool :=
  ((s.block blk).status == .running || (s.block blk).status == .parked) && s.clocked core

/-- The block has exited: none of its groups is left (R186). -/
def State.blockLeft (s : State) (b : Nat) : Bool := !s.groups.any fun e => e.2.present && e.2.blk == b && e.2.status != GStat.retired

/-- Matrix commands of a space start, go on and complete: its engine works and its block has not exited (R186). -/
def State.matrixRuns (s : State) (x : Space) : Bool := s.enginesRun x.blk x.core && !s.blockLeft x.blk

/-- A command of the block stands inside a K-step, which it finishes first (R184, R186). -/
def State.midStep (s : State) (b : Nat) : Bool :=
  s.spaces.any fun e => e.2.present && e.2.blk == b && e.2.ring.any fun c => c.running && c.cyc != 0

/-- Every group of a halting block is saved and its engine stands between steps: the block is saved, the windows of groups that have exited
written back (R184, 09 R198, 20 R403). -/
def State.settleSave (s : State) (b : Nat) : State :=
  let k := s.block b
  if k.status != .halting || s.midStep b || s.groups.any (fun e => e.2.present && e.2.blk == b && e.2.status != GStat.retired && !e.2.saved) then s
  else
    let s := s.setBlock b { k with status := .saved, preempts := k.preempts + 1, ran := s.blockCycles k }
    let s := (s.groupsWhere fun g => g.blk == b && g.status == .retired && g.stash.isSome).foldl (fun s c => s.writeBackAll c true) s
    { s with groups := mapVals (fun (g : Group) => if g.present && g.blk == b then { g with saved := true } else g) s.groups,
             spaces := mapVals (fun (x : Space) =>
        if x.blk == b then { x with ring := x.ring.map fun c => { c with paused := c.running } } else x) s.spaces }

/-- One engine cycle of a running command: each chunk of a step is applied when its share of the step's cycles has passed, so that
a read sees whole chunk updates (R164, R171). A step that has begun is finished whatever becomes of the block (R184, R186). -/
def State.engineCycle (s : State) (sp : Nat) : State :=
  let x := s.space sp
  match x.ring.find? (fun c => c.running && !c.paused) with
  | none => s
  | some c =>
    if mcSteps c.words ≤ c.step || !s.clocked x.core || (c.cyc == 0 && (!s.matrixRuns x || s.readsOwned sp c)) then s else
    let c := s.latch sp c
    let n := c.cyc + 1
    let q := MCmd.stepCycles c / MCmd.chunks c
    let r := if n % q == 0 then s.applyChunk sp c c.step (n / q - 1) else (s, false)
    let fin := n == MCmd.stepCycles c
    let c' := { c with step := if fin then c.step + 1 else c.step, cyc := if fin then 0 else n, pois := c.pois || r.2 }
    let s' := r.1.setSpace sp { r.1.space sp with ring := x.ring.map fun d => if d.id == c.id && d.ctx == c.ctx then c' else d }
    if fin then s'.settleSave x.blk else s'

/-! ### Tokens and completion -/

/-- A completion token (R167). -/
def tileToken (s : State) (sp t : Nat) (fault : Bool) : Word :=
  let x := s.tile (tileKey sp t)
  BitVec.ofNat 32 (x.ver.toNat * 65536 + (if fault then 32 else 0) + (if x.ovf then 16 else 0) + t)

/-- A command leaves the ring: its tokens arrive, MX falls, markers move. DEDUCED, log [24]. DEDUCED, log [83]. -/
def State.endCmd (s : State) (sp : Nat) (c : MCmd) (fault : Bool) : State :=
  let x := s.space sp
  let s := s.setSpace sp { x with ring := x.ring.filter fun d => !(d.id == c.id && d.ctx == c.ctx) }
  let g := s.group c.ctx
  if !g.present || g.status == .retired then s else
  let q := (MCmd.tiles c).foldl (fun q t => pushTok q (tileToken s sp t fault)) g.qm
  s.setGroup c.ctx ((Group.fall { g with qm := q } .mx).doneM c.id)

/-- Serial comparison of versions (R153): v is earlier than e. -/
def verEarlier (v e : BitVec 16) : Bool := tagEarlier v e

/-- The version of a tile, and what a command expects of it. -/
def State.ver (s : State) (sp t : Nat) : BitVec 16 := (s.tile (tileKey sp t)).ver
def MCmd.expects (c : MCmd) : List (Nat × BitVec 16) :=
  (mcTile c.words, mcExp c.words) :: (if c.dual then [(mcTile2 c.words, mcExp2 c.words)] else [])

/-- No earlier command of the ring names a tile of the n-th. -/
def frontOf (ring : List MCmd) (n : Nat) (c : MCmd) : Bool :=
  (ring.take n).all fun d => !(MCmd.tiles d).any (MCmd.tiles c).contains

/-- The engine of a core is at work: it runs one command at a time (R156). -/
def State.engineBusy (s : State) (core : Nat) : Bool :=
  s.spaces.any fun e => e.2.present && e.2.core == core && e.2.ring.any fun c => c.running && !c.paused

/-- A matrix fault held against the issuing group (R183). DEDUCED, log [83]. -/
def State.holdStale (s : State) (sp : Nat) (c : MCmd) (t : Nat) (e : BitVec 16) : State :=
  let g := s.group c.ctx
  let d := BitVec.ofNat 64 (t + (s.ver sp t).toNat * 65536 + e.toNat * 2 ^ 32)
  let r : TrapRec := { trapRec c.ctx g 0 10 0 d c.mask true with pc := c.pc }
  s.setGroup c.ctx { g with held := g.held ++ [{ cls := .mx, trec := r }] }

/-- A command of a ring changes. -/
def State.setCmd (s : State) (sp : Nat) (c : MCmd) : State :=
  s.setSpace sp { s.space sp with ring := (s.space sp).ring.map fun d => if d.id == c.id && d.ctx == c.ctx then c else d }

/-- MATRIX_COMMAND_START: command `n` of a ring starts, goes on after a pre-emption, or is discarded as stale (R154, R184). -/
def State.startCmd (s : State) (sp n : Nat) : State :=
  let x := s.space sp
  if !s.matrixRuns x then s else
  match x.ring[n]? with
  | none => s
  | some c =>
    if c.running then (if c.paused && !s.engineBusy x.core then s.setCmd sp { c with paused := false } else s)
    else if !frontOf x.ring n c then s else
    match (MCmd.expects c).find? fun e => tagLater (s.ver sp e.1) e.2 with
    | some e => (s.holdStale sp c e.1 e.2).endCmd sp c true
    | none =>
      if (MCmd.expects c).all (fun e => s.ver sp e.1 == e.2) && !s.engineBusy x.core then
        s.setCmd sp { c with running := true }
      else s

/-- MATRIX_COMMAND_COMPLETION: versions rise, tokens arrive, MX falls (R155). A command that read poison completes with FAULT in its
tokens, and the fault is held (R183, 20 R401). DEDUCED, log [83]. -/
def State.finishCmd (s : State) (sp : Nat) : State :=
  if !s.matrixRuns (s.space sp) then s else
  match (s.space sp).ring.find? fun c => c.running && mcSteps c.words ≤ c.step with
  | none => s
  | some c =>
    let s := (MCmd.expects c).foldl (fun s e =>
      let k := tileKey sp e.1
      s.setTile k { s.tile k with ver := e.2 + 1, int := fwInt c.fw.toNat }) s
    let s := s.endCmd sp c c.pois
    if !c.pois then s else
    let g := s.group c.ctx
    let r : TrapRec := { trapRec c.ctx g 0 29 0 0 c.mask true with pc := c.pc }
    s.setGroup c.ctx { g with held := g.held ++ [{ cls := .mx, trec := r }] }

def execMatrixCommandStart (space n : Nat) (s : State) : Host.Outcome State Fault Refusal := .next (s.startCmd space n)
def execMatrixCommandCompletion (space : Nat) (s : State) : Host.Outcome State Fault Refusal := .next (s.finishCmd space)

/-! ### Queue instructions (R168) -/

def queueOf (q : BitVec 4) : Queue := if q == 0 then .qm else if q == 1 then .qx else .qk

def execQpush (f : EngF) (s : State) : Host.Outcome State Fault Refusal :=
  onGroup s (do
    let m := if f.a.opnd.isV then s.execLive f.guard else (if s.groupPasses f.guard then s.pathMask else 0)
    if m == 0 then .ok s.advance else
    match nameStop s.g [⟨f.a, 1, .b32⟩] with
    | some (k, d) => .error (.trap k 0 d m)
    | none => .ok ()
    let w := s.linkVal0 f.a.opnd ((lanesOf m).headD 0)
    let t ← s.pushQ s.ctx (queueOf f.q) w m
    .ok (t.setG (t.g.kill (killSet [⟨f.a, 1, .b32⟩]))).advance)

def queueSrc (f : EngF) : SrcUse := ⟨⟨false, false, false, .q (queueOf f.q)⟩, 1, .b32⟩

/-- A lane command pops for its contributing lanes, which are no helpers (R159). -/
def execQpop (f : EngF) (s : State) : Host.Outcome State Fault Refusal :=
  onGroup s (do
    if f.dst.isV then
      let t ← s.runOn (s.execLive f.guard) ⟨[queueSrc f], f.dst, 1, 0, fun _ xs _ => .ok (argA xs)⟩
      .ok t.advance
    else
      if !s.groupPasses f.guard then .ok s.advance else
      let pops ← popsFor s.g [queueSrc f]
      let w := match pops with | e :: _ => e.2 | [] => 0
      let t ← s.commitUniform s.ctx [] f.dst 1 0 0 w.toNat
      .ok (t.setG (t.g.popQ (queueOf f.q))).advance)

def execQpoll (f : EngF) (s : State) : Host.Outcome State Fault Refusal :=
  onGroup s (do
    if !s.groupPasses f.guard then .ok s.advance else
    let t ← s.commitUniform s.ctx [] f.dst 1 0 0 (if (s.g.queue (queueOf f.q)).isEmpty then 0 else 1)
    .ok t.advance)

/-! ### `mma` and `mmd` (R160, R161) -/

def cmdWords (g : Group) (o : Opnd) : List Word :=
  match o with | .s n => (List.range 8).map fun i => g.rdS (n.toNat + i) | _ => []

/-- An unused id of a ring. -/
def ringId (l : List MCmd) : Nat := 1 + l.foldl (fun m c => Max.max m c.id) 0

/-- DEDUCED, log [19]: order among several traps of one instruction beyond the manual's list. DEDUCED, log [86]: an own scratchpad store
that has not completed at issue is not among the stores that R170 makes the command observe; the engine may read before it. -/
def execMatrix (dual : Bool) (f : EngF) (s : State) : Host.Outcome State Fault Refusal :=
  onGroup s (do
    let m := s.execLive f.guard
    if m == 0 then .ok s.advance else
    let uses : List SrcUse := [⟨f.a, 1, .b32⟩, ⟨f.b, 8, .b32⟩]
    match nameStop s.g uses with
    | some (k, d) => .error (.trap k 0 d m)
    | none => .ok ()
    let word (l : Nat) := s.linkVal0 f.a.opnd l
    let fw := word ((lanesOf m).headD 0)
    need ((lanesOf m).all fun l => word l == fw) (.trap 9 0 (fw.setWidth 64) m)
    let x := s.space s.g.space
    let c := cmdWords s.g f.b.opnd
    need (fwLegal dual fw.toNat && blockOk x dual fw.toNat c) (.trap 8 0 (fw.setWidth 64) m)
    needNone s.g.heldBack
    need (x.ring.length < 64 && s.g.cMX.toNat < 62) (.stall 5)
    let cmd : MCmd := { id := ringId x.ring, dual := dual, fw := fw, words := c, ctx := s.ctx, pc := (s.g.path s.slot).pc, mask := s.pathMask,
                        stamp := s.copyStamp }
    let t := s.setSpace s.g.space { x with ring := x.ring ++ [cmd] }
    .ok (t.setG ((t.g.rise .mx).kill (killSet uses))).advance)
def execMma (f : EngF) (s : State) : Host.Outcome State Fault Refusal := execMatrix false f s
def execMmd (f : EngF) (s : State) : Host.Outcome State Fault Refusal := execMatrix true f s

/-! ### Accumulator instructions (R162 to R166) -/

/-- A tile number of the block (R166). -/
def State.needTile (s : State) (f : EngF) (m : Mask) : Chk Unit :=
  need (f.q.toNat < (s.space s.g.space).acc) (.trap 8 0 (BitVec.ofNat 64 f.q.toNat) m)

/-- The oldest held fault of a class. -/
def Group.heldOf (g : Group) (cs : List Cls) : Option Held := g.held.find? fun h => cs.contains h.cls
def needFree (h : Option Held) : Chk Unit := match h with | some h => .error (.held h) | none => .ok ()

def State.tileRuns (s : State) (sp t : Nat) : Bool := (s.space sp).ring.any fun c => c.running && (MCmd.tiles c).contains t

/-- Reads of accumulator memory that the group has in flight. -/
def Group.readsAcc (g : Group) : Bool := g.ops.any fun o => !o.done && (o.place == .acc || o.kind == .accld)

def execAccwait (f : EngF) (s : State) : Host.Outcome State Fault Refusal :=
  onGroup s (do
    if !s.groupPasses f.guard then .ok s.advance else
    s.needSrc f.a
    s.needTile f s.pathMask
    needFree (s.g.heldOf [.mx])
    let e : BitVec 16 := BitVec.ofNat 16 (s.skVal f.a.opnd)
    need (!verEarlier (s.ver s.g.space f.q.toNat) e) (.stall 5)
    .ok s.advance)

/-- DEDUCED, log [86]: the wait for a command on the tile counts under reason 5; own reads of accumulator memory in flight are waited for
first, under reason 3. -/
def execAcczero (f : EngF) (s : State) : Host.Outcome State Fault Refusal :=
  onGroup s (do
    if !s.groupPasses f.guard then .ok s.advance else
    s.needTile f s.pathMask
    let sp := s.g.space
    let t := f.q.toNat
    need (!s.tileRuns sp t) (.stall 5)
    need (!s.g.readsAcc) (.stall 3)
    let k := accKey (s.space sp) t 0
    let s' := { s with acc := zeroN s.acc k 16384, poisAcc := s.poisAcc.filter fun w => !(k ≤ w * 4 && w * 4 < k + 16384) }
    .ok (s'.setTile (tileKey sp t) {}).advance)

def execAccld (f : EngF) (s : State) : Host.Outcome State Fault Refusal :=
  onGroup s (do
    let m := s.execLive f.guard
    if m == 0 then .ok s.advance else
    let uses : List SrcUse := [⟨f.a, 1, .b32⟩]
    match nameStop s.g uses with
    | some (k, d) => .error (.trap k 0 d m)
    | none => .ok ()
    let c := s.g.needs (killSet uses) (dstV f.dst 1)
    need (c ≤ s.g.peak) (.trap 6 0 (BitVec.ofNat 64 c) m)
    s.needTile f m
    let idx (l : Nat) := (s.linkVal0 f.a.opnd l).toNat
    raiseLanes 8 none (fun l => BitVec.ofNat 64 (idx l)) ((lanesOf m).filter fun l => idx l / 4096 != 0)
    s.g.memStalls .sp 0 [f.dst]
    let accs := (lanesOf m).map fun l => ({ lane := l, addr := accKey (s.space s.g.space) f.q.toNat (4 * idx l) } : Acc)
    let o : Op := { id := s.g.newId, cls := .sp, kind := .accld, place := .acc, accs := accs, bytes := 4, dst := f.dst,
                    pc := (s.g.path s.slot).pc, world := s.g.world }
    let t := s.launchOp o
    .ok (t.setG (t.g.kill (killSet uses))).advance)

/-- One lane of `accpatch`. DEDUCED, log [24]. -/
def State.patch (s : State) (sp t : Nat) (a b : Nat) : State :=
  let k := tileKey sp t
  let e := a % 4096
  let x := s.tileWord sp t e
  let mode := a / 4096 % 4
  let key := accKey (s.space sp) t (4 * e) / 4
  if mode == 0 then { s with poisAcc := s.poisAcc.filter (· != key) }.setTileWord sp t e b
  else if (s.tile k).int then
    let y := if mode == 1 then sgn 32 x + sgn 32 b else sgn 32 x * sgn 32 b
    let s := s.setTileWord sp t e (wrap 32 (sat32 y))
    if sat32 y == y then s else s.setTile k { s.tile k with ovf := true }
  else
    let p := decodeF fFP32 x
    let q := decodeF fFP32 b
    s.setTileWord sp t e (roundTo fFP32 0 false 0 (if mode == 1 then FVal.add false p q else p.mul q).r)

/-- DEDUCED, log [86]: own reads of accumulator memory in flight are waited for first, under reason 3. -/
def execAccpatch (f : EngF) (s : State) : Host.Outcome State Fault Refusal :=
  onGroup s (do
    let m := s.execLive f.guard
    if m == 0 then .ok s.advance else
    let uses : List SrcUse := [⟨f.a, 1, .b32⟩, ⟨f.b, 1, .b32⟩, ⟨f.c, 1, .b32⟩]
    match nameStop s.g uses with
    | some (k, d) => .error (.trap k 0 d m)
    | none => .ok ()
    s.needTile f m
    let a (l : Nat) := (s.linkVal0 f.a.opnd l).toNat
    raiseLanes 8 none (fun l => BitVec.ofNat 64 (a l)) ((lanesOf m).filter fun l => a l / 2 ^ 14 != 0 || a l / 4096 % 4 == 3)
    let sp := s.g.space
    let t := f.q.toNat
    let c : BitVec 16 := BitVec.ofNat 16 (s.skVal f.c.opnd)
    let v := s.ver sp t
    need (!verEarlier v c && !s.tileRuns sp t) (.stall 5)
    need (!s.g.readsAcc) (.stall 3)
    need (v == c) (.trap 10 0 (BitVec.ofNat 64 (t + v.toNat * 65536 + c.toNat * 2 ^ 32)) m)
    raiseLanes 29 none (fun l => BitVec.ofNat 64 (16384 * t + 4 * (a l % 4096)))
      ((lanesOf m).filter fun l => a l / 4096 % 4 != 0 && s.poisAcc.contains (accKey (s.space sp) t (4 * (a l % 4096)) / 4))
    let s' := (lanesOf m).foldl (fun u l => u.patch sp t (a l) (s.linkVal0 f.b.opnd l).toNat) s
    let k := tileKey sp t
    let s' := s'.setTile k { s'.tile k with ver := c + 1 }
    .ok (s'.setG (s'.g.kill (killSet uses))).advance)

end Sys2Proof.Machine
end

