-- ==== Sys2Proof/Machine/Sync.lean ====
section
/-! DEFINITION. Machine/Sync.lean: `wait`, `waitr` (09 R217, R218), guards and bindings (10 R240 to R244), the block barrier
(R245), phase barriers (R246 to R249) and `ufence` (R250). -/

namespace Sys2Proof.Machine

/-- A group command: nothing where its guard fails, `body` otherwise (08 R159). -/
def groupCmd (gd : Guard) (s : State) (body : Chk State) : Host.Outcome State Fault Refusal :=
  onGroup s (if s.groupPasses gd then body else .ok s.advance)

/-! ### Waits -/

def clsOf (n : Nat) : Cls := match n with | 0 => .ld | 1 => .st | 2 => .sp | 3 => .cp | _ => .mx

/-- The five thresholds of IMM30, by class number (02 R52). -/
def thresholds (imm : BitVec 30) : List (Cls × Nat) := (List.range 5).map fun i => (clsOf i, imm.toNat / 64 ^ i % 64)

/-- Wait for counters: a held fault of a waited class first, then the first class above its threshold (R217, R183). -/
def State.waitFor (s : State) (ts : List (Cls × Nat)) : Chk Unit := do
  let ts := ts.filter (·.2 != 63)
  needFree (s.g.heldOf (ts.map (·.1)))
  needNone ((ts.find? fun t => t.2 < (s.g.cnt t.1).toNat).map (·.1.reason))

def execWait (f : SysF) (s : State) : Host.Outcome State Fault Refusal :=
  groupCmd f.guard s (do
    s.waitFor (thresholds f.imm)
    .ok s.advance)

def execWaitr (f : SysF) (s : State) : Host.Outcome State Fault Refusal :=
  groupCmd f.guard s (do
    s.needSrc f.a
    s.waitFor [(clsOf f.var.toNat, s.skVal f.a.opnd % 64)]
    .ok s.advance)

/-! ### Handles (R240) -/

/-- The handle in an even `s` pair. -/
def State.pairVal (s : State) (o : Opnd) : DWord :=
  match o with
  | .s n => BitVec.ofNat 64 ((s.g.rdS n.toNat).toNat + (s.g.rdS (n.toNat + 1)).toNat * 2 ^ 32)
  | _ => 0

def State.needPair (s : State) (a : Src) : Chk Unit :=
  match nameStop s.g [⟨a, 2, .i64⟩] with
  | some (k, d) => .error (.trap k 0 d s.pathMask)
  | none => .ok ()

/-- Items 1 to 4 for a handle of `n` bytes at a multiple of `al`. DEDUCED, log [19]. -/
def State.checkHandle (s : State) (h : DWord) (al n : Nat) : Chk Unit := do
  let p := s.part s.g.part
  let o := p.obj (objOf h)
  let live := objOf h < 2 ^ p.otlog && o.live
  need (objOf h != 0) (.trap 14 0 h s.pathMask)
  need (offOf h % al == 0) (.trap 16 0 h s.pathMask)
  need (!live || offOf h + n ≤ o.size) (.trap 17 0 h s.pathMask)
  need live (.xlat [(1, handle (objOf h) (offOf h / 65536 * 65536), s.pathMask)])

/-- The same for a guard, which an atomic's permission reaches. DEDUCED, log [19]. DEDUCED, log [64]. -/
def State.checkGuard (s : State) (h : DWord) : Chk Unit := do
  s.checkHandle h 16 16
  match translate (s.part s.g.part) (objOf h) (offOf h) 2 with
  | .ok _ => .ok ()
  | .error c => .error (.xlat [(c, handle (objOf h) (offOf h / 65536 * 65536), s.pathMask)])

/-- World escape of an instruction of scope `dev` or `sys` (R232, 18 R382). DEDUCED, log [64]. -/
def State.checkEscape (s : State) (scope : Nat) : Chk Unit :=
  need (!(3 ≤ scope && s.liveSiblings s.g)) (.trap 20 1 0 s.pathMask)

/-- Extent state of a guard. DEDUCED, log [65]. -/
def State.guardExt (s : State) (h : DWord) : ExtSt :=
  match translate (s.part s.g.part) (objOf h) (offOf h) 2 with | .ok (st, _) => st | .error _ => .resident

/-- The guard's bytes +4 to +15 are zero (item 5, R221). -/
def State.guardFine (s : State) (h : DWord) : Bool :=
  leNat ((s.recall s.g.part s.g.world (objOf h) (offOf h) 16 false).seeObj s.g.part s.g.world (objOf h) (offOf h) 16) / 2 ^ 32 == 0

/-- The stall reason under which the read of a guard's bytes waits: for the group's own store, atomic or `rel` on them (10 R235, R236), or for a copy
command that owns them (R231). -/
def State.guardBusy (s : State) (h : DWord) : Option Nat :=
  match s.g.ops.find? fun o => !o.done && o.kind != .load && o.kind != .pref && (o.place == .dev || o.place == .stash)
      && o.accs.any fun a => !a.clipped && a.obj == objOf h && a.off < offOf h + 16 && offOf h < a.off + o.bytes with
  | some o => some o.cls.reason
  | none => if s.ownedSpots s.g.part (fun _ _ => true) [(objOf h, offOf h, 16)] then some 14 else none

/-- A guard operation that later instructions wait for, at the guard's home: parked under reason 14 while the extent is away, then
item 5, which leaves a malformed guard as it is (R221). A stalled one is saved before it has completed and executes again (R233). DEDUCED, log [61].
DEDUCED, log [65]. -/
def State.atGuard (s : State) (h : DWord) (k : Chk State) : Chk State := do
  needNone (s.guardBusy h)
  if s.guardExt h != .resident then
    .ok ((s.askReturn s.g.part (objOf h) (offOf h / 65536)).stallAt 14)
  else if s.guardFine h then k else .error (.trap 22 0 h s.pathMask)

/-! ### `fence`, `acq`, `rel` -/

def execFence (f : SysF) (s : State) : Host.Outcome State Fault Refusal :=
  groupCmd f.guard s (do
    s.checkEscape f.var.toNat
    needFree (s.g.held.find? fun h => h.cls == .st && h.trec.kind == 22)
    needNone (([Cls.ld, .st, .sp].find? fun c => s.g.cnt c != 0).map Cls.reason)
    .ok (if 1 ≤ f.var.toNat then s.acquireAll s.g.core else s).advance)

def execAcq (f : SysF) (s : State) : Host.Outcome State Fault Refusal :=
  groupCmd f.guard s (do
    s.needPair f.a
    let h := s.pairVal f.a.opnd
    s.checkGuard h
    s.checkEscape f.var.toNat
    needNone s.g.heldBack
    s.atGuard h (.ok (if 1 ≤ f.var.toNat then s.acquire s.g.part s.g.core [.bound h] else s).advance))

/-- `rel`; in a world GEN's line needs a place in the view (18 R368). -/
def execRel (f : SysF) (s : State) : Host.Outcome State Fault Refusal :=
  groupCmd f.guard s (do
    s.needPair f.a
    let h := s.pairVal f.a.opnd
    s.checkGuard h
    s.checkEscape f.var.toNat
    needNone s.g.relWait
    need (s.g.cST.toNat < 62) (.stall 2)
    let away := s.guardExt h != .resident
    let o : Op := { id := s.g.newId, cls := .st, kind := .rel, place := .dev, bytes := 16, parked := away, pc := (s.g.path s.slot).pc,
                    accs := [{ lane := 0, obj := objOf h, off := offOf h, absent := away, held := away }], world := s.g.world }
    if s.g.world != 0 && !s.viewRoom s.g.part s.g.world (linesOf (objOf h) (offOf h) 4) then s.exhausted s.pathMask
    else .ok (s.launchOp o).advance)

/-! ### `bind` and `unbind` -/

/-- Bytes of a binding overlap a region. -/
def Binding.meets (b : Binding) (obj base n : Nat) : Bool := b.obj == obj && b.base < base + n * 65536 && base < b.base + b.len * 65536

/-- DEDUCED, log [65]: a guard or binding instruction whose guard's extent is absent stalls with reason 14 and asks for the return. -/
def execBind (f : SysF) (s : State) : Host.Outcome State Fault Refusal :=
  groupCmd f.guard s (do
    s.needPair f.a
    s.needPair f.b
    let h := s.pairVal f.a.opnd
    let q := s.pairVal f.b.opnd
    let n := f.imm.toNat
    s.checkHandle h 65536 (n * 65536)
    s.checkGuard q
    s.checkEscape 3
    let p := s.part s.g.part
    need (!p.binds.any fun b => b.meets (objOf h) (offOf h) n) (.trap 8 0 (BitVec.ofNat 64 (h.toNat % 2 ^ 32)) s.pathMask)
    need (p.binds.length < Config.bindEntries) (.trap 23 0 h s.pathMask)
    needNone s.g.heldBack
    needNone s.g.relWait
    s.atGuard q (.ok (s.setPart s.g.part { p with binds := p.binds ++ [⟨objOf h, offOf h, n, q⟩] }).advance))

def execUnbind (f : SysF) (s : State) : Host.Outcome State Fault Refusal :=
  groupCmd f.guard s (do
    s.needPair f.a
    let h := s.pairVal f.a.opnd
    s.checkHandle h 65536 1
    s.checkEscape 3
    let p := s.part s.g.part
    match p.binds.find? fun b => b.obj == objOf h && b.base == offOf h with
    | none => .ok s.advance
    | some e => do
      needNone s.g.heldBack
      needNone s.g.relWait
      s.atGuard e.guard (.ok (s.setPart s.g.part { p with binds := p.binds.filter fun b => !(b.obj == objOf h && b.base == offOf h) }).advance))

/-! ### The block barrier -/

def execBsync (f : SysF) (s : State) : Host.Outcome State Fault Refusal :=
  groupCmd f.guard s (do
    need (!s.g.diverged && s.g.it.isNone) (.trap 24 0 0 s.pathMask)
    needNone s.g.heldBack
    needNone s.g.relWait
    .ok ((s.setG { s.g with atBsync := true }).stallAt 6))

/-- Groups that meet in a block's barrier: those of one world that have not retired, iteration groups apart (13 R286). -/
def State.barrierGroups (s : State) (b w : Nat) : List Nat :=
  s.groupsWhere fun g => g.blk == b && g.it.isNone && g.status != GStat.retired && g.world == w

/-- Clear the race shadows of a generation in the spaces of a block (22 R430). -/
def State.clearShadows (s : State) (b gen : Nat) : State :=
  { s with spaces := mapVals (fun (x : Space) =>
      if x.blk == b then { x with shadow := x.shadow.filter fun e => !(e.2 != 0 && e.2 % 8 == gen) } else x) s.spaces }

/-- What the groups of a world that have exited still have in flight is not performed yet: they count as arrived, and the completion is their REL
too (R225, R245). -/
def State.exitedBusy (s : State) (b w : Nat) : Bool :=
  s.groups.any fun e => e.2.present && e.2.blk == b && e.2.status == .retired && e.2.world == w && e.2.ops.any fun o => !o.done

/-- BSYNC_COMPLETE: every group of the block has arrived (R245); the arrivals are saved with the block (R233). -/
def execBsyncComplete (b : Nat) (s : State) : Host.Outcome State Fault Refusal :=
  let ws := (s.groups.filterMap fun e => if e.2.blk == b && e.2.atBsync then some e.2.world else none).eraseDups
  .next (if (s.block b).status != .running then s else match ws.find? fun w => !s.exitedBusy b w && (s.barrierGroups b w).all fun c =>
      (s.group c).atBsync && s.clocked (s.group c).core with
    | none => s
    | some w =>
      let k := (s.block b).gen
      let s := s.clearShadows b ((k + 1) % 8)
      let s := s.setBlock b { s.block b with gen := (k + 1) % 8 }
      (s.barrierGroups b w).foldl (fun s c =>
        let s := s.acquireAll (s.group c).core
        s.setGroup c (Group.next { s.group c with atBsync := false, bsyncs := (s.group c).bsyncs + 1 } 0 s.now)) s)

/-! ### Phase barriers -/

/-- The barrier at a scratchpad address (R246): misaligned, then out of bounds. -/
def State.barrierAt (s : State) (a : Nat) : Chk (Nat × Nat) := do
  need (a % 8 == 0) (.trap 16 0 (BitVec.ofNat 64 a) s.pathMask)
  match s.scrAt s.g a 8 with
  | some (sp, b) => if s.inStash sp b 8 then .error (.trap 17 0 (BitVec.ofNat 64 a) s.pathMask) else .ok (sp, b)
  | none => .error (.trap 17 0 (BitVec.ofNat 64 a) s.pathMask)

/-- A scratchpad operation on a barrier word. -/
def State.barrierOp (s : State) (kind : OpKind) (sp b count : Nat) : Op :=
  { id := s.g.newId, cls := .sp, kind := kind, place := .scr, bytes := 8, pc := (s.g.path s.slot).pc, world := s.g.world,
    accs := [{ lane := 0, obj := sp, off := b, addr := scrKey (s.space sp) b, val := count }] }

def execPbinit (f : SysF) (s : State) : Host.Outcome State Fault Refusal :=
  groupCmd f.guard s (do
    s.needSrc f.a
    s.needSrc f.b
    let (sp, b) ← s.barrierAt (s.skVal f.a.opnd)
    let c := s.skVal f.b.opnd
    need (c % 65536 != 0 && c / 65536 == 0) (.trap 8 0 (BitVec.ofNat 64 c) s.pathMask)
    s.g.memStalls .sp 0 []
    let k := s.block s.g.blk
    let s := s.setBlock s.g.blk { k with pbars := if k.pbars.contains (sp, b) then k.pbars else k.pbars ++ [(sp, b)] }
    .ok (s.launchOp (s.barrierOp .pbinit sp b c)).advance)

/-- An operation of the group on a barrier word is still in flight, or a copy command owns the word: the read of `pbwait` follows it (10 R236). -/
def State.barrierBusy (s : State) (sp b : Nat) : Bool :=
  (s.g.ops.any fun o => !o.done && o.place == .scr && o.accs.any fun a => a.obj == sp && a.off < b + 8 && b < a.off + o.bytes)
    || s.ownedSpots s.g.part (fun _ _ => true) [(2 ^ 24 + sp, b, 8)]

/-- DEDUCED, log [69]: a poisoned barrier word traps the `pbarr` that reads it, once the group's own writes to it are performed. -/
def execPbarr (f : SysF) (s : State) : Host.Outcome State Fault Refusal :=
  groupCmd f.guard s (do
    s.needSrc f.a
    let (sp, b) ← s.barrierAt (s.skVal f.a.opnd)
    let bad := s.poisScrAt (scrKey (s.space sp) b) 8
    need (!(bad && s.barrierBusy sp b)) (.stall 3)
    need (!bad) (.trap 29 0 (BitVec.ofNat 64 (s.skVal f.a.opnd)) s.pathMask)
    s.g.memStalls .sp 2 []
    .ok (s.launchOp (s.barrierOp .pbarr sp b 0)).advance)

/-- A `pbwait` at a barrier (R247, R249); one that is saved executes again (R233). DEDUCED, log [69]: a poisoned barrier word traps the `pbwait`
that reads it. -/
def execPbwait (f : SysF) (s : State) : Host.Outcome State Fault Refusal :=
  groupCmd f.guard s (do
    s.needSrc f.a
    s.needSrc f.b
    let a := s.skVal f.a.opnd
    let (sp, b) ← s.barrierAt a
    needNone s.g.heldBack
    need (!s.barrierBusy sp b) (.stall 3)
    need (!s.poisScrAt (scrKey (s.space sp) b) 8) (.trap 29 0 (BitVec.ofNat 64 a) s.pathMask)
    let n := match f.dst with | .sp n => n.toNat | _ => 0
    if s.pbPhase sp b != s.skVal f.b.opnd % 2 then
      .ok ((s.acquireAll s.g.core).setG (s.g.wrSp n true)).advance
    else if s.pbExp sp b == 0 then .ok (s.setG (s.g.wrSp n false)).advance
    else .error (.stall 7))

/-! ### `ufence` -/

def execUfence (f : SysF) (s : State) : Host.Outcome State Fault Refusal :=
  groupCmd f.guard s
    (.ok (s.setG { s.g with ufence := (s.g.ops.filter fun o => !o.done && (o.kind == .store || o.kind == .amo)).map (·.id) }).advance)

end Sys2Proof.Machine
end

