-- ==== Sys2Proof/Machine/System.lean ====
section
/-! DEFINITION. Machine/System.lean: regions and marks (22 R423 to R425), `trap`, `eret` and `perf` (20 R395 to R397), and `sleep`
(11 R277). -/

namespace Sys2Proof.Machine

/-! ### Regions -/

/-- Region units that a region edge hits: those whose RFILT is the id, under bit `evt` of KINDS (R425). -/
def WatchUnit.edge (u : WatchUnit) (evt : Nat) (id : BitVec 16) : Bool := u.action != 0 && u.kinds / 2 ^ evt % 2 == 1 && u.rfilt == id

/-- What count and trace units do at a region edge. -/
def State.edgeSeen (s : State) (evt : Nat) (id : Option (BitVec 16)) : State :=
  match id with
  | none => s
  | some id =>
    if s.suppressed then s else
    (List.range 16).foldl (fun s i =>
      let p := s.part s.g.part
      let u := get {} p.watches i
      if !u.edge evt id then s
      else if u.action == 2 then
        s.setPart s.g.part { p with watches := put {} p.watches i { u with hits := if u.hits == 0xFFFFFFFF then u.hits else u.hits + 1 } }
      else if u.action == 3 then s.emitWatch s.g evt i (s.g.path s.slot).pc
      else s) s

/-- The trap of the lowest trap unit at a region edge. -/
def State.edgeStop (s : State) (evt : Nat) (id : Option (BitVec 16)) : Chk Unit :=
  match id with
  | none => .ok ()
  | some id =>
    if s.suppressed then .ok () else
    match (List.range 16).find? fun i => let u := get {} (s.part s.g.part).watches i; u.action == 1 && u.edge evt id with
    | some i => .error (.trap 19 0 (watchDetail s.g i evt 0) s.pathMask)
    | none => .ok ()

/-- A region edge: units first, then the change of the stack. -/
def regionCmd (gd : Guard) (s : State) (evt : Nat) (id : Option (BitVec 16)) (body : State → Chk State) :
    Host.Outcome State Fault Refusal :=
  phased s (.ok (s.groupPasses gd)) (fun b => if b then s.edgeSeen evt id else s)
    (fun b t => if b then (do t.edgeStop evt id; body t) else .ok t.advance)

def execRenter (f : SysF) (s : State) : Host.Outcome State Fault Refusal :=
  let n : BitVec 16 := f.imm.truncate 16
  regionCmd f.guard s 5 (some n) fun t => do
    need (t.g.regions.length < 8) (.trap 8 0 (BitVec.ofNat 64 n.toNat) t.pathMask)
    .ok (t.setG { t.g with regions := n :: t.g.regions }).advance

def execRleave (f : SysF) (s : State) : Host.Outcome State Fault Refusal :=
  regionCmd f.guard s 6 s.g.regions.head? fun t => do
    need (!t.g.regions.isEmpty) (.trap 8 0 0 t.pathMask)
    .ok (t.setG { t.g with regions := t.g.regions.drop 1 }).advance

def execTmark (f : SysF) (s : State) : Host.Outcome State Fault Refusal :=
  groupCmd f.guard s (.ok (s.emit s.g 4 (leBytes 2 f.imm.toNat)).advance)

/-! ### Traps -/

def execTrap (f : SysF) (s : State) : Host.Outcome State Fault Refusal :=
  onGroup s (do
    let m := s.execLive f.guard
    need (m == 0) (.trap 27 0 (BitVec.ofNat 64 f.imm.toNat) m)
    .ok s.advance)

/-- Return from the handler (R396); a translation fault's requests are made again. -/
def State.returnFrom (s : State) : State :=
  let g := s.g.countIssue s.slot s.now
  let r := g.recs.headD { kind := 0 }
  let g' := g.leaveHandler
  let g' := if r.engine && r.kind != 10 then g'.resumeCopies r else g'
  let g' := if r.kind == 18 then g'.unrefused else g'
  (s.setG { g' with lastSlot := 0 }).emitGroup g' 5 (resumePc r.kind r.pc).toNat

def execEret (f : SysF) (s : State) : Host.Outcome State Fault Refusal :=
  groupCmd f.guard s (do
    need (!s.g.recs.isEmpty && s.g.stack.length == 1) (.trap 30 0 0 s.pathMask)
    .ok s.returnFrom)

/-- The value that `perf` reads (R397). DEDUCED, log [46]. -/
def Group.perfVal (g : Group) (n : Nat) : Word :=
  let saved := g.saves.headD []
  let slot (k : Nat) : Path := g.shown (g.recs.length - 1) ((pathIn saved k).getD noPath)
  if n < 8 then (match g.recs with | r :: _ => r.word n | [] => 0)
  else if n == 8 then BitVec.ofNat 32 g.recs.length
  else if n == 9 then (slot 0).pc
  else if n == 10 then (slot 1).pc
  else if n == 11 then (slot 0).mask.truncate 32
  else if n == 12 then ((slot 0).mask >>> 32).truncate 32
  else if n == 13 then g.issued
  else if n == 14 then g.lastSC.truncate 32
  else (g.lastSC >>> 32).truncate 32

def execPerf (f : SysF) (s : State) : Host.Outcome State Fault Refusal :=
  groupCmd f.guard s (do
    let t ← s.writeS f.dst (s.g.perfVal f.var.toNat)
    .ok t.advance)

/-! ### `sleep` -/

def execSleep (f : SysF) (s : State) : Host.Outcome State Fault Refusal :=
  groupCmd f.guard s (
    let g := s.g.countIssue s.slot s.now
    let p := g.path s.slot
    .ok (s.setG (g.setPath s.slot { p with pc := pcNext p.pc, sleep := f.imm.toNat + 2, stall := 0, sup := none, tried := false })))

end Sys2Proof.Machine
end

