-- ==== Sys2Proof/Machine/Float.lean ====
section
/-! DEFINITION. Machine/Float.lean: floating-point operations (07 R117 to R121). -/

namespace Sys2Proof.Machine

/-- The format of a floating-point type. -/
def tyFmt : Ty → BinFmt
  | .f16 | .f16x2 => fFP16
  | .bf16 | .bf16x2 => fBF16
  | _ => fFP32

/-- DSC as a signed number (02 R47). DEDUCED, log [16]. -/
def dscOf (f : AluF) : Int := sgn 3 f.dsc.toNat

def drawAt (ws : List Word) (i : Nat) : Word := ws.getD i 0

/-- An element-by-element operation rounded once under VAR, with SAT (R117). -/
def fltOp (f : AluF) (op : FVal → FVal → FVal → RVal) (xs : List Nat) (ws : List Word) : Nat :=
  let fm := tyFmt f.ty
  buildElems f.ty fun i =>
    roundTo fm f.var.toNat f.sat (drawAt ws i)
      (op (decodeF fm (elemAt f.ty (argA xs) i)) (decodeF fm (elemAt f.ty (argB xs) i)) (decodeF fm (elemAt f.ty (argC xs) i)))

/-- `rd`, which gives −0 for a cancelled sum (06 R101). -/
def isRd (f : AluF) : Bool := f.var == 2

def addR (f : AluF) (a b : FVal) : RVal := ((FVal.add (isRd f) a b).scale (dscOf f)).r

def execFadd (f : AluF) (s : State) : Host.Outcome State Fault Refusal := execVal 0x20 f (fltOp f fun a b _ => addR f a b) s
def execFsub (f : AluF) (s : State) : Host.Outcome State Fault Refusal := execVal 0x21 f (fltOp f fun a b _ => addR f a b.neg) s
def execFmul (f : AluF) (s : State) : Host.Outcome State Fault Refusal :=
  execVal 0x22 f (fltOp f fun a b _ => ((a.mul b).scale (dscOf f)).r) s
def execFfma (f : AluF) (s : State) : Host.Outcome State Fault Refusal :=
  execVal 0x23 f (fltOp f fun a b c => addR f (a.mul b) c) s

/-- Order of codes with −0 below +0. -/
def codeLe (fm : BinFmt) (x y : Nat) : Bool :=
  let a := decodeF fm x
  let b := decodeF fm y
  a.lt b || (a.eqv b && (!a.isZero || a.isNeg || !b.isNeg))

/-- `fmin` (`big = false`) and `fmax` of two codes (R118). DEDUCED, log [22]. -/
def minMax (fm : BinFmt) (big : Bool) (x y : Nat) : Nat :=
  match (decodeF fm x).isNaN, (decodeF fm y).isNaN with
  | true, true => fm.nan.getD 0
  | true, false => y
  | false, true => x
  | false, false => if codeLe fm x y == big then y else x

def mmOp (f : AluF) (big : Bool) (xs : List Nat) (_ : List Word) : Nat :=
  buildElems f.ty fun i => minMax (tyFmt f.ty) big (elemAt f.ty (argA xs) i) (elemAt f.ty (argB xs) i)
def execFmin (f : AluF) (s : State) : Host.Outcome State Fault Refusal := execVal 0x24 f (mmOp f false) s
def execFmax (f : AluF) (s : State) : Host.Outcome State Fault Refusal := execVal 0x25 f (mmOp f true) s

/-- Comparison cc of two values (R118). -/
def cmpFlt (cc : Nat) (a b : FVal) : Bool :=
  let un := a.isNaN || b.isNaN
  match cc with
  | 0 => !un && a.eqv b
  | 1 => un || !a.eqv b
  | 2 => !un && a.lt b
  | 3 => !un && (a.lt b || a.eqv b)
  | 4 => !un && b.lt a
  | 5 => !un && (b.lt a || a.eqv b)
  | 6 => !un
  | _ => un
def fcmpAll (f : AluF) (xs : List Nat) (_ : List Word) : Nat :=
  let fm := tyFmt f.ty
  if (List.range f.ty.elems).all fun i =>
      cmpFlt f.var.toNat (decodeF fm (elemAt f.ty (argA xs) i)) (decodeF fm (elemAt f.ty (argB xs) i))
  then 1 else 0
def execFcmp (f : AluF) (s : State) : Host.Outcome State Fault Refusal := execVal 0x26 f (fcmpAll f) s

def one : FVal := .fin false 1 0
def execFdiv (f : AluF) (s : State) : Host.Outcome State Fault Refusal :=
  execVal 0x27 f (fltOp f fun a b _ => (a.scale (dscOf f)).div b) s
def execFrcp (f : AluF) (s : State) : Host.Outcome State Fault Refusal := execVal 0x28 f (fltOp f fun a _ _ => one.div a) s
def execFsqrt (f : AluF) (s : State) : Host.Outcome State Fault Refusal := execVal 0x29 f (fltOp f fun a _ _ => a.sqrt) s
def execFrsq (f : AluF) (s : State) : Host.Outcome State Fault Refusal := execVal 0x2A f (fltOp f fun a _ _ => a.rsqrt) s
def execFexp2 (f : AluF) (s : State) : Host.Outcome State Fault Refusal := execVal 0x2B f (fltOp f fun a _ _ => a.exp2) s
def execFlog2 (f : AluF) (s : State) : Host.Outcome State Fault Refusal := execVal 0x2C f (fltOp f fun a _ _ => a.log2) s
def execFtanh (f : AluF) (s : State) : Host.Outcome State Fault Refusal := execVal 0x2D f (fltOp f fun a _ _ => a.tanh) s

/-- The class bit of a code (R119). -/
def classBit (fm : BinFmt) (x : Nat) : Nat :=
  let sub := x / 2 ^ fm.mb % 2 ^ fm.eb == 0
  match decodeF fm x with
  | .nan => 8
  | .inf n => if n then 0 else 7
  | .fin n m _ => if m == 0 then (if n then 3 else 4) else if sub then (if n then 2 else 5) else if n then 1 else 6
def execFclass (f : AluF) (s : State) : Host.Outcome State Fault Refusal :=
  execVal 0x2E f (fun xs _ => 2 ^ classBit (tyFmt f.ty) (elemAt f.ty (argA xs) 0)) s

def execFldexp (f : AluF) (s : State) : Host.Outcome State Fault Refusal :=
  execVal 0x2F f (fun xs ws => fltOp f (fun a _ _ => (a.scale (sgn 32 (argB xs))).r) xs ws) s

/-- Round a value to an integral one, keeping its sign (R121). -/
def integral (mode : Nat) : FVal → RVal
  | .nan => .nan
  | .inf n => .inf n
  | .fin n m e =>
    let g := magOf m e
    let u := 2 ^ magBits
    let q := if roundUp mode n (g.n / u) (g.n % u) u g.sticky 0 then g.n / u + 1 else g.n / u
    .mag n ⟨q * u, false⟩
def execFrnd (f : AluF) (s : State) : Host.Outcome State Fault Refusal :=
  execVal 0x30 f (fltOp f fun a _ _ => integral f.var.toNat a) s

end Sys2Proof.Machine
end

