-- ==== Sys2Proof/Machine/Convert.lean ====
section
/-! DEFINITION. Machine/Convert.lean: conversion, packing, scaling, quantisation and exact dot products (07 R122 to R127). -/

namespace Sys2Proof.Machine

/-! ### `cvt` (R122) -/

/-- Convert one element. -/
def cvtElem (d t : Ty) (mode : Nat) (dsc : Int) (sat : Bool) (w : Word) (x : Nat) : Nat :=
  if t.isFloat then
    let v := (decodeF (tyFmt t) x)
    if d.isFloat then roundTo (tyFmt d) mode sat w (v.scale dsc).r
    else wrap (tyBits d) (roundInt mode w (loOf d) (hiOf d) v.r)
  else
    let v := toInt t x
    if d.isFloat then roundTo (tyFmt d) mode sat w ((FVal.ofInt v).scale dsc).r
    else narrow d sat v

/-- DEDUCED, log [16]: DSC of `cvt` from an integer scales the integer before the rounding. -/
def cvtFn (f : AluF) (xs : List Nat) (ws : List Word) : Nat :=
  let a := modifySrc f.ty (cvtSrc f) f.a.abs f.a.neg (argA xs)
  buildElems f.ty fun i => cvtElem f.ty (cvtSrc f) f.var.toNat (dscOf f) f.sat (drawAt ws i) (elemAt (cvtSrc f) a i)
def execCvt (f : AluF) (s : State) : Host.Outcome State Fault Refusal := execVal 0x38 f (cvtFn f) s

/-! ### `pack` and `unpack` (R123, R124) -/

def packFn (f : AluF) (xs : List Nat) (ws : List Word) : Nat :=
  match f.ty with
  | .f16x2 | .bf16x2 =>
    buildElems f.ty fun i =>
      roundTo (tyFmt f.ty) f.var.toNat f.sat (drawAt ws i) ((decodeF fFP32 (if i == 0 then argA xs else argB xs)).scale (dscOf f)).r
  | .i16x2 => buildElems f.ty fun i => wrap 16 (clampInt (-32768) 32767 (sgn 32 (if i == 0 then argA xs else argB xs)))
  | t => buildElems t fun i =>
      wrap 8 (clampInt (loOf t) (hiOf t) (sgn 16 (elemAt .i16x2 (if i < 2 then argA xs else argB xs) (i % 2))))
def execPack (f : AluF) (s : State) : Host.Outcome State Fault Refusal := execVal 0x39 f (packFn f) s

def unpackFn (f : AluF) (xs : List Nat) (_ : List Word) : Nat :=
  let x := elemAt f.ty (argA xs) f.var.toNat
  if f.ty.isFloat then roundTo fFP32 0 false 0 (decodeF (tyFmt f.ty) x).r else wrap 32 (toInt f.ty x)
def execUnpack (f : AluF) (s : State) : Host.Outcome State Fault Refusal := execVal 0x3A f (unpackFn f) s

/-! ### `scl` and `quant` (R125, R126) -/

def sclFn (f : AluF) (xs : List Nat) (ws : List Word) : Nat :=
  let x := argB xs % 256
  fltOp f (fun a _ _ => if x == 255 then .nan else (a.scale ((x : Int) - 127)).r) xs ws
def execScl (f : AluF) (s : State) : Host.Outcome State Fault Refusal := execVal 0x3C f (sclFn f) s

/-- The code of a value under a control word and a smoothing factor (R126). -/
def quantCode (mode : Nat) (w : Word) (a : FVal) (smooth : FVal) (c : Nat) : Nat :=
  let x := c / 256 % 256
  let t := c % 16
  let k : Int := 127 - (x : Int) + (if t == 5 then 6 else if t == 6 then 2 else 0)
  roundElem t mode w (if x == 255 then .nan else (a.scale k).div smooth)

/-- The operand check of R126: a non-zero reserved bit, or a TFMT of 9 to 15. -/
def quantBad (c : Nat) : Bool := c / 65536 != 0 || c / 16 % 8 != 0 || 9 ≤ c % 16

/-- One lane of `quant`; the read of a smoothing factor waits as an access of the group does (10 R226), also for a copy command that owns it (08
R182). -/
def quantFn (s : State) (f : AluF) (_ : Nat) (xs : List Nat) (ws : List Word) : Except LaneStop Nat :=
  let c := argC xs
  if quantBad c then .error (.trap 8 0 (BitVec.ofNat 64 c))
  else if c / 128 % 2 == 0 then .ok (quantCode f.var.toNat (drawAt ws 0) (decodeF fFP32 (argA xs)) one c)
  else
    match (if argB xs % 4 == 0 then s.scrAt s.g (argB xs) 4 else none) with
    | none => .error (.trap 17 0 (BitVec.ofNat 64 (argB xs)))
    | some (sp, byte) =>
      if s.inStash sp byte 4 then .error (.trap 17 0 (BitVec.ofNat 64 (argB xs)))
      else if s.ownedSpots s.g.part (fun _ _ => true) [(2 ^ 24 + sp, byte, 4)] then .error (.stall 3)
      else if s.g.ops.any fun o => !o.done && o.place == .scr && (o.kind == .store || o.kind == .amo)
          && o.accs.any fun x => x.addr < scrKey (s.space sp) byte + 4 && scrKey (s.space sp) byte < x.addr + o.bytes
        then .error (.stall 3)
      else if s.poisScr.contains (scrKey (s.space sp) byte / 4) then .error (.trap 29 0 (BitVec.ofNat 64 (argB xs)))
      else match s.g.heldBack with
        | some r => .error (.stall r)
        | none => .ok (quantCode f.var.toNat (drawAt ws 0) (decodeF fFP32 (argA xs)) (decodeF fFP32 (s.scrRead sp byte 4)) c)

/-- The control word is uniform, so SMOOTH is known before the lanes are. -/
def State.quantCtl (s : State) (f : AluF) : Nat :=
  match s.rdOpnd s.ctx [] f.c.opnd 1 0 with | .ok x => modify .i32 f.c.abs f.c.neg x.1 | .error _ => 0

/-- When SMOOTH is 0, b is not read (R126): its class neither pops, stalls nor traps. Its KILL still marks the name: on the same
name in a or before the result is written. DEDUCED, log [15]. -/
def State.dropB (s : State) (f : AluF) : State × AluF :=
  let same := f.b.kill && f.b.opnd == f.a.opnd
  let s' := if f.b.kill && !same && s.execLanes f.guard != 0 then s.setG (s.g.kill (killSet [⟨f.b, 1, .b32⟩])) else s
  (s', { f with a := { f.a with kill := f.a.kill || same }, b := { kill := false, abs := false, neg := false, opnd := .k 0 } })

def execQuant (f : AluF) (s : State) : Host.Outcome State Fault Refusal :=
  onGroup s (do
    s.needWindow 0x3B f
    if s.quantCtl f / 128 % 2 == 0 then
      let (t, h) := s.dropB f
      t.runVal 0x3B h { valOp 0x3B h (fun _ _ => 0) with fn := quantFn t h }
    else s.runVal 0x3B f { valOp 0x3B f (fun _ _ => 0) with fn := quantFn s f })

/-! ### `dot` (R127) -/

/-- Elements of a register under a dot variant: how many, and the code of the element format. -/
def dotShape (v : Nat) : Nat × Nat :=
  match v with
  | 0 => (8, 0) | 1 => (4, 3) | 2 => (4, 4) | 3 => (4, 5) | 4 => (4, 10) | 5 => (8, 6) | 6 => (2, 7) | _ => (2, 8)

def dotElem (v x i : Nat) : Nat := let b := 32 / (dotShape v).1; x / 2 ^ (b * i) % 2 ^ b

def dotInt (v a b c : Nat) : Int :=
  let e (x i : Nat) : Int := if v == 4 then (dotElem v x i : Nat) else sgn (32 / (dotShape v).1) (dotElem v x i)
  sgn 32 c + ((List.range (dotShape v).1).map fun i => e a i * e b i).foldl (· + ·) 0

def dotFlt (v a b c : Nat) : FVal :=
  let e (x i : Nat) : FVal := elemVal (dotShape v).2 (dotElem v x i)
  (List.range (dotShape v).1).foldl (fun t i => FVal.add false t ((e a i).mul (e b i))) (decodeF fFP32 c)

def dotFn (f : AluF) (xs : List Nat) (_ : List Word) : Nat :=
  let v := f.var.toNat
  if f.ty == .i32 then narrow .i32 f.sat (dotInt v (argA xs) (argB xs) (argC xs))
  else roundTo fFP32 0 f.sat 0 ((dotFlt v (argA xs) (argB xs) (argC xs)).scale (dscOf f)).r
def execDot (f : AluF) (s : State) : Host.Outcome State Fault Refusal := execVal 0x40 f (dotFn f) s

end Sys2Proof.Machine
end

