-- ==== Sys2Proof/Machine/Cross.lean ====
section
/-! DEFINITION. Machine/Cross.lean: cross-lane operations (07 R128 to R133). -/

namespace Sys2Proof.Machine

/-- The contents of a lane-bound source in a lane that does not execute: its register as last written, 0 through a carry
(R128). -/
def State.idleSrc (s : State) (ctx : Nat) (u : SrcUse) (l : Nat) : Nat :=
  match u.src.opnd with
  | .v r => modify u.ty u.src.abs u.src.neg (pair u.n fun i => (s.group ctx).rdV (r.toNat + i) l)
  | _ => 0

/-- What a cross-lane operation knows: the lane-bound source in every lane, the contributing lanes, and the lanes' other
operands. -/
structure CrossIn where
  at_ : Nat → Nat
  live : Mask
  args : Nat → List Nat

/-- Run a cross-lane operation. `fn` gives the result of each executing lane; an `s` or `sp` destination takes one value. DESIGN
CHOICE, log [42]: when no lane executes, such a destination is not written. -/
def State.runCross (s : State) (gd : Guard) (uses : List SrcUse) (imm : List Nat → List Nat) (dst : Opnd) (n : Nat)
    (fn : CrossIn → Nat → Nat) : Chk State := do
  let e := s.execLanes gd
  let live := e &&& ~~~s.g.helper
  if e == 0 then .ok s else
  match nameStop s.g uses with
  | some (k, d) => if live == 0 then .ok s else .error (.trap k 0 d live)
  | none =>
    s.needYield live dst
    let pops ← popsFor s.g uses
    let vs ← gather s.g.helper ((lanesOf e).map fun l => (l, s.rdSrcs s.ctx pops uses l))
    let voids := vs.foldl (fun m x => if x.2.2 then m ||| oneBit x.1 else m) 0
    let rows : List (Nat × List Nat) := vs.map fun x => (x.1, x.2.1)
    let src (j : Nat) : Nat := match rows.find? (·.1 == j) with
      | some r => argA r.2
      | none => match uses with | u :: _ => s.idleSrc s.ctx u j | [] => 0
    let x : CrossIn := ⟨src, live, fun l => match rows.find? (·.1 == l) with | some r => imm r.2 | none => imm []⟩
    let res := rows.map fun r => (r.1, fn x r.1)
    match dst with
    | .s r =>
      match s.g.pendingWrite (dstNames dst n) with
      | some w => .error (.stall w)
      | none =>
        let s ← s.commitLanes s.ctx live uses pops voids (.ps 0) 1 0 (rows.map (·.1)) []
        .ok (match res with | y :: _ => s.setG (s.g.wrSs r.toNat n y.2) | [] => s)
    | .sp r =>
      let s ← s.commitLanes s.ctx live uses pops voids (.ps 0) 1 0 (rows.map (·.1)) []
      .ok (match res with | y :: _ => s.setG (s.g.wrSp r.toNat (y.2 != 0)) | [] => s)
    | _ => s.commitLanes s.ctx live uses pops voids dst n 0 (rows.map (·.1)) res

def execCross (opc : Nat) (f : AluF) (n : Nat) (fn : CrossIn → Nat → Nat) (s : State) : Host.Outcome State Fault Refusal :=
  onGroup s (do
    s.needWindow opc f
    let t ← s.runCross f.guard (aluUses opc f) (placeImm opc f) f.dst n fn
    .ok t.advance)

/-! ### `shfl` and `qxch` (R129, R130) -/

/-- Source lane of `shfl` (R129). -/
def shflLane (mode n l b : Nat) : Nat :=
  match mode with
  | 0 => b % n
  | 1 => if b ≤ l then l - b else l
  | 2 => if l + b < n then l + b else l
  | _ => l ^^^ (b % n)
def execShfl (f : AluF) (s : State) : Host.Outcome State Fault Refusal :=
  execCross 0x48 f 1 (fun x l => x.at_ (shflLane f.var.toNat (s.special s.ctx 0 .width) l (argB (x.args l) % 2 ^ 32))) s

/-- Source lane of `qxch`. -/
def qxchLane (mode l b : Nat) : Nat :=
  match mode with
  | 0 => l / 4 * 4 + b % 4
  | 1 => l / 4 * 4 + (l + 1) % 4
  | 2 => l ^^^ 1
  | _ => l ^^^ 2
def execQxch (f : AluF) (s : State) : Host.Outcome State Fault Refusal :=
  execCross 0x49 f 1 (fun x l => x.at_ (qxchLane f.var.toNat l (argB (x.args l)))) s

/-! ### `vote` (R131) -/

/-- The result of a vote on the true lanes `t` of the contributing lanes `c`. -/
def voteVal (mode : Nat) (c t : Mask) : Nat :=
  match mode with
  | 0 => (t &&& c).toNat
  | 1 => if (t &&& c) != 0 then 1 else 0
  | _ => if (t &&& c) == c then 1 else 0

def execVote (f : AluF) (s : State) : Host.Outcome State Fault Refusal :=
  let wide := f.var == 0 && s.g.width == 64
  let p : Mask := match f.a.opnd with | .p n => s.g.pmask n.toNat | _ => 0
  onGroup s (do
    need (!(wide && Opnd.odd f.dst)) (illegalStop (.alu 0x4A f) 7 s.pathMask)
    let t ← s.runCross f.guard [] id f.dst (if wide then 2 else 1) (fun x _ => voteVal f.var.toNat x.live p)
    .ok t.advance)

/-! ### `gred` and `gscan` (R132) -/

/-- Integer combination with its identity. -/
def redInt (ty : Ty) (op : Nat) (xs : List Nat) : Nat :=
  let n := tyBits ty
  match op with
  | 0 => xs.foldl (fun a x => (a + x) % 2 ^ n) 0
  | 1 => wrap n (xs.foldl (fun a x => Min.min a (toInt ty x)) (hiOf ty))
  | 2 => wrap n (xs.foldl (fun a x => Max.max a (toInt ty x)) (loOf ty))
  | 3 => xs.foldl (fun a x => a &&& x) (2 ^ n - 1)
  | 4 => xs.foldl (fun a x => a ||| x) 0
  | _ => xs.foldl (fun a x => a ^^^ x) 0

/-- FP32 combination: the sum is exact and rounded once. DEDUCED, log [22]. -/
def redF32 (op : Nat) (xs : List Nat) : Nat :=
  match op, xs with
  | 0, [] => 0
  | 0, x :: r => roundTo fFP32 0 false 0 (r.foldl (fun a y => FVal.add false a (decodeF fFP32 y)) (decodeF fFP32 x)).r
  | 1, [] => 0x7F800000
  | _, [] => 0xFF800000
  | o, x :: r => (x :: r).foldl (fun a y => minMax fFP32 (o == 2) a y) x

/-- DEDUCED, log [22]: min and max of lanes that are all NaN give the canonical NaN. -/
def redVal (ty : Ty) (op : Nat) (xs : List Nat) : Nat := if ty == .f32 then redF32 op xs else redInt ty op xs

def execGred (f : AluF) (s : State) : Host.Outcome State Fault Refusal :=
  execCross 0x4B f (aluWidths 0x4B f.ty none).1 (fun x _ => redVal f.ty f.var.toNat ((lanesOf x.live).map x.at_)) s

/-- The contributing lanes that a lane's scan combines. -/
def scanLanes (excl : Bool) (live : Mask) (l : Nat) : List Nat :=
  (lanesOf live).filter fun j => j < l || (!excl && j == l)
def execGscan (f : AluF) (s : State) : Host.Outcome State Fault Refusal :=
  execCross 0x4C f (aluWidths 0x4C f.ty none).1
    (fun x l => redVal f.ty (f.var.toNat % 8) ((scanLanes (8 ≤ f.var.toNat) x.live l).map x.at_)) s

/-! ### `rdlane` (R133) -/

def execRdlane (f : AluF) (s : State) : Host.Outcome State Fault Refusal :=
  execCross 0x4E f 1 (fun x l =>
    let j := argB (x.args l) % 2 ^ 32 % s.special s.ctx 0 .width
    if bitOf s.g.ended j then 0 else x.at_ j) s

end Sys2Proof.Machine
end

