-- ==== Sys2Proof/Machine/Special.lean ====
section
/-! DEFINITION. Machine/Special.lean: carry operands (07 R134 to R136), random words and keys (R137 to R140), special registers,
settings and the clock (R141 to R143), and the capability query (23 R448, R449). -/

namespace Sys2Proof.Machine

/-! ### Carries -/

/-- `cset`: the window opens, or is cleared after a loop, and the value is written as at turn −1 (R134). DESIGN CHOICE, log [27]:
the window that the first `cset` opens also serves its own source, so that `cset cK, cJ` reads cJ as a void (01 R26).
A `cset` that no lane executes neither opens nor clears a window. DESIGN CHOICE, log [31]. -/
def execCset (f : AluF) (s : State) : Host.Outcome State Fault Refusal :=
  onGroup s (do
    need (!s.g.it.isSome) (illegalStop (.alu 0x50 f) 7 s.pathMask)
    if s.execLanes f.guard == 0 then .ok s.advance else
    let t ← (s.setG s.g.openWindow).runLanes f.guard (valOp 0x50 f (bitOp f fun a _ _ => a))
    .ok t.advance)

/-- What `cfwd` reads in a lane: a value, or a VOID to forward; outside an iteration group a slot-lane that is EMPTY or earlier, which 13 R292 reads as
an absent value, is forwarded as VOID too, and p14 is not set (R135). DESIGN CHOICE, log [32]. -/
def State.fwdRead (s : State) (k l : Nat) : Except LaneStop (Option Word) :=
  match s.carryRead s.ctx k l with
  | .val w => .ok (some w)
  | .void => .ok none
  | .wait => .error (.stall 9)
  | .overrun sl tag => .error (.trap 11 0 (BitVec.ofNat 64 (sl + tag.toNat * 65536)))

/-- `cfwd`: a FULL slot is forwarded as FULL, a VOID one as VOID, and p14 is not set (R135). -/
def State.forward (s : State) (gd : Guard) (src dst : Nat) : Chk State := do
  let e := s.execLanes gd
  let live := e &&& ~~~s.g.helper
  if e == 0 then .ok s else
  if !s.mayYield s.ctx dst then (if live == 0 then .ok s else .error (.trap 13 6 0 live)) else
  let vs ← gather s.g.helper ((lanesOf e).map fun l => (l, s.fwdRead src l))
  let vs ← gather s.g.helper (vs.map fun x => (x.1, match s.carryBad s.ctx dst x.1 with
    | some (k, d) => .error (LaneStop.trap k 0 d)
    | none => .ok x.2))
  .ok (vs.foldl (fun s x => s.carryWrite s.ctx dst x.1 (x.2.getD 0) (x.2.isNone || bitOf s.g.helper x.1)) s)

def execCfwd (f : AluF) (s : State) : Host.Outcome State Fault Refusal :=
  onGroup s (do
    s.needWindow 0x51 f
    match f.a.opnd, f.dst with
    | .c a, .c d => (s.forward f.guard a.toNat d.toNat).map State.advance
    | _, _ => .ok s.advance)

/-- The word that `cstat` reports (R136). The tag of an EMPTY slot-lane has no meaning and reads as a free value (log [2], DESIGN CHOICE). -/
def State.carryStat (s : State) (k l : Nat) : Nat :=
  let t := s.turnOf s.ctx
  let x := get {} ((s.window s.ctx).getD {}).slots (slotKey (carrySlot k t) l)
  let tag : BitVec 16 := if x.st == .empty then (Config.freeWord (s.fresh + l)).truncate 16 else x.tag
  let rel := if tag == carryTag k t then 0 else if tagLater tag (carryTag k t) then 2 else 1
  tag.toNat * 65536 + rel * 4 + (match x.st with | .empty => 0 | .full => 1 | .void => 2)

def execCstat (f : AluF) (s : State) : Host.Outcome State Fault Refusal :=
  onGroup s (do
    s.needWindow 0x52 f
    let k := match f.a.opnd with | .c n => n.toNat | _ => 0
    let t ← s.runLanes f.guard ⟨[], f.dst, 1, 0, fun l _ _ => .ok (s.carryStat k l)⟩
    .ok { t with fresh := t.fresh + 64 }.advance)

/-! ### Random words -/

/-- A random word as b32 or f32 (R139). -/
def randVal (ty : Ty) (w : Word) : Nat :=
  if ty == .f32 then roundTo fFP32 0 false 0 (FVal.fin false (w.toNat / 256) (-24)).r else w.toNat
def execRand (f : AluF) (s : State) : Host.Outcome State Fault Refusal :=
  onGroup s (s.runVal 0x58 f ⟨[], f.dst, 1, 1, fun _ _ ws => .ok (randVal f.ty (drawAt ws 0))⟩)

/-- `rkey`: the old key to d, the new key from a, the counter to 0 in the executing lanes (R140). -/
def Group.setKey (g : Group) (l : Nat) (k : DWord) : Group := { g with key := put 0 g.key l k, ctr := put 0 g.ctr l 0 }
def State.newKey (s : State) (f : AluF) (l : Nat) : DWord :=
  match s.rdSrcs s.ctx [] (aluUses 0x59 f) l with
  | .ok (xs, _) => BitVec.ofNat 64 (argA (placeImm 0x59 f xs))
  | .error _ => 0
/-- Only helpers execute, and each would trap: nothing is written (01 R32). -/
def State.helpersDrop (s : State) (gd : Guard) (uses : List SrcUse) (dst : Opnd) (n : Nat) : Bool :=
  s.execLive gd == 0 && ((nameStop s.g uses).isSome || (dst.isV && s.g.peak < s.g.needs (killSet uses) (dstV dst n)))

def execRkey (f : AluF) (s : State) : Host.Outcome State Fault Refusal :=
  onGroup s (do
    let us := aluUses 0x59 f
    let t ← s.runLanes f.guard ⟨us, f.dst, 2, 0, fun l _ _ => .ok (get 0 s.g.key l).toNat⟩
    let g := (if s.helpersDrop f.guard us f.dst 2 then [] else lanesOf (s.execLanes f.guard)).foldl (fun g l => g.setKey l (s.newKey f l)) t.g
    .ok (t.setG g).advance)

/-! ### Special registers, settings, clock and capabilities -/

def execSget (f : AluF) (s : State) : Host.Outcome State Fault Refusal := execVal 0x60 f (bitOp f fun a _ _ => a) s

/-- The operand of an instruction of the uniform front: its IMM32, or SA. -/
def State.frontVal (s : State) (opc : Nat) (f : AluF) : Nat :=
  match f.imm with
  | some w => w.toNat
  | none => match s.rdSrcs s.ctx [] (aluUses opc f) 0 with | .ok (xs, _) => argA xs | .error _ => 0

/-- Poison of the sources of an instruction of the uniform front. -/
def State.needClean (s : State) (us : List SrcUse) : Chk Unit :=
  match nameStop s.g us with
  | some (k, d) => .error (.trap k 0 d s.pathMask)
  | none => .ok ()

/-- `sset`: the group setting word (R142). -/
def execSset (f : AluF) (s : State) : Host.Outcome State Fault Refusal :=
  onGroup s (do
    if !s.groupPasses f.guard then .ok s.advance else
    s.needClean (aluUses 0x61 f)
    let x := s.frontVal 0x61 f
    need (x / 8 == 0) (.trap 8 0 (BitVec.ofNat 64 x) s.pathMask)
    let t ← s.commitUniform s.ctx [] f.dst 1 0 0 s.g.setting.toNat
    .ok (t.setG { t.g with setting := BitVec.ofNat 32 x }).advance)

/-- The capability registry (23 R448) as a device partition sees it; `quota` is the asking core partition's. -/
def State.registry (s : State) (quota : Option Nat) (key : Nat) : Option Nat :=
  match key with
  | 0x0001 => some 9
  | 0x0002 => some 0xF
  | 0x0003 => some 16384
  | 0x0004 => some 3
  | 0x0005 => some 64
  | 0x0006 => some 0x7FFFFFFF
  | 0x0007 => some 65535
  | 0x0010 => some 0x7FF
  | 0x0041 => some 1
  | 0x0020 => some (Config.cores / s.npart)
  | 0x0021 => some 786432
  | 0x0022 => some 16
  | 0x0023 => some 3164160
  | 0x0030 => some s.khz
  | 0x0031 => quota
  | 0x0050 => some 1
  | _ => none

/-- Keys that carry BIND. -/
def bindKeys : List Nat := [0x0001, 0x0002, 0x0003, 0x0004, 0x0005, 0x0006, 0x0007, 0x0010, 0x0041, 0x0021, 0x0022, 0x0050]

/-- What the registry answers a group. -/
def State.capability (s : State) (g : Group) (key : Nat) : Option Nat :=
  s.registry (some (get 4095 (s.part g.part).quota (4 * g.core + g.cpart))) key

def execCap (f : AluF) (s : State) : Host.Outcome State Fault Refusal :=
  onGroup s (do
    if !s.groupPasses f.guard then .ok s.advance else
    s.needClean (aluUses 0x62 f)
    let w := s.frontVal 0x62 f
    need (w / 2 ^ 19 == 0) (.trap 8 0 (BitVec.ofNat 64 w) s.pathMask)
    let e := s.capability s.g (w % 65536)
    let t ← s.commitUniform s.ctx [] f.dst 2 0 0 (e.getD 0)
    .ok (t.setG (t.g.wrSp (w / 65536 % 8) e.isSome)).advance)

/-- `clk`: the cycle counter of the group's core (R143). -/
def execClk (f : AluF) (s : State) : Host.Outcome State Fault Refusal :=
  execVal 0x63 f (fun _ _ => (s.coreCycles s.g.core).toNat) s

end Sys2Proof.Machine
end

