-- ==== Sys2Proof/Machine/Copy.lean ====
section
/-! DEFINITION. Machine/Copy.lean: the copy commands (08 R172 to R183): the command block, the issue checks, element positions
(06 R103, R104, 08 R175), what the engine does row by row (R177 to R180, 06 R107), completion and engine faults. -/

namespace Sys2Proof.Machine

/-! ### Fields (R172, R173) -/

def CopyCmd.w (c : CopyCmd) (i : Nat) : Nat := (c.words.getD i 0).toNat
def CopyCmd.moff (c : CopyCmd) : Nat := c.w 0 + c.w 1 % 256 * 2 ^ 32
def CopyCmd.mbuf (c : CopyCmd) : Nat := c.w 1 / 256 % 16
def CopyCmd.tag (c : CopyCmd) : Nat := c.w 1 / 65536
def CopyCmd.saddr (c : CopyCmd) : Nat := c.w 2 % 2 ^ 20
def CopyCmd.atile (c : CopyCmd) : Nat := c.w 2 / 2 ^ 20 % 16
def CopyCmd.rows (c : CopyCmd) : Nat := c.w 3 % 65536
def CopyCmd.cols (c : CopyCmd) : Nat := c.w 3 / 65536
def CopyCmd.pitch (c : CopyCmd) : Nat := c.w 4 % 2 ^ 20
def CopyCmd.baddr (c : CopyCmd) : Nat := c.w 5 % 2 ^ 20
def CopyCmd.aux (c : CopyCmd) : Nat := c.w 6
def CopyCmd.aux2 (c : CopyCmd) : Nat := c.w 7
def CopyCmd.xfmt (c : CopyCmd) : Nat := c.opt.toNat % 16
def CopyCmd.rnd (c : CopyCmd) : Nat := c.opt.toNat / 16 % 8
def CopyCmd.plane (c : CopyCmd) : Bool := c.opt.getLsbD 7
def CopyCmd.xpose (c : CopyCmd) : Bool := c.opt.getLsbD 8
def CopyCmd.smooth (c : CopyCmd) : Bool := c.opt.getLsbD 9
def CopyCmd.arriving (c : CopyCmd) : Bool := c.opt.getLsbD 10
def CopyCmd.notify (c : CopyCmd) : Bool := c.opt.getLsbD 11
def CopyCmd.fromAcc (c : CopyCmd) : Bool := c.opt.getLsbD 12
def CopyCmd.mxs (c : CopyCmd) : Bool := c.opt.getLsbD 13
def CopyCmd.intAcc (c : CopyCmd) : Bool := c.opt.getLsbD 14

/-- Operations, by OPC: 0x10 `cpld`, 0x11 `cpst`, 0x12 `cpred`, 0x13 `cpgat`. -/
def CopyCmd.loads (c : CopyCmd) : Bool := c.op == 0x10 || c.op == 0x13
def CopyCmd.reduces (c : CopyCmd) : Bool := c.op == 0x12
def CopyCmd.gathers (c : CopyCmd) : Bool := c.op == 0x13
def CopyCmd.mrec (c : CopyCmd) : Rec := ⟨c.recM⟩
def CopyCmd.xrec (c : CopyCmd) : Rec := ⟨c.recX⟩
def CopyCmd.fmt (c : CopyCmd) : Nat := (CopyCmd.mrec c).fmt
/-- A BFP64 reduce-store. -/
def CopyCmd.bfp (c : CopyCmd) : Bool := c.reduces && c.fmt == 10
/-- Record XBUF is used. -/
def CopyCmd.usesX (c : CopyCmd) : Bool := (c.op == 0x11 && c.mxs) || c.bfp
/-- Scratchpad address of the smoothing vector. -/
def CopyCmd.smAt (c : CopyCmd) : Nat := if c.gathers then c.aux2 else c.aux

/-- Rows and columns of the destination: under XPOSE box element (r, c) lands at (c, r) (R173). -/
def CopyCmd.dRows (c : CopyCmd) : Nat := if c.xpose then c.cols else c.rows
def CopyCmd.dCols (c : CopyCmd) : Nat := if c.xpose then c.rows else c.cols
/-- The box position of a place of the destination. -/
def CopyCmd.box (c : CopyCmd) (i j : Nat) : Nat × Nat := if c.xpose then (j, i) else (i, j)
/-- The rows and columns that lie in scratchpad: the destination of a load, the box of a store. -/
def CopyCmd.sRows (c : CopyCmd) : Nat := if c.loads then c.dRows else c.rows
def CopyCmd.sCols (c : CopyCmd) : Nat := if c.loads then c.dCols else c.cols

/-! ### Issue checks (R176) -/

/-- Option bits that R174 forbids for the operation. -/
def CopyCmd.badOptions (c : CopyCmd) : Bool :=
  (if c.loads then c.fromAcc || c.intAcc || c.mxs else c.plane || c.smooth || (c.reduces && c.mxs))
    || (c.intAcc && !c.fromAcc)

/-- Reserved bits of the block, and AUX and AUX2 where they have no meaning (R172, R174). -/
def CopyCmd.badWords (c : CopyCmd) : Bool :=
  c.w 1 / 4096 % 16 != 0 || 12 ≤ c.mbuf || c.w 2 / 2 ^ 24 != 0 || c.w 4 / 2 ^ 20 != 0 || c.w 5 / 2 ^ 20 != 0
    || (!c.arriving && c.baddr != 0)
    || (if c.gathers then c.aux / 2 ^ 20 != 0 || c.aux2 / 2 ^ 20 != 0 || (!c.smooth && c.aux2 != 0)
        else if c.loads then c.aux2 != 0 || c.aux / 2 ^ 20 != 0 || (!c.smooth && c.aux != 0)
        else if c.usesX then 12 ≤ c.aux2
        else c.aux != 0 || c.aux2 != 0)

/-- Bytes of the first `n` elements of a row; of FP6, its nibbles. -/
def lenOf (fmt n : Nat) : Nat :=
  match elemBits fmt with
  | 4 => (n + 1) / 2
  | 6 => (n + 1) / 2
  | b => n * (b / 8)
/-- Bytes of one row of the box in element layout. -/
def CopyCmd.rowBytes (c : CopyCmd) : Nat := lenOf c.xfmt c.sCols

/-- Scratchpad ranges of the box from element `j` of row `i` on, of a plane tile from its first plane that is left on: address and length. -/
def CopyCmd.boxFrom (c : CopyCmd) (i j : Nat) : List (Nat × Nat) :=
  if c.fromAcc then []
  else if c.plane then [(c.saddr + 512 * c.planes, 512 * (elemBits c.xfmt - c.planes))]
  else
    let rows := (List.range c.sRows).drop i
    let at_ (r : Nat) : Nat := if r == i then j else 0
    (rows.map fun r => (c.saddr + r * c.pitch + lenOf c.xfmt (at_ r), c.rowBytes - lenOf c.xfmt (at_ r)))
      ++ (if elemBits c.xfmt == 6 then
        rows.map fun r => (c.saddr + c.rows * c.pitch + r * (c.pitch / 2) + at_ r / 4, (c.sCols + 3) / 4 - at_ r / 4)
      else [])
def CopyCmd.boxRanges (c : CopyCmd) : List (Nat × Nat) := c.boxFrom 0 0

/-- Every scratchpad range of a command. -/
def CopyCmd.ranges (c : CopyCmd) : List (Nat × Nat) :=
  c.boxRanges ++ (if c.smooth then [(c.smAt, 4 * c.cols)] else []) ++ (if c.gathers then [(c.aux, 4 * c.rows)] else [])
    ++ (if c.arriving then [(c.baddr, 8)] else [])

/-- The shape of the box against its formats and layouts (R175, R176). DEDUCED, log [81]. -/
def CopyCmd.badShape (c : CopyCmd) : Bool :=
  let four (f : Nat) : Bool := elemBits f == 4 && c.cols % 2 != 0
  let six (f : Nat) : Bool := elemBits f == 6 && c.cols % 4 != 0
  c.rows == 0 || c.cols == 0 || 4096 < c.rows || 4096 < c.cols
    || four c.fmt || six c.fmt || (!c.fromAcc && (four c.xfmt || six c.xfmt))
    || ((c.mrec).fp6 && (c.moff % 2 != 0 || (c.mrec).stride % 2 != 0))
    || (c.bfp && (c.moff % 192 != 0 || (c.mrec).stride % 192 != 0 || c.cols % 64 != 0 || c.rnd != 0))
    || (c.mxs && (c.cols % 32 != 0 || 6 < c.fmt))
    || (if c.reduces then c.fmt != 9 && c.fmt != 10 else 9 < c.fmt)
    || (if c.plane then c.rows != 64 || c.cols != 64 || c.saddr % 512 != 0 || c.pitch != 0
        else if c.fromAcc then c.pitch != 0
        else c.saddr % 4 != 0 || c.pitch % 4 != 0 || c.pitch < c.rowBytes)

/-- Ranges outside the allocation, a tile that is not the block's, a tile box past an edge; a barrier address is a multiple of 8. DEDUCED, log [81]. -/
def CopyCmd.badPlace (c : CopyCmd) (x : Space) : Bool :=
  c.ranges.any (fun r => x.size < r.1 + r.2) || c.baddr % 8 != 0
    || (c.fromAcc && (x.acc ≤ c.atile || c.saddr / 4096 != 0 || 64 < c.saddr / 64 % 64 + c.rows || 64 < c.saddr % 64 + c.cols))

/-- DEDUCED, log [81]: readings of the copy command block. -/
def CopyCmd.bad (c : CopyCmd) (x : Space) : Bool := c.badOptions || c.badWords || c.badShape || c.badPlace x

/-! ### Memory positions (06 R103, R104, 08 R175) -/

/-- An element in memory: the logical offset and length of its bytes, its place in the byte, and for FP6 the pair's. -/
structure Elem where
  off : Nat
  n : Nat
  sub : Nat := 0
  pairOff : Nat := 0
  pairSub : Nat := 0
deriving DecidableEq, Repr

/-- Element `c` of the run at a logical offset. -/
def Rec.elem (r : Rec) (run c : Nat) : Elem :=
  match elemBits r.fmt with
  | 4 => { off := run + c / 2, n := 1, sub := c % 2 }
  | 6 => { off := (2 * run + c) / 2, n := 1, sub := (2 * run + c) % 2, pairOff := r.planeOff + (2 * run + c) / 4, pairSub := (2 * run + c) % 4 }
  | b => { off := run + c * (b / 8), n := b / 8 }

/-- Object ranges of an element. -/
def Rec.spots (r : Rec) (e : Elem) : List (Nat × Nat) :=
  (r.at e.off, e.n) :: (if r.fp6 then [(r.at e.pairOff, 1)] else [])

/-- The element at a memory row and column. -/
def CopyCmd.elemAt (x : CopyCmd) (row col : Nat) : Elem := (x.mrec).elem (x.moff + row * (x.mrec).stride) col
/-- The memory row that a row of the box is: the index read for it, in a `cpgat`. -/
def CopyCmd.srcRow (x : CopyCmd) (r : Nat) : Nat := if x.gathers then (x.idx.getD r (0, false)).1 else r
/-- The memory element of a place of the destination: the source of a load, the destination of a store. -/
def CopyCmd.mem (x : CopyCmd) (i j : Nat) : Elem :=
  if x.loads then x.elemAt (x.srcRow (x.box i j).1) (x.box i j).2 else x.elemAt i j

/-- Exponent offset of the block that holds a memory row and column. -/
def CopyCmd.expOff (x : CopyCmd) (row col : Nat) : Nat := x.aux + 2 * ((x.moff + row * (x.mrec).stride) / 192 + col / 64)
/-- Scale byte offset of group h of row r of the box. -/
def CopyCmd.scaleOff (x : CopyCmd) (r h : Nat) : Nat := x.aux + r * x.cols / 32 + h
/-- The XBUF access of a place of the destination: its block's exponent, or, of the first place of a group, its scale. -/
def CopyCmd.xOff (x : CopyCmd) (i j : Nat) : Option (Nat × Nat) :=
  if x.bfp then some (x.expOff i j, 2)
  else if x.mxs && (x.box i j).2 % 32 == 0 then some (x.scaleOff (x.box i j).1 ((x.box i j).2 / 32), 1)
  else none

/-- The DETAIL of a place whose access lies out of bounds where its record does not clip (R176). -/
def CopyCmd.outside (x : CopyCmd) (i j : Nat) : Option DWord :=
  let e := x.mem i j
  if !(x.mrec).clip && !(x.mrec).inBounds e.off e.n then some ((x.mrec).detail e.off)
  else match x.xOff i j with
    | some o => if !(x.xrec).clip && !(x.xrec).inBounds o.1 o.2 then some ((x.xrec).detail o.1) else none
    | none => none

/-- The first element of the box, r before c, that lies out of bounds (20 R455). -/
def CopyCmd.boundsStop (x : CopyCmd) : Option DWord :=
  (List.range x.rows).findSome? fun r => (List.range x.cols).findSome? fun c => x.outside (x.box r c).1 (x.box r c).2

/-- Neighbouring ranges of one object and page, joined. -/
def joinSpots : List (Nat × Nat × Nat) → List (Nat × Nat × Nat)
  | [] => []
  | q :: r =>
    match joinSpots r with
    | [] => [q]
    | d :: l =>
      if q.1 == d.1 && q.2.1 ≤ d.2.1 && d.2.1 ≤ q.2.1 + q.2.2 && q.2.1 / 65536 == (d.2.1 + d.2.2 - 1) / 65536
      then (q.1, q.2.1, Max.max (q.2.1 + q.2.2) (d.2.1 + d.2.2) - q.2.1) :: l
      else q :: d :: l

/-- Object ranges of some places of the destination, clipped elements left out; the pair plane of FP6 and XBUF last. -/
def CopyCmd.spots (x : CopyCmd) (ps : List (Nat × Nat)) : List (Nat × Nat × Nat) :=
  let r := x.mrec
  let y := x.xrec
  let es := (ps.map fun p => x.mem p.1 p.2).filter fun e => r.inBounds e.off e.n
  joinSpots (es.map fun e => (r.obj, r.at e.off, e.n))
    ++ (if r.fp6 then joinSpots (es.map fun e => (r.obj, r.at e.pairOff, 1)) else [])
    ++ joinSpots ((ps.filterMap fun p => (x.xOff p.1 p.2).bind fun o => if y.inBounds o.1 o.2 then some (y.obj, y.at o.1, o.2) else none))

/-- Places of the elements `lo` up to `hi` of a row of the destination. -/
def places (i lo hi : Nat) : List (Nat × Nat) := ((List.range hi).drop lo).map (i, ·)

/-- Object ranges of the destination's rows from element `j` of row `i` on. -/
def CopyCmd.spotsFrom (x : CopyCmd) (i j : Nat) : List (Nat × Nat × Nat) :=
  (((List.range x.dRows).drop i).map fun k => x.spots (places k (if k == i then j else 0) x.dCols)).flatten
def CopyCmd.spotsAll (x : CopyCmd) : List (Nat × Nat × Nat) := x.spotsFrom 0 0

/-- The bytes that a command has still to write: object ranges, or scratchpad ranges of the space `sp`. -/
def CopyCmd.left (x : CopyCmd) (sp : Nat) : List (Nat × Nat × Nat) :=
  if x.loads then (x.boxFrom x.row x.col).map fun r => (2 ^ 24 + sp, r.1, r.2) else x.spotsFrom x.row x.col

/-! ### Units (R184, 20 R401)

The engine moves the destination's rows in order, from one 4 KiB boundary of the destination offset, counted from the first byte of the box, to
the next; of FP6 from one 8 KiB boundary of the nibbles, which is a 4 KiB boundary of the pairs; of a plane tile from plane 8 k to plane 8 k + 8. A
boundary that an element, a BFP64 block or a scale group of a row straddles is passed over. What several units need of a source is read by the
first of them and kept. DEDUCED, log [80]. -/

def CopyCmd.dFmt (x : CopyCmd) : Nat := if x.loads then x.xfmt else x.fmt
/-- Where row `i` of the destination begins, and where its first `n` elements end. -/
def CopyCmd.dOff (x : CopyCmd) (i n : Nat) : Nat := i * (if x.loads then x.pitch else (x.mrec).stride) + lenOf x.dFmt n
def CopyCmd.quantum (x : CopyCmd) : Nat := if elemBits x.dFmt == 6 then 8192 else 4096
/-- Elements that move together: a BFP64 block, a scale group of a row, the elements of a byte. -/
def CopyCmd.atom (x : CopyCmd) : Nat :=
  if x.bfp then 64 else if x.mxs && !x.xpose then 32 else if elemBits x.dFmt < 8 then 2 else 1

/-- The elements of row `i` of the destination whose atoms begin before the boundary `b`. -/
def CopyCmd.before (x : CopyCmd) (i b : Nat) : Nat :=
  let k := b - x.dOff i 0
  let n := match elemBits x.dFmt with
    | 4 => 2 * k
    | 6 => 2 * k
    | e => (k + e / 8 - 1) / (e / 8)
  Min.min x.dCols ((n + x.atom - 1) / x.atom * x.atom)

/-- The boundary from `b` on that no atom of row `i` straddles; `n` bounds the search. -/
def CopyCmd.boundary (x : CopyCmd) (i : Nat) : Nat → Nat → Nat
  | 0, b => b
  | n + 1, b =>
    let e := x.dOff i (x.before i b)
    if e ≤ b || x.before i b == 0 then b else x.boundary i n ((e + x.quantum - 1) / x.quantum * x.quantum)

/-- The pieces of a unit from element `j` of row `i` on, up to the boundary `b`: row, first element, end. -/
def CopyCmd.pieces (x : CopyCmd) : Nat → Nat → Nat → Nat → List (Nat × Nat × Nat)
  | 0, _, _, _ => []
  | n + 1, i, j, b =>
    if x.dRows ≤ i then [] else
    let b := x.boundary i 8 b
    let hi := x.before i b
    if hi ≤ j then [] else (i, j, hi) :: (if hi < x.dCols then [] else x.pieces n (i + 1) 0 b)

/-- The unit at which a command stands. -/
def CopyCmd.unit (x : CopyCmd) : List (Nat × Nat × Nat) :=
  if x.plane then (List.range x.dRows).map fun i => (i, 0, x.dCols)
  else x.pieces (x.dRows + 1) x.row x.col ((x.dOff x.row x.col / x.quantum + 1) * x.quantum)

/-- The places of the destination that pieces cover. -/
def placesOf (ps : List (Nat × Nat × Nat)) : List (Nat × Nat) := (ps.map fun p => places p.1 p.2.1 p.2.2).flatten

/-- The places of its unit that a command has still to move. -/
def CopyCmd.todo (x : CopyCmd) : List (Nat × Nat) := (placesOf x.unit).filter fun p => x.cut ≤ (x.box p.1 p.2).1

/-- The command after its unit; what it keeps of sources that it has done with goes. -/
def CopyCmd.moved (x : CopyCmd) : CopyCmd :=
  let x := { x with cut := 0 }
  let go (i j : Nat) : CopyCmd := { x with row := i, col := j, kept := x.kept.filter fun e => i / 32 * 32 ≤ e.1 % 4096 }
  if x.plane then
    (if elemBits x.xfmt ≤ x.planes + 8 then { x with planes := x.planes + 8, row := x.dRows, kept := [] } else { x with planes := x.planes + 8 })
  else match x.unit.getLast? with
    | none => go x.dRows 0
    | some p => if p.2.2 == x.dCols then go (p.1 + 1) 0 else go p.1 p.2.2

/-- The command before row `r` of its box, at which a watchpoint has stopped it (22 R422). -/
def CopyCmd.stopAt (x : CopyCmd) (r : Nat) : CopyCmd := if x.xpose || x.plane then { x with cut := r } else { x with row := r, col := 0 }

/-- The key of an element of the box, or of a place of the destination, among what a command keeps. -/
def keptKey (i j : Nat) : Nat := i * 4096 + j
/-- A plane tile of several units keeps the codes of its places; the places that have still to be read from memory, or written there. -/
def CopyCmd.unread (x : CopyCmd) (ps : List (Nat × Nat)) : List (Nat × Nat) :=
  if x.plane && !x.kept.isEmpty then ps.filter fun p => (get none x.kept (keptKey p.1 p.2)).isNone else ps

/-- Bound on the units of a command. -/
def CopyCmd.units (x : CopyCmd) : Nat := x.dRows * (x.dCols / 1024 + 2) + 2

/-! ### Reading and writing elements -/

/-- Object bytes as an engine reads them, after the recall of its unit's lines. -/
def State.engSee (s : State) (part w obj off n : Nat) : Nat := leNat (s.seeObj part w obj off n)
/-- The engine writes at the point of coherence; the L1 copies of the lines that its core holds go (10 R231, R236). -/
def State.engPut (s : State) (g : Group) (obj off n x : Nat) : State := s.storeObj g g.world obj off n x

/-- The code of a memory element. -/
def State.elemGet (s : State) (part w : Nat) (r : Rec) (e : Elem) : Nat :=
  let x := s.engSee part w r.obj (r.at e.off) e.n
  if r.fp6 then x / 16 ^ e.sub % 16 * 4 + s.engSee part w r.obj (r.at e.pairOff) 1 / 4 ^ e.pairSub % 4
  else if elemBits r.fmt == 4 then x / 16 ^ e.sub % 16
  else x

/-- Put a field of `b` bits at place `i` of a byte. -/
def putField (x b i y : Nat) : Nat := x - x / 2 ^ (b * i) % 2 ^ b * 2 ^ (b * i) + y % 2 ^ b * 2 ^ (b * i)

def State.elemPut (s : State) (g : Group) (r : Rec) (e : Elem) (y : Nat) : State :=
  if r.fp6 then
    let s := s.engPut g r.obj (r.at e.off) 1 (putField (s.engSee g.part g.world r.obj (r.at e.off) 1) 4 e.sub (y / 4))
    s.engPut g r.obj (r.at e.pairOff) 1 (putField (s.engSee g.part g.world r.obj (r.at e.pairOff) 1) 2 e.pairSub y)
  else if elemBits r.fmt == 4 then
    s.engPut g r.obj (r.at e.off) 1 (putField (s.engSee g.part g.world r.obj (r.at e.off) 1) 4 e.sub y)
  else s.engPut g r.obj (r.at e.off) e.n y

/-- Scratchpad spans of box element (r, c): byte address, bits of the field, its place in the byte, and the code's shift. -/
def CopyCmd.sFields (x : CopyCmd) (r c : Nat) : List (Nat × Nat × Nat × Nat) :=
  let row := x.saddr + r * x.pitch
  match elemBits x.xfmt with
  | 4 => [(row + c / 2, 4, c % 2, 0)]
  | 6 => [(row + c / 2, 4, c % 2, 2), (x.saddr + x.rows * x.pitch + r * (x.pitch / 2) + c / 4, 2, c % 4, 0)]
  | b => (List.range (b / 8)).map fun i => (row + c * (b / 8) + i, 8, 0, 8 * i)
/-- The same for a plane tile, in the planes of its unit (R146). -/
def CopyCmd.pFields (x : CopyCmd) (r c : Nat) : List (Nat × Nat × Nat × Nat) :=
  (((List.range (elemBits x.xfmt)).drop x.planes).take 8).map fun p => (x.saddr + 512 * p + morton r c / 8, 1, morton r c % 8, p)

def State.fieldsGet (s : State) (sp : Nat) (l : List (Nat × Nat × Nat × Nat)) : Nat :=
  l.foldl (fun y f => y + s.sb sp f.1 / 2 ^ (f.2.1 * f.2.2.1) % 2 ^ f.2.1 * 2 ^ f.2.2.2) 0

/-- Write the fields of a code; the words that hold them are poisoned with it. -/
def State.fieldsPut (s : State) (sp : Nat) (l : List (Nat × Nat × Nat × Nat)) (y : Nat) (pois : Bool) : State :=
  l.foldl (fun s f =>
    let k := scrKey (s.space sp) f.1
    let s := { s with scr := wrN s.scr k 1 (putField (s.sb sp f.1) f.2.1 f.2.2.1 (y / 2 ^ f.2.2.2)) }
    let s := if pois && !s.poisScr.contains (k / 4) then { s with poisScr := k / 4 :: s.poisScr } else s
    s.shadow sp f.1 1 0) s

/-! ### Poison (20 R409, 08 R183) -/

def State.poisRange (s : State) (sp a n : Nat) : Bool := s.poisScrAt (scrKey (s.space sp) a) n
/-- Poison the lines of object ranges as world `w` writes them. -/
def State.poisonSpots (s : State) (part w : Nat) (l : List (Nat × Nat × Nat)) : State :=
  ((l.map fun q => (List.range q.2.2).filterMap fun i => placeOf (s.part part) q.1 (q.2.1 + i)).flatten).foldl (fun s p => s.setPois w p true) s
/-- Scratchpad words that are written are clean again. -/
def State.cleanWords (s : State) (sp : Nat) (l : List (Nat × Nat × Nat × Nat)) : State :=
  { s with poisScr := s.poisScr.filter fun w => !l.any fun f => scrKey (s.space sp) f.1 / 4 == w }
/-- Lines that are written whole are clean again. -/
def State.cleanSpots (s : State) (part w : Nat) (l : List (Nat × Nat × Nat)) : State :=
  if !s.marks then s else s.cleanLines part w (l.map fun q => (List.range q.2.2).map fun i => (q.1, q.2.1 + i)).flatten

/-! ### The values -/

/-- The word that an element draws from the engine stream (R177, R180). -/
def State.engDraw (s : State) (g : Group) (x : CopyCmd) (r c : Nat) : Word :=
  arx (BitVec.ofNat 64 (r * x.cols + c)) (BitVec.ofNat 64 ((fold64 (s.launch g.launch).seed ^^^ 0xFFFFFFFF) * 2 ^ 32 + x.tag))

/-- The source code of `cpst` and `cpred` at (r, c), and whether it is poisoned; what a transposed MX tile has kept is read once. -/
def State.srcCode (s : State) (sp : Nat) (x : CopyCmd) (r c : Nat) : Nat × Bool :=
  match (if x.mxs && x.xpose then get none x.kept (keptKey r c) else none) with
  | some v => (v.1, v.2.isSome)
  | none =>
    if x.fromAcc then
      let e := (x.saddr / 64 % 64 + r) * 64 + (x.saddr % 64 + c)
      (s.tileWord sp x.atile e, s.poisAcc.contains (accKey (s.space sp) x.atile (4 * e) / 4))
    else
      let f := x.sFields r c
      (s.fieldsGet sp f, f.any fun q => s.poisRange sp q.1 1)

/-- The source value of `cpst` and `cpred` at (r, c), and whether it is poisoned. -/
def State.srcVal (s : State) (sp : Nat) (x : CopyCmd) (r c : Nat) : FVal × Bool :=
  let v := s.srcCode sp x r c
  (if !x.fromAcc then elemVal x.xfmt v.1 else if x.intAcc then FVal.ofInt (sgn 32 v.1) else decodeF fFP32 v.1, v.2)

/-- ⌊log₂⌋ of a finite magnitude other than 0. -/
def floorLog (m : Nat) (e : Int) : Int := (Nat.log2 m : Int) + e

/-- The E8M0 scale of a group of values (R178). -/
def mxScale (fmt : Nat) (vs : List FVal) : Nat :=
  let emax : Int := match fmt with | 2 => 4 | 3 => 8 | 4 => 15 | 5 => 0 | 6 => 0 | _ => 2
  if vs.any FVal.isNaN then 255 else if vs.any FVal.isInf then 254 else
  match vs.filterMap fun v => match v with | .fin _ m e => if m == 0 then none else some (floorLog m e) | _ => none with
  | [] => 127
  | a :: r => (Max.max 0 (Min.min 254 (r.foldl Max.max a - emax + 127))).toNat

/-! ### One unit

A poisoned result carries the DETAIL of its fault: the handle of poisoned memory bytes, else 0 (20 R387). DEDUCED, log [24]. -/

/-- The code that a load puts at a place of the destination (R177). -/
def State.loadVal (s : State) (g : Group) (x : CopyCmd) (i j : Nat) : Nat × Option DWord :=
  let r := x.mrec
  let b := x.box i j
  let e := x.mem i j
  let inB := r.inBounds e.off e.n
  let code := if inB then s.elemGet g.part g.world r e else 0
  let sm := x.smAt + 4 * b.2
  let bad : Option DWord :=
    if inB && (r.spots e).any (fun q => s.poisObj g.part g.world r.obj q.1 q.2) then some (r.detail e.off)
    else if (x.gathers && (x.idx.getD b.1 (0, false)).2) || (x.smooth && s.poisRange g.space sm 4) then some 0
    else none
  let w := s.engDraw g x b.1 b.2
  let y := if x.smooth then roundElem x.xfmt x.rnd w ((elemVal r.fmt code).mul (decodeF fFP32 (s.scrRead g.space sm 4))).r
    else if x.xfmt != r.fmt then roundElem x.xfmt x.rnd w (elemVal r.fmt code).r
    else code
  (y, bad)

/-- The code that a load puts at a place of the destination, read once for the units of a plane tile. -/
def State.codeAt (s : State) (g : Group) (x : CopyCmd) (i j : Nat) : Nat × Option DWord :=
  match (if x.plane then get none x.kept (keptKey i j) else none) with
  | some v => v
  | none => s.loadVal g x i j

/-- `cpld` and `cpgat` (R177). -/
def State.loadUnit (s : State) (g : Group) (x : CopyCmd) (ps : List (Nat × Nat)) : State × Option DWord :=
  let field (p : Nat × Nat) := if x.plane then x.pFields p.1 p.2 else x.sFields p.1 p.2
  let vs := ps.map fun p => (field p, s.codeAt g x p.1 p.2)
  let s := if s.poisScr.isEmpty then s else s.cleanWords g.space (vs.map (·.1)).flatten
  (vs.foldl (fun s v => s.fieldsPut g.space v.1 v.2.1 v.2.2.isSome) s, vs.findSome? (·.2.2))

/-- The scale of group h of row r, and whether the group holds poison (R178). -/
def State.groupScale (s : State) (sp : Nat) (x : CopyCmd) (r h : Nat) : Nat × Bool :=
  let vs := (List.range 32).map fun k => s.srcVal sp x r (32 * h + k)
  (mxScale x.fmt (vs.map (·.1)), vs.any (·.2))

/-- `cpst` at a place of the destination (R178); under MXS the first element of a group writes its scale. -/
def State.storeAt (s : State) (g : Group) (x : CopyCmd) (i j : Nat) : State × Bool :=
  let r := x.mrec
  let y := x.xrec
  let b := x.box i j
  let e := x.mem i j
  let v := s.srcVal g.space x b.1 b.2
  let k := if x.mxs then s.groupScale g.space x b.1 (b.2 / 32) else (127, false)
  let bad := v.2 || k.2
  let w := s.engDraw g x b.1 b.2
  let code := if x.mxs then quantCode x.rnd w v.1 (FVal.ofInt 1) (k.1 * 256 + r.fmt) else roundElem r.fmt x.rnd w v.1.r
  let s := if r.inBounds e.off e.n then s.elemPut g r e code else s
  let o := x.scaleOff b.1 (b.2 / 32)
  (if x.mxs && b.2 % 32 == 0 && y.inBounds o 1 then s.engPut g y.obj (y.at o) 1 k.1 else s, bad)

/-- RNE(t / 2^e) of an exact value. -/
def rneInt (v : FVal) (e : Int) : Int :=
  match v with
  | .fin n m k => roundInt 0 0 (-(2 ^ 60 : Nat)) (2 ^ 60 : Nat) (FVal.fin n m (k - e)).r
  | _ => 0

/-- The exponent that R107 chooses, from `lo` up; `n` bounds the search. -/
def bfpExp (ts : List FVal) : Nat → Int → Int
  | 0, e => e
  | n + 1, e => if ts.all fun t => -(2 ^ 23 : Nat) ≤ rneInt t e && rneInt t e ≤ (2 ^ 23 : Nat) - 1 then e else bfpExp ts n (e + 1)

/-- Where the search of R107 may start: below it no exponent fits, because some |t| / 2^e is 2^24 or more. -/
def bfpLow (ts : List FVal) (lo : Int) : Int :=
  ts.foldl (fun a t => match t with | .fin _ m e => if m == 0 then a else Max.max a (floorLog m e - 23) | _ => a) lo

/-- The update of a BFP64 block (06 R107): the exponent and the mantissas. -/
def bfpUpdate (e : Int) (ms : List Int) (vs : List FVal) : Int × List Int :=
  let zero := ms.map fun _ => (0 : Int)
  if e == 32767 || vs.any fun v => v.isNaN || v.isInf then (32767, zero)
  else
    let ts := ms.zip vs |>.map fun p => if e == -32768 then FVal.add false (.fin false 0 0) p.2
      else FVal.add false (FVal.ofInt p.1 |> fun v => match v with | .fin n m _ => .fin n m e | x => x) p.2
    if e == -32768 && ts.all FVal.isZero then (e, ms)
    else
      let lo := if e == -32768 then -32767 else e
      let e' := bfpExp ts 64 (bfpLow ts lo)
      if e' ≤ 32766 then (e', ts.map fun t => rneInt t e') else (32767, zero)

/-- The update of block b of row i of the destination; the places past its end take 0 (R179). DEDUCED, log [81]. -/
def State.bfpBlock (s : State) (g : Group) (x : CopyCmd) (i b : Nat) : State :=
  let r := x.mrec
  let y := x.xrec
  let eo := x.expOff i (64 * b)
  let el (k : Nat) := x.elemAt i (64 * b + k)
  let okE := y.inBounds eo 2
  let e := if okE then sgn 16 (s.engSee g.part g.world y.obj (y.at eo) 2) else 0
  let ms := (List.range 64).map fun k => if r.inBounds (el k).off 3 then sgn 24 (s.elemGet g.part g.world r (el k)) else 0
  let vs := (List.range 64).map fun k =>
    if 64 * b + k < x.dCols then (s.srcVal g.space x (x.box i (64 * b + k)).1 (x.box i (64 * b + k)).2).1 else .fin false 0 0
  let (e', ms') := bfpUpdate e ms vs
  let s := ms'.zipIdx.foldl (fun s m => if r.inBounds (el m.2).off 3 then s.elemPut g r (el m.2) (wrap 24 m.1) else s) s
  if okE then s.engPut g y.obj (y.at eo) 2 (wrap 16 e') else s

/-- `cpred` at a place of the destination (R179); the first place of a BFP64 block updates the block. -/
def State.reduceAt (s : State) (g : Group) (x : CopyCmd) (i j : Nat) : State × Bool :=
  let r := x.mrec
  let b := x.box i j
  let e := x.mem i j
  let v := s.srcVal g.space x b.1 b.2
  if x.bfp then (if j % 64 == 0 then s.bfpBlock g x i (j / 64) else s, v.2)
  else if !r.inBounds e.off e.n then (s, false)
  else
    let old := decodeF fFP32 (s.elemGet g.part g.world r e)
    (s.elemPut g r e (roundTo fFP32 x.rnd false (s.engDraw g x b.1 b.2) (FVal.add (x.rnd == 2) old v.1).r), v.2)

/-- The first of some object ranges that carries poison: its handle. -/
def State.poisAt (s : State) (part w : Nat) (l : List (Nat × Nat × Nat)) : Option DWord :=
  l.findSome? fun q => if s.poisObj part w q.1 q.2.1 q.2.2 then
      (List.range q.2.2).findSome? fun i => if s.poisObj part w q.1 (q.2.1 + i) 1 then some (handle q.1 (q.2.1 + i)) else none
    else none

/-- The places whose results a place shares: its block's (R179). -/
def CopyCmd.share (x : CopyCmd) (p : Nat × Nat) : List (Nat × Nat) := if x.bfp then places p.1 (p.2 / 64 * 64) (p.2 / 64 * 64 + 64) else [p]

/-- `cpst` and `cpred`, place after place: what they write, and the lines that are poisoned or clean after it. A reduction keeps the poison of what
it adds to. -/
def State.storeUnit (s : State) (g : Group) (x : CopyCmd) (ps : List (Nat × Nat)) : State × Option DWord :=
  let old := if x.reduces then s.poisAt g.part g.world (x.spots ps) else none
  let u := ps.foldl (fun (u : State × List (Nat × Nat)) p =>
    let v := if x.reduces then u.1.reduceAt g x p.1 p.2 else u.1.storeAt g x p.1 p.2
    (v.1, if v.2 then p :: u.2 else u.2)) (s, [])
  let t := if x.reduces then u.1 else u.1.cleanSpots g.part g.world (x.spots ps)
  (if u.2.isEmpty then t else t.poisonSpots g.part g.world (x.spots (u.2.map x.share).flatten), if u.2.isEmpty then old else some (old.getD 0))

/-- What a command keeps of its sources once it has met some places: the codes of a plane tile of several units, the groups of a transposed MX tile. -/
def State.keepFor (s : State) (g : Group) (x : CopyCmd) (ps : List (Nat × Nat)) : CopyCmd :=
  if x.plane && 8 < elemBits x.xfmt then
    { x with kept := (x.unread ps).foldl (fun k p => put none k (keptKey p.1 p.2) (some (s.loadVal g x p.1 p.2))) x.kept }
  else if x.mxs && x.xpose then
    { x with kept := ps.foldl (fun k p =>
        let b := x.box p.1 p.2
        let h := b.2 / 32 * 32
        if (get none k (keptKey b.1 h)).isSome then k else
        (List.range 32).foldl (fun k i =>
          let v := s.srcCode g.space x b.1 (h + i)
          put none k (keptKey b.1 (h + i)) (some (v.1, if v.2 then some 0 else none))) k) x.kept }
  else x

/-- Move some places; the engine reads and writes at the point of coherence, recalls what it reads, and its core keeps no older L1 copy (10 R231,
R236). -/
def State.doUnit (s : State) (g : Group) (x : CopyCmd) (ps : List (Nat × Nat)) : State × CopyCmd :=
  let s := (x.spots (x.unread ps)).foldl (fun s q => (s.recall g.part g.world q.1 q.2.1 q.2.2 false).l1Forget g q.1 q.2.1 q.2.2) s
  let x := s.keepFor g x ps
  let r := if x.loads then s.loadUnit g x ps else s.storeUnit g x ps
  (r.1, { x with pois := if x.pois.isSome then x.pois else r.2 })

/-! ### Running a command -/

/-- What stops the engine before a unit: the extents that it waits for, those whose return it asks for named; a fault; a translation fault with its
pages. -/
inductive EngStop
  | wait (asks : List (Nat × Nat))
  | fault (kind cause : Nat) (detail : DWord)
  | pages (l : List (Nat × DWord × Mask))
deriving DecidableEq, Repr

/-- PERM kind of the memory side: 3 source, 4 destination. -/
def CopyCmd.permKind (x : CopyCmd) : Nat := if x.loads then 3 else 4

/-- Rows of the box that begin before or in some pieces. -/
def CopyCmd.rowsTo (x : CopyCmd) (ps : List (Nat × Nat × Nat)) : Nat := ps.foldl (fun m p => Max.max m (if x.xpose then p.2.2 else p.1 + 1)) 0

/-- The index list of a `cpgat` is read up to row `n`, each index once (R177). -/
def State.readIdx (s : State) (sp : Nat) (x : CopyCmd) (n : Nat) : CopyCmd :=
  if !x.gathers then x else
  { x with idx := x.idx ++ ((List.range n).drop x.idx.length).map fun r => (s.scrRead sp (x.aux + 4 * r) 4, s.poisRange sp (x.aux + 4 * r) 4) }

/-- A `cpgat` whose rows lie out of bounds where the record does not clip: the first element, r before c (R177, 20 R455). -/
def CopyCmd.unitBounds (x : CopyCmd) (ps : List (Nat × Nat)) : Option DWord :=
  if !x.gathers || (x.mrec).clip then none else
  (ps.foldl (fun (a : Option (Nat × DWord)) p =>
    match x.outside p.1 p.2 with
    | none => a
    | some d => let n := (x.box p.1 p.2).1 * x.cols + (x.box p.1 p.2).2
      if a.any (fun e => e.1 ≤ n) then a else some (n, d)) none).map (·.2)

/-- Bounds and translation of the places that a command has to read or write in memory (R177, R183). -/
def State.unitFault (s : State) (g : Group) (x : CopyCmd) (ps : List (Nat × Nat)) : Option EngStop :=
  match x.unitBounds (x.unread ps) with
  | some d => some (.fault 17 0 d)
  | none =>
    match ((x.spots (x.unread ps)).map fun q => xlatPages (s.part g.part) x.permKind q.2.2 [{ lane := 0, obj := q.1, off := q.2.1 }]).flatten.eraseDups with
    | [] => none
    | l => some (.pages ((l.take 64).map fun e => (e.1, e.2.1, x.mask)))

/-- The extents for which places wait (R182): those that are not there, and of a destination those that are LEAVING. -/
def State.unitWait (s : State) (g : Group) (x : CopyCmd) (ps : List (Nat × Nat)) : Option EngStop :=
  match ((x.spots (x.unread ps)).map fun q => ((s.part g.part).rangeStates q.1 q.2.1 q.2.2).map fun e => (q.1, e)).flatten.filter fun e =>
    isAway e.2.1 || (!x.loads && e.2.1 == .leaving) with
  | [] => none
  | l => some (.wait ((l.filter fun e => e.2.1 != .returning).map fun e => (e.1, e.2.2)).eraseDups)

/-- The ranges of a source row. -/
def CopyCmd.rowTouches (x : CopyCmd) (r : Nat) : List Touch :=
  (x.spots ((List.range x.cols).map fun c => x.box r c)).map fun q => ⟨0, q.1, q.2.1, q.2.2⟩

/-- The engine checks the rows of a `cpgat` before row `n` that it has not checked: a count or trace unit acts once for the command, and a hit
stops it (22 R419, R422); `m` bounds the rows. -/
def State.examine (s : State) (g : Group) (x : CopyCmd) (n : Nat) : Nat → State × CopyCmd × Option EngStop
  | 0 => (s, x, none)
  | m + 1 =>
    if !x.gathers || (s.part g.part).watches.isEmpty || n ≤ x.checked then (s, { x with checked := Max.max x.checked n }, none) else
    let ts := x.rowTouches x.checked
    let t := s.countWatch g 3 ts x.pc x.seen
    let y := { x with checked := x.checked + 1, seen := x.seen ++ (s.part g.part).seers g 3 ts }
    match (s.part g.part).copyTrap g 3 ts none with
    | some (.trap k c d _) => (t, y, some (.fault k c d))
    | _ => t.examine g y n m

/-- How far a command got: the state, the command, and what stopped it. -/
structure Progress where
  st : State
  cmd : CopyCmd
  stop : Option EngStop

/-- Run the unit at which a command stands, all of it or nothing; a watchpoint hit stops it before the row that it names, after the rows before
(22 R422). DEDUCED, log [80]. -/
def State.runUnit (s : State) (g : Group) (x : CopyCmd) : Progress :=
  let x := s.readIdx g.space x (x.rowsTo x.unit)
  let (t, y, hit) := s.examine g x (x.rowsTo x.unit) (x.rows + 1)
  let ps := if hit.isSome then x.todo.filter fun p => (x.box p.1 p.2).1 + 1 < y.checked else x.todo
  match (s.unitFault g x ps).or (s.unitWait g x ps) with
  | some e => ⟨s, x, some e⟩
  | none =>
    let (u, z) := t.doUnit g y ps
    let z := if hit.isSome then z.stopAt (y.checked - 1) else z.moved
    ⟨u, { z with owns := z.left g.space }, hit⟩

/-- Earlier operations of the group that must be performed before the engine touches a command's bytes (R182, 10 R236), and those that they wait
for, in order. -/
def copyNeeds (g : Group) (spots : List (Nat × Nat × Nat)) (x : CopyCmd) : List Op :=
  let touch (o : Op) : Bool := o.accs.any fun a => !a.clipped && spots.any fun q =>
    if q.1 < 2 ^ 24 then (o.place == .dev || o.place == .stash) && a.obj == q.1 && (o.span a).1 < q.2.1 + q.2.2 && q.2.1 < (o.span a).1 + (o.span a).2
    else o.place == .scr && q.1 == 2 ^ 24 + a.obj && a.off < q.2.1 + q.2.2 && q.2.1 < a.off + o.bytes
  ((g.ops.filter fun o => !o.done && o.id < x.id).reverse).foldl (fun l o =>
    if touch o || l.any fun y => waitsFor y o then o :: l else l) []

/-- Every byte that a command has still to read or write, in memory and scratchpad; of a `cpgat`, whose rows are not known, all of the record. -/
def CopyCmd.reach (x : CopyCmd) (g : Group) : List (Nat × Nat × Nat) :=
  let r := x.mrec
  (if x.planes != 0 then [] else if x.gathers then (r.obj, r.base, r.extent) :: (if r.fp6 then [(r.obj, r.base + r.planeOff, (r.extent + 1) / 2)] else []) else x.spotsFrom x.row x.col)
    ++ x.ranges.map fun q => (2 ^ 24 + g.space, q.1, q.2)

def Group.setCopy (g : Group) (x : CopyCmd) : Group := { g with copies := g.copies.map fun c => if c.id == x.id then x else c }

/-- A copy token. -/
def copyToken (x : CopyCmd) (fault : Bool) : Word := BitVec.ofNat 32 (x.tag * 65536 + (if fault then 32 else 0))
def Group.tokenX (g : Group) (x : CopyCmd) (fault : Bool) : Group :=
  if x.notify && g.status != .retired then { g with qx := pushTok g.qx (copyToken x fault) } else g

/-- An engine fault of a copy: it is held, and a translation fault is posted (R183, 20 R401). DEDUCED, log [82]. -/
def State.copyFault (s : State) (ctx : Nat) (x : CopyCmd) (e : EngStop) : State :=
  let g := s.group ctx
  let mk (k c : Nat) (d : DWord) : TrapRec := { trapRec ctx g 0 k c d x.mask true with pc := x.pc }
  let hold (r : TrapRec) : State :=
    let g := Group.setCopy { g with held := g.held ++ [{ cls := .cp, trec := r, cmd := some x.id }] } { x with faulted := true }
    s.setGroup ctx ((g.tokenX x true).doneX x.id)
  match e with
  | .fault k c d => hold (mk k c d)
  | .pages l =>
    (match l with
      | [] => s
      | (c, h, _) :: _ =>
        let rs := (xlatRecs ctx g 0 true l).map fun r => { r with pc := x.pc }
        (hold (mk 18 c h)).post g.part none rs)
  | .wait asks => asks.foldl (fun s a => s.askReturn g.part a.1 a.2) (s.setGroup ctx (g.setCopy x))

/-- A command completes: CP falls, ARRIVE counts, NOTIFY pushes; poison that it met is held, and the token carries FAULT (R182, R183,
20 R401). DEDUCED, log [83]. -/
def State.copyDone (s : State) (ctx : Nat) (x : CopyCmd) : State :=
  let g := s.group ctx
  let g := { g with copies := g.copies.filter fun c => c.id != x.id }
  let s := s.setGroup ctx (((Group.fall g .cp).tokenX x x.pois.isSome).doneX x.id)
  let s := if x.arriving then s.arrive g.space x.baddr else s
  match x.pois with
  | none => s
  | some d =>
    let r : TrapRec := { trapRec ctx g 0 29 0 d x.mask true with pc := x.pc }
    s.setGroup ctx { s.group ctx with held := (s.group ctx).held ++ [{ cls := .cp, trec := r }] }

/-- An earlier copy command of another group owns some of the bytes: this one waits for it (10 R231, R236). DEDUCED, log [82]. -/
def State.copyWaits (s : State) (ctx : Nat) (x : CopyCmd) : Bool :=
  let spots := x.reach (s.group ctx)
  s.groups.any fun e => e.1 != ctx && e.2.part == (s.group ctx).part && e.2.copies.any fun c =>
    c.stamp < x.stamp && c.owns.any fun d => spots.any fun q => d.1 == q.1 && spotsMeet d q

/-- The engine may touch a command's bytes: no copy of another group that owns some of them is in front, and each of the earlier operations of its own
group on them can be performed. -/
def State.copyFree (s : State) (ctx : Nat) (needs : List Op) (x : CopyCmd) : Bool :=
  !s.copyWaits ctx x && needs.all fun o =>
    !o.parked && !o.refused && !(s.freed ctx o).accs.any o.waits && !s.lostPlace ctx (s.freed ctx o)

/-- Run a command up to the next 4 KiB boundary of its destination, its fault, or the extents that it waits for; at its end it
completes. DEDUCED, log [80]. -/
def State.runCopy (s : State) (ctx : Nat) (x : CopyCmd) : State :=
  let needs := copyNeeds (s.group ctx) (x.reach (s.group ctx)) x
  if !s.copyFree ctx needs x then s else
  let s := needs.foldl (fun s o => s.performOp ctx o) s
  let p := s.runUnit (s.group ctx) x
  match p.stop with
  | some e => p.st.copyFault ctx p.cmd e
  | none => if x.dRows ≤ p.cmd.row then p.st.copyDone ctx p.cmd else p.st.setGroup ctx ((p.st.group ctx).setCopy p.cmd)

/-- Run a command as far as it goes; `n` bounds the units. -/
def State.runCopyOut (s : State) (ctx id : Nat) : Nat → State
  | 0 => s
  | n + 1 => match (s.group ctx).copies.find? fun c => c.id == id && !c.faulted with
    | some x => (s.runCopy ctx x).runCopyOut ctx id n
    | none => s

/-- The oldest command of a group that has not faulted. -/
def Group.nextCopy (g : Group) : Option CopyCmd := g.copies.find? fun c => !c.faulted

/-- COPY_COMPLETION: the oldest command of a group runs on, and completes at its end (R182). DEDUCED, log [80]. -/
def execCopyCompletion (ctx : Nat) (s : State) : Host.Outcome State Fault Refusal :=
  .next (if !s.enginesRun (s.group ctx).blk (s.group ctx).core then s else
    match (s.group ctx).nextCopy with | some x => s.runCopy ctx x | none => s)

/-- ENGINE_FAULT: the oldest command of a group meets a fault, if the next unit holds one (R183). -/
def execEngineFault (ctx : Nat) (s : State) : Host.Outcome State Fault Refusal :=
  .next (if !s.enginesRun (s.group ctx).blk (s.group ctx).core then s else match (s.group ctx).nextCopy with
    | some x =>
      let needs := copyNeeds (s.group ctx) (x.reach (s.group ctx)) x
      if !s.copyFree ctx needs x then s else
      let t := needs.foldl (fun s o => s.performOp ctx o) s
      let p := t.runUnit (t.group ctx) x
      (match p.stop with | some (.wait ..) => s | some e => p.st.copyFault ctx p.cmd e | none => s)
    | none => s)

/-! ### Issue -/

/-- The command that an instruction gives the engine. -/
def State.copyCmd (s : State) (opc : Nat) (f : EngF) : CopyCmd :=
  let g := s.g
  let c : CopyCmd := { id := g.newId, op := opc, words := cmdWords g f.a.opnd, opt := f.imm, recM := [], recX := [],
                       pc := (g.path s.slot).pc, mask := s.pathMask }
  let c := { c with recM := (g.record c.mbuf).w }
  if c.usesX && c.aux2 % 16 < 12 then { c with recX := (g.record (c.aux2 % 16)).w } else c

/-- A record's own checks (R189): null object, then format. -/
def State.recordStop (s : State) (r : Rec) (off : Nat) : Chk Unit := do
  need (r.obj != 0) (.trap 14 0 (r.detail off) s.pathMask)
  need (!r.bad) (.trap 15 0 (r.detail off) s.pathMask)

/-- A command to a host aperture in a world is held back until the commit (18 R367, R369). -/
def State.copyDefers (s : State) (c : CopyCmd) : Bool :=
  s.g.world != 0 && !c.loads && (((s.part s.g.part).obj (c.mrec).obj).host
    || (c.usesX && ((s.part s.g.part).obj (c.xrec).obj).host))

/-- The pages for which a command that is held back fails check 4, which it passes at issue (18 R369). -/
def State.copyPages (s : State) (c : CopyCmd) : List (Nat × DWord × Mask) :=
  let p := s.part s.g.part
  ((c.spotsAll.map fun q => xlatPages p c.permKind q.2.2 [{ lane := 0, obj := q.1, off := q.2.1 }]).flatten.map
    fun e => (e.1, e.2.1, s.pathMask)).eraseDups

/-- The checks before check 5. DEDUCED, log [19]. -/
def State.copyFirst (s : State) (opc : Nat) (f : EngF) : Chk (Option CopyCmd) := do
  if !s.groupPasses f.guard then .ok none else
  let c := s.copyCmd opc f
  match nameStop s.g (⟨f.a, 8, .b32⟩ :: recUse c.mbuf ++ (if c.recX.isEmpty then [] else recUse (c.aux2 % 16))) with
  | some (k, d) => .error (.trap k 0 d s.pathMask)
  | none => .ok ()
  if c.mbuf < 12 then s.recordStop c.mrec c.moff
  if !c.recX.isEmpty then s.recordStop c.xrec c.aux
  need (!c.bad (s.space s.g.space)) (.trap 8 0 (BitVec.ofNat 64 (c.w 0)) s.pathMask)
  match (if c.gathers then none else c.boundsStop) with
  | some d => .error (.trap 17 0 d s.pathMask)
  | none => .ok ()
  match (if s.copyDefers c then s.copyPages c else []) with
  | [] => .ok ()
  | l => .error (.xlat l)
  needNone s.g.heldBack
  need (s.g.cCP.toNat < 62) (.stall 4)
  .ok (some c)

/-- What check 5 looks at. -/
def CopyCmd.touches (c : CopyCmd) : List Touch := if c.gathers then [] else c.spotsAll.map fun q => ⟨0, q.1, q.2.1, q.2.2⟩
def copyEvt (c : CopyCmd) : Nat := if c.loads then 3 else 4

def State.copyWatch (s : State) (c : CopyCmd) : Option Stop :=
  if s.suppressed then none else (s.part s.g.part).copyTrap s.g (copyEvt c) c.touches (some s.pathMask)

def State.copySeen (s : State) : Option CopyCmd → State
  | none => s
  | some c => s.watched (copyEvt c) c.touches

/-- From check 5 on: the command is queued. DEDUCED, log [84]. -/
def State.copyLast : Option CopyCmd → State → Chk State
  | none, s => .ok s.advance
  | some c, s => do
    match s.copyWatch c with
    | some e => .error e
    | none => .ok ()
    if s.copyDefers c then
      let s ← s.defer s.g (.copy c) s.pathMask
      let s := s.setG (s.g.tokenX c false)
      .ok (if c.arriving then s.arrive s.g.space c.baddr else s).advance
    else
      let owns := c.left s.g.space
      let lines := if s.g.world == 0 || c.loads then [] else (owns.map fun q => linesOf q.1 q.2.1 q.2.2).flatten
      if !lines.isEmpty && !s.viewRoom s.g.part s.g.world lines then s.exhausted s.pathMask
      else .ok (s.setG (Group.rise { s.g with copies := s.g.copies ++ [{ c with owns := owns, stamp := s.copyStamp }] } .cp)).advance

def execCopy (opc : Nat) (f : EngF) (s : State) : Host.Outcome State Fault Refusal :=
  phased s (s.copyFirst opc f) (fun c => s.copySeen c) State.copyLast

def execCpld (f : EngF) (s : State) : Host.Outcome State Fault Refusal := execCopy 0x10 f s
def execCpst (f : EngF) (s : State) : Host.Outcome State Fault Refusal := execCopy 0x11 f s
def execCpred (f : EngF) (s : State) : Host.Outcome State Fault Refusal := execCopy 0x12 f s
def execCpgat (f : EngF) (s : State) : Host.Outcome State Fault Refusal := execCopy 0x13 f s

end Sys2Proof.Machine
end

