-- ==== Sys2Proof/Machine/Worlds.lean ====
section
/-! DEFINITION. Machine/Worlds.lean: the task instructions (15 R338) and the world instructions (18 R361 to R378). -/

namespace Sys2Proof.Machine

/-! ### `tspawn` and `tcont` -/

def recWords (g : Group) (o : Opnd) : List Word := match o with | .s n => (List.range 16).map fun i => g.rdS (n.toNat + i) | _ => []

/-- The 16 registers of a task record carry no poison. -/
def State.needRecord (s : State) (a : Src) : Chk Unit :=
  match nameStop s.g [⟨a, 16, .b32⟩] with
  | some (k, d) => .error (.trap k 0 d s.pathMask)
  | none => .ok ()

def execTspawn (f : EngF) (s : State) : Host.Outcome State Fault Refusal :=
  groupCmd f.guard s (do
    s.needRecord f.a
    let t ← s.spawn s.ctx (recWords s.g f.a.opnd) s.pathMask
    .ok t.advance)

/-- K of the task that a group runs. -/
def State.setCont (s : State) (blk : Nat) (r : List Word) : State :=
  let b := s.block blk
  s.setBlock blk { b with task := b.task.map fun t => { t with cont := some r } }

def execTcont (f : EngF) (s : State) : Host.Outcome State Fault Refusal :=
  groupCmd f.guard s (do
    s.needRecord f.a
    let r := recWords s.g f.a.opnd
    need (s.taskLaunch s.g).isSome (.trap 28 0 0 s.pathMask)
    need (recOk r) (.trap 8 0 (BitVec.ofNat 64 (recEntry r)) s.pathMask)
    if s.liveSiblings s.g then (s.defer s.g (.cont r) s.pathMask).map State.advance
    else .ok (s.setCont s.g.blk r).advance)

/-! ### `fork` (R361 to R364) -/

/-- Forks around a group, the innermost first. -/
def State.enclosing (s : State) : Nat → Option Nat → List Nat
  | 0, _ => []
  | n + 1, fk => match fk with | some f => f :: s.enclosing n (s.fork f).pFork | none => []

/-- Another live group of the block that counts against `fork`: copies of the forks around the group do not, whatever they have forked
themselves. -/
def State.crowded (s : State) : Bool :=
  let g := s.g
  let enc := s.enclosing 4 g.fork
  s.groups.any fun e => e.1 != s.ctx && e.2.present && e.2.blk == g.blk && e.2.status != GStat.retired
    && !(e.2.it.isNone && (s.enclosing 4 e.2.fork).any enc.contains)

/-- All five counters read 0; unreported engine faults are raised first (R362, R371). DEDUCED, log [92]. -/
def State.settleAll (s : State) : Chk Unit := do
  needFree s.g.held.head?
  need (s.g.cLD == 0 && s.g.cST == 0 && s.g.cSP == 0 && s.g.cCP == 0 && s.g.cMX == 0) (.stall 14)

/-- Home core partition of a group's worlds, and its tag for an id (R364). -/
def Group.homePart (g : Group) : Nat := 4 * g.core + g.cpart
/-- DESIGN CHOICE, log [112]: keys inside the model: a home-aperture byte is endpoint × 2^64 + address, a context is partition × 65536 + index, a world tag is home partition × 4096 + id. -/
def worldTag (home id : Nat) : Nat := home * 4096 + id

/-- The first check of R363 that fails: its cause. DESIGN CHOICE, log [6]: a copy that finds no context in the pool lacks a group (4). -/
def State.forkLacks (s : State) (n : Nat) : Option Nat :=
  let g := s.g
  let p := s.part g.part
  let used := (p.tags.filter fun t => t / 4096 == g.homePart).length
  let x := s.space g.space
  if 3 ≤ g.depth then some 1
  else if get 4095 p.quota g.homePart < used + n then some 2
  else if 4095 < used + n then some 3
  else if !(s.fits g.core g.cpart (n - 1) g.width g.peak && s.ctxRoom g.part (n - 1)) then some 4
  else if s.tilesFree g.core < (n - 1) * x.acc then some 5
  else if s.scratchFree g.core < (n - 1) * (x.size + (if 1 ≤ x.acc then Config.ringBytes else 0)) then some 6
  else none

/-- The lowest free ids of a home partition. DESIGN CHOICE, log [6]. -/
def freeTags (p : Part) (home n : Nat) : List Nat := (((List.range 4096).drop 1).map (worldTag home) |>.filter fun t => !p.tags.contains t).take n

/-- A table with the entries of one key range written over another. -/
def cloneRange {α : Type} [DecidableEq α] (d : α) (m : SMap α) (src dst n : Nat) : SMap α :=
  (m.filter fun e => src ≤ e.1 && e.1 < src + n).foldl (fun t e => put d t (dst + (e.1 - src)) e.2) m

/-- Clone a space: its scratchpad, ring, tiles with versions, and poison (R362). DEDUCED, log [90]. -/
def State.cloneSpace (s : State) (old new : Nat) : State :=
  let x := s.space old
  let ring := if 1 ≤ x.acc then Config.ringBytes else 0
  let s := s.freshSpace new { x with total := x.size + ring, shadow := [] }
  let b := (s.space new).base
  { s with
    scr := cloneRange 0 s.scr x.base b (2 ^ 20)
    acc := cloneRange 0 s.acc (x.base / 4) (b / 4) (2 ^ 18)
    tiles := cloneRange {} s.tiles (old * 16) (new * 16) 16
    poisScr := s.poisScr ++ (s.poisScr.filter fun w => x.base ≤ w * 4 && w * 4 < x.base + 2 ^ 20).map fun w => b / 4 + (w - x.base / 4)
    poisAcc := s.poisAcc ++ (s.poisAcc.filter fun w => x.base / 4 ≤ w * 4 && w * 4 < x.base / 4 + 2 ^ 18).map fun w =>
      b / 16 + (w - x.base / 16) }

/-- Copy j of the forking group `g`. -/
def forkCopy (g : Group) (fork j tag : Nat) (dst : Opnd) : Group :=
  let g := { g with world := tag, depth := g.depth + 1, copy := j, fork := some fork }
  let g := g.wrS 95 (BitVec.ofNat 32 j)
  match dst with | .sp n => g.wrSp n.toNat true | _ => g

/-- A clone in a place of its own: it becomes resident now (11 R262) and has issued nothing yet; nothing is in flight in it, so its counters are 0
whatever of the parent's parked when its window was written back; its stall counters go on from the parent's (R362). DEDUCED, log [91]. -/
def cloneGroup (g : Group) (gslot space now : Nat) : Group :=
  { g with gslot := gslot, space := space, lastBeat := now, lastIssue := 0, issued := 0, ops := [], copies := [], held := [], ufence := [],
           cLD := 0, cST := 0, cSP := 0, cCP := 0, cMX := 0 }

/-- `fork` once its checks have passed. -/
def State.doFork (s : State) (n : Nat) (dst : Opnd) : State :=
  let g := s.g
  let p := s.part g.part
  let tags := freeTags p g.homePart n
  let fk := freshKey s.forks
  let slots := s.slotsFree g.core g.cpart
  let s := s.setPart g.part { p with tags := p.tags ++ tags }
  let g0 := g.next s.slot s.now
  let (s, copies) := (List.range n).foldl (fun (r : State × List Copy) j =>
    let (s, cs) := r
    let tag := tags.getD j 0
    if j == 0 then (s.setG (forkCopy g0 fk 0 tag dst), [⟨s.ctx, tag, none, none, []⟩]) else
    let c := s.freeCtx g.part
    let x := freshKey s.spaces
    let s := s.cloneSpace g.space x
    (s.enter c (forkCopy (cloneGroup g0 (slots.getD (j - 1) 0) x s.now) fk j tag dst), cs ++ [⟨c, tag, none, none, []⟩])) (s, [])
  s.setFork fk { present := true, part := g.part, blk := g.blk, pWorld := g.world, pDepth := g.depth, pCopy := g.copy, pFork := g.fork,
                 copies := copies }

/-- `fork` (18 R361 to R364): the shape of the block is checked before the context of the group. DEDUCED, log [19]. -/
def execFork (f : EngF) (s : State) : Host.Outcome State Fault Refusal :=
  groupCmd f.guard s (do
    let n := f.imm.toNat
    need (!s.crowded && partsOf (s.launch (s.block s.g.blk).launch).groups ≤ 1) (.trap 21 1 0 s.pathMask)
    need (s.g.it.isNone && s.g.recs.isEmpty) (.trap 21 2 0 s.pathMask)
    s.settleAll
    let t := s.writeBackAll s.ctx true
    match t.forkLacks n with
    | some c =>
      let g := t.g.wrS 95 (BitVec.ofNat 32 (2 ^ 31 + c))
      .ok (t.setG (match f.dst with | .sp d => g.wrSp d.toNat false | _ => g)).advance
    | none => .ok (t.doFork n f.dst))

/-! ### Verdicts -/

def State.copyOf (s : State) (f j : Nat) : Copy := (s.fork f).copies.getD j ⟨0, 0, none, none, []⟩
def State.setCopyOf (s : State) (f j : Nat) (h : Copy → Copy) : State :=
  s.setFork f { s.fork f with copies := modAt (s.fork f).copies j h }

/-- The fork of a group that is a copy (cause "not a copy"); an iteration group that a copy launched stands in its place and acts as that copy.
DESIGN CHOICE, log [97]. -/
def State.needFork (s : State) : Chk Nat := match s.g.fork with | some f => .ok f | none => .error (.trap 21 3 0 s.pathMask)
/-- The same, of copy 0 (cause "not arbiter"). -/
def State.needArbiter (s : State) : Chk Nat := do
  let f ← s.needFork
  need (s.g.copy == 0) (.trap 21 4 0 s.pathMask)
  .ok f

/-- Every copy 1 to n − 1 has posted or ended. -/
def State.allPosted (s : State) (f : Nat) : Bool := ((s.fork f).copies.drop 1).all fun c => c.verdict.isSome || c.imposed.isSome

def execWdone (f : EngF) (s : State) : Host.Outcome State Fault Refusal :=
  groupCmd f.guard s (do
    let k ← s.needFork
    s.needSrc f.a
    let a := s.skVal f.a.opnd
    need (a < 0xFFFFFFFE) (.trap 8 0 (BitVec.ofNat 64 a) s.pathMask)
    s.settleAll
    let t := (s.setCopyOf k s.g.copy fun c => { c with verdict := some (BitVec.ofNat 32 a) }).advance
    .ok (if s.g.copy == 0 then t else t.setG { t.g with status := .copyPark }))

/-- What `wjoin` reads for a copy (R375). -/
def Copy.reading (c : Copy) : Word := match c.imposed, c.verdict with | some x, _ => x | none, some v => v | none, none => 0

def execWjoin (f : EngF) (s : State) : Host.Outcome State Fault Refusal :=
  groupCmd f.guard s (do
    let k ← s.needArbiter
    let cs := (s.fork k).copies
    let d := match f.dst with | .s n => n.toNat | _ => 0
    need (d + cs.length ≤ 96) (illegalStop (.eng 0x23 f) 7 s.pathMask)
    need (s.allPosted k) (.stall 14)
    needNone (s.g.pendingWrite (opndSpan f.dst cs.length))
    .ok (s.setG (cs.zipIdx.foldl (fun g c => g.wrS (d + c.2) c.1.reading) s.g)).advance)

/-! ### `choose` (R372, R373) -/

/-- A deferred store is issued as the committing group's own (R370); what finds an extent absent is held. -/
def State.replayStore (s : State) (ctx : Nat) (o : Op) : State :=
  let g := s.group ctx
  let p := s.part g.part
  let away (a : Acc) : Bool := (extStates p o.bytes a).any fun e => e.1 != .resident
  let accs := o.accs.map fun a => { a with absent := away a, held := away a }
  let parked := accs.any (·.absent)
  let o := { o with id := g.newId, accs := accs, parked := parked, done := false, flagp := 15, world := g.world }
  let s := s.setGroup ctx (Group.rise { g with ops := g.ops ++ [o] } o.cls)
  if !parked then s else
  (s.setPart g.part { p with parked := p.parked ++ [(ctx, o.id)] }).askFor g.part o

/-- One entry of a committed log is issued; `none` while an enqueue stalls. DEDUCED, log [84]. -/
def State.replayOne (s : State) (ctx : Nat) (e : Effect) : Option State :=
  match e with
  | .store o => some (s.replayStore ctx o)
  | .copy c =>
    let g := s.group ctx
    let c := { c with id := g.newId, owns := c.left g.space, stamp := s.copyStamp, opt := c.opt &&& ~~~(0xC00#19), late := true }
    some (s.setGroup ctx (Group.rise { g with copies := g.copies ++ [c] } .cp))
  | .spawn r => match s.spawn ctx r 0 with | .ok t => some t | .error (.stall _) => none | .error _ => some s
  | .cont r => some (s.setCont (s.group ctx).blk r)

/-- The entry before has been performed, or is held at the memory side. -/
def Group.replayFree (g : Group) : Bool :=
  !g.saved && (g.ops.all fun o => o.done || o.parked || o.cls == .none) && g.copies.all (·.faulted)

/-- The entries of a committed log are performed in log order (R370): each is issued once the one before it has been performed. DEDUCED,
log [92]. -/
def State.replay (s : State) (ctx : Nat) : Nat → State
  | 0 => s
  | n + 1 =>
    match (s.group ctx).replay with
    | [] => s
    | e :: r =>
      if !(s.group ctx).replayFree then s else
      match s.replayOne ctx e with
      | none => s
      | some t => (t.setGroup ctx { t.group ctx with replay := r }).replay ctx n

/-- Groups whose committed logs are not performed yet go on with them. -/
def State.replayAll (s : State) : State := (s.groupsWhere fun g => !g.replay.isEmpty).foldl (fun s c => s.replay c 64) s

/-- End the copies of a fork other than copy k; their counters go to copy k (22 R428). DEDUCED, log [91]. -/
def State.endOthers (s : State) (f k : Nat) : State :=
  let heir := (s.copyOf f k).ctx
  let keep := (s.group heir).space
  (List.range (s.fork f).copies.length).foldl (fun s j =>
    let c := s.copyOf f j
    if j == k || c.imposed.isSome then s else
    let s := s.dropNested f j c.ctx heir keep
    ((c.ctx :: s.copyGroups f j).foldl (fun s x => s.endGroup x heir keep) s).dropWorld c.world) s

/-- What agents of the parent's world hold of the lines of a committed view ends: DIRTY stash lines are superseded, other stash lines and L1
copies are stale (R373, R374, R379). -/
def State.settleLines (s : State) (part pw : Nat) (mine : List View) : State :=
  let s := mine.foldl (fun s v => ((s.part part).objs.filterMap fun e => (offOfLine e.2 part e.1 v.remote v.line).map (e.1, ·)).foldl
    (fun s o => s.recall part pw o.1 o.2 64 true) s) s
  { s with l1 := s.l1.filter fun x => !mine.any fun v => !v.remote && v.line == x.line }

/-- What is still in flight in a committed world goes on in its parent's. -/
def State.moveOps (s : State) (w pw : Nat) : State :=
  { s with groups := mapVals (fun (g : Group) => { g with ops := g.ops.map fun o => if o.world == w then { o with world := pw } else o }) s.groups }

/-- The commit of view k of fork f: its lines, and those of the worlds committed into it, stand before the parent's. -/
def State.commitView (s : State) (f k : Nat) : State :=
  let fk := s.fork f
  let c := s.copyOf f k
  let old := (s.copyOf f 0).ctx
  let oldSpace := (s.group old).space
  let s := s.endOthers f k
  let isMine (v : View) : Bool := !s.dropped.contains v.world && s.effTag v.world == c.world
  let g := s.group c.ctx
  let s := s.settleLines g.part fk.pWorld (s.views.filter isMine)
  let s := { s with views := s.views.filter isMine ++ s.views.filter (fun (v : View) => !isMine v), links := s.links ++ [(c.world, fk.pWorld)] }
  let s := s.moveOps c.world fk.pWorld
  let g := { s.group c.ctx with world := fk.pWorld, depth := fk.pDepth, copy := fk.pCopy, fork := fk.pFork, status := .run }
  let s := (s.setGroup c.ctx g).setFork f {}
  let s := match fk.pFork with
    | some pf => s.setCopyOf pf fk.pCopy fun x => { x with ctx := c.ctx }
    | none => s
  let b := s.block g.blk
  let s := s.setBlock g.blk { b with spaces := b.spaces.map fun x => if x == oldSpace then g.space else x,
                                     groups := b.groups.map fun x => if x == old then c.ctx else x }
  let s := match fk.pFork with
    | some pf => s.setCopyOf pf fk.pCopy fun x => { x with log := x.log ++ c.log }
    | none => (s.setGroup c.ctx { s.group c.ctx with replay := c.log }).replay c.ctx 65
  s.gcTags

/-- DEDUCED, log [92]: `choose` first raises held engine faults. -/
def execChoose (f : EngF) (s : State) : Host.Outcome State Fault Refusal :=
  groupCmd f.guard s (do
    let fk ← s.needArbiter
    s.needSrc f.a
    let k := s.skVal f.a.opnd
    need (k < (s.fork fk).copies.length) (.trap 21 6 0 s.pathMask)
    need (s.allPosted fk) (.stall 14)
    let c := s.copyOf fk k
    need c.imposed.isNone (.trap 21 5 0 s.pathMask)
    match (s.fork fk).pFork with
    | some pf => need ((s.copyOf pf (s.fork fk).pCopy).log.length + c.log.length ≤ 64) (.trap 21 7 0 s.pathMask)
    | none => .ok ()
    s.settleAll
    .ok (s.advance.commitView fk k))

/-! ### `wabort` (R376) -/

/-- Perform what the group has in flight before its world goes: operations that are ready, then copy commands. DEDUCED, log [93]. -/
def State.drain (s : State) (ctx : Nat) : State :=
  let s := (s.group ctx).ops.foldl (fun s o =>
    match (s.group ctx).ops.find? (·.id == o.id) with
    | some x => if s.opReady ctx x then s.performOp ctx x else s
    | none => s) s
  (s.group ctx).copies.foldl (fun s c => if c.faulted then s else s.runCopyOut ctx c.id c.units) s

/-- Copy commands that would write the dropped view have no effect. DEDUCED, log [93]. -/
def Group.dropCopies (g : Group) : Group :=
  let gone := g.copies.filter fun c => !c.loads
  gone.foldl (fun g _ => Group.fall g .cp) { g with copies := g.copies.filter (·.loads) }

/-- DEDUCED, log [93]: `wabort` of copy 0 performs what the group has in flight before its world goes. -/
def execWabort (f : EngF) (s : State) : Host.Outcome State Fault Refusal :=
  groupCmd f.guard s (do
    let k ← s.needFork
    if s.g.copy != 0 then .ok ((s.setG (s.g.countIssue s.slot s.now)).endCopy k s.g.copy 0xFFFFFFFE)
    else
      let t := s.drain s.ctx
      .ok ((t.setG t.g.dropCopies).leaveWorld s.ctx k).advance)

/-- ARBITER_WAKE: a copy 0 that stalls in `choose` or `wjoin` goes on (R372, R375). -/
def State.arbiterReady (s : State) (ctx : Nat) : Bool :=
  match (s.group ctx).fork with | some f => s.allPosted f | none => true

end Sys2Proof.Machine
end

