-- ==== Sys2Proof/Machine/Errors.lean ====
section
/-! DEFINITION. Machine/Errors.lean: the clock and the stall counters (22 R426, R427), caches (10 R228, 02 R37, R41), recalls (09 R198),
retagging (18 R373), refusals of the fabric (17 R349), soft errors (20 R408, R409), heat, clock and power (17 R357, 22 R435, 23 R451,
R452), the boot code (17 R359) and the fault ring (20 R398). -/

namespace Sys2Proof.Machine

/-! ### The clock -/

/-- The worker whose group a context is. -/
def State.isWorker (s : State) (ctx : Nat) : Bool := (s.block (s.group ctx).blk).worker.isSome && (s.block (s.group ctx).blk).groups.head? == some ctx
/-- The retirement of a task that a worker stands in: its enqueue waits for room (15 R332). -/
def State.retirementOf (s : State) (ctx : Nat) : Option Retire :=
  if s.isWorker ctx then (s.launch (s.group ctx).launch).pool.bind fun p => p.retireOf (ctx % 65536) else none

/-- The reason under which a group counts a cycle in which it does not issue (R427). DESIGN CHOICE, log [85]. -/
def stallReason (s : State) (ctx : Nat) : Nat :=
  let g := s.group ctx
  let any (n : Nat) : Bool := (slotPaths g.stack).any (·.stall == n)
  if (readySlot s ctx).isSome then 0
  else if g.status == .retired || g.status == .idle then (if (s.retirementOf ctx).isSome then 10 else 0)
  else if g.status == .faultPark || any 15 then 15
  else if (s.block g.blk).status == .parked then 13
  else if g.moving then 12
  else if any 11 then 11
  else if g.status == .suspended || (match g.it with | some it => it.waitRel | none => false) then 8
  else if g.status == .copyPark then 14
  else if g.replaying then (match g.replay with | .spawn _ :: _ => 10 | _ => 14)
  else if g.atBsync || g.atReorder.isSome then 6
  else
    let r (p : Path) : Nat := if p.sleep != 0 then 0 else p.stall
    match pathIn g.stack 0, pathIn g.stack 1 with
    | some p, _ => r p
    | none, some p => r p
    | none, none => 0

/-- A group counts cycles while it is resident and its clocks run; a worker stays resident between and after its tasks (15 R322). DESIGN
CHOICE, log [85]. -/
def counts (s : State) (ctx : Nat) : Bool :=
  let g := s.group ctx
  g.present && !g.saved && (g.status != .retired || s.isWorker ctx) && s.clocked g.core

/-- A cycle of a path: its stall is tried again, its sleep shortens. -/
def Path.tick (p : Path) : Path := { p with stall := 0, sleep := if 1 < p.sleep then p.sleep - 1 else p.sleep }

/-- The next cycle of a group: one counter rises unless it issued, stalls are tried again, sleeps shorten. DESIGN CHOICE, log [85]. -/
def tick (s : State) (ctx : Nat) (g : Group) : Group :=
  if !counts s ctx then g else
  let r := stallReason s ctx
  let g := if g.issuedNow s.now then g else { g with stalls := put 0 g.stalls r (get 0 g.stalls r + 1) }
  { g with moving := false, stack := g.stack.map Path.tick, saves := g.saves.map fun l => l.map Path.tick }

/-- Cores whose clocks stand still. -/
def State.stoppedCores (s : State) : List Nat :=
  if s.halted.isEmpty && s.power != .idle && (s.clusters.all fun e => !e.2.gated) then [] else (List.range Config.cores).filter fun c => !s.clocked c

/-- ARITHMETIC_CLOCK_CYCLE: every running clock advances by one cycle. DESIGN CHOICE, log [120]. -/
def execArithmeticClockCycle (s : State) : Host.Outcome State Fault Refusal :=
  .next (let t : State := { s with groups := s.groups.map fun (e : Nat × Group) => (e.1, tick s e.1 e.2) }
    let t := (s.spaces.map (·.1)).foldl (fun u k => u.engineCycle k) t
    let t := s.stoppedCores.foldl (fun u c => u.setCore c { u.core c with stopped := (u.core c).stopped + 1 }) t
    { t.replayAll with now := s.now + 1 })

/-! ### Caches and recalls -/

/-- CACHE_EVICTION: a stale L1 copy ends; a view line goes to its overflow place and is seen as before; a text line goes. DEDUCED, log [94]. -/
def execCacheEviction (e : Evicted) (s : State) : Host.Outcome State Fault Refusal :=
  .next (match e with
    | .l1 core line => s.l1Drop core line
    | .view _ _ => s
    | .text core code line => { s with icache := s.icache.filter fun x => !(x.core == core && x.code == code && x.line == line) })

/-- Retention priority of a text line: cold text below hot text (02 R41). -/
def State.textRank (s : State) (x : ILine) : Nat := if 64 * x.line < (s.code x.code).hot then 1 else 0

/-- The fetch of a cold line whose extent is away asks for its return (17 R351). DEDUCED, log [55]. -/
def State.askCold (s : State) (c : Code) (line : Nat) : State :=
  let off := 64 * line - c.hot
  if (s.part c.part).holds (handle c.coldObj off) 64 then
    ([off, off + 63].map (· / 65536)).eraseDups.foldl (fun s pg => s.askReturn c.part c.coldObj pg) s
  else s

/-- ICACHE_LINE_FILL: a line of the text arrives, and is kept if its parities pass at the first or the second fetch (R37). The cache
of a core holds 1,024 lines (00 R2); a cold line whose extent is away comes after its return; a cold line gives way before a hot one (R41), and of these the oldest (log [115], DESIGN CHOICE). -/
def execIcacheLineFill (core code line : Nat) (s : State) : Host.Outcome State Fault Refusal :=
  .next (let c := s.code code
    if !s.clocked core || c.size < 64 * (line + 1) || (s.cached core code line).isSome then s
    else if c.hot ≤ 64 * line && !s.coldPlaced c line then s.askCold c line
    else match s.fillLine code line with
      | some bits =>
        { s with icache := ⟨core, code, line, bits⟩ :: keepRanked (fun x => x.core == core) s.textRank 2 (Config.icacheLines - 1) s.icache }
      | none => s)

/-- DIRECTORY_RECALL: another agent's access recalls a DIRTY stash line; a writer leaves it UNFILLED. -/
def execDirectoryRecall (ctx line : Nat) (write : Bool) (s : State) : Host.Outcome State Fault Refusal :=
  .next (match (s.group ctx).stash with
    | none => s
    | some x =>
      if x.lines0 ≤ line then s else
      let t := s.writeBack ctx line
      if !write then t else
      t.setStash ctx line .unfilled)

/-- The place of a line lies in an extent that is LEAVING, where the device writes nothing (17 R351). -/
def State.lineLeaving (s : State) (remote : Bool) (line : Nat) : Bool :=
  s.parts.any fun p => p.2.objs.any fun e => match offOfLine e.2 p.1 e.1 remote line with
    | some off => (e.2.ext (off / 65536)).any (·.st == .leaving)
    | none => false

/-- VIEW_LINE_RETAG: a line of a dropped view is scrubbed; a committed one is retagged to the parent or written home (R373). Older
lines that it supersedes go with it. A line whose extent is away keeps until it is back (Machine/Update.lean). -/
def State.retag (s : State) (line world : Nat) : State :=
  match s.views.find? fun v => v.line == line && v.world == world with
  | none => s
  | some v =>
    let same (u : View) : Bool := u.line == line && u.remote == v.remote
    if s.dropped.contains world then { s with views := s.views.filter fun u => !(same u && u.world == world) }.gcTags
    else match s.links.find? (·.1 == world) with
      | none => s
      | some (_, t) =>
        let e := s.effTag world
        let rest := s.views.filter fun u => !(same u && s.effTag u.world == e && !s.dropped.contains u.world)
        match s.viewAt e v.remote line with
        | none => s
        | some w =>
          if w.world != world then { s with views := s.views.filter fun u => !(same u && u.world == world) }.gcTags
          else if t != 0 then { s with views := { w with world := t } :: rest }.gcTags
          else if 2 ^ 100 ≤ line * 64 || s.lineLeaving v.remote line then s
          else
            (((List.range 64).foldl (fun (u : State) i => u.setHome ⟨v.remote, line * 64 + i⟩ (w.bytes.getD i 0)) { s with views := rest }).homePois
              ⟨v.remote, line * 64⟩ w.pois).gcTags

def execViewLineRetag (line world : Nat) (s : State) : Host.Outcome State Fault Refusal := .next (s.retag line world)

/-! ### Refusals of the fabric (R349, cause 4) -/

/-- A refused request of an operation in flight. One that returns something, the fill of a stash line, and its ownership, fault at once (R349): the
group parks, and the operation is not performed until its fault is resolved, when the request is made again; while the group does not run the
refusal has not returned yet. A `pref` ignores the lanes (09 R213). A store and a write-back end without effect, the line staying DIRTY, and the fault
is held for a wait on ST. DEDUCED, log [68]. -/
def State.refuseOp (s : State) (ctx : Nat) (o : Op) : State :=
  let g := s.group ctx
  let host (obj : Nat) : Bool := ((s.part g.part).obj obj).host
  if o.kind == .pref then s.performOp ctx { o with accs := o.accs.map fun a => if host a.obj then { a with clipped := true } else a } else
  let ps := groupPages ((o.accs.filter fun a => !a.clipped && host a.obj).map fun a => (4, handle a.obj (a.off / 65536 * 65536), a.lane))
  let k := if (g.path 0).mask &&& (o.accs.foldl (fun m a => m ||| oneBit a.lane) 0) == 0 && (pathIn g.stack 1).isSome then 1 else 0
  let now := Op.returns o || (o.place == .stash && o.kind != .swb)
  let rs := (xlatRecs ctx g k (!now) ps).map fun r => { r with pc := o.pc }
  let one := { (rs.filter (·.kind == 18)).headD { kind := 18 } with batch := false, count := 1 }
  if g.status == .retired && now then s.setGroup ctx (g.finish o.id)
  else if !now then (s.setGroup ctx (Group.finish { g with held := g.held ++ [{ cls := .st, trec := one }] } o.id)).post g.part none rs
  else if g.status != .run || g.saved then s
  else
    let p := g.path k
    let ops := g.ops.map fun x => if x.id == o.id then { x with refused := true } else x
    (s.setGroup ctx { g.setPath k { p with stall := 15, sup := none } with status := .faultPark, parkRec := some (k, one), ops := ops }).post g.part (some ctx) rs

/-- A cold line that the group's core does not hold: the path parks on the refusal (23 R445). No request goes out while its extent is away. -/
def State.refuseFetch (s : State) (ctx : Nat) : State :=
  let g := s.group ctx
  let c := s.code g.code
  let k := if (g.path 1).stall == 11 && (g.path 0).stall != 11 then 1 else 0
  let p := g.path k
  let line := lineOfPc p.pc
  if canIssue s ctx k && 64 * (line + 1) ≤ c.size && coldMiss s g line
      && (s.coldPlaced c line || !(s.part c.part).holds (handle c.coldObj (64 * line - c.hot)) 64) then
    parkXlat { s with cur := (ctx, k) } [(4, handle c.coldObj ((64 * line - c.hot) / 65536 * 65536), p.mask)]
  else s

/-- The fabric still has something to do for an access of an operation: to fill a line, to own a CLEAN one that it writes, to take back a DIRTY one. -/
def State.asks (s : State) (ctx : Nat) (o : Op) (a : Acc) : Bool :=
  match (s.group ctx).stash with
  | some x =>
    (match get LineSt.unfilled x.lines (s.stashOff ctx a / 64) with
      | .unfilled => o.kind != .swb && o.kind != .sdrop
      | .clean => o.kind == .store || o.kind == .amo
      | .dirty => o.kind == .swb)
  | none => false

/-- APERTURE_REFUSAL of request n of a group: 0 is the fetch of slot 0's line, else an operation or a copy command, which names the first page of its
unit that the fabric refuses. DEDUCED, log [68]. -/
def execApertureRefusal (ctx n : Nat) (s : State) : Host.Outcome State Fault Refusal :=
  .next (let g := s.group ctx
    let host (obj : Nat) : Bool := ((s.part g.part).obj obj).host
    if n == 0 then s.refuseFetch ctx else
    match g.ops.find? fun o => o.id == n && !o.done && !o.parked && !o.refused && (o.place == .dev || (o.place == .stash && o.accs.any (s.asks ctx o)))
      && o.accs.any fun a => !a.clipped && host a.obj with
    | some o => s.refuseOp ctx o
    | none =>
      match g.nextCopy with
      | some x =>
        let y := s.readIdx g.space x (x.rowsTo x.unit)
        (match (y.spots (y.unread y.todo)).find? fun q => host q.1 with
          | some q => if x.id == n then s.copyFault ctx y (.pages [(4, handle q.1 (q.2.1 / 65536 * 65536), x.mask)]) else s
          | none => s)
      | none => s)

/-! ### Soft errors -/

def addOnce (l : List Nat) (n : Nat) : List Nat := if l.contains n then l else n :: l

/-- UNCORRECTABLE_ERROR: the unit that holds it is poisoned (R409). DEDUCED, log [109]. -/
def execUncorrectableError (u : PoisonUnit) (s : State) : Host.Outcome State Fault Refusal :=
  .next (let s := { s with poisonUnits := s.poisonUnits + 1 }
    match u with
    | .line n => { s with poisLines := addOnce s.poisLines n }
    | .scratchWord sp w => { s with poisScr := addOnce s.poisScr (scrKey (s.space sp) (4 * w) / 4) }
    | .tileWord sp t e => { s with poisAcc := addOnce s.poisAcc (accKey (s.space sp) t (4 * e) / 4) }
    | .vname c n => s.setGroup c { s.group c with vpois := (s.group c).vpois ||| bit256 n }
    | .sname c n => s.setGroup c { s.group c with spois := (s.group c).spois ||| BitVec.ofNat 96 (2 ^ n) })

/-- SINGLE_BIT_ERROR: corrected and counted (R408). -/
def execSingleBitError (s : State) : Host.Outcome State Fault Refusal := .next { s with corrected := s.corrected + 1 }

/-! ### Heat, clock and power -/

/-- THERMAL_TRIP: every clock of a die halts (R357). -/
def execThermalTrip (die : Nat) (s : State) : Host.Outcome State Fault Refusal :=
  .next { s with halted := addOnce s.halted die, dev := .thermal }

/-- The clock that the power state allows. -/
def ceiling : PowerState → Nat
  | .cap k => Min.min k Config.ratedKHz
  | _ => Config.ratedKHz

/-- CLOCK_THROTTLE: the power and thermal logic sets the clock, never above the ceiling (R451). -/
def execClockThrottle (khz : Nat) (s : State) : Host.Outcome State Fault Refusal :=
  .next { s with khz := Min.min khz (ceiling s.power) }

/-- THERMAL_GATING: a cluster is gated and its trace buffer discarded (22 R435). -/
def execThermalGating (cluster : Nat) (s : State) : Host.Outcome State Fault Refusal :=
  .next (let k := s.cluster cluster
    if k.gated || Config.clusters ≤ cluster then s else
    s.setCluster cluster { k with gated := true, lost := k.lost + bufCount k.lastTime k.lastSync k.buf + k.dropped, buf := [], dropped := 0 })

/-- A LOSS of a subtype and count, then a SYNC. -/
def lossSync (now sub n : Nat) : List Pkt := [⟨now, 0, 7, sub, leBytes 4 n⟩, ⟨now, 0, 6, 0, []⟩]

/-- CLUSTER_RETURN: LOSS with subtype 1 counts what was lost, then SYNC. -/
def execClusterReturn (cluster : Nat) (s : State) : Host.Outcome State Fault Refusal :=
  .next (let k := s.cluster cluster
    if !k.gated then s else
    s.setCluster cluster { k with gated := false, lost := 0, buf := lossSync (s.clusterCycles cluster) 1 k.lost })

/-- POWER_FAULT: the state that SUMMARY reports as 3. -/
def execPowerFault (s : State) : Host.Outcome State Fault Refusal := .next { s with dev := .powerFault }

/-- SUPPLY_OFF: the device is off (R452). -/
def execSupplyOff (s : State) : Host.Outcome State Fault Refusal := .next { s with dev := .off }

/-- Does the boot code accept an image (R359)? Its version and the minimum that it asks for stand beside the signed bytes. DESIGN CHOICE, log [3]. -/
def State.accepts (s : State) (i : FwImage) : Bool := Config.verifies i.pub i.sig i.bytes && s.minSvn ≤ i.svn

/-- An accepted image runs; it may raise the fused minimum. -/
def State.runImage (s : State) (i : FwImage) : State :=
  { s with
    dev := .running
    svn := i.svn
    minSvn := Max.max s.minSvn i.newMin
    fwDigest := (List.range 64).map (Config.digest i.bytes) }

/-- FIRMWARE_BOOT: the boot code runs the image or starts the recovery loader. -/
def execFirmwareBoot (s : State) : Host.Outcome State Fault Refusal :=
  .next (match s.image with
    | some i => if s.accepts i then s.runImage i else { s with dev := .recovery }
    | none => { s with dev := .recovery })

/-! ### The fault ring (20 R398) -/

/-- Entries of the fault ring that are free: HEAD is read from memory. -/
def State.ringFree (s : State) (p : Nat) : Nat :=
  let x := s.part p
  2 ^ x.frlog - (x.frTail.toNat + 2 ^ 32 - rdN s.hbm x.frbase 4) % 2 ^ 32

/-- Write records from an index on. -/
def State.putRecs (s : State) (base log i : Nat) : List TrapRec → State
  | [] => s
  | r :: t => { s with hbm := wrBytes s.hbm (base + 64 + 32 * (i % 2 ^ log)) r.bytes }.putRecs base log (i + 1) t

/-- FAULT_RING_POSTING: the oldest posting is written when enough entries are free, and TAIL advances once. -/
def execFaultRingPosting (p : Nat) (s : State) : Host.Outcome State Fault Refusal :=
  .next (let x := s.part p
    match x.posts with
    | [] => s
    | (_, rs) :: rest =>
      if x.frlog == 0 || s.ringFree p < rs.length then s else
      let t := s.putRecs x.frbase x.frlog x.frTail.toNat rs
      let tail := x.frTail + BitVec.ofNat 32 rs.length
      { t with hbm := wrN t.hbm (x.frbase + 4) 4 tail.toNat }.setPart p { x with posts := rest, frTail := tail })

end Sys2Proof.Machine
end

