-- ==== Sys2Proof/Machine/Save.lean ====
section
/-! DEFINITION. Machine/Save.lean: the group context and the window record in memory (20 R402, 13 R302), saving a halted group
(20 R403, R404) and restoring a block (20 R405, 11 R260, 18 R381). -/

namespace Sys2Proof.Machine

/-! ### Reading a context back -/

/-- The path of 16 bytes, `none` for an empty slot. -/
def readPath (m : SMap Byte) (a : Nat) : Option Path :=
  let p : Path := { mask := BitVec.ofNat 64 (rdN m a 8), pc := BitVec.ofNat 32 (rdN m (a + 8) 4), rcv := BitVec.ofNat 32 (rdN m (a + 12) 4) }
  if p.pc == noRcv || p.mask == 0 then none else some p
def readPaths (m : SMap Byte) (a n : Nat) : List Path := (List.range n).filterMap fun i => readPath m (a + 16 * i)

/-- A record from memory, a context number read as its key (20 R388, R397). -/
def readRec (m : SMap Byte) (a part : Nat) : TrapRec :=
  let f := rdN m (a + 1) 1
  let c := rdN m (a + 4) 4
  { kind := rdN m a 1, cause := f % 16, batch := f / 16 % 2 == 1, engine := f / 32 % 2 == 1, nested := f / 64 % 2 == 1, count := rdN m (a + 2) 2,
    ctx := if c == 0xFFFFFFFF then c else part * 65536 + c, detail := BitVec.ofNat 64 (rdN m (a + 8) 8), mask := BitVec.ofNat 64 (rdN m (a + 16) 8),
    pc := BitVec.ofNat 32 (rdN m (a + 24) 4), world := BitVec.ofNat 16 (rdN m (a + 28) 2), region := BitVec.ofNat 16 (rdN m (a + 30) 2) }

/-- A table of words from memory. -/
def readTable (m : SMap Byte) (a n : Nat) : SMap Word := (List.range n).foldl (fun t i => put 0 t i (BitVec.ofNat 32 (rdN m (a + 4 * i) 4))) []
def readWords (m : SMap Byte) (a n : Nat) : List Word := (List.range n).map fun i => BitVec.ofNat 32 (rdN m (a + 4 * i) 4)

/-- The window with its carry image, trip count, next iteration and break read back. -/
def readWindow (m : SMap Byte) (a width : Nat) (w : Window) : Window :=
  let slots := (List.range 64).foldl (fun t sl => (List.range width).foldl (fun t l =>
    let b := a + 0x100 + 8 * (sl * width + l)
    put {} t (slotKey sl l) ⟨BitVec.ofNat 32 (rdN m b 4), BitVec.ofNat 16 (rdN m (b + 4) 2), CarrySt.ofNum (rdN m (b + 6) 1)⟩) t) []
  let brk := rdN m (a + 0xC) 4
  { w with
    slots := slots
    loop := w.loop.map fun lp => { lp with n := rdN m a 4, next := rdN m (a + 8) 4, brk := if brk == 0xFFFFFFFF then none else some brk } }

/-- The saved path that a level's record names: at its PC with lanes of its mask, else the first at its PC. DEDUCED, log [41]. -/
def markTrapped (r : TrapRec) (st : List Path) : List Path :=
  match st.findIdx? (fun p => p.pc == r.pc && (p.mask &&& r.mask) != 0) <|> st.findIdx? (fun p => p.pc == r.pc) with
  | some i => modAt st i fun p => { p with trapped := true }
  | none => st

/-- The one-shot suppressions of a level's paths stay with them through a save (22 R421); the context holds none (20 R402). -/
def keepSups (old : List Path) (l : List Path) : List Path :=
  l.map fun p => { p with sup := (old.find? fun q => q.pc == p.pc && q.mask == p.mask).bind (·.sup) }

/-- A record read back keeps the copy command that it holds. -/
def keepCmd (old : List TrapRec) (l : List TrapRec) : List TrapRec :=
  l.zipIdx.map fun e => { e.1 with cmd := (old.reverse[l.length - 1 - e.2]?).bind (·.cmd) }

/-- A group as its context in memory gives it; what the context does not list stays (R403). DEDUCED, log [105]. -/
def State.readCtx (s : State) (ctx : Nat) (g : Group) : Group :=
  match s.ctxAddr ctx with
  | none => g
  | some a =>
    let m := s.hbm
    let w := g.width
    let level := Min.min (rdN m (a + 0x43) 1) 2
    let area (l : Nat) := readPaths m (a + 0x5A0 + 32 * (l - 1)) 2
    let hs (l : Nat) := (readPaths m (a + 0xC80 + 128 * (l - 1)) 8).reverse
    let div := (readPaths m (a + 0x1000) (Min.min (rdN m (a + 0x40) 2) 64)).reverse
    let cur := readPaths m (a + 0x10) 2
    let mapped : BitVec 256 := BitVec.ofNat 256 (rdN m (a + 0x9500) 32)
    let names := (List.range 256).filter fun n => mapped.getLsbD n
    let bits (k : Nat) : Mask := maskOf w fun l => rdN m (a + 0x800 + 2 * l) 2 / 2 ^ k % 2 == 1
    let h : Mask := BitVec.ofNat 64 (rdN m (a + 0x38) 8)
    let lanes (l : List Path) : List Path := l.map fun p => { p with mask := p.mask &&& ~~~h }
    let rec_ (l : Nat) : TrapRec := readRec m (a + 0x5E0 + 32 * (l - 1)) (ctx / 65536)
    { g with
      setting := BitVec.ofNat 32 (rdN m (a + 8) 4)
      stack := keepSups g.stack (lanes (cur ++ (if level == 0 then div else hs level)))
      saves := ((if level == 0 then [] else if level == 1 then [markTrapped (rec_ 1) (lanes (area 1 ++ div))]
        else [markTrapped (rec_ 2) (lanes (area 2 ++ hs 1)), markTrapped (rec_ 1) (lanes (area 1 ++ div))]).zipIdx).map
          fun e => keepSups (g.saves.getD e.2 []) e.1
      recs := keepCmd g.recs ((List.range level).map fun i => rec_ (i + 1)).reverse
      exited := BitVec.ofNat 64 (rdN m (a + 0x30) 8)
      helper := h
      regions := ((List.range (Min.min (rdN m (a + 0x42) 1) 8)).map fun i => BitVec.ofNat 16 (rdN m (a + 0x48 + 2 * i) 2)).reverse
      sp := BitVec.ofNat 8 (rdN m (a + 0x58) 1)
      spois := BitVec.ofNat 96 (rdN m (a + 0x5C) 12)
      s := readTable m (a + 0x80) 96
      stalls := readTable m (a + 0x200) 16
      qm := readWords m (a + 0x240) (Min.min (rdN m (a + 0x580) 1) 64)
      qx := readWords m (a + 0x340) (Min.min (rdN m (a + 0x581) 1) 64)
      qk := readWords m (a + 0x440) (Min.min (rdN m (a + 0x582) 1) 64)
      staged := readWords m (a + 0x540) (Min.min (rdN m (a + 0x59) 1 % 32) 15)
      lastSC := BitVec.ofNat 64 (rdN m (a + 0x598) 8)
      p := (List.range 15).foldl (fun t k => put 0 t k (bits k)) []
      key := (List.range w).foldl (fun t l => put 0 t l (BitVec.ofNat 64 (rdN m (a + 0x880 + 16 * l) 8))) []
      ctr := (List.range w).foldl (fun t l => put 0 t l (BitVec.ofNat 64 (rdN m (a + 0x888 + 16 * l) 8))) []
      mapped := mapped
      dkill := BitVec.ofNat 256 (rdN m (a + 0x9520) 32)
      vpois := BitVec.ofNat 256 (rdN m (a + 0x9540) 32)
      v := names.zipIdx.foldl (fun t n => (List.range w).foldl (fun t l =>
        put 0 t (n.1 * 64 + l) (BitVec.ofNat 32 (rdN m (a + 0x9560 + 4 * (n.2 * w + l)) 4))) t) []
      win := g.win.map (readWindow m (a + 0x1400) w) }

/-! ### Saving (R403) -/

/-- LD and SP operations have completed (09 R207). -/
def Group.saveReady (g : Group) : Bool := g.ops.all fun o => o.done || !(o.cls == .ld || o.cls == .sp)

/-- A sleep and a stall end; a suppression lapses where its instruction has stalled (11 R277, 22 R421). -/
def Path.halted (p : Path) : Path := { p with stall := 0, sleep := 0, sup := if p.tried then none else p.sup, tried := false }
def Group.halted (g : Group) : Group :=
  let st := g.stack.map Path.halted
  ({ g with stack := tidy (st.length + 1) st, saves := g.saves.map fun l => l.map Path.halted } : Group).flushKills

/-- GROUP_SAVE of a group of a halting block. It keeps the PC of every path, so that a stalled carrier executes again after the restore, and what has been
issued stays in flight: a saved group's REL is performed in its time (10 R233). -/
def State.saveGroup (s : State) (ctx : Nat) : State :=
  let g := s.group ctx
  if !g.present || g.saved || !s.clocked g.core || g.status == .retired || (s.block g.blk).status != .halting || !g.saveReady then s else
  let s := s.writeBackAll ctx true
  let s := s.setGroup ctx (s.group ctx).halted
  let s := s.writeCtx ctx
  let g := s.group ctx
  let s := s.emitGroup g 2 (ctx % 65536)
  (s.setGroup ctx { g with saved := true }).settleSave g.blk

def execGroupSave (ctx : Nat) (s : State) : Host.Outcome State Fault Refusal := .next (s.saveGroup ctx)

/-! ### Restoring -/

/-- Put a saved group and the iterations that it launched into places of a core; one that has retired only takes its place. One that was parked on
a fault executes its instruction again, and the copy whose fault parked it goes on (20 R399, R401). -/
def State.unsave (s : State) (ctx core : Nat) : State :=
  let g0 := s.group ctx
  let free := s.slotsFree core g0.cpart
  if g0.status == .retired then s.setGroup ctx { g0 with saved := false, core := core, gslot := free.headD 0 } else
  let back (c : Nat) (gslot : Nat) (places : List Nat) : Group :=
    let g := s.readCtx c (s.group c)
    let g := match g.parkRec with | some (_, r) => Group.unrefused (if r.engine then g.resumeCopies r else g) | none => g
    { g with
      saved := false
      core := core
      gslot := gslot
      lastBeat := s.now
      status := if g.status == .faultPark then .run else g.status
      parkRec := none
      win := g.win.map fun w => { w with wait := false, loop := w.loop.map fun lp => { lp with places := places } } }
  let places := (free.drop 1).take g0.kept.length
  let kids := match g0.win.bind (·.loop) with | some lp => lp.live | none => []
  let s1 := (s.setGroup ctx (back ctx (free.headD 0) places)).emitGroup (back ctx (free.headD 0) places) 3 (ctx % 65536)
  kids.foldl (fun u c =>
    let old := (s.group c).gslot
    let slot := match (g0.kept.zip places).find? (·.1 == old) with | some e => e.2 | none => 0
    (u.setGroup c (back c slot [])).emitGroup (back c slot []) 3 (c % 65536)) s1

/-- Restore a saved block on the cores of its parts, as an acquire (10 R233). DEDUCED, log [105]. -/
def State.restoreBlock (s : State) (b : Nat) (cores : List Nat) : State :=
  let k := s.block b
  let s := cores.zipIdx.foldl (fun s c =>
    let gs := s.partGroups b c.2
    let xs := s.partSpaces b c.2
    let s := xs.foldl (fun u x => u.setSpace x { u.space x with core := c.1 }) s
    let s := gs.foldl (fun u g => u.unsave g c.1) s
    (s.groupsWhere fun g => g.blk == b && g.saved && s.partIndex b g == c.2).foldl (fun u g =>
      u.setGroup g { u.group g with saved := false, core := c.1 }) s) s
  let s := s.setBlock b { k with status := .running, restoring := false, missing := [], start := (s.coreCycles (cores.headD 0)).toNat }
  cores.foldl (fun s c => s.acquireAll c) s

end Sys2Proof.Machine
end

