-- ==== Sys2Proof/Machine/Launch.lean ====
section
/-! DEFINITION. Machine/Launch.lean: the end of a launch (11 R254), activation (11 R255, 15 R314, R317, R323), starting blocks and
workers (11 R256, 01 R29, 15 R322), the block distributor (11 R255 to R260, 15 R314, R315), and retirement (15 R316, 20 R406, 22 R429). -/

namespace Sys2Proof.Machine

/-! ### What the device writes for a launch -/

/-- CODE and DETAIL at a STATUS handle (23 R440). DESIGN CHOICE, log [70]. -/
def State.writeStatus (s : State) (part : Nat) (h : DWord) (code detail : Nat) : State :=
  if h == 0 then s else s.devWrite part h (leBytes 4 code ++ leBytes 4 detail)

/-- Blocks of a grid. -/
def Launch.count (l : Launch) : Nat := l.x * l.y * l.z

/-- The whole scoreboard (15 R316); the bits of its last byte that lie past the grid are 0. DESIGN CHOICE, log [33]. -/
def State.writeScore (s : State) (l : Launch) : State :=
  match l.tart with
  | none => s
  | some t => s.devWrite l.part t.sbh ((List.range ((Launch.count l + 7) / 8)).map fun i =>
      BitVec.ofNat 8 ((List.range 8).foldl (fun x j => x + bit1 (t.score.contains (8 * i + j)) (2 ^ j)) 0))

/-- The header of the task ring (15 R323). -/
def State.writePool (s : State) (l : Launch) : State :=
  match l.pool with
  | none => s
  | some p =>
    let s := s.devWrite l.part p.ring ((List.range 4).map fun i => leBytes 4 (p.head.getD i 0) ++ leBytes 4 (p.tail.getD i 0)).flatten
    let s := s.devWrite l.part (p.ring + 0x24) (leBytes 4 p.outst)
    s.devWrite l.part (p.ring + 0x2C) (leBytes 4 p.fcount)

/-- A launch ends: scoreboard and ring header are in memory unless the launch has not become active, the status is written, and the queue moves on (R254, 23 R440). -/
def State.endLaunch (s : State) (id code detail : Nat) : State :=
  let l := s.launch id
  let s := if l.st == .queued then s else (s.writeScore l).writePool l
  let s := s.writeStatus l.part l.status code detail
  let p := s.part l.part
  let q := get {} p.queues l.queue
  let s := s.setPart l.part { p with queues := put {} p.queues l.queue { q with launches := q.launches.filter (· != id) } }
  s.setLaunch id {}

/-- The end with OK, or FAULTED after a kill (20 R407). -/
def State.finishLaunch (s : State) (id : Nat) : State :=
  s.endLaunch id (if (s.launch id).faulted then 5 else 0) (s.launch id).seq.toNat

/-! ### Activation -/

def readImage (bs : List Byte) : SMap Word := (wordsOf 96 bs).zipIdx.foldl (fun m w => put 0 m w.2 w.1) []

/-- Bits that stand in the scoreboard at the start (15 R317). -/
def State.presetBits (s : State) (l : Launch) (sbh : DWord) : List Nat :=
  (List.range (Launch.count l)).filter fun b => s.devRead l.part (sbh + BitVec.ofNat 64 (b / 8)) 1 / 2 ^ (b % 8) % 2 == 1

/-- The pool with the header that memory gives, or the status of a bad one (15 R323); a misaligned handle, and one whose offset lies past its object's
end, is no valid handle: BADOBJ. DEDUCED, log [34]. -/
def State.readPool (s : State) (l : Launch) (p : Pool) : Except Nat Pool :=
  let part := s.part l.part
  let rd (off n : Nat) := s.devRead l.part (p.ring + BitVec.ofNat 64 off) n
  if !part.holds p.ring 64 || p.ring.toNat % 64 != 0 || !part.holds p.faults 1 || p.faults.toNat % 32 != 0 then .error 2 else
  let head := (List.range 4).map fun i => rd (8 * i) 4
  let tail := (List.range 4).map fun i => rd (8 * i + 4) 4
  let logc := rd 0x20 4
  let logf := rd 0x28 4
  let n (i : Nat) : Nat := (tail.getD i 0 + 2 ^ 32 - head.getD i 0) % 2 ^ 32
  if logc < 4 || 16 < logc || 12 < logf || rd 0x30 16 != 0 || (List.range 4).any (fun i => 2 ^ logc < n i)
      || !part.holds p.ring (0x40 + 64 * 2 ^ logc * 4) || !part.holds p.faults (32 * 2 ^ logf) then .error 1
  else .ok { p with head := head, tail := tail, logc := logc, logf := logf, fcount := rd 0x2C 4, since := List.replicate 4 s.now,
                    outst := (List.range 4).foldl (fun t i => t + n i) 0 }

/-- The launch starts: it acquires, and reads its argument image, scoreboard or ring header. -/
def State.activate (s : State) (id : Nat) : State :=
  let l := s.launch id
  let seq := l.seq.toNat
  let l := { l with st := .active, args := readImage (leBytes 384 (s.devRead l.part l.argsAt 384)) }
  match l.tart, l.pool with
  | some t, _ =>
    let t := { t with score := s.presetBits l t.sbh }
    let s := s.setLaunch id { l with tart := some t, placed := t.score }
    if t.score.length == Launch.count l then s.finishLaunch id else s
  | none, some p =>
    (match s.readPool l p with
      | .error c => s.endLaunch id c seq
      | .ok p =>
        let s := s.setLaunch id { l with pool := some p }
        if p.outst == 0 then s.finishLaunch id else s)
  | none, none => s.setLaunch id l

/-- LAUNCH_ACTIVATION: the launch at the front of a queue becomes active. -/
def execLaunchActivation (p q : Nat) (s : State) : Host.Outcome State Fault Refusal :=
  .next (match (get {} (s.part p).queues q).launches with
    | id :: _ => if (s.launch id).st == .queued then s.activate id else s
    | [] => s)

/-! ### Starting blocks and workers -/

/-- Make the space of a part. -/
def State.addSpace (s : State) (b core size acc total : Nat) : State :=
  let id := freshKey s.spaces
  s.freshSpace id { present := true, blk := b, core := core, size := size, acc := acc, total := total }

/-- Start block `idx` of a launch on the cores of its parts. -/
def State.startBlock (s : State) (lid idx : Nat) (cores : List Nat) : State :=
  let l := s.launch lid
  let k := kernelOf s l
  let b := freshKey s.blocks
  let x0 := freshKey s.spaces
  let per := perPart l.groups
  let s := s.setBlock b
    { present := true, launch := lid, part := l.part, index := idx, x := idx % l.x, y := idx / l.x % l.y, z := idx / (l.x * l.y),
      gang := if l.gang == 0 then 0 else idx / l.gang, start := (s.coreCycles (cores.headD 0)).toNat, ngroups := l.groups, spaces := (List.range cores.length).map (x0 + ·) }
  let s := cores.foldl (fun (s : State) c => (s.addSpace b c k.scratch k.acc (spaceTotal l.race k.scratch k.acc)).acquireAll c) s
  (List.range l.groups).foldl (fun (s : State) i =>
    let core := cores.getD (i / per) 0
    let cp := i % per % 4
    let c := s.freeCtx l.part
    let s := s.enter c (s.startGroup l lid b i core cp ((s.slotsFree core cp).headD 0) (x0 + i / per) idx)
    s.setBlock b { s.block b with groups := (s.block b).groups ++ [c] }) s

/-- Resources of the workers of a width code: (scratch, regs, acc). -/
def Pool.resOf (p : Pool) (w : Nat) : Nat × Nat × Nat := p.res.getD w (0, 0, 0)

/-- An idle worker: a group of no task (15 R325). It has issued in this cycle if its task has (22 R426). -/
def idleGroup (g : Group) (regs now : Nat) : Group :=
  { present := true, part := g.part, blk := g.blk, launch := g.launch, code := g.code, space := g.space, width := g.width, core := g.core,
    cpart := g.cpart, gslot := g.gslot, peak := regs, checked := g.checked, handler := g.handler, status := .idle, lastBeat := now,
    lastIssue := g.lastIssue, front := g.front }

/-- Indices of the workers of a width code, of which the ones in use are left out. -/
def State.workerIndex (s : State) (p : Pool) (w : Nat) : Option Nat :=
  let base := (p.wcount.take w).foldl (· + ·) 0
  let used := p.workers.filterMap fun e => (s.block e.2).worker
  ((List.range (p.wcount.getD w 0)).map (base + ·)).find? fun i => !used.contains i

/-- Start a worker of a width code. -/
def State.startWorker (s : State) (lid w core : Nat) : State :=
  let l := s.launch lid
  match l.pool with
  | none => s
  | some p =>
    match s.workerIndex p w with
    | none => s
    | some idx =>
      let (scratch, regs, acc) := p.resOf w
      let b := freshKey s.blocks
      let x := freshKey s.spaces
      let slot := (s.slotsFree core 0).headD 0
      let c := s.freeCtx l.part
      let s := s.setBlock b { present := true, launch := lid, part := l.part, index := idx, start := (s.coreCycles core).toNat, ngroups := 1, groups := [c],
                              spaces := [x], worker := some idx }
      let s := (s.addSpace b core scratch acc (spaceTotal l.race scratch acc)).acquireAll core
      let g : Group := { part := l.part, blk := b, launch := lid, code := l.code, space := x, width := 8 * 2 ^ w, core := core, gslot := slot,
                         checked := l.checked, handler := pcOfAddr l.handler.toNat }
      let s := s.setGroup c (idleGroup g regs s.now)
      s.setLaunch lid { l with pool := some { p with workers := p.workers ++ [(w, b)] } }

/-! ### Where a block can go -/

/-- Cores of a cluster, and clusters of a partition (17 R354). -/
def clusterCores (c : Nat) : List Nat := (List.range Config.coresPerCluster).map (Config.coresPerCluster * c + ·)
def State.clustersOf (s : State) (p : Nat) : List Nat :=
  (List.range Config.clusters).filter fun c => s.partOfCore (Config.coresPerCluster * c) == p

def State.launchPri (s : State) (l : Launch) : Nat := (get {} (s.part l.part).queues l.queue).pri

/-- A reservation of a cluster that has been held for 131,072 cycles is aged (R259). -/
def agedHold (now cluster : Nat) (aged : Bool) (c t : Nat) : Bool := c == cluster && (aged || t + 131072 ≤ now)

/-- A gang that may not be shut out by its own reservation: its launch, and whether it is a saved gang. -/
abbrev Holder := Option (Nat × Bool)

/-- An aged gang, other than `me`, shuts a cluster to its priority and lower, also to blocks of its own launch (R259). -/
def State.shut (s : State) (cluster pri : Nat) (me : Holder) : Bool :=
  s.launches.any fun e => pri ≤ s.launchPri e.2
    && ((me != some (e.1, false) && e.2.resv.any fun r => agedHold s.now cluster e.2.aged r.1 r.2.2)
      || (me != some (e.1, true) && e.2.back.any fun r => agedHold s.now cluster e.2.backAged r.2.1 r.2.2.2))

/-- Distinct cores for some parts, each the first that fits. DESIGN CHOICE, log [6]. -/
def pickCores (fit : Nat → Nat → Bool) : List Nat → List Nat → Option (List Nat)
  | [], _ => some []
  | i :: r, cs => match cs.find? (fit i) with
    | some c => (pickCores fit r (cs.filter (· != c))).map (c :: ·)
    | none => none

/-- The cores that an event names, where they are a choice, else the first cluster that takes all parts. DESIGN CHOICE, log [6]. -/
def State.findCores (s : State) (p n : Nat) (want : List Nat) (ok : Nat → Bool) (fit : Nat → Nat → Bool) : Option (List Nat) :=
  let good : Bool := want.length == n && want.Nodup && want.all (fun c => c / 8 == want.headD 0 / 8) && (s.clustersOf p).contains (want.headD 0 / 8)
    && ok (want.headD 0 / 8) && want.zipIdx.all fun c => fit c.2 c.1
  if good then some want
  else ((s.clustersOf p).filter ok).findSome? fun c => pickCores fit (List.range n) (clusterCores c)

/-! ### Tartan release (15 R313 to R315) -/

def axes (order x y z : Nat) : Nat × Nat × Nat :=
  match order with
  | 0 => (x, y, z) | 1 => (x, z, y) | 2 => (y, x, z) | 3 => (y, z, x) | 4 => (z, x, y) | _ => (z, y, x)

/-- Place of a block in the order of the axes. -/
def lexKey (l : Launch) (order i : Nat) : Nat :=
  let a := axes order (i % l.x) (i / l.x % l.y) (i / (l.x * l.y))
  (a.1 * 2 ^ 32 + a.2.1) * 2 ^ 32 + a.2.2

/-- Block i + d, where it lies in the grid. -/
def neighbour (l : Launch) (i : Nat) (d : Int × Int × Int) : Option Nat :=
  let x : Int := (i % l.x : Nat) + d.1
  let y : Int := (i / l.x % l.y : Nat) + d.2.1
  let z : Int := (i / (l.x * l.y) : Nat) + d.2.2
  if 0 ≤ x && x < l.x && 0 ≤ y && y < l.y && 0 ≤ z && z < l.z then some (x.toNat + l.x * (y.toNat + l.y * z.toNat)) else none

/-- Every predecessor in the grid has retired (R314). -/
def Tartan.released (t : Tartan) (l : Launch) (i : Nat) : Bool :=
  t.vecs.all fun d => match neighbour l i d with | some j => t.score.contains j | none => true

/-- The released blocks that have not been placed, in order. -/
def readyBlocks (l : Launch) (t : Tartan) : List Nat :=
  sortBy (fun a b => lexKey l t.order a ≤ lexKey l t.order b) ((List.range (Launch.count l)).filter fun i => !l.placed.contains i && t.released l i)

/-! ### The distributor -/

inductive Job
  | restore (bs : List Nat)
  | launch (id : Nat)
deriving DecidableEq, Repr

/-- A Tartan launch or a pool of which a block is halting, or saved and not asked back, releases nothing (15 R320, R334). DEDUCED,
log [104]. -/
def State.suspendedLaunch (s : State) (id : Nat) : Bool :=
  ((s.launch id).tart.isSome || (s.launch id).pool.isSome) && s.blocks.any fun e => e.2.launch == id && e.2.present && (e.2.status == .halting || (e.2.status == .saved && !e.2.restoring))

/-- Width codes whose workers are not all placed. -/
def Pool.wants (p : Pool) : List Nat := (List.range 4).filter fun w => (p.workers.filter (·.1 == w)).length < p.wcount.getD w 0

/-- A launch has a block or worker to place. -/
def wantsPlace (l : Launch) : Bool :=
  match l.pool with
  | some p => (l.st == .active || l.st == .placed) && !p.wants.isEmpty
  | none => l.st == .active

/-- Saved blocks in the ready set: each alone, a gang's together once all of them are there (R252, R258). -/
def State.restoreJobs (s : State) (p : Nat) : List (Nat × Job) :=
  let ready (b : Nat) : Bool := (s.block b).status == .saved && (s.block b).restoring
  let bs := (s.blocks.filter fun e => e.2.part == p && ready e.1).map (·.1)
  let whole (b : Nat) : List Nat :=
    let k := s.block b
    if (s.launch k.launch).gang == 0 then [b]
    else if (s.gangBlocks k.launch k.gang).all ready then s.gangBlocks k.launch k.gang else []
  sortBy (fun a c => c.1 ≤ a.1) (((bs.map whole).eraseDups.filter (!·.isEmpty)).map fun l =>
    (s.launchPri (s.launch (s.block (l.headD 0)).launch), Job.restore l))

/-- Place in the order of R255, items 2 and 3: gangs with a reservation, then by priority and turn. -/
def State.turnKey (s : State) (p id : Nat) : Nat :=
  let l := s.launch id
  if l.resv.isSome then l.queue else 100 + (3 - s.launchPri l) * 16 + (l.queue + 15 - get 15 (s.part p).lastServed (s.launchPri l)) % 16

/-- Launches that want a place, in order. -/
def State.launchJobs (s : State) (p : Nat) : List (Nat × Job) :=
  let ids := (s.launches.filter fun e => e.2.part == p && wantsPlace e.2 && !s.suspendedLaunch e.1).map (·.1)
  (sortBy (fun a b => s.turnKey p a ≤ s.turnKey p b) ids).map fun i => (s.launchPri (s.launch i), Job.launch i)

/-- Restore a saved block of no gang. DEDUCED, log [104]. -/
def State.restoreOne (s : State) (p : Nat) (cores : List Nat) (b : Nat) : Option State :=
  let k := s.block b
  (s.findCores p k.spaces.length cores (fun c => !s.shut c (s.launchPri (s.launch k.launch)) none)
    (fun i c => s.claimFits c (s.savedClaim b i))).map (s.restoreBlock b)

/-- Reserve the parts of a saved gang that fit now; `n` bounds their number (R258). -/
def State.reserveBack (s : State) (id : Nat) (cores : List Nat) : Nat → State
  | 0 => s
  | n + 1 =>
    let l := s.launch id
    match l.back with
    | none => s
    | some (g, cl, cs, t) =>
      match (s.savedParts id g)[cs.length]? with
      | none => s
      | some (b, i) =>
        let same := cs.drop (cs.length - i)
        match (cores ++ clusterCores cl).find? fun c => c / 8 == cl && !same.contains c && s.claimFits c (s.savedClaim b i) with
        | some c => (s.setLaunch id { l with back := some (g, cl, cs ++ [c], t) }).reserveBack id cores n
        | none => s

/-- Restore every block of a gang whose parts are all reserved. -/
def State.startBack (s : State) (id : Nat) : State :=
  let l := s.launch id
  match l.back with
  | none => s
  | some (g, _, cs, _) =>
    if cs.length < (s.savedParts id g).length then s else
    ((s.gangBlocks id g).foldl (fun (e : State × List Nat) b =>
      let n := (s.block b).spaces.length
      (e.1.restoreBlock b (e.2.take n), e.2.drop n)) (s.setLaunch id { l with back := none, backAged := false }, cs)).1

/-- Clusters on which a gang may begin to reserve: no other gang holds reservations there (R258), and none is shut to it. -/
def State.openClusters (s : State) (p id : Nat) (me : Holder) : List Nat :=
  (s.clustersOf p).filter fun c => !s.shut c (s.launchPri (s.launch id)) me
    && !s.launches.any fun e => (me != some (e.1, false) && e.2.resv.any (·.1 == c)) || (me != some (e.1, true) && e.2.back.any (·.2.1 == c))

/-- The cluster that a gang takes: the one that an event names where it may, else the first. DESIGN CHOICE, log [6]. -/
def State.pickCluster (s : State) (p id : Nat) (me : Holder) (cores : List Nat) : Option Nat :=
  (cores.map (· / 8) ++ s.openClusters p id me).find? (s.openClusters p id me).contains

/-- A saved gang comes back under the reservation rule of R258. -/
def State.placeBack (s : State) (p b : Nat) (cores : List Nat) : Option State :=
  let id := (s.block b).launch
  let gang := (s.block b).gang
  let l := s.launch id
  let s1 := match l.back with
    | some _ => s
    | none => match s.pickCluster p id (some (id, true)) cores with
      | some c => s.setLaunch id { l with back := some (gang, c, [], s.now) }
      | none => s
  let s2 := if (s1.launch id).back.any (·.1 == gang) then (s1.reserveBack id cores ((s1.savedParts id gang).length + 1)).startBack id else s1
  if s2 == s then none else some s2

/-- Demand of unreserved part j of a gang. -/
def gangParts (l : Launch) : Nat := l.gang * partsOf l.groups

/-- Reserve the parts that fit now; `n` bounds their number (R258). -/
def State.reserveParts (s : State) (id : Nat) (cores : List Nat) : Nat → State
  | 0 => s
  | n + 1 =>
    let l := s.launch id
    match l.resv with
    | none => s
    | some (cl, cs, t) =>
      if gangParts l ≤ cs.length then s else
      let k := partsOf l.groups
      let i := cs.length % k
      let same := cs.drop (cs.length - i)
      let d := s.demand l i
      match (cores ++ clusterCores cl).find? fun c => c / 8 == cl && !same.contains c && s.fitsPart c d with
      | some c => (s.setLaunch id { l with resv := some (cl, cs ++ [c], t) }).reserveParts id cores n
      | none => s

/-- Start every block of a gang whose parts are all reserved. -/
def State.startGang (s : State) (id : Nat) : State :=
  let l := s.launch id
  match l.resv with
  | none => s
  | some (_, cs, _) =>
    if cs.length < gangParts l || !s.ctxRoom l.part (l.gang * l.groups) then s else
    let k := partsOf l.groups
    let s := s.setLaunch id { l with resv := none, aged := false, next := l.next + l.gang,
                                     st := if Launch.count l ≤ l.next + l.gang then .placed else .active }
    (List.range l.gang).foldl (fun (s : State) j => s.startBlock id (l.next + j) ((cs.drop (j * k)).take k)) s

def State.placeGang (s : State) (p id : Nat) (cores : List Nat) : Option State :=
  let l := s.launch id
  let s1 := match l.resv with
    | some _ => s
    | none => match s.pickCluster p id (some (id, false)) cores with
      | some c => s.setLaunch id { l with resv := some (c, [], s.now) }
      | none => s
  let s2 := (s1.reserveParts id cores (gangParts l + 1)).startGang id
  if s2 == s then none else some s2

/-- Place one block or worker of a launch. -/
def State.placeOneOf (s : State) (p id : Nat) (cores : List Nat) : Option State :=
  let l := s.launch id
  let ok (c : Nat) : Bool := !s.shut c (s.launchPri l) none
  if l.gang != 0 then s.placeGang p id cores else
  if !s.ctxRoom p (if l.pool.isSome then 1 else l.groups) then none else
  match l.pool, l.tart with
  | some q, _ =>
    q.wants.findSome? fun w =>
      let (scratch, regs, acc) := q.resOf w
      let d : Demand := ⟨1, 8 * 2 ^ w, regs, spaceTotal l.race scratch acc, acc⟩
      (s.findCores p 1 cores ok fun _ c => s.fitsPart c d).map fun cs =>
        let t := s.startWorker id w (cs.headD 0)
        let l' := t.launch id
        t.setLaunch id { l' with st := match l'.pool with | some q => if q.wants.isEmpty then .placed else .active | none => .active }
  | none, some t =>
    (match readyBlocks l t with
      | [] => none
      | i :: _ => (s.findCores p (partsOf l.groups) cores ok fun j c => s.fitsPart c (s.demand l j)).map fun cs =>
        let placed := i :: l.placed
        (s.setLaunch id { l with placed := placed, st := if placed.length == Launch.count l then .placed else .active }).startBlock id i cs)
  | none, none =>
    (s.findCores p (partsOf l.groups) cores ok fun j c => s.fitsPart c (s.demand l j)).map fun cs =>
      (s.setLaunch id { l with next := l.next + 1, st := if l.next + 1 == Launch.count l then .placed else .active }).startBlock id l.next cs

/-- Do one job; a launch without a reservation has had its turn (R255, item 3). -/
def State.doJob (s : State) (p : Nat) (cores : List Nat) : Job → Option State
  | .restore bs =>
    let b := bs.headD 0
    if (s.launch (s.block b).launch).gang == 0 then s.restoreOne p cores b else s.placeBack p b cores
  | .launch id =>
    let l := s.launch id
    (s.placeOneOf p id cores).map fun t =>
      if l.resv.isSome then t else t.setPart p { t.part p with lastServed := put 15 (t.part p).lastServed (s.launchPri l) l.queue }

/-- The first job that can be done; a saved block that does not fit holds back new blocks of its priority and lower (R260). DEDUCED, log [104]. -/
def State.distribute (s : State) (p : Nat) (cores : List Nat) : Option State :=
  let rs := s.restoreJobs p
  match rs.findSome? fun j => s.doJob p cores j.2 with
  | some t => some t
  | none =>
    let floor := rs.foldl (fun m j => Max.max m (j.1 + 1)) 0
    ((s.launchJobs p).filter fun j => floor ≤ j.1).findSome? fun j => s.doJob p cores j.2

/-- BLOCK_PLACEMENT: the distributor places what R255 puts first; `cores` names the cores where it has a choice. -/
def execBlockPlacement (p : Nat) (cores : List Nat) (s : State) : Host.Outcome State Fault Refusal := .next ((s.distribute p cores).getD s)

/-- A gang that has held reservations on a cluster for 131,072 cycles is aged (R259). -/
def ageGang (cluster now : Nat) (l : Launch) : Launch :=
  { l with
    aged := l.aged || l.resv.any fun r => agedHold now cluster false r.1 r.2.2
    backAged := l.backAged || l.back.any fun r => agedHold now cluster false r.2.1 r.2.2.2 }

/-- GANG_AGES: gangs that have waited long enough shut their cluster. -/
def execGangAges (cluster : Nat) (s : State) : Host.Outcome State Fault Refusal :=
  .next { s with launches := mapVals (ageGang cluster s.now) s.launches }

/-! ### Retirement -/

/-- Groups of a block. -/
def State.blockGroups (s : State) (b : Nat) : List Nat := s.groupsWhere fun g => g.blk == b

/-- Every group has retired, its operations are performed, its copies have completed and no matrix command stands inside a step (15 R316, 08 R182,
R186). DEDUCED, log [82]. -/
def State.blockDone (s : State) (b : Nat) : Bool :=
  let k := s.block b
  k.present && (k.status == .running || k.status == .parked || k.status == .retiring) && !s.midStep b
    && (s.blockGroups b).all fun c => (s.group c).status == .retired && (s.group c).ops.all (·.done) && (s.group c).copies.isEmpty

/-- The 128-byte block record (22 R429). -/
def recordBytes (l : Launch) (k : Block) (cycles : Nat) : List Byte :=
  let reg (n : Nat) : Nat := (k.lastRegions.getD n 0).toNat
  let w := k.worker.isSome
  leBytes 1 (bit1 k.killed 1) ++ [0] ++ leBytes 2 k.ngroups ++ leBytes 4 l.seq.toNat
    ++ leBytes 2 (if w then 0 else k.x) ++ leBytes 2 (if w then 0 else k.y) ++ leBytes 2 (if w then 0 else k.z) ++ leBytes 2 0
    ++ leBytes 8 cycles ++ leBytes 4 k.preempts ++ leBytes 2 (reg 0) ++ leBytes 2 (reg 1)
    ++ leBytes 1 k.lastRegions.length ++ [0] ++ leBytes 2 k.races ++ leBytes 4 k.kind19 ++ leBytes 8 k.issuedSum.toNat
    ++ ((List.range 16).map fun r => leBytes 4 (get 0 k.stallSum r).toNat).flatten ++ List.replicate 16 0

/-- Block record of a block, if the launch asks for one. -/
def State.writeRecord (s : State) (b : Nat) : State :=
  let k := s.block b
  let l := s.launch k.launch
  if l.recbase == 0 then s else s.devWrite l.part (l.recbase + BitVec.ofNat 64 (128 * k.index)) (recordBytes l k (s.blockCycles k))

/-- Operations of groups of other blocks on scratchpad of some spaces are performed before it goes; one that cannot be has no effect any more. -/
def State.drainScratch (s : State) (b : Nat) (ids : List Nat) : State :=
  let on (o : Op) : Bool := !o.done && o.place == .scr && o.accs.any fun a => ids.contains a.obj
  (s.groupsWhere fun g => g.blk != b && g.ops.any on).foldl (fun s c =>
    let s := ((s.group c).ops.filter on).foldl (fun s o => s.performNeeded c o.id) s
    ((s.group c).ops.filter on).foldl (fun s o => s.setGroup c ((s.group c).finish o.id)) s) s

/-- The barrier of a scratchpad space at which a path has tried a `pbwait`. -/
def State.waitsAt (s : State) (ids : List Nat) (ctx slot : Nat) : Option SysF :=
  let u := { s with cur := (ctx, slot) }
  if !(u.g.path slot).tried || u.g.status != .run then none else
  match fetch u with
  | .instr (.pbwait f) =>
    if !u.groupPasses f.guard then none else
    (match u.scrAt u.g (u.skVal f.a.opnd) 8 with | some (sp, _) => if ids.contains sp then some f else none | none => none)
  | _ => none

/-- Groups of other blocks of the gang that wait at barriers of a block see what they have become before the scratchpad goes (10 R249, 20 R406). -/
def State.wakeWaiters (s : State) (b : Nat) (ids : List Nat) : State :=
  let k := s.block b
  let cs := s.groupsWhere fun g => g.blk != b && !g.saved && (s.block g.blk).launch == k.launch && (s.block g.blk).gang == k.gang
  (cs.map fun c => [(c, 0), (c, 1)]).flatten.foldl (fun s p =>
    match s.waitsAt ids p.1 p.2 with
    | none => s
    | some f => match execPbwait f { s with cur := p } with | .next t => { t with cur := s.cur } | _ => s) s

/-- Release what a block holds, in the order of 20 R406, once its write-backs are done: the barriers that its groups initialised are broken in one
step each (10 R247), whoever waits there in another block sees it, and the scratchpad goes. DESIGN CHOICE, log [75]. -/
def State.freeBlock (s : State) (b : Nat) : State :=
  let k := s.block b
  let s := k.pbars.foldl (fun s x => if (s.space x.1).present then s.pbPut x.1 x.2 0 (s.pbPend x.1 x.2) (s.pbPhase x.1 x.2) else s) s
  let ids := (s.spaces.filter fun e => e.2.present && e.2.blk == b).map (·.1)
  let s := if (s.launch k.launch).gang == 0 then s else (s.drainScratch b ids).wakeWaiters b ids
  let s := ids.foldl (fun (s : State) x => (s.freshSpace x {}).setSpace x {}) s
  let s := { s with groups := s.groups.filter fun e => !(e.2.present && e.2.blk == b) }
  s.setBlock b {}

/-- Write back the stash windows of a block; `none` while a write-back waits for its extent. -/
def State.flushBlock (s : State) (b : Nat) : State × Bool :=
  let t := (s.blockGroups b).foldl (fun (s : State) c => s.writeBackAll c true) s
  (t, (t.blockGroups b).all fun c => (t.group c).ops.all (·.done))

/-- The release of a retired block reaches the launch: its scoreboard bit, its count, the end (15 R316, R317, R254). -/
def State.countRetired (s : State) (lid idx : Nat) : State :=
  let l := s.launch lid
  let l := { l with retired := l.retired + 1 }
  match l.tart with
  | some t =>
    let t := { t with score := if t.score.contains idx then t.score else idx :: t.score }
    let s := s.setLaunch lid { l with tart := some t }
    let h := t.sbh + BitVec.ofNat 64 (idx / 8)
    let old := s.devRead l.part h 1
    let s := s.devWrite l.part h [BitVec.ofNat 8 (if old / 2 ^ (idx % 8) % 2 == 1 then old else old + 2 ^ (idx % 8))]
    if t.score.length == Launch.count l then s.finishLaunch lid else s
  | none =>
    let s := s.setLaunch lid l
    if l.retired == Launch.count l then s.finishLaunch lid else s

end Sys2Proof.Machine
end

