-- ==== Sys2Proof/Machine/Tasks.lean ====
section
/-! DEFINITION. Machine/Tasks.lean: task pools (15 R325 to R334): dequeue, ageing, records without workers, retirement and join cells,
full rings, the end of a pool; and the retirement of blocks (15 R316, 20 R406, R407). -/

namespace Sys2Proof.Machine

/-! ### Fault records (15 R333) -/

structure TaskFault where
  kind : Nat
  ctx : Nat
  what : DWord
  arg : DWord
  world : Nat
  region : Nat
deriving DecidableEq, Repr

def TaskFault.bytes (f : TaskFault) : List Byte :=
  leBytes 1 f.kind ++ [0, 0, 0] ++ leBytes 4 f.ctx ++ leBytes 8 f.what.toNat ++ leBytes 8 f.arg.toNat ++ leBytes 4 0
    ++ leBytes 2 f.world ++ leBytes 2 f.region

def State.taskFault (s : State) (lid : Nat) (f : TaskFault) : State :=
  let l := s.launch lid
  match l.pool with
  | none => s
  | some p =>
    let s := if p.fcount < 2 ^ p.logf then s.devWrite l.part (p.faults + BitVec.ofNat 64 (32 * p.fcount)) f.bytes else s
    s.setLaunch lid { l with pool := some { p with fcount := (p.fcount + 1) % 2 ^ 32 } }

/-! ### The sub-rings -/

/-- Indices of a sub-ring whose records wait, oldest first. -/
def Pool.waiting (p : Pool) (pri : Nat) : List Nat :=
  ((List.range (p.count pri)).map fun i => (p.head.getD pri 0 + i) % 2 ^ 32).filter fun i => !p.taken.contains (pri, i)

/-- HEAD moves over the records that have been taken; `n` bounds the moves. DEDUCED, log [20]. -/
def moveHead (pri : Nat) : Nat → Pool → Pool
  | 0, p => p
  | n + 1, p =>
    let h := p.head.getD pri 0
    if 0 < p.count pri && p.taken.contains (pri, h) then
      moveHead pri n { p with head := setAt p.head pri ((h + 1) % 2 ^ 32), taken := p.taken.filter (· != (pri, h)) }
    else p

/-- Take a record; a new head record begins to age (R326). DEDUCED, log [20]. -/
def Pool.take (p : Pool) (pri i now : Nat) : Pool :=
  let q := moveHead pri (p.count pri) { p with taken := (pri, i) :: p.taken }
  if q.head.getD pri 0 == p.head.getD pri 0 then q
  else { q with since := setAt q.since pri now, aged := setAt q.aged pri false }

/-- The oldest waiting record of a width code in a sub-ring. DEDUCED, log [20]. -/
def State.oldest (s : State) (part : Nat) (p : Pool) (pri w : Nat) : Option (Nat × List Word) :=
  ((p.waiting pri).map fun i => (i, s.ringRec part p pri i)).find? fun e => recW e.2 == w

/-- The head record of a sub-ring has stood there for 262,144 cycles (R326). -/
def Pool.agedHead (p : Pool) (pri now : Nat) : Bool := p.aged.getD pri false || p.since.getD pri 0 + 262144 ≤ now

/-- What an idle worker of a width code takes (R326): an aged head before any record of a higher priority, so the lowest aged one first,
else the highest priority. -/
def State.nextTask (s : State) (part : Nat) (p : Pool) (w : Nat) : Option (Nat × Nat × List Word) :=
  let agedHead := [0, 1, 2, 3].findSome? fun pri =>
    match s.oldest part p pri w with
    | some (i, r) => if p.agedHead pri s.now && i == p.head.getD pri 0 then some (pri, i, r) else none
    | none => none
  match agedHead with
  | some x => some x
  | none => [3, 2, 1, 0].findSome? fun pri => (s.oldest part p pri w).map fun e => (pri, e.1, e.2)

/-! ### Retirement of a task (R328) -/

/-- Room for a record in its sub-ring. -/
def State.hasRoom (s : State) (lid : Nat) (r : List Word) : Bool :=
  match (s.launch lid).pool with | some p => !p.full (recPri r) | none => true

/-- What the join cell of a SUCC handle gives: a fault kind, or the count that it holds. -/
def State.joinCount (s : State) (part : Nat) (h : DWord) : Except Nat Nat :=
  if h.toNat % 16 != 0 || !(s.part part).holds h 16 || s.devRead part (h + 4) 4 != 0 then .error 2 else .ok (s.devRead part h 4)

/-- The continuation record of a cell: none, a bad handle, or its words. -/
def State.contOf (s : State) (part : Nat) (h : DWord) : Option (Option (List Word)) :=
  let c : DWord := BitVec.ofNat 64 (s.devRead part (h + 8) 8)
  if c == 0 then none
  else if c.toNat % 64 != 0 || !(s.part part).holds c 64 then some none
  else some (some (wordsOf 16 (leBytes 64 (s.devRead part c 64))))

/-- A fault at a join cell. Of a record that the device took itself, with no worker, +4 is 0xFFFFFFFF (R333). DESIGN CHOICE, log [37]. -/
def Retire.fault (r : Retire) (kind : Nat) : TaskFault := ⟨kind, r.ctx, r.succ, r.arg, r.world, r.region⟩

/-- The step on the join cell: its count falls, or a fault is recorded; the record of CONT is to be enqueued when it reaches zero. -/
def State.joinStep (s : State) (lid : Nat) (r : Retire) : State × Retire :=
  let part := (s.launch lid).part
  let q := { r with succ := 0 }
  if r.succ == 0 then (s, q) else
  match s.joinCount part r.succ with
  | .error k => (s.taskFault lid (r.fault k), q)
  | .ok 0 => (s.taskFault lid (r.fault 1), q)
  | .ok (n + 1) =>
    let t := s.devWrite part r.succ (leBytes 4 n)
    if n != 0 then (t, q) else
    match s.contOf part r.succ with
    | none => (t, q)
    | some none => (t.taskFault lid (r.fault 2), q)
    | some (some c) => (t, { q with cont := some c })

/-- The continuation of `tcont` is enqueued, and takes the join cell over where it names none. -/
def State.retireK (s : State) (lid : Nat) (r : Retire) : State × Retire :=
  match r.k with
  | none => (s, r)
  | some k =>
    if !s.hasRoom lid k then (s, r)
    else if recSucc k == 0 then (s.enqueue lid (setSucc k r.succ), { r with k := none, succ := 0 })
    else (s.enqueue lid k, { r with k := none })

/-- A retirement goes on in the order of R328 until it stalls on a full sub-ring (R332); with nothing left OUTSTANDING falls. -/
def State.retireTask (s : State) (lid : Nat) (r : Retire) : State × Option Retire :=
  let (s, r) := s.retireK lid r
  if r.k.isSome then (s, some r) else
  let (s, r) := s.joinStep lid r
  if r.cont.any fun c => !s.hasRoom lid c then (s, some r) else
  let s := match r.cont with | some c => s.enqueue lid c | none => s
  let l := s.launch lid
  match l.pool with
  | some p => (s.setLaunch lid { l with pool := some { p with outst := p.outst - 1 } }, none)
  | none => (s, none)

/-- A retirement in progress waits for room. -/
def State.retireStalls (s : State) (lid : Nat) (r : Retire) : Bool :=
  match r.k with
  | some k => !s.hasRoom lid k
  | none => r.succ == 0 && r.cont.any fun c => !s.hasRoom lid c

/-- What is left of a retirement takes its place among those in progress. -/
def replaceRetire (l : List Retire) : Option Retire → Option Retire → List Retire
  | none, n => l ++ n.toList
  | some o, none => l.erase o
  | some o, some n => l.map fun x => if x == o then n else x
def State.keepRetire (s : State) (lid : Nat) (old new : Option Retire) : State :=
  let l := s.launch lid
  match l.pool with
  | some p => s.setLaunch lid { l with pool := some { p with retiring := replaceRetire p.retiring old new } }
  | none => s

/-! ### The end of a pool (R334) -/

/-- What the groups of a block have counted goes to its record; the regions are those of the worker's own group, if it still runs. -/
def State.absorbBlock (s : State) (b : Nat) : State :=
  let gs := (s.groups.filter fun e => e.2.present && e.2.blk == b).map (·.2)
  let k := gs.foldl (fun (k : Block) g => if g.status == .retired then k.absorbStalls g else k.absorb g) (s.block b)
  let main := s.group (k.groups.headD 0)
  s.setBlock b (if main.present && main.blk == b && main.status != .retired && main.status != .idle then { k with lastRegions := main.regions } else k)

/-- A worker's block leaves: its record is written and what it holds is released. -/
def State.dropWorker (s : State) (lid b : Nat) : State :=
  let s := ((s.flushBlock b).1.absorbBlock b).writeRecord b
  let s := s.freeBlock b
  let l := s.launch lid
  match l.pool with
  | some p => s.setLaunch lid { l with pool := some { p with workers := p.workers.filter (·.2 != b) } }
  | none => s

def State.dropWorkers (s : State) (lid : Nat) : State :=
  match (s.launch lid).pool with
  | some p => (p.workers.map (·.2)).foldl (fun s b => s.dropWorker lid b) s
  | none => s

/-- OUTSTANDING has reached 0: every worker exits and the launch ends. -/
def State.poolEnd (s : State) (lid : Nat) : State :=
  match (s.launch lid).pool with
  | some p => if p.outst == 0 then (s.dropWorkers lid).finishLaunch lid else s
  | none => s

/-! ### Dequeue (R325, R326) -/

/-- The kernel whose text holds a byte address: the last kernel that begins at or below it. DEDUCED, log [102]. -/
def Code.kernelAt (c : Code) (a : Nat) : Option Kernel :=
  if c.size ≤ a then none else
  (c.kernels.filter (·.entry ≤ a)).foldl (fun b k => match b with | some x => if x.entry ≤ k.entry then some k else b | none => some k) none

/-- Why a record cannot run: 3 record, 4 fit. DEDUCED, log [102]. -/
def recordFault (c : Code) (p : Pool) (r : List Word) : Option Nat :=
  if recWord r 1 != 0 || recEntry r % 64 != 0 then some 3 else
  match c.kernelAt (recEntry r) with
  | none => some 3
  | some k =>
    let (scratch, regs, acc) := p.resOf (recW r)
    if wcode k.width != recW r then some 3 else if regs < k.regs || scratch < k.scratch || acc < k.acc then some 4 else none

/-- A task begins on a worker (R325). DEDUCED, log [103]. Of code that declares Ulbel width 128 it is member 0 of a pair without a member 1.
DESIGN CHOICE, log [35]. -/
def State.startTask (s : State) (ctx : Nat) (r : List Word) (k : Kernel) : State :=
  let g := s.group ctx
  let l := s.launch g.launch
  let w := g.width
  let narrow := (s.code l.code).ulbel == some 4
  let b := s.block g.blk
  let x := s.space g.space
  let s := s.freshSpace g.space { x with ring := [], shadow := [] }
  let regs := r.zipIdx.foldl (fun m e => put 0 m e.2 e.1) (argRegs l.args k)
  let tids := (List.range w).foldl (fun m i => put 0 m i (BitVec.ofNat 32 i)) []
  let g' := { idleGroup g k.regs s.now with
    status := .run, stack := [{ pc := pcOfAddr (recEntry r), mask := if narrow then 0xF else fullMask w, rcv := noRcv }],
    exited := if narrow then 0xF0 else 0, narrow := narrow, pair := if (s.code l.code).ulbel == some 128 then some 0 else none,
    s := regs, tid := tids, key := keysOf (fold64 l.seed) w id }
  let s := s.setBlock g.blk { (b.absorbStalls g) with
    task := some { words := r }, x := recWord r 4 % 65536, y := recWord r 4 / 65536, z := recWord r 5 % 65536, gen := 0, pbars := [] }
  (s.enter ctx g').acquireAll g.core

/-- A record that runs nothing: its fault is recorded and its task retires at once (R326, R327). -/
def State.failTask (s : State) (lid kind ctx : Nat) (r : List Word) : State :=
  let e : DWord := BitVec.ofNat 64 (recEntry r + recWord r 1 * 2 ^ 32)
  let (t, left) := (s.taskFault lid ⟨kind, ctx, e, recArg r, 0, 0⟩).retireTask lid
    { ctx := ctx, arg := recArg r, world := 0, region := 0, k := none, succ := recSucc r }
  (t.keepRetire lid none left).poolEnd lid

/-- A retirement that has stalled goes on. -/
def State.resumeRetire (s : State) (lid : Nat) (r : Retire) : State :=
  let (t, left) := s.retireTask lid r
  (t.keepRetire lid (some r) left).poolEnd lid

/-- Take a record for an idle worker: the task starts, or fails and retires. `none` where none waits. A worker that a failing record keeps in
its retirement goes on with that first. -/
def State.dequeue (s : State) (ctx : Nat) : Option State :=
  let g := s.group ctx
  let l := s.launch g.launch
  match l.pool with
  | none => none
  | some p =>
    match p.retireOf (ctx % 65536) with
    | some r => if s.retireStalls g.launch r then none else some (s.resumeRetire g.launch r)
    | none =>
    match s.nextTask l.part p (wcode g.width) with
    | none => none
    | some (pri, i, r) =>
      let t := s.setLaunch g.launch { l with pool := some (p.take pri i s.now) }
      let c := s.code l.code
      match recordFault c p r, c.kernelAt (recEntry r) with
      | none, some k => some (t.startTask ctx r k)
      | f, _ => some (t.failTask g.launch (f.getD 3) (ctx % 65536) r)

/-- TASK_DEQUEUE: an idle worker of a running pool takes the next record of its width. -/
def execTaskDequeue (ctx : Nat) (s : State) : Host.Outcome State Fault Refusal :=
  .next (let g := s.group ctx
    if g.present && g.status == .idle && !g.saved && s.clocked g.core && (s.block g.blk).status == .running && !s.suspendedLaunch g.launch then
      (s.dequeue ctx).getD s
    else s)

/-- TASK_RECORD_AGES: a record has stood at the head of its sub-ring for 262,144 cycles (R326). -/
def execTaskRecordAges (launch pri : Nat) (s : State) : Host.Outcome State Fault Refusal :=
  .next (let l := s.launch launch
    match l.pool with
    | some p =>
      if pri < 4 && 0 < p.count pri && p.since.getD pri 0 + 262144 ≤ s.now then
        s.setLaunch launch { l with pool := some { p with aged := setAt p.aged pri true } }
      else s
    | none => s)

/-- The oldest record of a sub-ring for whose width the pool has no worker (R327). -/
def State.noWorkerRec (s : State) (part : Nat) (p : Pool) (pri : Nat) : Option (Nat × List Word) :=
  ((List.range 4).filter fun w => p.wcount.getD w 0 == 0).findSome? fun w => s.oldest part p pri w

/-- A retirement of a record that the device took itself which can go on (R327, R332). -/
def State.deviceRetire (s : State) (lid : Nat) (p : Pool) : Option Retire := p.retiring.find? fun r => r.ctx == 0xFFFFFFFF && !s.retireStalls lid r

/-- NO_WORKER_TAKE: the device takes a record for whose width the pool has no worker, or goes on with the retirement of one (R327). -/
def execNoWorkerTake (launch pri : Nat) (s : State) : Host.Outcome State Fault Refusal :=
  .next (let l := s.launch launch
    match l.pool with
    | none => s
    | some p =>
      if !(l.st == .active || l.st == .placed) || s.suspendedLaunch launch || 4 ≤ pri then s else
      match s.deviceRetire launch p with
      | some r => s.resumeRetire launch r
      | none =>
      match s.noWorkerRec l.part p pri with
      | none => s
      | some (i, r) => (s.setLaunch launch { l with pool := some (p.take pri i s.now) }).failTask launch 6 0xFFFFFFFF r)

/-! ### Retirement of tasks and blocks -/

/-- The task of a group has ended: its group has retired and what it issued is done. -/
def State.taskDone (s : State) (b : Nat) : Bool := s.blockDone b && (s.block b).task.isSome

/-- The world id that a fault record of a group carries: 12 bits, without the depth (01 R24). -/
def Group.worldId (g : Group) : Nat := if g.world == 0 then 0 else g.world % 4096

/-- The retirement of the task of a block as it stands: what is left of one in progress, or a new one. -/
def State.retireOf (s : State) (b : Nat) (ctx : Nat) (t : Task) (world : Nat) : Retire :=
  let k := s.block b
  (((s.launch k.launch).pool.bind fun p => p.retireOf (ctx % 65536))).getD
    { ctx := ctx % 65536, arg := recArg t.words, world := world, region := (k.lastRegions.headD 0).toNat, k := t.cont, succ := recSucc t.words }

/-- The retirement of a finished task; its worker is idle again once it is complete. DEDUCED, log [103]. -/
def State.finishTask (s : State) (ctx : Nat) : State :=
  let g := s.group ctx
  let b := s.block g.blk
  match b.task with
  | none => s
  | some t =>
    let (s, done) := s.flushBlock g.blk
    if !done then s else
    let old := (s.launch g.launch).pool.bind fun p => p.retireOf (ctx % 65536)
    let (s, left) := s.retireTask g.launch (s.retireOf g.blk ctx t g.worldId)
    let s := s.keepRetire g.launch old left
    if left.isSome then s else
    let s := s.setBlock g.blk ((s.block g.blk).absorbStalls (s.group ctx))
    let regs := match (s.launch g.launch).pool with | some p => (p.resOf (wcode g.width)).2.1 | none => g.peak
    let s := { s with groups := s.groups.filter fun e => !(e.2.present && e.2.blk == g.blk && e.1 != ctx) }
    let s := s.setSpace g.space { s.space g.space with ring := [] }
    let s := s.setGroup ctx (idleGroup g regs s.now)
    let s := s.setBlock g.blk { s.block g.blk with task := none }
    s.poolEnd g.launch

/-- TASK_RETIREMENT: the task of a worker retires, as far as its sub-rings have room (R328, R332). -/
def execTaskRetirement (ctx : Nat) (s : State) : Host.Outcome State Fault Refusal :=
  .next (let g := s.group ctx
    let b := s.block g.blk
    if g.present && s.clocked g.core && b.worker.isSome && b.groups.contains ctx && b.status != .retiring && s.taskDone g.blk then s.finishTask ctx else s)

/-- A killed worker's task retires and the worker is dropped, to be placed again (20 R407). -/
def State.retireWorker (s : State) (b : Nat) : State :=
  let k := s.block b
  let ctx := k.groups.headD 0
  let old := (s.launch k.launch).pool.bind fun p => p.retireOf (ctx % 65536)
  let (t, left) := match k.task with
    | some t => s.retireTask k.launch (s.retireOf b ctx t 0)
    | none => (s, none)
  let t := t.keepRetire k.launch old left
  if left.isSome then t else (t.dropWorker k.launch b).poolEnd k.launch

/-- BLOCK_RETIREMENT: a block of which everything has ended releases what it holds and retires. -/
def execBlockRetirement (b : Nat) (s : State) : Host.Outcome State Fault Refusal :=
  .next (if !s.blockDone b then s else
    let k := s.block b
    let (t, done) := s.flushBlock b
    if !done then t
    else if k.worker.isSome then (if k.status == .retiring then t.retireWorker b else s)
    else ((t.writeRecord b).freeBlock b).countRetired k.launch k.index)

/-! ### Full rings (R332) -/

/-- A queue register that an operand reads holds a word. -/
def Group.hasWord (g : Group) (a : Src) : Bool := match a.opnd with | .q q => !(g.queue q).isEmpty | _ => true

/-- An instruction that is stalled under reason 10 stands before a full sub-ring: it enqueues a record, and what it reads is there. -/
def stuckOn (p : Pool) (g : Group) (i : Instr) : Bool :=
  let staged := g.staged.length == 15 && p.full (recPri g.staged)
  match i with
  | .tspawn f => p.full (recPri (recWords g f.a.opnd))
  | .qpush f => f.q == 2 && staged && g.hasWord f.a
  | .mov f | .add f | .sub f | .mul f | .mulhi f | .mad f | .min f | .max f | .and f | .or f | .xor f | .shl f | .shr f | .sra f | .rot f
  | .bfx f | .bfi f | .popc f | .clz f | .brev f | .sel f | .div f | .rem f | .prm f | .lop f | .fadd f | .fsub f | .fmul f | .ffma f
  | .fmin f | .fmax f | .fdiv f | .frcp f | .fsqrt f | .frsq f | .fexp2 f | .flog2 f | .ftanh f | .fclass f | .fldexp f | .frnd f
  | .cvt f | .pack f | .unpack f | .quant f | .scl f | .dot f | .shfl f | .qxch f | .sget f =>
    f.dst == .q .qk && staged && g.hasWord f.a && g.hasWord f.b && g.hasWord f.c
  | _ => false

/-- Every path of a group has stalled on a full sub-ring, or its committed log has; a launcher waits for its iterations. -/
def State.groupStuck (s : State) (p : Pool) (ctx : Nat) : Bool :=
  let g := s.group ctx
  match g.replay with
  | .spawn r :: _ => g.replayFree && g.relWait.isNone && p.full (recPri r)
  | _ =>
    g.status == .run && !g.stack.isEmpty && (List.range (slotsUsed g.stack)).all fun slot =>
      canIssue s ctx slot && (g.path slot).stall == 10
        && (match fetch { s with cur := (ctx, slot) } with | .instr i => stuckOn p g i | .stop _ => false)

/-- A worker is stalled on a full sub-ring: in every group of its task that could go on, or in the retirement of a task (R332). -/
def State.workerStuck (s : State) (lid : Nat) (p : Pool) (b : Nat) : Bool :=
  let cs := s.groupsWhere fun g => g.blk == b && g.status != GStat.retired
  match p.retireOf ((s.block b).groups.headD 0 % 65536) with
  | some r => s.retireStalls lid r
  | none => (cs.any fun c => s.groupStuck p c) && cs.all fun c => s.groupStuck p c || (s.group c).status == .suspended

/-- Write back the stash windows of some blocks. -/
def State.flushBlocks (s : State) : List Nat → State × Bool
  | [] => (s, true)
  | b :: r =>
    let (t, x) := s.flushBlock b
    let (u, y) := t.flushBlocks r
    (u, x && y)

/-- RING_FULL: every worker of the pool has been placed and is stalled on a full sub-ring or idle without a record, and the device has no
record to take and no retirement that could go on; the launch ends with RINGFULL once what the workers hold is released. The one record of R332
carries the context index, ARG, world and region of the first stalled worker in the order of placement. DESIGN CHOICE, log [36]. -/
def execRingFull (launch : Nat) (s : State) : Host.Outcome State Fault Refusal :=
  .next (let l := s.launch launch
    match l.pool with
    | none => s
    | some p =>
      let bs := p.workers.map (·.2)
      let idle (b : Nat) : Bool := let g := s.group ((s.block b).groups.headD 0)
        g.status == .idle && (p.retireOf ((s.block b).groups.headD 0 % 65536)).isNone
          && (List.range 4).all fun pri => (s.oldest l.part p pri (wcode g.width)).isNone
      if !p.wants.isEmpty || (s.deviceRetire launch p).isSome || (List.range 4).any (fun pri => (s.noWorkerRec l.part p pri).isSome) then s else
      match bs.find? (s.workerStuck launch p) with
      | none => s
      | some b =>
        if !bs.all (fun b => idle b || s.workerStuck launch p b) then s else
        let (s, done) := s.flushBlocks bs
        if !done || bs.any s.midStep then s else
        let ctx := (s.block b).groups.headD 0
        let arg := match p.retireOf (ctx % 65536), (s.block b).task with | some r, _ => r.arg | none, some t => recArg t.words | none, none => 0
        let g := s.group ctx
        let t := s.taskFault launch ⟨5, ctx % 65536, p.ring, arg, g.worldId, g.topRegion.toNat⟩
        (t.dropWorkers launch).endLaunch launch 4 l.seq.toNat)

end Sys2Proof.Machine
end

