-- ==== Sys2Proof/Machine/Load.lean ====
section
/-! DEFINITION. Machine/Load.lean: code objects (23 R444, R445, R453, R454) and the portable form (23 R446, R447). -/

namespace Sys2Proof.Machine

/-- Field of `n` bytes at an offset, little-endian. -/
def fld (b : List Byte) (off n : Nat) : Nat := leNat ((b.drop off).take n)
def zeros (b : List Byte) (off n : Nat) : Bool := fld b off n == 0

/-! ### Sections (R444) -/

structure Section where
  typ : Nat
  off : Nat
  size : Nat
  aux : Nat
deriving DecidableEq, Repr

def sectionAt (b : List Byte) (i : Nat) : Section :=
  let a := 32 + 16 * i
  ⟨fld b a 2, fld b (a + 4) 4, fld b (a + 8) 4, fld b (a + 12) 4⟩

def sectionsOf (b : List Byte) : List Section := (List.range (fld b 6 2)).map (sectionAt b)
def Section.bytes (x : Section) (b : List Byte) : List Byte := (b.drop x.off).take x.size
def findSec (l : List Section) (t : Nat) : Option Section := l.find? (·.typ == t)
def secBytes (l : List Section) (b : List Byte) (t : Nat) : List Byte := match findSec l t with | some x => x.bytes b | none => []

/-- The 32-byte record of kernel i. -/
def kernelAt (b : List Byte) (i : Nat) : Kernel :=
  let a := 32 * i
  ⟨fld b a 4, 8 * 2 ^ fld b (a + 4) 1, fld b (a + 6) 2, fld b (a + 8) 4, fld b (a + 12) 1, []⟩
def kernelOk (b : List Byte) (i : Nat) : Bool :=
  let a := 32 * i
  fld b (a + 4) 1 ≤ 3 && zeros b (a + 5) 1 && zeros b (a + 13) 3 && zeros b (a + 20) 12

/-- The constant segment is laid out as R453 gives. -/
def constOk (b : List Byte) : Bool :=
  let nyt := fld b 0 4
  let koff := fld b 4 4
  let poff := fld b 8 4
  let np := fld b 12 4
  let idx := (List.range np).map fun i => fld b (poff + 8 * i) 1
  koff == 0x40 + 72 * nyt && poff == koff + 512 && b.length == poff + 8 * np && zeros b 16 48
    && (List.range np).all (fun i => fld b (poff + 8 * i) 1 ≤ 127 && zeros b (poff + 8 * i + 1) 1 && zeros b (poff + 8 * i + 4) 4)
    && idx.Nodup

/-- A portable section: whole words, and behind them a list of indices of words (R446). -/
def ulbelOk (d : List Byte) : Bool :=
  let n := Config.ulbelWords d
  12 * n ≤ d.length && (d.length - 12 * n) % 4 == 0 && (List.range ((d.length - 12 * n) / 4)).all fun i => fld d (12 * n + 4 * i) 4 < n

/-- Native lines that all carry COLD = 1 (02 R36, R41). -/
def coldOk (d : List Byte) : Bool := d.length % 64 == 0 && (List.range (d.length / 64)).all fun i => fld d (64 * i + 60) 4 / 2 ^ 14 % 2 == 1

/-- A section's own layout. DESIGN CHOICE, log [50]: that of TYPE 7 to 9 is not given. -/
def sectionOk (b : List Byte) (x : Section) : Bool :=
  let d := x.bytes b
  x.off + x.size ≤ b.length && (match x.typ with
    | 1 => x.size == 32 * x.aux && (List.range x.aux).all (kernelOk d)
    | 2 => x.size == 8 * x.aux && (List.range x.aux).all fun i => zeros d (8 * i + 2) 2
    | 3 => x.aux == 0 && constOk d
    | 4 => x.aux == 0 && x.size % 64 == 0
    | 5 => coldOk d
    | 6 => ulbelOk d
    | 7 => Config.layoutOk 7 d x.aux
    | 8 => Config.layoutOk 8 d x.aux
    | 9 => Config.layoutOk 9 d x.aux
    | _ => false)

/-- Header, table and sections are legal. -/
def objectOk (b : List Byte) : Bool :=
  let l := sectionsOf b
  32 ≤ b.length && fld b 0 4 == 0x4C554853 && fld b 4 2 == 1 && zeros b 12 20 && 32 + 16 * fld b 6 2 ≤ b.length
    && (List.range (fld b 6 2)).all (fun i => zeros b (32 + 16 * i + 2) 2) && l.all (sectionOk b) && (l.map (·.typ)).Nodup

/-! ### Requirements and constants (R445, R453) -/

/-- The first `.cap` that the registry does not meet: its key. DEDUCED, log [101]: key 0x0031 meets none. -/
def State.unmet (s : State) (d : List Byte) : Option Nat :=
  ((List.range (d.length / 8)).map fun i => (fld d (8 * i) 2, fld d (8 * i + 4) 4)).findSome? fun e =>
    if s.registry none e.1 == some e.2 then none else some e.1

def patches (d : List Byte) : List (Nat × Nat) :=
  (List.range (fld d 12 4)).map fun i => (fld d (fld d 8 4 + 8 * i) 1, fld d (fld d 8 4 + 8 * i + 2) 2)

/-- A patch names a key of the registry that lacks BIND. -/
def State.unbindable (s : State) (d : List Byte) : Option Nat :=
  (patches d).findSome? fun e => if (s.registry (some 0) e.2).isSome && !bindKeys.contains e.2 then some e.2 else none

/-- `k0` to `k127`: the constant table, and over it the patches; an unknown key binds 0. -/
def State.constants (s : State) (d : List Byte) : SMap Word :=
  if d.isEmpty then [] else
  let t := (List.range 128).foldl (fun m i => put 0 m i (BitVec.ofNat 32 (fld d (fld d 4 4 + 4 * i) 4))) ([] : SMap Word)
  (patches d).foldl (fun m e => put 0 m e.1 (BitVec.ofNat 32 ((s.registry none e.2).getD 0))) t

/-! ### Translation of the portable form (R446) -/

def bits96 (w lo n : Nat) : Nat := w / 2 ^ lo % 2 ^ n
def setBits (w lo n x : Nat) : Nat := w - bits96 w lo n * 2 ^ lo + x % 2 ^ n * 2 ^ lo

def isB (w : Nat) : Bool := bits96 w 8 3 == 3
/-- `bra` and `call` have a direct target. -/
def isDirect (w : Nat) : Bool := isB w && (bits96 w 0 8 == 0 || bits96 w 0 8 == 3)
def isCall (w : Nat) : Bool := isB w && (bits96 w 0 8 == 3 || bits96 w 0 8 == 4)
/-- A branch that uses RCV (03 R72). -/
def usesRcv (w : Nat) : Bool :=
  isB w && bits96 w 0 8 ≤ 2 && ((bits96 w 16 1 == 0 && bits96 w 11 4 != 15) || (bits96 w 0 8 != 0 && bits96 w 25 2 == 0))

/-- A portable word as the decoder checks it: slots of its word indices cleared. -/
def checkable (w : Nat) : Nat :=
  let w := if isDirect w then setBits w 30 27 0 else w
  if usesRcv w then setBits w 57 27 0 else w

def wordAt (d : List Byte) (i : Nat) : Nat := fld d (12 * i) 12

/-- The first word that is illegal under R59. -/
def firstIllegal (d : List Byte) (n : Nat) : Option Nat :=
  (List.range n).find? fun i => match decode (BitVec.ofNat 96 (checkable (wordAt d i))) with | .instr _ => false | .illegal _ => true

/-- Relocated words: indices of the list behind the words. -/
def relocsOf (d : List Byte) (n : Nat) : List Nat := (List.range ((d.length - 12 * n) / 4)).map fun i => fld d (12 * n + 4 * i) 4

/-- Words that stand at slot 0. DESIGN CHOICE, log [52]. -/
def slotZero (d : List Byte) (n : Nat) (named : List Nat) (i : Nat) : Bool := i == 0 || named.contains i || (n != 0 && isCall (wordAt d (i - 1)))

/-- Slot numbers of the words, five to a line, with `nop` before one that must stand at slot 0. DESIGN CHOICE, log [52]. -/
def placeWords (zero : Nat → Bool) : Nat → Nat → Nat → List Nat
  | 0, _, _ => []
  | n + 1, i, pos =>
    let p := if zero i then (pos + 4) / 5 * 5 else pos
    p :: placeWords zero n (i + 1) (p + 1)

/-- The place of a word; an index past the last word gets the first slot past the text, where every use of it traps (02 R39, R57). DESIGN CHOICE,
log [52]. -/
def posOf (pos : List Nat) (i : Nat) : Nat := pos.getD i ((pos.getLastD 0 / 5 + 1) * 5)
def addrOfPos (p : Nat) : Nat := p / 5 * 64 + p % 5 * 12

/-- TGT or RCV of a branch at `p` to `t`: line delta and slot. -/
def branchField (p t : Nat) : Nat := wrap 24 ((t / 5 : Nat) - (p / 5 : Nat) : Int) * 8 + t % 5

/-- A word with its indices rewritten. -/
def nativeWord (d : List Byte) (pos relocs : List Nat) (i : Nat) : Nat :=
  let w := wordAt d i
  let p := pos.getD i 0
  let w' := if isDirect w then setBits w 30 27 (branchField p (posOf pos (bits96 w 30 27))) else w
  let w'' := if usesRcv w then setBits w' 57 27 (branchField p (posOf pos (bits96 w 57 27))) else w'
  if relocs.contains i then setBits w'' (if bits96 w 8 3 == 6 then 48 else 44) 32 (addrOfPos (posOf pos (bits96 w (if bits96 w 8 3 == 6 then 48 else 44) 32)))
  else w''

/-- The bytes of a line from its five slots and target mask (02 R36, R37). -/
def makeLine (slots : List Nat) (mask : Nat) : List Byte :=
  let body := (List.range 5).foldl (fun x k => x + slots.getD k 0 % 2 ^ 96 * 2 ^ (96 * k)) 0
  let lw := mask % 32 + (List.range 5).foldl (fun x k => x + bit1 (oddParity 96 (slots.getD k 0)) (2 ^ (5 + k))) 0
  leBytes 64 (body + (lw + bit1 (oddParity 31 lw) (2 ^ 31)) * 2 ^ 480)

structure Translated where
  text : List Byte
  /-- slot number of each word -/
  pos : List Nat
deriving DecidableEq, Repr

/-- Lines from the words, in their order (log [52], DESIGN CHOICE). -/
def translateWords (d : List Byte) (n : Nat) (named : List Nat) : Translated :=
  let relocs := relocsOf d n
  let targets := relocs.map fun i => let w := wordAt d i; bits96 w (if bits96 w 8 3 == 6 then 48 else 44) 32
  let pos := placeWords (slotZero d n (named ++ targets)) n 0 0
  let lines := (pos.getLastD 0) / 5 + 1
  let placed := (List.range n).map fun i => (pos.getD i 0, nativeWord d pos relocs i)
  let direct := ((List.range n).filter fun i => isDirect (wordAt d i)).map fun i => posOf pos (bits96 (wordAt d i) 30 27)
  let line (l : Nat) : List Byte :=
    makeLine ((List.range 5).map fun k => match placed.find? (·.1 == 5 * l + k) with | some e => e.2 | none => 0)
      ((List.range 5).foldl (fun x k => x + bit1 (direct.contains (5 * l + k)) (2 ^ k)) 0)
  ⟨((List.range lines).map line).flatten, pos⟩

/-! ### Declared widths (R447) -/

/-- The native width of a declared one, `none` where LOAD ends with WIDTH. -/
def nativeWidth (w : Nat) : Option Nat :=
  match w with
  | 0 => some 32
  | 4 => some 8
  | 8 => some 8
  | 16 => some 16
  | 32 => some 32
  | 64 => some 64
  | 128 => some 64
  | _ => none

/-- An operation that a paired kernel may not hold: cross-lane but for `qxch`, `reorder`, format E and format T. -/
def unpairable (w : Nat) : Bool :=
  match decode (BitVec.ofNat 96 (checkable w)) with
  | .instr i => (match i with
    | .shfl _ | .vote _ | .gred _ | .gscan _ | .rdlane _ | .reorder _ => true
    | _ => bits96 w 8 3 == 4 || bits96 w 8 3 == 6)
  | .illegal _ => false

/-! ### LOAD (R445) -/

/-- Native text. DEDUCED, log [116]: a kernel entry that is not slot 0 of a line (02 R58) ends LOAD with FORMAT. -/
def nativeCode (c : Code) : Except (Nat × Nat) Code := if c.kernels.all fun k => k.entry % 64 == 0 then .ok c else .error (12, 0)

/-- A constant segment whose yield tables hold addresses where the portable one holds word indices (R446, 13 R288). DESIGN CHOICE, log [52]. -/
def nativeSeg (pos : List Nat) (seg : SMap Byte) : SMap Byte :=
  (List.range (rdN seg 0 4)).foldl (fun m t => wrN m (0x40 + 72 * t) 4 (addrOfPos (posOf pos (rdN seg (0x40 + 72 * t) 4)))) seg

/-- The translation of a portable section of a declared width (R446, R447). -/
def portableCode (base : Code) (d : List Byte) (aux : Nat) : Except (Nat × Nat) Code :=
  let n := Config.ulbelWords d
  match nativeWidth aux, firstIllegal d n with
  | none, _ => .error (10, 0)
  | _, some i => .error (12, i)
  | some w, none =>
    if aux == 128 && (List.range n).any (fun i => unpairable (wordAt d i)) then .error (10, 0) else
    let tr := translateWords d n (base.kernels.map (·.entry) ++ base.tables.flatten)
    let at_ (i : Nat) : Nat := addrOfPos (posOf tr.pos i)
    .ok { base with
      text := wrBytes [] 0 tr.text
      hot := tr.text.length
      size := tr.text.length
      kernels := base.kernels.map fun k => { k with entry := at_ k.entry, width := w }
      tables := base.tables.map fun t => t.map at_
      seg := nativeSeg tr.pos base.seg
      ulbel := some aux }

/-- A code object as LOAD places it, or a status and its detail: requirements, then text, then constants (R445). DESIGN CHOICE, log [50]. -/
def State.readCode (s : State) (part : Nat) (b : List Byte) (dst : DWord) : Except (Nat × Nat) Code :=
  let l := sectionsOf b
  let sec := secBytes l b
  if !objectOk b then .error (12, 0) else
  match s.unmet (sec 2) with
  | some k => .error (9, k)
  | none =>
    let kerns := (List.range ((sec 1).length / 32)).map fun i => { kernelAt (sec 1) i with objects := Config.objects (sec 9) dst i }
    let tabs := match findSec l 7 with | some x => Config.tables (x.bytes b) x.aux | none => []
    let base : Code := { present := true, part := part, seg := wrBytes [] 0 (sec 3), segSize := (sec 3).length, k := s.constants (sec 3),
                         kernels := kerns, tables := tabs, coldObj := match findSec l 5 with | some x => x.aux | none => 0 }
    let t := sec 4 ++ sec 5
    match (if fld b 8 4 == 9 && (findSec l 4).isSome then
        nativeCode { base with text := wrBytes [] 0 t, hot := (sec 4).length, size := t.length }
      else match findSec l 6 with | none => .error (12, 0) | some x => portableCode base (x.bytes b) x.aux) with
    | .error e => .error e
    | .ok c => match s.unbindable (sec 3) with | some k => .error (9, k) | none => .ok c

end Sys2Proof.Machine
end

