-- ==== Sys2Proof/Machine/Update.lean ====
section
/-! DEFINITION. Machine/Update.lean: object table entries and extent descriptors as software writes them (17 R344 to R347), the moves
of an extent between its states (17 R351), and the parked requests that they perform (09 R201, R202). -/

namespace Sys2Proof.Machine

/-! ### Layouts (17 R345, R346) -/

def extNum : ExtSt → Nat | .resident => 0 | .leaving => 1 | .away => 2 | .returning => 3
def extOfNum (n : Nat) : ExtSt := if n == 0 then .resident else if n == 1 then .leaving else if n == 2 then .away else .returning

/-- The descriptor of 16 bytes. -/
def readExt (b : List Byte) : Ext :=
  let w := fld b 0 8
  { st := extOfNum (w / 2 ^ 62), first := w / 65536 % 2 ^ 24, nm1 := w % 65536, loc := fld b 8 8 }

/-- HBM frames of a device partition (17 R354): the first, and the one after the last. -/
def State.frames (s : State) (p : Nat) : Nat × Nat :=
  let n := Config.hbmStacks / s.npart
  (n * p * Config.framesPerStack, n * (p + 1) * Config.framesPerStack)

/-- A descriptor is legal for an object of a kind in a partition. -/
def State.extOk (s : State) (p : Nat) (host : Bool) (b : List Byte) : Bool :=
  let x := readExt b
  let (lo, hi) := s.frames p
  fld b 0 8 / 2 ^ 40 % 2 ^ 22 == 0
    && (x.st == .away || x.st == .returning
      || (if host then x.loc % 65536 == 0 else x.loc < 2 ^ 23 && lo ≤ x.loc && x.loc + x.nm1 < hi))

/-- Sorted by first page, without overlap. -/
def extsSorted : List Ext → Bool
  | [] => true
  | [_] => true
  | a :: b :: r => a.first + a.nm1 < b.first && extsSorted (b :: r)

/-- Kind, permissions, endpoint and the reserved bytes of an entry are legal. -/
def entryHead (b : List Byte) : Bool :=
  fld b 1 1 ≤ 1 && fld b 2 1 < 32 && zeros b 3 1 && (fld b 1 1 == 1 || zeros b 4 2) && zeros b 6 2 && zeros b 26 6

/-- The fields of an entry are legal (R345). -/
def State.entryOk (s : State) (p : Nat) (b : List Byte) : Bool :=
  let size := fld b 8 8
  let xl := fld b 16 8
  let n := fld b 24 2
  let (lo, hi) := s.frames p
  entryHead b && size % 65536 == 0 && 65536 ≤ size && size ≤ 2 ^ 40 && xl % 16 == 0 && 1 ≤ n && lo * 65536 ≤ xl && xl + 16 * n ≤ hi * 65536

/-- Bytes of the partition's own memory as its device reads them: DIRTY stash lines over them are recalled, and committed view lines serve
them (18 R373). -/
def State.memSee (s : State) (p a n : Nat) : List Byte :=
  let lines := (List.range ((a + n + 63) / 64 - a / 64)).map (a / 64 + ·)
  let s := ((lines.map fun l => (s.part p).owners l).flatten).foldl (fun s o => s.recall p 0 o.1 o.2 64 false) s
  (List.range n).map fun i => s.seeByte 0 ⟨false, a + i⟩

/-- The object of a live entry, with its extent list as memory holds it. -/
def State.readObj (s : State) (p : Nat) (b : List Byte) : Option Obj :=
  let host := fld b 1 1 == 1
  let xl := fld b 16 8
  let n := fld b 24 2
  if !s.entryOk p b then none else
  let bytes := s.memSee p xl (16 * n)
  let ds := (List.range n).map fun i => (bytes.drop (16 * i)).take 16
  let o : Obj := { live := true, host := host, perm := fld b 2 1, endpoint := fld b 4 2, size := fld b 8 8, xlist := xl, exts := ds.map readExt }
  if ds.all (s.extOk p host) && extsSorted o.exts then some o else none

/-! ### What moves with an extent

View lines and L1 copies are kept by place. While an extent has no place, its view lines stand at a key that no place has. -/

/-- A view line after an object has changed from `old`; those of an object that is gone go with it. DEDUCED, log [95]. -/
def moveView (old : Obj) (p : Part) (part obj : Nat) (v : View) : Option View :=
  match offOfLine old part obj v.remote v.line with
  | none => some v
  | some off =>
    if !(p.obj obj).live then none else
    match placeOf p obj off with
    | some q => some { v with line := q.addr / 64, remote := q.remote }
    | none => some { v with line := limbo part obj off / 64 }

/-- Install an object: the view lines follow it, L1 copies of its old and new places end, a destroyed object's bindings go (10 R223).
The stamps of SC accesses stay with the places (log [73], DESIGN CHOICE). DEDUCED, log [63]. -/
def State.setObject (s : State) (part obj : Nat) (o : Obj) : State :=
  let old := (s.part part).obj obj
  let p := (s.part part).setObj obj o
  let p := if o.live then p else { p with binds := p.binds.filter fun b => b.obj != obj }
  let hit (l : Nat) : Bool := (offOfLine old part obj false l).isSome || (offOfLine o part obj false l).isSome
  { s.setPart part p with
    views := s.views.filterMap (moveView old p part obj)
    l1 := s.l1.filter fun x => !hit x.line }.gcTags

/-! ### Requests in flight and parked requests -/

/-- An operation touches pages of an object. -/
def Op.touches (o : Op) (obj first nm1 : Nat) : Bool :=
  (o.place == .dev || o.place == .stash) && o.accs.any fun a =>
    !a.clipped && a.obj == obj && first ≤ ((o.span a).1 + (o.span a).2 - 1) / 65536 && (o.span a).1 / 65536 ≤ first + nm1

/-- Hold at the memory side what an operation does in some pages of an object. -/
def State.parkOp (s : State) (ctx : Nat) (o : Op) (obj first nm1 : Nat) : State :=
  let g := s.group ctx
  let hit (a : Acc) : Acc := if Op.touches { o with accs := [a] } obj first nm1 then { a with held := true } else a
  let s := s.setGroup ctx { g with ops := g.ops.map fun x => if x.id == o.id then { x with parked := true, accs := x.accs.map hit } else x }
  if o.parked then s else s.setPart g.part { s.part g.part with parked := (s.part g.part).parked ++ [(ctx, o.id)] }

/-- Perform what a group has in flight in some pages of an object; a store that cannot be performed yet is held. A load that has been translated
is performed, whatever engine has taken its lines since; one that waits has not been translated (09 R202, R203). -/
def State.drainGroup (s : State) (ctx obj first nm1 : Nat) : State :=
  let want (o : Op) : Bool := o.touches obj first nm1
  (neededOps want (s.group ctx).ops).foldl (fun (s : State) o =>
    if s.opFree ctx o (o.kind == .load && o.place == .dev) && !s.lostPlace ctx (s.openPart ctx o) then (s.performOp ctx o).syncCnt ctx
    else if want o && o.place == .dev && o.kind != .load && o.kind != .pref then s.parkOp ctx o obj first nm1 else s) s

/-- Every request that was translated in an extent is performed under its old state (09 R203, R351, R353). -/
def State.drainExtent (s : State) (part obj first nm1 : Nat) : State :=
  (s.groupsWhere fun g => g.part == part).foldl (fun s c => s.drainGroup c obj first nm1) s

/-- Every extent that an access touches is RESIDENT, or is gone with its object. -/
def canLand (p : Part) (o : Op) (a : Acc) : Bool := (extStates p o.bytes a).all fun e => e.1 == .resident

/-- An operation whose accesses wait only for the extents that are still not there. -/
def Op.landed (o : Op) (p : Part) : Op :=
  let accs := o.accs.map fun a => { a with held := a.held && !canLand p o a }
  { o with accs := accs, parked := accs.any (·.held) }

/-- The device's own writes that wait for no extent any more are performed, oldest first. -/
def State.landWrites (s : State) (part obj : Nat) : State :=
  let p := s.part part
  let may (w : Nat × Nat × List Byte) : Bool := w.1 == obj && (p.rangeStates w.1 w.2.1 w.2.2.length).all (·.1 == .resident)
  (p.heldWrites.filter may).foldl (fun (s : State) w => s.devPut part w.1 w.2.1 w.2.2)
    (s.setPart part { p with heldWrites := p.heldWrites.filter fun w => !may w })

/-- A parked request of an object lands, as far as its extents are there. A write-back waits for nothing else: what it holds was written before. -/
def State.landOne (s : State) (part obj : Nat) (e : Nat × Nat) : State :=
  match (s.group e.1).ops.find? fun o => o.id == e.2 && o.parked with
  | none => s
  | some o =>
    let q := o.landed (s.part part)
    if !(o.accs.any fun a => a.held && a.obj == obj) || q == o then s else
    let p := s.part part
    let s := if q.parked then s else s.setPart part { p with parked := p.parked.filter (· != e) }
    let g := s.group e.1
    let s := s.setGroup e.1 { g with ops := g.ops.map fun x => if x.id == o.id then q else x }
    if o.kind == .swb then (s.performOp e.1 q).syncCnt e.1 else s.performNeeded e.1 o.id

/-- Perform the parked requests of an object that can be performed: the write-backs, whose bytes were written before the stores and atomics that
wait beside them were accepted (log [71]), then the others in the order in which they were accepted; the device's own writes follow them.
DEDUCED, log [62]. DESIGN CHOICE, log [70]. -/
def State.landParked (s : State) (part obj : Nat) : State :=
  let wb (e : Nat × Nat) : Bool := (s.group e.1).ops.any fun o => o.id == e.2 && o.kind == .swb
  let l := (s.part part).parked
  ((l.filter wb ++ l.filter fun e => !wb e).foldl (fun (s : State) e => s.landOne part obj e) s).landWrites part obj

/-- A missing extent that is still away. -/
def stillMissing (p : Part) (e : Nat × Nat) : Bool := match (p.obj e.1).ext e.2 with | some x => isAway x.st | none => false

/-- Count down the missing extents of a block; with none left it runs again. -/
def wakeBlock (p : Part) (part : Nat) (b : Block) : Block :=
  if b.part != part || !b.present then b else
  let m := b.missing.filter (stillMissing p)
  { b with missing := m, status := if b.status == .parked && m.isEmpty then .running else b.status }
def State.wakeBlocks (s : State) (part : Nat) : State := { s with blocks := mapVals (wakeBlock (s.part part) part) s.blocks }

/-! ### OBJUPDATE (R347) -/

/-- Status of an object update, and the state after it; the entry stands in the table memory too. DEDUCED, log [62]. DEDUCED, log [101]. DESIGN CHOICE,
log [74]. -/
def State.updateObject (s : State) (part id : Nat) (e : List Byte) : Nat × State :=
  let p := s.part part
  if id == 0 || 2 ^ p.otlog ≤ id then (2, s) else
  let new : Option Obj := if fld e 0 1 == 0 then (if s.entryOk part e then some {} else none) else if fld e 0 1 == 1 then s.readObj part e else none
  match new with
  | none => (1, s)
  | some o =>
    let s := s.drainExtent part id 0 (2 ^ 24)
    let s := { s with hbm := wrBytes s.hbm (p.otbase + 32 * id) e }
    (0, ((s.setObject part id o).landParked part id).wakeBlocks part)

/-! ### EXTUPDATE (R351) -/

/-- The transitions that software may ask for. -/
def mayMove : ExtSt → ExtSt → Bool
  | .resident, .leaving => true
  | .leaving, .away => true
  | .leaving, .resident => true
  | .away, .returning => true
  | .returning, .resident => true
  | _, _ => false

/-- A parked request touches the extent. -/
def State.parkedOn (s : State) (part obj first nm1 : Nat) : Bool :=
  ((s.part part).parked.any fun e => (s.group e.1).ops.any fun o => o.id == e.2 && o.parked && o.touches obj first nm1)
    || (s.part part).heldWrites.any fun w => w.1 == obj && first ≤ (w.2.1 + w.2.2.length - 1) / 65536 && w.2.1 / 65536 ≤ first + nm1

/-- Status of an extent update, and the state after it; the descriptor stands in the table memory too. DEDUCED, log [62]. DEDUCED, log [101]. DESIGN
CHOICE, log [74]. -/
def State.updateExtent (s : State) (part id i : Nat) (d : List Byte) : Nat × State :=
  let o := (s.part part).obj id
  if id == 0 || 2 ^ (s.part part).otlog ≤ id || !o.live then (2, s) else
  let x := readExt d
  match o.exts[i]? with
  | none => (1, s)
  | some y =>
    let put (o : Obj) (x : Ext) : Obj := { o with exts := setAt o.exts i x }
    if !s.extOk part o.host d || !mayMove y.st x.st || !extsSorted (put o x).exts then (1, s) else
    let s := { s with hbm := wrBytes s.hbm (o.xlist + 16 * i) d }
    let s := if isAway y.st then s else s.drainExtent part id y.first y.nm1
    let o := (s.part part).obj id
    if x.st == .away && (y.want || s.parkedOn part id x.first x.nm1) then
      (0, (s.setObject part id (put o { x with st := .returning })).post part none [returnRec id x.first])
    else if x.st == .leaving then (0, s.setObject part id (put o x))
    else if x.st == .resident then (0, ((s.setObject part id (put o x)).landParked part id).wakeBlocks part)
    else (0, s.setObject part id (put o x))

end Sys2Proof.Machine
end

