-- ==== Sys2Proof/Machine/Commands.lean ====
section
/-! DEFINITION. Machine/Commands.lean: the command queues (23 R438 to R442, R450): LAUNCH (11 R255, R257, 15 R312, R322), LOAD, the
update commands, WATCH (22 R417), TRACE (22 R432 to R435), RESOLVE (20 R399), PREEMPT, RESTORE (20 R403, R405), GRANT (17 R357) and
MIGRATE. -/

namespace Sys2Proof.Machine

/-! ### The ring of a queue (R438) -/

def CmdQ.esize (q : CmdQ) : Nat := if q.gen == 0 then 64 else 128
def CmdQ.tail (q : CmdQ) (m : SMap Byte) : Nat := rdN m (q.base + 4) 4
/-- Entries that wait. -/
def CmdQ.waiting (q : CmdQ) (m : SMap Byte) : Nat := (q.tail m + 2 ^ 32 - q.head) % 2 ^ 32
/-- The entry at HEAD. -/
def CmdQ.entry (q : CmdQ) (m : SMap Byte) : List Byte := rdBytes m (q.base + 64 + q.esize * (q.head % 2 ^ q.log)) q.esize

def State.queue (s : State) (p q : Nat) : CmdQ := get {} (s.part p).queues q
def State.setQueue (s : State) (p q : Nat) (x : CmdQ) : State := s.setPart p { s.part p with queues := put {} (s.part p).queues q x }

/-- The queue holds more than its ring can (R438): TAIL is too far ahead now, or was and has not been written since. DEDUCED, log [101]. -/
def CmdQ.tooFull (q : CmdQ) (m : SMap Byte) : Bool := 2 ^ q.log < q.waiting m || q.overTail == some (q.tail m)

/-- HEAD passes the entry. -/
def State.popCmd (s : State) (p q : Nat) : State :=
  let x := s.queue p q
  let h := (x.head + 1) % 2 ^ 32
  { s.setQueue p q { x with head := h, overTail := if x.tooFull s.hbm then some (x.tail s.hbm) else none } with hbm := wrN s.hbm x.base 4 h }

/-- Operands of each operation from +0x10: offset and length (R441, R442). DEDUCED, log [101]. -/
def operands (op gen : Nat) : List (Nat × Nat) :=
  match op with
  | 1 => [(0x10, 8), (0x18, 1), (0x1A, 2), (0x1C, 2), (0x1E, 2), (0x20, 4), (0x24, 2), (0x26, 2), (0x28, 8), (0x30, 4), (0x34, 1),
          (0x38, 8)] ++ (if gen == 0 then [] else [(0x40, 8), (0x48, 8)])
  | 2 => [(0x10, 8), (0x18, 8), (0x20, 8)]
  | 3 => [(0x10, 4), (0x18, 32)]
  | 4 => [(0x10, 4), (0x14, 2), (0x18, 16)]
  | 5 => [(0x10, 1), (0x18, 32)]
  | 6 => [(0x10, 1), (0x11, 1), (0x18, 8), (0x20, 4)]
  | 7 => [(0x10, 4), (0x14, 1)]
  | 8 => [(0x10, 4)]
  | 9 => [(0x10, 4)]
  | 10 => [(0x10, 4), (0x14, 1), (0x18, 8), (0x20, 8)]
  | 11 => [(0x10, 2), (0x12, 2)]
  | _ => []

/-- Every byte that R440 and R441 do not name is zero, and STATUS is a multiple of 8. DEDUCED, log [101]. -/
def cmdFormat (gen : Nat) (b : List Byte) : Bool :=
  zeros b 1 7 && fld b 8 8 % 8 == 0
    && (List.range b.length).all fun i => i < 16 || b.getD i 0 == 0 || (operands (fld b 0 1) gen).any fun r => r.1 ≤ i && i < r.1 + r.2

/-- Which action of a command an entry asks for: TRACE and RESOLVE have several. -/
def actionOf (b : List Byte) : Nat := if fld b 0 1 == 6 then fld b 0x11 1 else if fld b 0 1 == 7 then fld b 0x14 1 else 0
def actions (op : Nat) : Nat := if op == 6 then 3 else if op == 7 then 2 else 1

/-- A command ends whatever its operands: over-full queue, FORMAT, FIELD. DEDUCED, log [101]. -/
def CmdQ.refusal (q : CmdQ) (m : SMap Byte) : Option Nat :=
  let b := q.entry m
  let op := fld b 0 1
  if q.tooFull m then some 1
  else if op == 0 || 11 < op then some 12
  else if !cmdFormat q.gen b || actions op ≤ actionOf b then some 1
  else none

/-- Queue order (R439): a launch starts after every earlier launch of its queue has ended, another command once each is active. -/
def State.cmdWaits (s : State) (x : CmdQ) (op : Nat) : Bool := if op == 1 then !x.launches.isEmpty else x.launches.any fun l => (s.launch l).st == .queued

/-- The command at HEAD ends with a status (R440). -/
def State.closeCmd (s : State) (p q : Nat) (h : Nat) (code detail : Nat) : State :=
  (if h % 8 == 0 then s.writeStatus p (BitVec.ofNat 64 h) code detail else s).popCmd p q

/-- A command that is refused whatever its operands ends; a LAUNCH takes its sequence number as its detail (R441). DEDUCED, log [100]. -/
def State.refuseCmd (s : State) (p q : Nat) (b : List Byte) (code : Nat) : State :=
  if fld b 0 1 != 1 then s.closeCmd p q (fld b 8 8) code 0 else
  let seq := (s.part p).nextSeq
  (s.setPart p { s.part p with nextSeq := seq + 1 }).closeCmd p q (fld b 8 8) code seq.toNat

/-- Run the command at HEAD if it is operation `op` with action `act`; one that is refused ends under any event of its queue. -/
def runCmd (p q op act : Nat) (body : List Byte → State → Nat × Nat × State) (s : State) : Host.Outcome State Fault Refusal :=
  .next (let x := s.queue p q
    if x.log == 0 || x.waiting s.hbm == 0 then s else
    let b := x.entry s.hbm
    if s.cmdWaits x (fld b 0 1) then s else
    match x.refusal s.hbm with
    | some c => s.refuseCmd p q b c
    | none =>
      if fld b 0 1 != op || actionOf b != act then s else
      let (c, d, t) := body b s
      t.closeCmd p q (fld b 8 8) c d)

/-! ### LAUNCH (R442) -/

/-- Key of the n-th code object of a device partition; its handle is n + 1, so that no partition sees another's loads (17 R355). -/
def codeKey (p n : Nat) : Nat := p * 2 ^ 32 + n
/-- The code that a handle of LOAD names. -/
def State.codeOf (s : State) (p h : Nat) : Option Nat :=
  if h == 0 || 2 ^ 32 ≤ h then none else if (s.code (codeKey p (h - 1))).present then some (codeKey p (h - 1)) else none

/-- A dependence vector of a Tartan section. -/
def readVec (w : Nat) : Int × Int × Int := (sgn 5 w, sgn 5 (w / 32), sgn 5 (w / 1024))

/-- The first axis on which the vector moves is negative (15 R313). -/
def lexNegative (order : Nat) (d : Int × Int × Int) : Bool :=
  let c : Int × Int × Int := match order with
    | 0 => (d.1, d.2.1, d.2.2)
    | 1 => (d.1, d.2.2, d.2.1)
    | 2 => (d.2.1, d.1, d.2.2)
    | 3 => (d.2.1, d.2.2, d.1)
    | 4 => (d.2.2, d.1, d.2.1)
    | _ => (d.2.2, d.2.1, d.1)
  c.1 < 0 || (c.1 == 0 && (c.2.1 < 0 || (c.2.1 == 0 && c.2.2 < 0)))

/-- The Tartan section, or the status of a bad one (15 R312). -/
def State.readTartan (s : State) (p count : Nat) (b : List Byte) : Except Nat Tartan :=
  let nv := fld b 8 1
  let ws := (List.range 4).map fun v => fld b (0xC + 2 * v) 2
  let vs := (ws.take nv).map readVec
  let sbh : DWord := BitVec.ofNat 64 (fld b 0 8)
  if nv < 1 || 4 < nv || 5 < fld b 9 1 || !zeros b 0xA 2 || !zeros b 0x14 12 || ws.any (32768 ≤ ·) || (ws.drop nv).any (· != 0)
      || vs.any (fun d => d.1 == -16 || d.2.1 == -16 || d.2.2 == -16) || 2 ^ 32 < count then .error 1
  else if sbh == 0 || sbh.toNat % 8 != 0 || !(s.part p).holds sbh ((count + 7) / 8) then .error 2
  else if !vs.all (lexNegative (fld b 9 1)) then .error 3
  else .ok { sbh := sbh, order := fld b 9 1, vecs := vs }

/-- The pool section (15 R322). -/
def readPoolSect (b : List Byte) : Except Nat Pool :=
  let wc := (List.range 4).map fun w => fld b (0x10 + 2 * w) 2
  let res := (List.range 4).map fun w => (fld b (0x18 + 8 * w) 4, fld b (0x1C + 8 * w) 2, fld b (0x1E + 8 * w) 1)
  if (List.range 4).any (fun w => !zeros b (0x1F + 8 * w) 1) || !zeros b 0x38 8 || wc.all (· == 0) then .error 1
  else .ok { ring := BitVec.ofNat 64 (fld b 0 8), faults := BitVec.ofNat 64 (fld b 8 8), wcount := wc, res := res, head := [0, 0, 0, 0],
             tail := [0, 0, 0, 0], logc := 0, logf := 0, outst := 0, fcount := 0 }

/-- The launch that an entry describes, sections apart. -/
def State.readLaunch (s : State) (p q : Nat) (x : CmdQ) (b : List Byte) : Launch :=
  let seq := (s.part p).nextSeq
  { st := .queued, seq := seq, part := p, queue := q, code := (s.codeOf p (fld b 0x10 8)).getD 0, kind := fld b 0x18 1,
    kernel := fld b 0x1A 2, groups := if fld b 0x18 1 == 3 then 1 else fld b 0x1C 2, gang := fld b 0x1E 2, x := fld b 0x20 4,
    y := fld b 0x24 2, z := fld b 0x26 2, argsAt := BitVec.ofNat 64 (fld b 0x28 8), handler := BitVec.ofNat 32 (fld b 0x30 4),
    checked := fld b 0x34 1 % 2 == 1, race := fld b 0x34 1 / 2 % 4,
    seed := if x.gen == 0 then BitVec.ofNat 64 seq.toNat else BitVec.ofNat 64 (fld b 0x40 8),
    recbase := if x.gen == 0 then 0 else BitVec.ofNat 64 (fld b 0x48 8), status := BitVec.ofNat 64 (fld b 8 8) }

/-- Fields that are illegal in themselves. -/
def launchFieldBad (gen : Nat) (b : List Byte) : Bool :=
  let kind := fld b 0x18 1
  let gang := fld b 0x1E 2
  let count := fld b 0x20 4 * fld b 0x24 2 * fld b 0x26 2
  3 < kind || fld b 0x30 4 % 64 != 0 || 8 ≤ fld b 0x34 1 || (gen == 0 && fld b 0x34 1 / 2 != 0) || fld b 0x34 1 / 2 == 3
    || (kind == 1) != (gang != 0) || (kind < 2 && !zeros b 0x38 8) || (kind != 3 && zeros b 0x1C 2)
    || (kind == 3 && !zeros b 0x20 8) || (kind == 1 && count % gang != 0)

/-- The size of the block-record area. -/
def recordArea (l : Launch) : Nat := 128 * (match l.pool with | some p => p.wcount.foldl (· + ·) 0 | none => Launch.count l)

/-- An empty device that holds the same code. -/
def State.emptied (s : State) : State := { State.reset with codes := s.codes }

/-- One block of a launch, and its gang, fit on an empty cluster (11 R256, R257); each worker does. -/
def State.fitsEmpty (s : State) (l : Launch) : Bool :=
  let e := s.emptied
  match l.pool with
  | some p => (List.range 4).all fun w => p.wcount.getD w 0 == 0 ||
      (let (scratch, regs, acc) := p.resOf w
       e.fitsPart 0 ⟨1, 8 * 2 ^ w, regs, spaceTotal l.race scratch acc, acc⟩)
  | none =>
    if l.gang == 0 then (e.findCores 0 (partsOf l.groups) [] (· == 0) fun j c => e.fitsPart c (e.demand l j)).isSome
    else
      let t := (e.setLaunch 0 { l with resv := some (0, [], 0) }).reserveParts 0 [] (gangParts l + 1)
      (match (t.launch 0).resv with | some (_, cs, _) => gangParts l ≤ cs.length | none => false)

/-- A limit of R6, R256 or R257 that a launch breaks. DEDUCED, log [100]. -/
def State.limitBroken (s : State) (l : Launch) : Bool :=
  (l.pool.isNone && (l.x == 0 || 2 ^ 31 ≤ l.x || l.y == 0 || l.z == 0)) || 64 < l.gang || 16384 < l.groups * (kernelOf s l).width
    || 3 < partsOf l.groups || !s.fitsEmpty l

/-- The launch of an entry, or the status with which it ends at once. DEDUCED, log [100]. -/
def State.checkLaunch (s : State) (p q : Nat) (x : CmdQ) (b : List Byte) : Except Nat Launch :=
  let part := s.part p
  let l := s.readLaunch p q x b
  let sect : DWord := BitVec.ofNat 64 (fld b 0x38 8)
  if launchFieldBad x.gen b then .error 1 else
  match s.codeOf p (fld b 0x10 8) with
  | none => .error 2
  | some c =>
    if (s.code c).kernels.length ≤ l.kernel then .error 1
    else if !part.holds l.argsAt 384 then .error 2
    else
      let n := if l.kind == 2 then 32 else 64
      let sb := leBytes n (s.devRead p sect n)
      let l : Except Nat Launch :=
        if l.kind < 2 then .ok l
        else if !part.holds sect n then .error 2
        else if l.kind == 2 then (s.readTartan p (Launch.count l) sb).map fun t => { l with tart := some t }
        else (readPoolSect sb).map fun t => { l with pool := some t }
      match l with
      | .error e => .error e
      | .ok l =>
        if l.recbase != 0 && !part.holds l.recbase (recordArea l) then .error 2
        else if s.limitBroken l then .error 11
        else .ok l

/-- LAUNCH: the launch is queued, or ends with its status and runs no thread; either way it takes the next sequence number. DEDUCED, log [100]. -/
def execLaunch (p q : Nat) (s : State) : Host.Outcome State Fault Refusal :=
  .next (let x := s.queue p q
    if x.log == 0 || x.waiting s.hbm == 0 then s else
    let b := x.entry s.hbm
    if s.cmdWaits x (fld b 0 1) then s else
    match x.refusal s.hbm with
    | some c => s.refuseCmd p q b c
    | none =>
      if fld b 0 1 != 1 then s else
      match s.checkLaunch p q x b with
      | .error c => s.refuseCmd p q b c
      | .ok l =>
        let id := freshKey s.launches
        let s := s.setLaunch id l
        let s := s.setPart p { s.part p with nextSeq := l.seq + 1 }
        (s.setQueue p q { x with launches := x.launches ++ [id] }).popCmd p q)

/-! ### LOAD (R445) -/

/-- An extent of a live object of the partition lies in HBM frames from `frame` on. -/
def Part.framesTaken (p : Part) (frame n : Nat) : Bool :=
  p.objs.any fun e => e.2.live && !e.2.host && e.2.exts.any fun x =>
    (x.st == .resident || x.st == .leaving) && x.loc % 2 ^ 23 < frame + n && frame < x.loc % 2 ^ 23 + x.nm1 + 1

/-- LOAD creates an object of `.data` with its initial contents in HBM frames of the partition; an id or frames that are not free for it create
nothing (04 R82, 23 R445). The object has XLIST 0, and no entry for it is written at OTBASE. DESIGN CHOICE, log [50]. -/
def State.addData (s : State) (p : Nat) (d : Nat × Nat × Nat × List Byte) : State :=
  let (id, perm, frame, bytes) := d
  let n := (bytes.length + 65535) / 65536
  let part := s.part p
  if id == 0 || 2 ^ part.otlog ≤ id || (part.obj id).live || n == 0 || 2 ^ 16 < n || part.framesTaken frame n || frame < (s.frames p).1 || (s.frames p).2 < frame + n then s else
  (s.setObject p id { live := true, perm := perm % 32, size := 65536 * n, exts := [{ st := .resident, first := 0, nm1 := n - 1, loc := frame }] }).devWrite p
    (handle id 0) bytes

/-- LOAD: place a code object, and answer its handle. DESIGN CHOICE, log [50]. DEDUCED, log [54]. DEDUCED, log [101]. -/
def loadBody (p : Nat) (b : List Byte) (s : State) : Nat × Nat × State :=
  let src : DWord := BitVec.ofNat 64 (fld b 0x10 8)
  let n := fld b 0x18 8
  let dst : DWord := BitVec.ofNat 64 (fld b 0x20 8)
  let part := s.part p
  if !part.holds src n || !part.holds dst 1 then (2, 0, s) else
  let bytes := leBytes n (s.devRead p src n)
  match s.readCode p bytes dst with
  | .error (c, d) => (c, d, s)
  | .ok k =>
    let n := (s.codes.filter fun e => e.1 / 2 ^ 32 == p).length
    let s := s.devWrite p dst ((Config.loadImage bytes).take ((part.obj (objOf dst)).size - offOf dst))
    let s := (Config.dataObjects (secBytes (sectionsOf bytes) bytes 9) dst).foldl (fun (s : State) d => s.addData p d) s
    (0, n + 1, s.setCode (codeKey p n) k)
def execLoad (p q : Nat) (s : State) : Host.Outcome State Fault Refusal := runCmd p q 2 0 (loadBody p) s

/-! ### The update commands -/

def execObjupdate (p q : Nat) (s : State) : Host.Outcome State Fault Refusal :=
  runCmd p q 3 0 (fun b (s : State) => let r := s.updateObject p (fld b 0x10 4) ((b.drop 0x18).take 32); (r.1, 0, r.2)) s
def execExtupdate (p q : Nat) (s : State) : Host.Outcome State Fault Refusal :=
  runCmd p q 4 0 (fun b (s : State) => let r := s.updateExtent p (fld b 0x10 4) (fld b 0x14 2) ((b.drop 0x18).take 16); (r.1, 0, r.2)) s

/-! ### WATCH (22 R417) -/

def readWatch (b : List Byte) : WatchUnit :=
  { action := fld b 0 1, kinds := fld b 1 1, rfilt := BitVec.ofNat 16 (fld b 2 2), obj := fld b 4 4, lo := fld b 8 8, hi := fld b 16 8 }

/-- A descriptor is legal. -/
def watchOk (b : List Byte) : Bool :=
  let u := readWatch b
  let data := u.kinds % 32
  let region := u.kinds / 32 % 4
  u.action ≤ 3 && u.kinds < 128 && u.obj < 2 ^ 24 && zeros b 28 4
    && (u.action == 0 || (data != 0 && region == 0 && u.obj != 0 && u.lo ≤ u.hi && u.hi < 2 ^ 40)
      || (data == 0 && region != 0 && u.rfilt != 0 && u.obj == 0 && u.lo == 0 && u.hi == 0))

def watchBody (p : Nat) (b : List Byte) (s : State) : Nat × Nat × State :=
  let d := (b.drop 0x18).take 32
  let n := fld b 0x10 1
  if 16 ≤ n || !watchOk d then (1, 0, s)
  else (0, 0, s.setPart p { s.part p with watches := put {} (s.part p).watches n (readWatch d) })
def execWatch (p q : Nat) (s : State) : Host.Outcome State Fault Refusal := runCmd p q 5 0 (watchBody p) s

/-! ### TRACE (22 R432 to R435) -/

/-- Whole packets of a buffer within a byte limit: their bytes, the packets left, and the encoder's times. DEDUCED, log [110]. -/
def takePkts : Nat → Nat → Nat → List Pkt → List Byte × List Pkt × Nat × Nat
  | _, t, y, [] => ([], [], t, y)
  | n, t, y, p :: r =>
    let (b, t', y') := pktBytes t y p
    if n < b.length then ([], p :: r, t, y)
    else
      let (bs, l, t2, y2) := takePkts (n - b.length) t' y' r
      (b ++ bs, l, t2, y2)

/-- Once draining has freed room, the LOSS is written, followed by SYNC (R435). -/
def Cluster.reportLoss (k : Cluster) (now : Nat) : Cluster :=
  if k.dropped == 0 || traceCap < bufSize k.lastTime k.lastSync k.buf + 14 then k
  else { k with buf := k.buf ++ lossSync now 0 k.dropped, dropped := 0 }

def State.switchTrace (s : State) (c : Nat) (on : Bool) : State :=
  let k := s.cluster c
  if on && !k.on then (s.setCluster c { k with on := true }).putPkt c ⟨s.clusterCycles c, 0, 6, 0, []⟩ else s.setCluster c { k with on := on }

/-- DEDUCED, log [101]: readings of the other commands. -/
def traceBody (p act : Nat) (b : List Byte) (s : State) : Nat × Nat × State :=
  let c := fld b 0x10 1
  let h : DWord := BitVec.ofNat 64 (fld b 0x18 8)
  let n := fld b 0x20 4
  if !(s.clustersOf p).contains c then (1, 0, s)
  else if act < 2 then (0, 0, s.switchTrace c (act == 1))
  else if !(s.part p).holds h n then (2, 0, s)
  else
    let k := s.cluster c
    let (bs, l, t, y) := takePkts n k.lastTime k.lastSync k.buf
    let k := { k with buf := l, lastTime := t, lastSync := y }
    (0, bs.length, (s.devWrite p h bs).setCluster c (k.reportLoss (s.clusterCycles c)))

def execTraceOff (p q : Nat) (s : State) : Host.Outcome State Fault Refusal := runCmd p q 6 0 (traceBody p 0) s
def execTraceOn (p q : Nat) (s : State) : Host.Outcome State Fault Refusal := runCmd p q 6 1 (traceBody p 1) s
def execTraceDrain (p q : Nat) (s : State) : Host.Outcome State Fault Refusal := runCmd p q 6 2 (traceBody p 2) s

/-! ### RESOLVE (20 R399) -/

/-- The slot and record of a group that is parked on a fault and stands on a core. -/
def State.parkedAt (s : State) (p i : Nat) : Option (Nat × TrapRec) :=
  let g := s.group (p * 65536 + i)
  if i < 65536 && g.present && g.status == .faultPark && !g.saved then g.parkRec else none

/-- RETRY: the instruction is executed again, with new translations. -/
def retryBody (p : Nat) (b : List Byte) (s : State) : Nat × Nat × State :=
  let i := fld b 0x10 4
  match s.parkedAt p i with
  | none => (8, 0, s)
  | some (k, r) =>
    let c := p * 65536 + i
    let g := s.group c
    let g := Group.unrefused { g.setPath k { g.path k with stall := 0 } with status := .run, parkRec := none }
    (0, 0, s.setGroup c (if r.engine then g.resumeCopies r else g))
/-- DELIVER: the group enters its handler. -/
def deliverBody (p : Nat) (b : List Byte) (s : State) : Nat × Nat × State :=
  let i := fld b 0x10 4
  match s.parkedAt p i with
  | none => (8, 0, s)
  | some (k, r) => (0, 0, takeRec s (p * 65536 + i) k r)

def execResolveRetry (p q : Nat) (s : State) : Host.Outcome State Fault Refusal := runCmd p q 7 0 (retryBody p) s
def execResolveDeliver (p q : Nat) (s : State) : Host.Outcome State Fault Refusal := runCmd p q 7 1 (deliverBody p) s

/-! ### PREEMPT and RESTORE (20 R403, R405) -/

/-- The launch of a partition with a sequence number. -/
def State.launchOf (s : State) (p seq : Nat) : Option Nat :=
  (s.launches.find? fun e => e.2.part == p && e.2.seq.toNat == seq && e.2.st != .absent && e.2.st != .ended).map (·.1)
/-- Blocks of a launch that satisfy `f`. -/
def State.blocksOf (s : State) (id : Nat) (f : Block → Bool) : List Nat :=
  (s.blocks.filter fun e => e.2.present && e.2.launch == id && f e.2).map (·.1)

/-- A block is asked to stop; one that waited to be restored no longer does. -/
def Block.halt (k : Block) : Block :=
  if k.status == .running || k.status == .parked then { k with status := .halting } else { k with restoring := false }

def preemptBody (p : Nat) (b : List Byte) (s : State) : Nat × Nat × State :=
  match s.launchOf p (fld b 0x10 4) with
  | none => (0, 0, s)
  | some id =>
    let bs := s.blocksOf id fun k => k.status == .running || k.status == .parked || k.restoring
    let s := bs.foldl (fun (s : State) n => s.setBlock n (s.block n).halt) s
    let l := s.launch id
    let s := if bs.isEmpty then s else s.setLaunch id { l with back := none, backAged := false }
    let s := if l.st == .queued then s else (if bs.isEmpty then s else s.writeScore l).writePool l
    (0, bs.length, bs.foldl (fun (s : State) n => s.settleSave n) s)
def execPreempt (p q : Nat) (s : State) : Host.Outcome State Fault Refusal := runCmd p q 8 0 (preemptBody p) s

/-- The device with some saved blocks alone, every resource free. -/
def State.onlyBlocks (s : State) (bs : List Nat) : State :=
  { s with
    groups := mapVals (fun (g : Group) => { g with saved := true }) (s.groups.filter fun e => bs.contains e.2.blk)
    blocks := mapVals (fun (k : Block) => { k with status := .saved }) (s.blocks.filter fun e => bs.contains e.1)
    spaces := s.spaces.filter fun e => bs.contains e.2.blk
    launches := mapVals (fun (l : Launch) => { l with resv := none, aged := false, back := none, backAged := false }) s.launches
    halted := []
    clusters := mapVals (fun (k : Cluster) => { k with gated := false }) s.clusters }

/-- Live worlds of a block. -/
def State.worldsOf (s : State) (b : Nat) : Nat :=
  s.forks.foldl (fun n e => if e.2.blk == b then n + (e.2.copies.filter (·.imposed.isNone)).length else n) 0

/-- A quota of some core partition of the device partition allows a number of worlds. -/
def State.quotaAllows (s : State) (p n : Nat) : Bool :=
  (List.range (4 * Config.cores)).any fun c => s.partOfCore (c / 4) == p && n ≤ get 4095 (s.part p).quota c

/-- The blocks could be placed with every resource free. -/
def State.couldRestore (s : State) (p : Nat) (gang : Bool) (bs : List Nat) : Bool :=
  let alone (b : Nat) : Bool := ((s.onlyBlocks [b]).restoreOne p [] b).isSome
  let together : Bool :=
    let e := s.onlyBlocks bs
    let k := s.block (bs.headD 0)
    let n := (e.savedParts k.launch k.gang).length
    (s.clustersOf p).any fun c =>
      let t := (e.setLaunch k.launch { e.launch k.launch with back := some (k.gang, c, [], s.now) }).reserveBack k.launch [] (n + 1)
      (t.launch k.launch).back.any fun r => n ≤ r.2.2.1.length
  bs.all (fun b => s.quotaAllows p (s.worldsOf b)) && (if gang then together else bs.all alone)

/-- The saved blocks of a gang launch by gang. -/
def State.gangsOf (s : State) (bs : List Nat) : List (List Nat) :=
  ((bs.map fun b => (s.block b).gang).eraseDups).map fun g => bs.filter fun b => (s.block b).gang == g

/-- Another device partition holds saved blocks of a launch with a sequence number that this one has not: they can never be placed here (R405).
DEDUCED, log [101]. -/
def State.savedElsewhere (s : State) (p seq : Nat) : Bool :=
  s.launches.any fun e => e.2.part != p && e.2.seq.toNat == seq && e.2.st != .absent && e.2.st != .ended
    && !(s.blocksOf e.1 fun k => k.status == .saved).isEmpty

/-- RESTORE puts the saved blocks of a launch in the ready set, and those that are still halting once they are saved, so that a gang comes back
whole (11 R258, 20 R405). DEDUCED, log [101]: readings of the other commands. -/
def restoreBody (p : Nat) (b : List Byte) (s : State) : Nat × Nat × State :=
  match s.launchOf p (fld b 0x10 4) with
  | none => (if s.savedElsewhere p (fld b 0x10 4) then 6 else 0, 0, s)
  | some id =>
    let bs := s.blocksOf id fun k => (k.status == .saved || k.status == .halting) && !k.restoring
    let gang := (s.launch id).gang != 0
    let ok := if gang then (s.gangsOf bs).all (s.couldRestore p true) else s.couldRestore p false bs
    if !ok then (6, 0, s) else
    (0, bs.length, bs.foldl (fun (s : State) n => s.setBlock n { s.block n with restoring := true }) s)
def execRestore (p q : Nat) (s : State) : Host.Outcome State Fault Refusal := runCmd p q 9 0 (restoreBody p) s

/-! ### GRANT (17 R357) and MIGRATE (R450) -/

/-- DEDUCED, log [101]: readings of the other commands. -/
def grantBody (p : Nat) (b : List Byte) (s : State) : Nat × Nat × State :=
  let obj := fld b 0x10 4
  let perm := fld b 0x14 1
  let off := fld b 0x18 8
  let len := fld b 0x20 8
  let part := s.part p
  if obj == 0 || 2 ^ part.otlog ≤ obj || !(part.obj obj).live then (2, 0, s)
  else if 4 ≤ perm || off % 65536 != 0 || len % 65536 != 0 || (part.obj obj).size < off + len then (1, 0, s)
  else (0, part.grants.length, s.setPart p { part with grants := part.grants ++ [⟨obj, perm, off, len⟩] })
def execGrant (p q : Nat) (s : State) : Host.Outcome State Fault Refusal := runCmd p q 10 0 (grantBody p) s

/-- Bytes 0 to 63 of a SHAKE256 digest (17 R360). -/
def digestOf (m : List Byte) : List Byte := (List.range 64).map (Config.digest m)

/-- CAPDIG: the digest of the keys that code may bind (17 R360). DESIGN CHOICE, log [3]. -/
def State.capDig (s : State) : List Byte := digestOf ((bindKeys.map fun k => leBytes 2 k ++ leBytes 8 ((s.registry none k).getD 0)).flatten)

/-- The contents of a partition leave the device. -/
def State.leavePart (s : State) (p : Nat) : State :=
  let part := s.part p
  let blks := (s.blocks.filter fun e => e.2.part == p).map (·.1)
  { s with
    groups := s.groups.filter fun e => e.2.part != p
    blocks := s.blocks.filter fun e => e.2.part != p
    spaces := s.spaces.filter fun e => !blks.contains e.2.blk
    launches := s.launches.filter fun e => e.2.part != p
    codes := s.codes.filter fun e => e.2.part != p
    forks := s.forks.filter fun e => e.2.part != p
    views := s.views.filter fun v => s.partOfTag v.world != p
    links := s.links.filter fun e => s.partOfTag e.1 != p
    dropped := s.dropped.filter fun w => s.partOfTag w != p
  }.setPart p { part with tags := [], parked := [], posts := [], queues := mapVals (fun (q : CmdQ) => { q with launches := [] }) part.queues }

/-- DESIGN CHOICE, log [51]: the capability digest of another device is opaque. DEDUCED, log [101]: readings of the other commands. -/
def migrateBody (p : Nat) (b : List Byte) (s : State) : Nat × Nat × State :=
  let e := fld b 0x10 2
  if (s.blocks.any fun k => k.2.present && k.2.part == p && k.2.status != .saved) then (7, 0, s)
  else if s.capDig != Config.remoteCapDig e (fld b 0x12 2) then (13, 0, s)
  else (0, 0, { s.leavePart p with migrated := s.migrated ++ [(p, e)] })
def execMigrate (p q : Nat) (s : State) : Host.Outcome State Fault Refusal := runCmd p q 11 0 (migrateBody p) s

/-! ### Remote stores (R436, R438) -/

/-- The command queue whose ring holds an HBM byte. -/
def Part.ringOf (p : Part) (a : Nat) : Option Nat :=
  (p.queues.find? fun e => e.2.log != 0 && e.2.base ≤ a && a < e.2.base + 64 + e.2.esize * 2 ^ e.2.log).map (·.1)

/-- The management controller, as an agent: one more than every endpoint id. DEDUCED, log [107]. -/
def controller : Nat := 65536

/-- A window lets the controller store to some bytes (17 R357). DEDUCED, log [107]. -/
def Part.mayStore (p : Part) (agent obj off n : Nat) : Bool :=
  agent != controller || p.grants.any fun w => w.obj == obj && w.perm / 2 % 2 == 1 && w.off ≤ off && off + n ≤ w.off + w.len

/-- The places of the bytes of a remote store, none of a byte whose extent is away, if it may be made. Object 0 stands for the partition's own
memory by its address, as system software has it before it has made an object (log [53], DESIGN CHOICE). DEDUCED, log [108]. -/
def State.storePlaces (s : State) (p obj off n : Nat) : Option (List Place) :=
  if obj == 0 then
    (if (s.frames p).1 * 65536 ≤ off && off + n ≤ (s.frames p).2 * 65536 then some ((List.range n).map fun i => ⟨false, off + i⟩) else none)
  else ((List.range n).mapM fun i => match translate (s.part p) obj (off + i) 1 with
    | .ok (st, x) => some (if isAway st then [] else [x])
    | .error _ => none).map List.flatten

/-- An agent has written a ring; where it wrote TAIL, the device looks at TAIL afresh (R438). -/
def Part.wroteRing (p : Part) (agent q : Nat) (tail : Bool) : Part :=
  let x := get {} p.queues q
  { p with queues := put {} p.queues q { x with writer := some agent, overTail := if tail then none else x.overTail } }

/-- Places that hold a byte of a queue's TAIL. -/
def Part.tailIn (p : Part) (q : Nat) (ps : List Place) : Bool :=
  let b := (get {} p.queues q).base
  ps.any fun x => !x.remote && b + 4 ≤ x.addr && x.addr < b + 8

/-- Queues whose rings a second agent writes. -/
def Part.ringClash (p : Part) (agent : Nat) (qs : List Nat) : Bool :=
  qs.any fun q => match (get {} p.queues q).writer with | some w => w != agent | none => false

/-- REMOTE_STORE: a host or another endpoint stores bytes of an object of a partition; it waits for an extent that is not RESIDENT (17 R351), and
where no permission is, nothing is performed. A second writer of a command ring stops the model. DESIGN CHOICE, log [53]. DEDUCED, log [108]. DESIGN CHOICE, log [121]. -/
def execRemoteStore (p agent obj off : Nat) (bytes : List Byte) (s : State) : Host.Outcome State Fault Refusal :=
  match s.storePlaces p obj off bytes.length with
  | none => .next s
  | some ps =>
    if (agent == controller && obj == 0) || !(s.part p).mayStore agent obj off bytes.length then .next s else
    let qs := (ps.filterMap fun x => if x.remote then none else (s.part p).ringOf x.addr).eraseDups
    if (s.part p).ringClash agent qs then .fault .twoRingWriters else
    let s := s.setPart p (qs.foldl (fun x q => x.wroteRing agent q (x.tailIn q ps)) (s.part p))
    .next (if obj == 0 then ((ps.zip bytes).foldl (fun s x => s.putByte 0 x.1 x.2) s).cleanPlaces 0 ps
      else s.devWrite p (handle obj off) bytes)

end Sys2Proof.Machine
end

