-- ==== Sys2Proof/Machine/Manage.lean ====
section
/-! DEFINITION. Machine/Manage.lean: the requests of the management endpoint (23 R436, R437): SUMMARY (20 R410), ATTEST (17 R360),
PARTCOUNT (17 R356), PARTCONFIG, FIRMWARE (17 R358, R359) and POWER (23 R451). -/

namespace Sys2Proof.Machine

/-- A request ends with a status and a response. -/
def State.answer (s : State) (code : Nat) (bytes : List Byte) : State := { s with reply := bytes, replyCode := code }

/-! ### SUMMARY (20 R410) -/

def devNum : DevSt → Nat | .running => 0 | .recovery => 1 | .thermal => 2 | .powerFault => 3 | .partChange => 4 | .off => 0

/-- Worlds of a partition that live. -/
def State.liveWorlds (s : State) (p : Nat) : Nat :=
  s.forks.foldl (fun n e => if e.2.part == p then n + (e.2.copies.filter (·.imposed.isNone)).length else n) 0

/-- The 24 bytes of a device partition. -/
def State.partSummary (s : State) (p : Nat) : List Byte :=
  let x := s.part p
  let act := s.launches.filter fun e => e.2.part == p && e.2.st == .active
  let saved := s.blocks.filter fun e => e.2.present && e.2.part == p && e.2.status == .saved
  let parked := s.groupsWhere fun g => g.part == p && g.status == .faultPark
  let qs := (List.range 16).foldl (fun m q => m + bit1 (act.any fun e => e.2.queue == q) (2 ^ q)) 0
  leBytes 2 act.length ++ leBytes 2 saved.length ++ leBytes 2 parked.length ++ leBytes 2 (s.liveWorlds p) ++ leBytes 4 x.frTail.toNat
    ++ leBytes 2 x.posts.length ++ leBytes 2 qs ++ leBytes 4 x.killed.toNat ++ leBytes 4 0

/-- The 256 bytes. -/
def State.summaryBytes (s : State) : List Byte :=
  leBytes 4 1 ++ leBytes 2 s.npart ++ leBytes 2 0 ++ leBytes 8 Config.serial.toNat ++ leBytes 4 (devNum s.dev) ++ leBytes 4 s.svn
    ++ leBytes 8 s.corrected.toNat ++ leBytes 8 s.poisonUnits.toNat ++ leBytes 4 (Config.sensor s.fresh).toNat
    ++ leBytes 4 (Config.sensor (s.fresh + 1)).toNat
    ++ ((List.range 8).map fun p => if p < s.npart then s.partSummary p else List.replicate 24 0).flatten ++ List.replicate 16 0

/-- SUMMARY changes nothing but the response; each reading of the sensors is a new one. DESIGN CHOICE, log [3]. -/
def execSummary (s : State) : Host.Outcome State Fault Refusal := .next ({ s with fresh := s.fresh + 2 }.answer 0 s.summaryBytes)

/-! ### ATTEST (17 R360) -/

/-- The partition configuration that CFGDIG digests: clusters, stacks, ports, rate ceilings, granted windows. DESIGN CHOICE, log [3]. -/
def State.cfgBytes (s : State) (p : Nat) : List Byte :=
  let x := s.part p
  let ports := 16 / s.npart
  leBytes 2 (Config.clusters / s.npart * p) ++ leBytes 2 (Config.clusters / s.npart) ++ leBytes 2 (Config.hbmStacks / s.npart * p)
    ++ leBytes 2 (Config.hbmStacks / s.npart) ++ leBytes 2 (ports * p) ++ leBytes 2 ports
    ++ ((List.range ports).map fun i => leBytes 4 (get Config.fusedRate x.rate (ports * p + i))).flatten
    ++ (x.grants.map fun w => leBytes 4 w.obj ++ leBytes 4 w.perm ++ leBytes 8 w.off ++ leBytes 8 w.len).flatten

/-- Bytes +0x000 to +0x177 of the report. -/
def State.reportHead (s : State) (p : Nat) (nonce : BitVec 256) : List Byte :=
  leBytes 4 1 ++ leBytes 2 p ++ leBytes 1 s.npart ++ [0] ++ leBytes 8 Config.serial.toNat ++ leBytes 32 nonce.toNat ++ s.fwDigest.take 64
    ++ List.replicate (64 - s.fwDigest.length) 0 ++ digestOf Config.loaderImage
    ++ digestOf (s.cfgBytes p) ++ s.capDig ++ leBytes 4 s.svn ++ leBytes 4 0 ++ (List.range 64).map Config.idPub

/-- DESIGN CHOICE, log [3]: sensors, the serial number, the identity key, SHAKE256, SLH-DSA signing and verifying are opaque. DEDUCED, log [107]: the management controller stores as an agent of its own. -/
def execAttest (p : Nat) (nonce : BitVec 256) (s : State) : Host.Outcome State Fault Refusal :=
  .next (if s.npart ≤ p then s.answer 1 [] else
    let h := s.reportHead p nonce
    s.answer 0 (h ++ (List.range 29792).map (Config.signature h)))

/-! ### PARTCOUNT (17 R356) -/

/-- Every device partition is idle: no launch active, no block saved, no world live. -/
def State.idle (s : State) : Bool :=
  !(s.launches.any fun e => e.2.st == .active || e.2.st == .placed) && !(s.blocks.any fun e => e.2.present)
    && !(s.forks.any fun e => e.2.copies.any (·.imposed.isNone))

/-- Zero every byte of the stacks whose owner changes; no poison is left in them. -/
def State.zeroStacks (s : State) (n : Nat) : State :=
  let gone (a : Nat) : Bool :=
    let st := a / (Config.framesPerStack * 65536)
    st / (Config.hbmStacks / s.npart) != st / (Config.hbmStacks / n)
  { s with hbm := s.hbm.filter fun c => !gone c.1, poisLines := s.poisLines.filter fun l => !gone (64 * l) }

/-- The committed view lines go home (18 R373). -/
def State.homeViews (s : State) : State :=
  (s.views.filter fun v => v.line * 64 < 2 ^ 100).foldl (fun (u : State) v =>
    match s.viewAt 0 v.remote v.line with
    | some w => ((List.range 64).foldl (fun (u : State) i => u.setHome ⟨v.remote, v.line * 64 + i⟩ (w.bytes.getD i 0)) u).homePois
        ⟨v.remote, v.line * 64⟩ w.pois
    | none => u) s

/-- The bytes of the command queues and of the fault ring of a partition: base and length. -/
def Part.rings (p : Part) : List (Nat × Nat) :=
  (p.queues.filterMap fun e => if e.2.log == 0 then none else some (e.2.base, 64 + e.2.esize * 2 ^ e.2.log))
    ++ (if p.frlog == 0 then [] else [(p.frbase, 64 + 32 * 2 ^ p.frlog)])

/-- Clear a range of HBM, with the poison of the lines that it covers. -/
def State.clearBytes (s : State) (r : Nat × Nat) : State :=
  { s with hbm := zeroN s.hbm r.1 r.2, poisLines := s.poisLines.filter fun l => !(r.1 ≤ 64 * l && 64 * l + 64 ≤ r.1 + r.2) }

/-- Clear every queue and fault ring of the old configuration (R356). -/
def State.clearRings (s : State) : State := ((s.parts.map fun e => e.2.rings).flatten).foldl State.clearBytes s

/-- What a cluster or a stack that changes its owner holds beside its bytes goes too: trace packets, SC clocks and SC stamps, so that nothing of the
old owner reaches the new one (R355). A gated cluster stays gated. -/
def State.clearUnits (s : State) (n : Nat) : State :=
  let moved (units u : Nat) : Bool := u / (units / s.npart) != u / (units / n)
  { s with
    clusters := s.clusters.map fun e => if moved Config.clusters e.1 then (e.1, { gated := e.2.gated }) else e
    cores := s.cores.map fun e => if moved Config.clusters (e.1 / 8) then (e.1, { e.2 with sc := 0 }) else e
    sc := s.sc.filter fun e => !(e.1 % 4 == 0 && moved Config.hbmStacks (e.1 / 4 * 64 / (Config.framesPerStack * 65536))) }

/-- PARTCOUNT: the bytes of a stack whose owner stays are kept, what a committed world wrote among them. DEDUCED, log [106]: PARTCONFIG keeps the
objects of the partition and PARTCOUNT resets every partition, and a trace stays with a cluster whose owner stays. -/
def execPartcount (n : Nat) (s : State) : Host.Outcome State Fault Refusal :=
  .next (if !([1, 2, 4, 8].contains n) then s.answer 1 []
    else if !s.idle then s.answer 7 []
    else { ((s.homeViews.zeroStacks n).clearRings.clearUnits n) with
      npart := n, parts := [], launches := [], blocks := [], groups := [], spaces := [], codes := [], forks := [], views := [],
      links := [], dropped := [], l1 := [], icache := [] }.answer 0 [])

/-! ### PARTCONFIG (R437) -/

def queueOk (q : Nat × Nat × Nat × Nat) : Bool :=
  q.1 % 4096 == 0 && (q.2.1 == 0 || (4 ≤ q.2.1 && q.2.1 ≤ 16)) && q.2.2.1 ≤ 3 && q.2.2.2 ≤ 1

/-- A range of bytes lies in the memory of a partition. -/
def State.ownsBytes (s : State) (p a n : Nat) : Bool := (s.frames p).1 * 65536 ≤ a && a + n ≤ (s.frames p).2 * 65536

def queueSize (q : Nat × Nat × Nat × Nat) : Nat := 64 + (if q.2.2.2 == 0 then 64 else 128) * 2 ^ q.2.1

/-- Every field is in its range, and every area lies in the partition's own memory. -/
def State.cfgOk (s : State) (p : Nat) (c : PartCfg) : Bool :=
  c.otbase % 4096 == 0 && 8 ≤ c.otlog && c.otlog ≤ 24 && c.frbase % 4096 == 0 && 8 ≤ c.frlog && c.frlog ≤ 16
    && c.ctxbase % 131072 == 0 && 1 ≤ c.ctxcount && c.ctxcount ≤ 65536 && c.ovbase % 128 == 0 && c.ovsize % 128 == 0
    && c.queues.length == 16 && c.queues.all queueOk && c.quota.all (fun e => 1 ≤ e.2 && e.2 ≤ 4095)
    && c.rate.all (fun e => e.2 ≤ Config.fusedRate)
    && s.ownsBytes p c.otbase (32 * 2 ^ c.otlog) && s.ownsBytes p c.frbase (64 + 32 * 2 ^ c.frlog)
    && s.ownsBytes p c.ctxbase (131072 * c.ctxcount) && s.ownsBytes p c.ovbase c.ovsize
    && c.queues.all (fun q => q.2.1 == 0 || s.ownsBytes p q.1 (queueSize q))

/-- A table from a list of pairs. -/
def tableOf (d : Nat) (l : List (Nat × Nat)) : SMap Nat := l.foldl (fun m e => put d m e.1 e.2) []

/-- The configured partition; its device-written ring indices start at 0. DEDUCED, log [106]. -/
def Part.configure (x : Part) (c : PartCfg) : Part :=
  { x with
    otbase := c.otbase, otlog := c.otlog, frbase := c.frbase, frlog := c.frlog, ctxbase := c.ctxbase, ctxcount := c.ctxcount,
    ovbase := c.ovbase, ovsize := c.ovsize, frTail := 0, quota := tableOf 4095 c.quota, rate := tableOf Config.fusedRate c.rate,
    queues := c.queues.zipIdx.foldl (fun m q => put {} m q.2 { base := q.1.1, log := q.1.2.1, pri := q.1.2.2.1, gen := q.1.2.2.2 }) [] }

def execPartconfig (p : Nat) (cfg : PartCfg) (s : State) : Host.Outcome State Fault Refusal :=
  .next (if s.npart ≤ p || !s.cfgOk p cfg then s.answer 1 []
    else if !s.idle then s.answer 7 []
    else
      let s := s.setPart p ((s.part p).configure cfg)
      let heads := cfg.queues.foldl (fun m q => if q.2.1 == 0 then m else wrN m q.1 4 0) s.hbm
      { s with hbm := wrN heads (cfg.frbase + 4) 4 0 }.answer 0 [])

/-! ### FIRMWARE and POWER -/

/-- FIRMWARE: the image is replaced; one that the checks refuse is not run, and the recovery loader waits for another. DEDUCED, log [107]. -/
def execFirmware (img : FwImage) (s : State) : Host.Outcome State Fault Refusal :=
  let t : State := { s with image := some img }
  .next (if s.accepts img then (t.runImage img).answer 0 [] else { t with dev := .recovery }.answer 1 [])

/-- POWER: the state is set, and the clock is what it allows; in IDLE the clusters without work are gated (`State.clocked`). -/
def execPower (st : PowerState) (s : State) : Host.Outcome State Fault Refusal :=
  .next ({ s with power := st, khz := ceiling st }.answer 0 [])

end Sys2Proof.Machine
end

