-- ==== Sys2Proof/Machine/Wake.lean ====
section
/-! DEFINITION. Machine/Wake.lean: a stalled instruction goes on: the waits of 08 R162, R165, 09 R217, R218, 10 R249, 11 R277, 13 R287,
R292, R299, 01 R28, 18 R372, R375. -/

namespace Sys2Proof.Machine

/-- The instruction at which a path that may issue stands stalled. -/
def stalledAt (s : State) (ctx slot : Nat) : Option Instr :=
  if canIssue s ctx slot && ((s.group ctx).path slot).stall != 0 then
    match fetch { s with cur := (ctx, slot) } with
    | .instr i => some i
    | .stop _ => none
  else none

/-- A stalled path issues again as the next occurrence. -/
def reissue (s : State) (ctx slot : Nat) : State := { s with agenda := .issue ctx slot :: s.agenda }

/-- WAIT_RETURN: a stalled `wait` or `waitr` ends or raises a held fault. -/
def execWaitReturn (ctx slot : Nat) (s : State) : Host.Outcome State Fault Refusal :=
  match stalledAt s ctx slot with
  | some (.wait f) => execWait f { s with cur := (ctx, slot) }
  | some (.waitr f) => execWaitr f { s with cur := (ctx, slot) }
  | _ => .next s

/-- ACCWAIT_RETURN: the version has arrived, or a matrix fault is held. -/
def execAccwaitReturn (ctx slot : Nat) (s : State) : Host.Outcome State Fault Refusal :=
  match stalledAt s ctx slot with
  | some (.accwait f) => execAccwait f { s with cur := (ctx, slot) }
  | _ => .next s

/-- ACCPATCH_APPLY: the expected version has arrived. -/
def execAccpatchApply (ctx slot : Nat) (s : State) : Host.Outcome State Fault Refusal :=
  match stalledAt s ctx slot with
  | some (.accpatch f) => execAccpatch f { s with cur := (ctx, slot) }
  | _ => .next s

/-- PBWAIT_RETURN: the phase has changed, or the barrier is broken. -/
def execPbwaitReturn (ctx slot : Nat) (s : State) : Host.Outcome State Fault Refusal :=
  match stalledAt s ctx slot with
  | some (.pbwait f) => execPbwait f { s with cur := (ctx, slot) }
  | _ => .next s

/-- TWILL_PLACES_TAKEN: S places fit. -/
def execTwillPlacesTaken (ctx slot : Nat) (s : State) : Host.Outcome State Fault Refusal :=
  match stalledAt s ctx slot with
  | some (.twill f) => execTwill f { s with cur := (ctx, slot) }
  | _ => .next s

/-- ARBITER_WAKE: every sibling has posted or ended. -/
def execArbiterWake (ctx slot : Nat) (s : State) : Host.Outcome State Fault Refusal :=
  match stalledAt s ctx slot with
  | some (.choose f) => execChoose f { s with cur := (ctx, slot) }
  | some (.wjoin f) => execWjoin f { s with cur := (ctx, slot) }
  | _ => .next s

/-- CARRY_READ_WAKE: an instruction that waits for a carry value issues again (R292). -/
def execCarryReadWake (ctx slot : Nat) (s : State) : Host.Outcome State Fault Refusal :=
  .next (if (stalledAt s ctx slot).isSome && ((s.group ctx).path slot).stall == 9 then reissue s ctx slot else s)

/-- QUEUE_REGISTER_WAKE: an instruction that waits for a word or for room in a queue issues again (R28, R169). -/
def execQueueRegisterWake (ctx slot : Nat) (s : State) : Host.Outcome State Fault Refusal :=
  .next (if (stalledAt s ctx slot).isSome && ((s.group ctx).path slot).stall == 10 then reissue s ctx slot else s)

/-- The stage that an iteration group waits to begin is open: its predecessor has retired, or has released that stage (R299). -/
def State.stageOpen (s : State) (it : Iter) : Bool :=
  match s.loopOf it.launcher with
  | some lp => !lp.live.any fun d => Loop.iterOf s d + 1 == it.i && get 0 lp.released (Loop.iterOf s d) ≤ it.k
  | none => true

/-- ORDERED_STAGE_WAKE: a stage of an ordered loop begins, as an acquire. -/
def execOrderedStageWake (ctx : Nat) (s : State) : Host.Outcome State Fault Refusal :=
  .next (match (s.group ctx).it with
    | some it => if it.waitRel && s.stageOpen it && s.clocked (s.group ctx).core then s.setGroup ctx { s.group ctx with it := some { it with waitRel := false } } else s
    | none => s)

/-- SLEEP_EXPIRY: no cycle of the sleep remains (R277). -/
def execSleepExpiry (ctx slot : Nat) (s : State) : Host.Outcome State Fault Refusal :=
  .next (let g := s.group ctx
    if g.present && s.clocked g.core && (g.path slot).sleep == 1 && (pathIn g.stack slot).isSome then
      let g := g.setPath slot { g.path slot with sleep := 0 }
      s.setGroup ctx (g.restack (tidy (g.stack.length + 1) g.stack)).flushKills
    else s)

end Sys2Proof.Machine
end

