-- ==== Sys2Proof/Machine/Dispatch.lean ====
section
/-! DEFINITION. Machine/Dispatch.lean: one arm per constructor of Instr, each a direct call of its meaning. -/

namespace Sys2Proof.Machine

def exec (i : Instr) (s : State) : Host.Outcome State Fault Refusal :=
  match i with
  | .nop g => Sys2Proof.Machine.execNop g s
  | .mov f => Sys2Proof.Machine.execMov f s
  | .add f => Sys2Proof.Machine.execAdd f s
  | .sub f => Sys2Proof.Machine.execSub f s
  | .mul f => Sys2Proof.Machine.execMul f s
  | .mulhi f => Sys2Proof.Machine.execMulhi f s
  | .mad f => Sys2Proof.Machine.execMad f s
  | .min f => Sys2Proof.Machine.execMin f s
  | .max f => Sys2Proof.Machine.execMax f s
  | .and f => Sys2Proof.Machine.execAnd f s
  | .or f => Sys2Proof.Machine.execOr f s
  | .xor f => Sys2Proof.Machine.execXor f s
  | .shl f => Sys2Proof.Machine.execShl f s
  | .shr f => Sys2Proof.Machine.execShr f s
  | .sra f => Sys2Proof.Machine.execSra f s
  | .rot f => Sys2Proof.Machine.execRot f s
  | .bfx f => Sys2Proof.Machine.execBfx f s
  | .bfi f => Sys2Proof.Machine.execBfi f s
  | .popc f => Sys2Proof.Machine.execPopc f s
  | .clz f => Sys2Proof.Machine.execClz f s
  | .brev f => Sys2Proof.Machine.execBrev f s
  | .cmp f => Sys2Proof.Machine.execCmp f s
  | .sel f => Sys2Proof.Machine.execSel f s
  | .div f => Sys2Proof.Machine.execDiv f s
  | .rem f => Sys2Proof.Machine.execRem f s
  | .prm f => Sys2Proof.Machine.execPrm f s
  | .lop f => Sys2Proof.Machine.execLop f s
  | .fadd f => Sys2Proof.Machine.execFadd f s
  | .fsub f => Sys2Proof.Machine.execFsub f s
  | .fmul f => Sys2Proof.Machine.execFmul f s
  | .ffma f => Sys2Proof.Machine.execFfma f s
  | .fmin f => Sys2Proof.Machine.execFmin f s
  | .fmax f => Sys2Proof.Machine.execFmax f s
  | .fcmp f => Sys2Proof.Machine.execFcmp f s
  | .fdiv f => Sys2Proof.Machine.execFdiv f s
  | .frcp f => Sys2Proof.Machine.execFrcp f s
  | .fsqrt f => Sys2Proof.Machine.execFsqrt f s
  | .frsq f => Sys2Proof.Machine.execFrsq f s
  | .fexp2 f => Sys2Proof.Machine.execFexp2 f s
  | .flog2 f => Sys2Proof.Machine.execFlog2 f s
  | .ftanh f => Sys2Proof.Machine.execFtanh f s
  | .fclass f => Sys2Proof.Machine.execFclass f s
  | .fldexp f => Sys2Proof.Machine.execFldexp f s
  | .frnd f => Sys2Proof.Machine.execFrnd f s
  | .cvt f => Sys2Proof.Machine.execCvt f s
  | .pack f => Sys2Proof.Machine.execPack f s
  | .unpack f => Sys2Proof.Machine.execUnpack f s
  | .quant f => Sys2Proof.Machine.execQuant f s
  | .scl f => Sys2Proof.Machine.execScl f s
  | .dot f => Sys2Proof.Machine.execDot f s
  | .shfl f => Sys2Proof.Machine.execShfl f s
  | .qxch f => Sys2Proof.Machine.execQxch f s
  | .vote f => Sys2Proof.Machine.execVote f s
  | .gred f => Sys2Proof.Machine.execGred f s
  | .gscan f => Sys2Proof.Machine.execGscan f s
  | .reorder f => Sys2Proof.Machine.execReorder f s
  | .rdlane f => Sys2Proof.Machine.execRdlane f s
  | .cset f => Sys2Proof.Machine.execCset f s
  | .cfwd f => Sys2Proof.Machine.execCfwd f s
  | .cstat f => Sys2Proof.Machine.execCstat f s
  | .rand f => Sys2Proof.Machine.execRand f s
  | .rkey f => Sys2Proof.Machine.execRkey f s
  | .sget f => Sys2Proof.Machine.execSget f s
  | .sset f => Sys2Proof.Machine.execSset f s
  | .cap f => Sys2Proof.Machine.execCap f s
  | .clk f => Sys2Proof.Machine.execClk f s
  | .ld f => Sys2Proof.Machine.execLd f s
  | .st f => Sys2Proof.Machine.execSt f s
  | .amoAdd f => Sys2Proof.Machine.execAmoAdd f s
  | .amoMin f => Sys2Proof.Machine.execAmoMin f s
  | .amoMax f => Sys2Proof.Machine.execAmoMax f s
  | .amoAnd f => Sys2Proof.Machine.execAmoAnd f s
  | .amoOr f => Sys2Proof.Machine.execAmoOr f s
  | .amoXor f => Sys2Proof.Machine.execAmoXor f s
  | .amoXchg f => Sys2Proof.Machine.execAmoXchg f s
  | .amoCas f => Sys2Proof.Machine.execAmoCas f s
  | .amoFadd f => Sys2Proof.Machine.execAmoFadd f s
  | .pref f => Sys2Proof.Machine.execPref f s
  | .pgreq f => Sys2Proof.Machine.execPgreq f s
  | .smap f => Sys2Proof.Machine.execSmap f s
  | .swb f => Sys2Proof.Machine.execSwb f s
  | .sdrop f => Sys2Proof.Machine.execSdrop f s
  | .bra f => Sys2Proof.Machine.execBra f s
  | .brx f => Sys2Proof.Machine.execBrx f s
  | .brt f => Sys2Proof.Machine.execBrt f s
  | .call f => Sys2Proof.Machine.execCall f s
  | .callx f => Sys2Proof.Machine.execCallx f s
  | .ret f => Sys2Proof.Machine.execRet f s
  | .exit f => Sys2Proof.Machine.execExit f s
  | .brk f => Sys2Proof.Machine.execBrk f s
  | .qpush f => Sys2Proof.Machine.execQpush f s
  | .qpop f => Sys2Proof.Machine.execQpop f s
  | .qpoll f => Sys2Proof.Machine.execQpoll f s
  | .mma f => Sys2Proof.Machine.execMma f s
  | .mmd f => Sys2Proof.Machine.execMmd f s
  | .accwait f => Sys2Proof.Machine.execAccwait f s
  | .accpatch f => Sys2Proof.Machine.execAccpatch f s
  | .acczero f => Sys2Proof.Machine.execAcczero f s
  | .accld f => Sys2Proof.Machine.execAccld f s
  | .cpld f => Sys2Proof.Machine.execCpld f s
  | .cpst f => Sys2Proof.Machine.execCpst f s
  | .cpred f => Sys2Proof.Machine.execCpred f s
  | .cpgat f => Sys2Proof.Machine.execCpgat f s
  | .tspawn f => Sys2Proof.Machine.execTspawn f s
  | .tcont f => Sys2Proof.Machine.execTcont f s
  | .fork f => Sys2Proof.Machine.execFork f s
  | .choose f => Sys2Proof.Machine.execChoose f s
  | .wdone f => Sys2Proof.Machine.execWdone f s
  | .wjoin f => Sys2Proof.Machine.execWjoin f s
  | .wabort f => Sys2Proof.Machine.execWabort f s
  | .wait f => Sys2Proof.Machine.execWait f s
  | .waitr f => Sys2Proof.Machine.execWaitr f s
  | .fence f => Sys2Proof.Machine.execFence f s
  | .acq f => Sys2Proof.Machine.execAcq f s
  | .rel f => Sys2Proof.Machine.execRel f s
  | .bind f => Sys2Proof.Machine.execBind f s
  | .unbind f => Sys2Proof.Machine.execUnbind f s
  | .bsync f => Sys2Proof.Machine.execBsync f s
  | .pbinit f => Sys2Proof.Machine.execPbinit f s
  | .pbarr f => Sys2Proof.Machine.execPbarr f s
  | .pbwait f => Sys2Proof.Machine.execPbwait f s
  | .ufence f => Sys2Proof.Machine.execUfence f s
  | .renter f => Sys2Proof.Machine.execRenter f s
  | .rleave f => Sys2Proof.Machine.execRleave f s
  | .tmark f => Sys2Proof.Machine.execTmark f s
  | .trap f => Sys2Proof.Machine.execTrap f s
  | .eret f => Sys2Proof.Machine.execEret f s
  | .sleep f => Sys2Proof.Machine.execSleep f s
  | .perf f => Sys2Proof.Machine.execPerf f s
  | .twill f => Sys2Proof.Machine.execTwill f s
  | .turn f => Sys2Proof.Machine.execTurn f s
  | .tbrk f => Sys2Proof.Machine.execTbrk f s
  | .launch p q => Sys2Proof.Machine.execLaunch p q s
  | .load p q => Sys2Proof.Machine.execLoad p q s
  | .objupdate p q => Sys2Proof.Machine.execObjupdate p q s
  | .extupdate p q => Sys2Proof.Machine.execExtupdate p q s
  | .watch p q => Sys2Proof.Machine.execWatch p q s
  | .traceOff p q => Sys2Proof.Machine.execTraceOff p q s
  | .traceOn p q => Sys2Proof.Machine.execTraceOn p q s
  | .traceDrain p q => Sys2Proof.Machine.execTraceDrain p q s
  | .resolveRetry p q => Sys2Proof.Machine.execResolveRetry p q s
  | .resolveDeliver p q => Sys2Proof.Machine.execResolveDeliver p q s
  | .preempt p q => Sys2Proof.Machine.execPreempt p q s
  | .restore p q => Sys2Proof.Machine.execRestore p q s
  | .grant p q => Sys2Proof.Machine.execGrant p q s
  | .migrate p q => Sys2Proof.Machine.execMigrate p q s
  | .summary => Sys2Proof.Machine.execSummary s
  | .attest p nonce => Sys2Proof.Machine.execAttest p nonce s
  | .partcount n => Sys2Proof.Machine.execPartcount n s
  | .partconfig p cfg => Sys2Proof.Machine.execPartconfig p cfg s
  | .firmware img => Sys2Proof.Machine.execFirmware img s
  | .power st => Sys2Proof.Machine.execPower st s
  | .launchActivation p q => Sys2Proof.Machine.execLaunchActivation p q s
  | .blockPlacement p cores => Sys2Proof.Machine.execBlockPlacement p cores s
  | .gangAges cluster => Sys2Proof.Machine.execGangAges cluster s
  | .blockRetirement b => Sys2Proof.Machine.execBlockRetirement b s
  | .matrixCommandStart space n => Sys2Proof.Machine.execMatrixCommandStart space n s
  | .matrixCommandCompletion space => Sys2Proof.Machine.execMatrixCommandCompletion space s
  | .copyCompletion ctx => Sys2Proof.Machine.execCopyCompletion ctx s
  | .engineFault ctx => Sys2Proof.Machine.execEngineFault ctx s
  | .loadCompletion ctx n => Sys2Proof.Machine.execLoadCompletion ctx n s
  | .storeCompletion ctx n => Sys2Proof.Machine.execStoreCompletion ctx n s
  | .waitReturn ctx slot => Sys2Proof.Machine.execWaitReturn ctx slot s
  | .accwaitReturn ctx slot => Sys2Proof.Machine.execAccwaitReturn ctx slot s
  | .accpatchApply ctx slot => Sys2Proof.Machine.execAccpatchApply ctx slot s
  | .bsyncComplete b => Sys2Proof.Machine.execBsyncComplete b s
  | .reorderMeet b part => Sys2Proof.Machine.execReorderMeet b part s
  | .pbwaitReturn ctx slot => Sys2Proof.Machine.execPbwaitReturn ctx slot s
  | .carryReadWake ctx slot => Sys2Proof.Machine.execCarryReadWake ctx slot s
  | .queueRegisterWake ctx slot => Sys2Proof.Machine.execQueueRegisterWake ctx slot s
  | .twillPlacesTaken ctx slot => Sys2Proof.Machine.execTwillPlacesTaken ctx slot s
  | .orderedStageWake ctx => Sys2Proof.Machine.execOrderedStageWake ctx s
  | .arbiterWake ctx slot => Sys2Proof.Machine.execArbiterWake ctx slot s
  | .viewLineRetag line world => Sys2Proof.Machine.execViewLineRetag line world s
  | .sleepExpiry ctx slot => Sys2Proof.Machine.execSleepExpiry ctx slot s
  | .taskDequeue ctx => Sys2Proof.Machine.execTaskDequeue ctx s
  | .taskRecordAges launch pri => Sys2Proof.Machine.execTaskRecordAges launch pri s
  | .noWorkerTake launch pri => Sys2Proof.Machine.execNoWorkerTake launch pri s
  | .taskRetirement ctx => Sys2Proof.Machine.execTaskRetirement ctx s
  | .ringFull launch => Sys2Proof.Machine.execRingFull launch s
  | .groupSave ctx => Sys2Proof.Machine.execGroupSave ctx s
  | .faultRingPosting p => Sys2Proof.Machine.execFaultRingPosting p s
  | .icacheLineFill core code line => Sys2Proof.Machine.execIcacheLineFill core code line s
  | .directoryRecall ctx line write => Sys2Proof.Machine.execDirectoryRecall ctx line write s
  | .apertureRefusal ctx n => Sys2Proof.Machine.execApertureRefusal ctx n s
  | .uncorrectableError u => Sys2Proof.Machine.execUncorrectableError u s
  | .thermalTrip die => Sys2Proof.Machine.execThermalTrip die s
  | .clockThrottle khz => Sys2Proof.Machine.execClockThrottle khz s
  | .thermalGating cluster => Sys2Proof.Machine.execThermalGating cluster s
  | .clusterReturn cluster => Sys2Proof.Machine.execClusterReturn cluster s
  | .firmwareBoot => Sys2Proof.Machine.execFirmwareBoot s
  | .supplyOff => Sys2Proof.Machine.execSupplyOff s
  | .arithmeticClockCycle => Sys2Proof.Machine.execArithmeticClockCycle s
  | .cacheEviction e => Sys2Proof.Machine.execCacheEviction e s
  | .singleBitError => Sys2Proof.Machine.execSingleBitError s
  | .remoteStore p agent obj off bytes => Sys2Proof.Machine.execRemoteStore p agent obj off bytes s
  | .powerFault => Sys2Proof.Machine.execPowerFault s

end Sys2Proof.Machine
end

