-- ==== Sys2Proof/Machine/Schedule.lean ====
section
/-! DEFINITION. Machine/Schedule.lean: how an occurrence runs, and which one comes when the agenda names none: one order among those
that the manual allows (log [1], DESIGN CHOICE). -/

namespace Sys2Proof.Machine

/-- A path issues: its slot is fetched and decoded, and the instruction runs. A path that cannot issue changes nothing. -/
def issueStep (ctx slot : Nat) (s : State) : Host.Outcome State Fault Refusal :=
  if canIssue s ctx slot then
    match fetch { s with cur := (ctx, slot) } with
    | .instr i => exec i (({ s with cur := (ctx, slot) } : State).noteFront i)
    | .stop e => .next (takeStop { s with cur := (ctx, slot) } e)
  else .next s

/-- The reason under which the instruction of a path would stall if it were selected. -/
def trialReason (s : State) (ctx slot : Nat) : Option Nat :=
  match issueStep ctx slot s with
  | .next t => let r := ((t.group ctx).path slot).stall
    if r != 0 && (t.group ctx).issued == (s.group ctx).issued then some r else none
  | _ => none

/-- At the end of a cycle a path that has not been selected and would not issue has its reason, so that the cycle counts under it (11 R261,
22 R427); nothing else comes of the trial. -/
def State.withReasons (s : State) : State :=
  { s with groups := s.groups.map fun e =>
      if e.2.issuedNow s.now then e else
      (e.1, [0, 1].foldl (fun (g : Group) k =>
        if (pathIn g.stack k).isSome && canIssue s e.1 k && (g.path k).stall == 0 then
          (match trialReason s e.1 k with | some r => g.setPath k { g.path k with stall := r } | none => g)
        else g) e.2) }

/-- One occurrence. DESIGN CHOICE, log [1]. -/
def stepOcc (o : Occ) (s : State) : Host.Outcome State Fault Refusal :=
  match o with
  | .issue ctx slot => issueStep ctx slot s
  | .event .arithmeticClockCycle => exec .arithmeticClockCycle s.withReasons
  | .event i => exec i s

/-! ### The default order -/

/-- What may come next for a group. -/
def groupEvents (e : Nat × Group) : List Instr :=
  let c := e.1
  ((e.2.stack.filter (·.stall == 11)).map fun p => Instr.icacheLineFill e.2.core e.2.code (lineOfPc p.pc)) ++
  (if e.2.stack.any (·.stall == 11) then [.apertureRefusal c 0] else []) ++
  (e.2.ops.map fun o => if Op.returns o then Instr.loadCompletion c o.id else Instr.storeCompletion c o.id)
    ++ (if e.2.copies.isEmpty then [] else [.copyCompletion c])
    ++ [.sleepExpiry c 0, .sleepExpiry c 1, .twillPlacesTaken c 0, .orderedStageWake c, .taskRetirement c, .taskDequeue c, .groupSave c]

/-- What may come next for a block. -/
def blockEvents (e : Nat × Block) : List Instr :=
  [.bsyncComplete e.1] ++ ((List.range e.2.spaces.length).map fun k => Instr.reorderMeet e.1 k) ++ [.blockRetirement e.1]

/-- What may come next for a launch. -/
def launchEvents (id : Nat) : List Instr :=
  ((List.range 4).map fun k => Instr.taskRecordAges id k) ++ ((List.range 4).map fun k => Instr.noWorkerTake id k) ++ [.ringFull id]

/-- The command at the head of a queue. -/
def commandEvent (s : State) (p q : Nat) : Instr :=
  let b := (s.queue p q).entry s.hbm
  match fld b 0 1, actionOf b with
  | 2, _ => .load p q
  | 3, _ => .objupdate p q
  | 4, _ => .extupdate p q
  | 5, _ => .watch p q
  | 6, 1 => .traceOn p q
  | 6, 2 => .traceDrain p q
  | 6, _ => .traceOff p q
  | 7, 1 => .resolveDeliver p q
  | 7, _ => .resolveRetry p q
  | 8, _ => .preempt p q
  | 9, _ => .restore p q
  | 10, _ => .grant p q
  | 11, _ => .migrate p q
  | _, _ => .launch p q

/-- What may come next for a device partition. -/
def partEvents (s : State) (p : Nat) : List Instr :=
  (((s.part p).queues.map fun q => [Instr.launchActivation p q.1, commandEvent s p q.1]).flatten) ++ [.faultRingPosting p, .blockPlacement p []]

/-- Everything that may come next, in the default order. DESIGN CHOICE, log [1]. -/
def candidates (s : State) : List Instr :=
  (s.groups.map groupEvents).flatten
    ++ ((s.spaces.map fun e => Instr.matrixCommandCompletion e.1 :: ((List.range e.2.ring.length).map fun n => Instr.matrixCommandStart e.1 n)).flatten)
    ++ (s.blocks.map blockEvents).flatten
    ++ (s.launches.map fun e => launchEvents e.1).flatten
    ++ ((List.range s.npart).map (partEvents s)).flatten
    ++ ((List.range Config.clusters).map fun c => Instr.gangAges c)
    ++ s.views.map fun v => Instr.viewLineRetag v.line v.world

/-- The first occurrence of a list that changes the state. DESIGN CHOICE, log [1]. -/
def firstChange (s : State) : List Instr → Option Instr
  | [] => none
  | i :: r => match exec i s with
    | .next t => if t == s then firstChange s r else some i
    | _ => firstChange s r

/-- A path that no port serves in this cycle but that would stall if it were selected, which is where it arrives at a barrier or parks. -/
def untried (s : State) : Option (Nat × Nat) :=
  (s.groups.map (·.1)).findSome? fun n =>
    if (s.group n).issuedNow s.now then none
    else ([0, 1].find? fun k => canIssue s n k && ((s.group n).path k).stall == 0 && (trialReason s n k).isSome).map (n, ·)

/-- The occurrence that comes when the agenda names none: an issue, else an event that changes something, else the next cycle. DESIGN CHOICE, log [1]. -/
def defaultOcc (s : State) : Occ :=
  match (oldestReady s).orElse fun _ => untried s with
  | some (c, k) => .issue c k
  | none => match firstChange s (candidates s) with
    | some i => .event i
    | none => .event .arithmeticClockCycle

end Sys2Proof.Machine
end

