-- ==== Sys2Proof/Machine/Step.lean ====
section
/-! DEFINITION. Machine/Step.lean: one step of the machine: the next occurrence of the agenda, or without one the occurrence that
the default order brings (log [1], DESIGN CHOICE). -/

namespace Sys2Proof.Machine

/-- One step; a device whose supply is off stops (23 R452). DESIGN CHOICE, log [1]. -/
def step (s : State) : Host.Outcome State Fault Refusal :=
  if s.dev == .off then .fault .supplyOff
  else match s.agenda with
    | o :: r => stepOcc o { s with agenda := r }
    | [] => stepOcc (defaultOcc s) s

/-- `s` with the instruction of `nbits` bits `w` where the next step fetches it (log [5], DEDUCED). -/
def State.withFetchWord (s : State) (nbits w : Nat) : State := placeOne s (w % 2 ^ nbits)

end Sys2Proof.Machine
end

