-- ==== Sys2Proof/Safety.lean ====
section
/-! DEFINITION. Safety.lean: the terms in which claims are stated: a safe step, what an instruction of one group changes, how the
issuing path moves, and what a value instruction needs. -/

namespace Sys2Proof

/-- The step answers a next state: neither a fault nor a refusal. -/
def SafeStep (s : Machine.State) : Prop := ∃ t, Machine.step s = .next t

namespace Machine

/-! ### How the issuing path moves -/

/-- The path in `slot` continues at `pc`, paths that stand at their rcv rejoin (11 R266), and the issue is counted; the age counts from
the last instruction that took a beat (11 R262). -/
def Group.moved (g g' : Group) (slot now : Nat) (pc : Word) : Prop :=
  g'.stack = tidy (g.stack.length + 1) (setAt g.stack slot { g.path slot with pc := pc, stall := 0, sup := none, tried := false })
    ∧ g'.issued = g.issued + 1 ∧ g'.lastIssue = now + 1 ∧ g'.lastSlot = slot ∧ g'.lastBeat = if g.quiet then g.lastBeat else now

/-- The issuing path continues at the next instruction. -/
def Moves (s t : State) : Prop := s.g.moved t.g s.slot s.now (pcNext (s.g.path s.slot).pc)

/-- Nothing but the issuing group changes. -/
def OnlyGroup (s t : State) : Prop := t = s.setG t.g

/-- Of a group, only the path and what a KILL frees when paths rejoin change (01 R21). -/
def Group.sameButPath (g g' : Group) : Prop :=
  g' = { g with stack := g'.stack, issued := g'.issued, lastIssue := g'.lastIssue, lastBeat := g'.lastBeat, lastSlot := g'.lastSlot,
                moving := g'.moving, v := g'.v, mapped := g'.mapped, dkill := g'.dkill, vpois := g'.vpois }

/-- Beside the path: vector names, predicates, pops of the queues and the random counters, which a value instruction may change. -/
def Group.sameButValues (g g' : Group) : Prop :=
  g' = { g with stack := g'.stack, issued := g'.issued, lastIssue := g'.lastIssue, lastBeat := g'.lastBeat, lastSlot := g'.lastSlot,
                moving := g'.moving, v := g'.v, mapped := g'.mapped, dkill := g'.dkill, vpois := g'.vpois, p := g'.p, qm := g'.qm,
                qx := g'.qx, qk := g'.qk, ctr := g'.ctr }

/-! ### Value instructions -/

/-- A value instruction (03 R65): its OPC value, its fields, and its result from the operand values and the words it draws. -/
def valueOf : Instr → Option (Nat × AluF × (List Nat → List Word → Nat))
  | .mov f => some (0x01, f, bitOp f fun a _ _ => a)
  | .add f => some (0x02, f, intOp f fun a b _ => a + b)
  | .sub f => some (0x03, f, intOp f fun a b _ => a - b)
  | .mul f => some (0x04, f, intOp f fun a b _ => a * b)
  | .mulhi f => some (0x05, f, intOp f fun a b _ => a * b / (2 ^ tyBits f.ty : Nat))
  | .mad f => some (0x06, f, intOp f fun a b c => a * b + c)
  | .min f => some (0x07, f, intOp f fun a b _ => Min.min a b)
  | .max f => some (0x08, f, intOp f fun a b _ => Max.max a b)
  | .and f => some (0x09, f, bitOp f fun a b _ => a &&& b)
  | .or f => some (0x0A, f, bitOp f fun a b _ => a ||| b)
  | .xor f => some (0x0B, f, bitOp f fun a b _ => a ^^^ b)
  | .shl f => some (0x0C, f, bitOp f fun a b _ => shlN (tyBits f.ty) a (b % 2 ^ 32))
  | .shr f => some (0x0D, f, bitOp f fun a b _ => shrN (tyBits f.ty) a (b % 2 ^ 32))
  | .sra f => some (0x0E, f, bitOp f fun a b _ => sraN (tyBits f.ty) a (b % 2 ^ 32))
  | .rot f => some (0x0F, f, bitOp f fun a b _ => rotN (tyBits f.ty) a (b % 2 ^ 32))
  | .bfx f => some (0x10, f, bitOp f fun a b _ => bfxN f.ty.isSigned a b)
  | .bfi f => some (0x11, f, bitOp f fun a b c => bfiN a b c)
  | .popc f => some (0x12, f, bitOp f fun a _ _ => popN (tyBits f.ty) a)
  | .clz f => some (0x13, f, bitOp f fun a _ _ => clzN (tyBits f.ty) a)
  | .brev f => some (0x14, f, bitOp f fun a _ _ => revN (tyBits f.ty) a)
  | .cmp f => some (0x15, f, cmpAll f)
  | .sel f => some (0x16, f, bitOp f fun a b p => if p == 0 then b else a)
  | .div f => some (0x17, f, intOp f fun a b _ => divInt a b)
  | .rem f => some (0x18, f, intOp f fun a b _ => remInt a b)
  | .prm f => some (0x19, f, bitOp f fun a b c => packBits 8 ((List.range 4).map fun i => prmByte a b c i))
  | .lop f => some (0x1A, f, bitOp f fun a b _ => lopN f.var.toNat (tyBits f.ty) a b)
  | .fadd f => some (0x20, f, fltOp f fun a b _ => addR f a b)
  | .fsub f => some (0x21, f, fltOp f fun a b _ => addR f a b.neg)
  | .fmul f => some (0x22, f, fltOp f fun a b _ => ((a.mul b).scale (dscOf f)).r)
  | .ffma f => some (0x23, f, fltOp f fun a b c => addR f (a.mul b) c)
  | .fmin f => some (0x24, f, mmOp f false)
  | .fmax f => some (0x25, f, mmOp f true)
  | .fcmp f => some (0x26, f, fcmpAll f)
  | .fdiv f => some (0x27, f, fltOp f fun a b _ => (a.scale (dscOf f)).div b)
  | .frcp f => some (0x28, f, fltOp f fun a _ _ => one.div a)
  | .fsqrt f => some (0x29, f, fltOp f fun a _ _ => a.sqrt)
  | .frsq f => some (0x2A, f, fltOp f fun a _ _ => a.rsqrt)
  | .fexp2 f => some (0x2B, f, fltOp f fun a _ _ => a.exp2)
  | .flog2 f => some (0x2C, f, fltOp f fun a _ _ => a.log2)
  | .ftanh f => some (0x2D, f, fltOp f fun a _ _ => a.tanh)
  | .fclass f => some (0x2E, f, fun xs _ => 2 ^ classBit (tyFmt f.ty) (elemAt f.ty (argA xs) 0))
  | .fldexp f => some (0x2F, f, fun xs ws => fltOp f (fun a _ _ => (a.scale (sgn 32 (argB xs))).r) xs ws)
  | .frnd f => some (0x30, f, fltOp f fun a _ _ => integral f.var.toNat a)
  | .cvt f => some (0x38, f, cvtFn f)
  | .pack f => some (0x39, f, packFn f)
  | .unpack f => some (0x3A, f, unpackFn f)
  | .scl f => some (0x3C, f, sclFn f)
  | .dot f => some (0x40, f, dotFn f)
  | .sget f => some (0x60, f, bitOp f fun a _ _ => a)
  | _ => none

/-- The registers of a value instruction's destination. -/
def dstCount (opc : Nat) (f : AluF) : Nat := (aluWidths opc f.ty f.imm).1

/-- An instruction of format A or I reads its sources in the lanes: some live lane executes it, it stands in a window where it
names carries, no source is poisoned or (in checked mode) unmapped, its queue sources hold tokens, and every executing lane reads
the values `xs`; `vo` says which lanes met a void carry. -/
structure LanesRead (s : State) (opc : Nat) (f : AluF) (pops : List (Queue × Word)) (xs : Nat → List Nat) (vo : Nat → Bool) :
    Prop where
  present : s.g.present = true
  window : usesCarry f opc = true → (s.window s.ctx).isSome = true
  runs : s.execLive f.guard ≠ 0
  clean : nameStop s.g (aluUses opc f) = none
  tokens : popsFor s.g (aluUses opc f) = .ok pops
  reads : ∀ l ∈ lanesOf (s.execLanes f.guard), s.rdSrcs s.ctx pops (aluUses opc f) l = .ok (xs l, vo l)

/-- The executing lanes in which a read met a void. -/
def voidsOf (ls : List Nat) (vo : Nat → Bool) : Mask := ls.foldl (fun m l => if vo l then m ||| oneBit l else m) 0

/-- The names that a value instruction writes in the lanes: its destination, and p14 where a read met a void (13 R292). -/
def State.laneWrites (s : State) (opc : Nat) (f : AluF) (vo : Nat → Bool) : List Opnd :=
  dstNames f.dst (dstCount opc f) ++ if voidsOf (lanesOf (s.execLanes f.guard)) vo == 0 then [] else [.p 14]

/-- What a value instruction in the lanes does beside its destination: the path moves on, each queue that it names loses a token
(07 R111), and the executing lanes' random counters move by the words drawn (07 R138). -/
structure LaneEffects (s t : State) (opc : Nat) (f : AluF) (pops : List (Queue × Word)) : Prop where
  moves : Moves s t
  same : s.g.sameButValues t.g
  queues : ∀ q, t.g.queue q = (s.g.popped pops).queue q
  ctr : t.g.ctr = (s.g.stepCtr (lanesOf (s.execLanes f.guard)) (drawsOf opc f)).ctr

/-- The same on the uniform front: the guard passes and the sources give `xs`. -/
structure FrontReads (s : State) (opc : Nat) (f : AluF) (xs : List Nat) : Prop where
  present : s.g.present = true
  onFront : onFront opc f = true
  window : usesCarry f opc = true → (s.window s.ctx).isSome = true
  runs : s.groupPasses f.guard = true
  clean : nameStop s.g (aluUses opc f) = none
  reads : ∃ v, s.rdSrcs s.ctx [] (aluUses opc f) s.frontLane = .ok (xs, v)

/-- What happens to a group beside its queues and its destination: p14 in the lanes that read a void (13 R292), the KILLs
(01 R19), and the words drawn by the executing lanes (07 R138). -/
def State.laneRest (s : State) (opc : Nat) (f : AluF) (vo : Nat → Bool) (g : Group) : Group :=
  ((g.voided (voidsOf (lanesOf (s.execLanes f.guard)) vo)).kill (killSet (aluUses opc f))).stepCtr (lanesOf (s.execLanes f.guard))
    (drawsOf opc f)

/-- The lowest executing lane that is no helper, whose result a queue destination takes (07 R110). -/
def State.firstLive (s : State) (f : AluF) : Nat := ((lanesOf (s.execLanes f.guard)).find? (bitOf (s.execLive f.guard))).getD 0

/-- The destination of a lane instruction takes the results `y` in `n` registers: no operation in flight is to write its names, the
register budget holds them (01 R20), a carry name may be yielded and stands empty or earlier in every lane (13 R293), a queue has room
for the marker or the staged word (08 R168, 15 R336). -/
structure DstTakes (s : State) (opc : Nat) (f : AluF) (n : Nat) (vo : Nat → Bool) (y : Nat → Nat) : Prop where
  free : s.g.pendingWrite (dstNames f.dst n ++ if voidsOf (lanesOf (s.execLanes f.guard)) vo == 0 then [] else [.p 14]) = none
  budget : f.dst.isV = true → s.g.needs (killSet (aluUses opc f)) (dstV f.dst n) ≤ s.g.peak
  yields : ∀ k, f.dst = .c k → s.mayYield s.ctx k.toNat = true
    ∧ ∀ l ∈ lanesOf (s.execLanes f.guard), s.carryBad s.ctx k.toNat l = none
  markM : f.dst = .q .qm → (wordN (y (s.firstLive f)) 0).toNat < 65536 ∧ s.g.mkM.length < 64
  markX : f.dst = .q .qx → (wordN (y (s.firstLive f)) 0).toNat < 65536 ∧ s.g.mkX.length < 64
  stages : f.dst = .q .qk → s.g.staged.length < 15

/-- The group once the queue destination of a lane instruction holds the word `w`. -/
def State.pushed (s : State) (q : Queue) (w : Word) (g : Group) : Group :=
  match q with
  | .qm => ({ g with mkM := g.mkM ++ [⟨w, s.mIds s.ctx⟩] } : Group).settleM
  | .qx => ({ g with mkX := g.mkX ++ [⟨w, g.xIds⟩] } : Group).settleX
  | .qk => { g with staged := g.staged ++ [w] }

/-- The state once the destination has taken the results `y` of the executing lanes, before the path moves on. -/
def State.taken (s : State) (opc : Nat) (f : AluF) (pops : List (Queue × Word)) (vo : Nat → Bool) (n : Nat) (y : Nat → Nat) : State :=
  let ls := lanesOf (s.execLanes f.guard)
  match f.dst with
  | .c k => ls.foldl (fun u l => u.carryWrite s.ctx k.toNat l (wordN (y l) 0) (bitOf (u.group s.ctx).helper l))
      (s.setG (s.laneRest opc f vo (s.g.popped pops)))
  | .q q => s.setG (s.laneRest opc f vo (s.pushed q (wordN (y (s.firstLive f)) 0) (s.g.popped pops)))
  | d => s.setG ((s.laneRest opc f vo (s.g.popped pops)).dstWrite d n (ls.map fun l => (l, y l)))

/-- Source A of a cross-lane operation as lane `j` holds it (07 R128). -/
def State.crossSrc (s : State) (opc : Nat) (f : AluF) (xs : Nat → List Nat) (j : Nat) : Nat :=
  if j ∈ lanesOf (s.execLanes f.guard) then argA (xs j)
  else match aluUses opc f with | u :: _ => s.idleSrc s.ctx u j | [] => 0

/-- The result of a value instruction in lane `l`. -/
def State.laneResult (s : State) (opc : Nat) (f : AluF) (fn : List Nat → List Word → Nat) (xs : Nat → List Nat) (l : Nat) : Nat :=
  fn (placeImm opc f (xs l)) (s.g.drawn l (drawsOf opc f))

/-! ### Branches -/

/-- The issuing path after a branch that sends lane `l` to `t l` (11 R265, R266): one target set goes there, several divide the
path, and the issue is counted. -/
def State.branched (s : State) (t : Nat → Word) (rcv : Word) : State :=
  match targetSets s.pathMask t with
  | [] => s.advance
  | [(pc, _)] => s.setG ((s.g.countIssue s.slot s.now).goto s.slot pc)
  | sets => (s.setG (({ (s.g.countIssue s.slot s.now).restack (divide s.g.stack s.slot sets rcv) with lastSlot := 0 } :
      Group).flushKills)).putSpills s.ctx

/-- The branch leaves no more spilled entries than the divergence stack holds (11 R268, 20 R391). -/
def State.branchFits (s : State) (t : Nat → Word) (rcv : Word) : Prop :=
  (targetSets s.pathMask t).length ≤ 1 ∨ spilled (divide s.g.stack s.slot (targetSets s.pathMask t) rcv) ≤ s.g.spillCap

/-- The PC of the issuing path. -/
def State.pc (s : State) : Word := (s.g.path s.slot).pc

/-- No watchpoint unit of the group's partition watches this region edge (22 R425). -/
def State.edgeUnwatched (s : State) (evt : Nat) (id : BitVec 16) : Prop :=
  ∀ i < 16, WatchUnit.edge (get {} (s.part s.g.part).watches i) evt id = false

/-! ### Memory -/

/-- Beyond the checks 1 to 4 of 09 R208 and the stalls, nothing meets a memory instruction: no watchpoint unit and no race detection,
no world escape, no deferral to a world's log, room for its view lines, and every extent that a hard load needs is there. -/
structure MemClear (s : State) (opc : Nat) (f : MemF) (accs : List Acc) : Prop where
  watches : (s.part s.g.part).watches = []
  races : (s.launch (s.block s.g.blk).launch).race = 0
  inside : s.escapes opc f accs = .ok ()
  direct : s.defers opc f accs = false
  room : s.g.world = 0 ∨ opc = 0 ∨ MemF.place f = Where.scr ∨ MemF.place f = Where.acc ∨ s.viewRoom s.g.part s.g.world (s.memOp opc f accs).lines = true
  there : s.missingExts opc f accs = []

/-- `n` bytes of an object lie in device memory from `base` on, in extents that are RESIDENT, and neither a view line, a stash window, a
parked request nor a write that waits stands in between. -/
structure AtHome (s : State) (part obj off n base : Nat) : Prop where
  placed : ∀ i < n, placeOf (s.part part) obj (off + i) = some ⟨false, base + i⟩
  resident : ∀ i < n, ∃ x, ((s.part part).obj obj).ext ((off + i) / 65536) = some x ∧ x.st = .resident
  nothingHeld : (s.part part).heldWrites = []
  nothingParked : ∀ e ∈ s.parts, e.2.parked = []
  views : s.views = []
  stashes : ∀ e ∈ s.groups, e.2.stash = none

/-- Nothing but scratchpad bytes from `base` to `base + n` differs between two states' memories. -/
def ScratchOnly (s t : State) (base n : Nat) : Prop :=
  t.hbm = s.hbm ∧ t.remote = s.remote ∧ t.acc = s.acc ∧ ∀ a, a < base ∨ base + n ≤ a → rdByte t.scr a = rdByte s.scr a

/-- No memory differs between two states. -/
def MemorySame (s t : State) : Prop := t.hbm = s.hbm ∧ t.remote = s.remote ∧ t.acc = s.acc ∧ t.scr = s.scr

/-- The four memories of the package are in canonical form. -/
def State.memoriesWf (s : State) : Bool := Memory.wf s.hbm && Memory.wf s.remote && Memory.wf s.scr && Memory.wf s.acc

/-- The invariant of the machine's tables: the memories are canonical, and groups and blocks stand by rising number. -/
structure State.Inv (s : State) : Prop where
  memories : s.memoriesWf = true
  groups : (s.groups.map (·.1)).Pairwise (· < ·)
  blocks : (s.blocks.map (·.1)).Pairwise (· < ·)

/-! ### Commands -/

/-- The entry `b` stands at the head of a command queue, is legal, asks for operation `op` with action `act`, and its turn has come
(23 R438 to R440). -/
structure CmdAtHead (s : State) (p q op act : Nat) (b : List Byte) : Prop where
  ring : (s.queue p q).log ≠ 0
  waits : (s.queue p q).waiting s.hbm ≠ 0
  entry : (s.queue p q).entry s.hbm = b
  turn : s.cmdWaits (s.queue p q) (fld b 0 1) = false
  legal : (s.queue p q).refusal s.hbm = none
  op : fld b 0 1 = op
  act : actionOf b = act

/-- The command at the head ends with a status and a detail, in a state in which nothing but its effect has happened. -/
def State.ended (s : State) (p q : Nat) (b : List Byte) (code detail : Nat) : State := s.closeCmd p q (fld b 8 8) code detail

/-- The bytes of some packets after the encoder's last times (22 R434). -/
def bufBytes (t sync : Nat) : List Pkt → List Byte
  | [] => []
  | p :: r => (pktBytes t sync p).1 ++ bufBytes (pktBytes t sync p).2.1 (pktBytes t sync p).2.2 r

end Machine

end Sys2Proof
end

