-- ==== Sys2Proof/Certificates/Slice0/Obligations.lean ====
section
/-! DEFINITION. Certificates/Slice0/Obligations.lean: the statements for the provers. -/

open Sys2Proof Sys2Proof.Machine

/-- 02 R42 to R54 with 03 R62 to R75: decoding the encoding of a well-formed instruction gives it back, with every operand at every
value that the encoding admits. An event has no encoding. -/
def Obligations.EncodedInstructionsDecode : Prop :=
  ∀ (i : Instr) (w : BitVec 96), WellFormed i = true → encode i = some w → decode w = .instr i

/-- 02 R60, R61: what the decoder accepts is well-formed and is the encoding of its instruction, so that every other slot is rejected. -/
def Obligations.DecodedSlotsAreCanonical : Prop :=
  ∀ (w : BitVec 96) (i : Instr), decode w = .instr i → WellFormed i = true ∧ encode i = some w

/-- 02 R42 to R54: words that the manual writes out decode to the instructions that it gives for them: a user trap (20 R395), a device
fence (10 R241), a call (11 R274), a loop launch (13 R303), a fork (18 R364), an addition of carries (06), a scratchpad load (12), a matrix command
(08 R160) and a copy (08 R172). A word with a bit that its form leaves no meaning is rejected. -/
def Obligations.SampleWordsDecode : Prop :=
  let w (a b c : Nat) : BitVec 96 := BitVec.ofNat 96 (a + b * 2 ^ 32 + c * 2 ^ 64)
  let g : Guard := ⟨false, false, 15⟩
  let s (n : BitVec 7) : Src := ⟨false, false, false, .s n⟩
  let v (n : BitVec 8) : Src := ⟨false, false, false, .v n⟩
  decode (w 0x00007D0F 0x84000000 0) = .instr (.trap ⟨g, .v 0, .none, .none, 0x42, 0⟩)
    ∧ decode (w 0x00007D02 0 0x01800000) = .instr (.fence ⟨g, .v 0, .none, .none, 0, 3⟩)
    ∧ decode (w 0x023C7B03 8 0) = .instr (.call ⟨g, .s 30, 32, 0⟩)
    ∧ decode (w 0x00007E00 0x0040A08A 0) = .instr (.twill ⟨g, s 20, 2, true, 0x40⟩)
    ∧ decode (w 0x06227C20 0 0x80) = .instr (.fork ⟨g, .sp 1, 0, .none, .none, .none, 2⟩)
    ∧ decode (w 0x04034802 0x1101 0x40) = .instr (.add ⟨⟨true, false, 9⟩, .c 1, false, 0, ⟨false, false, false, .c 2⟩, v 1, .none, none, .i32, 0⟩)
    ∧ decode (w 0xC0180A00 4 0x00078080) = .instr (.ld ⟨⟨false, false, 1⟩, .v 12, false, 12, v 4, 0, 4, 0, 0, 0, 15, 0, 0⟩)
    ∧ decode (w 0x00007C08 0x00120800 0) = .instr (.mma ⟨g, .v 0, 0, ⟨true, false, false, .v 0⟩, s 32, .none, 0⟩)
    ∧ decode (w 0x00007C10 0x8C 0x21C0) = .instr (.cpld ⟨g, .v 0, 0, s 24, .none, .none, 0x87⟩)
    ∧ (∀ i, decode (w 0x00007D0F 0x84000000 0x80000000) ≠ .instr i) ∧ ∀ i, decode (w 0x00007FFF 0 0) ≠ .instr i

/-- 02 R35 to R41, R59 to R61, 11 R261, R262: when the slot at the PC of a path that may issue decodes to an instruction, a step is that
instruction's meaning, which moves the path past the slot itself, in the state in which the group notes where it executes and whether it leaves the
group's age. A slot that does not decode traps with its cause and the slot's low word (with cause 7 before 8 to 10 where the group's state makes its operands
illegal); so does a line whose line word is malformed, a line outside the text, a slot number above 4 (log [113], DEDUCED; that DETAIL is 0 where no slot
was fetched is log [24], DEDUCED), and a line that fails parity. A cold line that the core has not fetched stalls under reason 11. An event is its meaning,
a clock cycle after every path that would not issue has been given its reason (log [85], DESIGN CHOICE); a path that cannot issue changes nothing; without
an occurrence the default order brings one (the model's choice, log [1], DESIGN CHOICE); without supply the machine stops. -/
def Obligations.StepRunsTheDecodedInstruction : Prop :=
  (∀ (s : State) (ctx slot : Nat) (r : List Occ), s.dev ≠ .off → s.agenda = .issue ctx slot :: r →
    let u : State := { s with agenda := r, cur := (ctx, slot) }
    let line := lineOfPc u.pc
    let bits := (lineBits u u.g line).1
    let w := lineSlot bits (slotOfPc u.pc)
    (canIssue { s with agenda := r } ctx slot = false → step s = .next { s with agenda := r })
    ∧ (canIssue { s with agenda := r } ctx slot = true →
      ((u.code u.g.code).size < 64 * (line + 1) ∨ 4 < slotOfPc u.pc → step s = .next (takeTrap u 1 1 0 u.pathMask))
      ∧ (64 * (line + 1) ≤ (u.code u.g.code).size → slotOfPc u.pc ≤ 4 →
        ((lineBits u u.g line).2 = false → step s = .next (takeTrap u 2 0 0 u.pathMask))
        ∧ ((lineBits u u.g line).2 = true → coldMiss u u.g line = true → step s = .next (u.stallAt 11))
        ∧ ((lineBits u u.g line).2 = true → coldMiss u u.g line = false →
          (lineWordOk bits = false → step s = .next (takeTrap u 1 1 (w.truncate 64) u.pathMask))
          ∧ (lineWordOk bits = true →
            (∀ i, decode w = .instr i → step s = exec i (u.setG { u.g with front := runsOnFront i, quiet := leavesAge i }))
            ∧ ∀ n, decode w = .illegal n → step s = .next (takeTrap u 1 (if 7 < n ∧ lateUse u u.g ctx w = true then 7 else n) (w.truncate 64) u.pathMask))))))
  ∧ (∀ (s : State) (i : Instr) (r : List Occ), s.dev ≠ .off → s.agenda = .event i :: r →
    (i ≠ .arithmeticClockCycle → step s = exec i { s with agenda := r })
    ∧ (i = .arithmeticClockCycle → step s = exec i ({ s with agenda := r } : State).withReasons))
  ∧ (∀ s : State, s.dev ≠ .off → s.agenda = [] → step s = stepOcc (defaultOcc s) s)
  ∧ ∀ s : State, s.dev = .off → step s = .fault .supplyOff

/-- 07 R143, 10 R229, 11, 17: after reset no group, block or launch exists and no command waits; every cycle counter, SC clock and SC stamp is 0; and the
tables are canonical. That every byte of memory reads 0 is the model's choice (log [4], DESIGN CHOICE), as is one device partition (log [13], DESIGN CHOICE). -/
def Obligations.ResetLeavesAnIdleDevice : Prop :=
  let s := State.reset
  s.Inv ∧ s.now = 0 ∧ s.dev = .running ∧ s.corrected = 0 ∧ s.poisonUnits = 0 ∧ s.khz = 1750000 ∧ s.npart = 1
    ∧ (∀ c, (s.core c).sc = 0 ∧ (s.core c).stopped = 0) ∧ (∀ l, get 0 s.sc l = 0) ∧ (∀ c, (s.group c).present = false)
    ∧ (∀ b, (s.block b).present = false) ∧ (∀ l, s.launch l = {}) ∧ (∀ c, (s.code c).present = false) ∧ (∀ p o, ((s.part p).obj o).live = false)
    ∧ (∀ p q, (s.queue p q).log = 0 ∧ (s.queue p q).launches = []) ∧ (∀ p c, get 4095 (s.part p).quota c = 4095) ∧ s.views = [] ∧ s.l1 = []
    ∧ ∀ a, rdByte s.hbm a = 0 ∧ rdByte s.remote a = 0 ∧ rdByte s.scr a = 0 ∧ rdByte s.acc a = 0

/-- Every step keeps the tables canonical: the four memories list rising addresses and no byte that an unlisted address reads as, and the groups and the
blocks stand by rising number, each number once. -/
def Obligations.StepsKeepTheTablesCanonical : Prop :=
  ∀ s t : State, s.Inv → step s = .next t → t.Inv

/-- 07 R108, R110, 01 R19, R21: what a value instruction leaves with a vector destination. Every executing lane holds its result in
the registers named, every other register and lane keeps its value but for what a KILL frees, and nothing else changes than
`LaneEffects` says.
07 R108, R116: with a predicate destination each executing lane's bit is whether its result is non-zero. The other lanes and the
other predicates keep their bits, but for p14 where a void was read. -/
def Obligations.LaneResultsReachRegisters : Prop :=
  (∀ (i : Instr) (opc : Nat) (f : AluF) (fn : List Nat → List Word → Nat) (s : State) (pops : List (Queue × Word))
    (xs : Nat → List Nat) (vo : Nat → Bool) (d : BitVec 8),
    valueOf i = some (opc, f, fn) → onFront opc f = false → LanesRead s opc f pops xs vo → f.dst = .v d →
    s.g.pendingWrite (s.laneWrites opc f vo) = none →
    s.g.needs (killSet (aluUses opc f)) (dstV f.dst (dstCount opc f)) ≤ s.g.peak →
    ∃ t, exec i s = .next t ∧ OnlyGroup s t ∧ LaneEffects s t opc f pops
      ∧ t.g.p = (s.g.voided (voidsOf (lanesOf (s.execLanes f.guard)) vo)).p
      ∧ (t.g.single = s.g.single → ∀ n l, l < 64 → t.g.rdV n l =
          if l ∈ lanesOf (s.execLanes f.guard) ∧ d.toNat ≤ n ∧ n < d.toNat + dstCount opc f then
            wordN (s.laneResult opc f fn xs l) (n - d.toNat)
          else (s.g.kill (killSet (aluUses opc f))).rdV n l))
  ∧ (∀ (i : Instr) (opc : Nat) (f : AluF) (fn : List Nat → List Word → Nat) (s : State) (pops : List (Queue × Word))
    (xs : Nat → List Nat) (vo : Nat → Bool) (r : BitVec 4),
    valueOf i = some (opc, f, fn) → onFront opc f = false → LanesRead s opc f pops xs vo → f.dst = .p r → r ≠ 15 →
    s.g.pendingWrite (s.laneWrites opc f vo) = none →
    ∃ t, exec i s = .next t ∧ OnlyGroup s t ∧ LaneEffects s t opc f pops
      ∧ (∀ l < 64, bitOf (t.g.pmask r.toNat) l =
          if l ∈ lanesOf (s.execLanes f.guard) then s.laneResult opc f fn xs l != 0
          else bitOf ((s.g.voided (voidsOf (lanesOf (s.execLanes f.guard)) vo)).pmask r.toNat) l)
      ∧ (∀ n < 15, n ≠ r.toNat → t.g.pmask n = (s.g.voided (voidsOf (lanesOf (s.execLanes f.guard)) vo)).pmask n))

/-- 07 R110, R111, 13 R293: the results of a value instruction reach its destination whatever its class: vector names and predicates
as above, carry slot-lanes (VOID from a helper), or one word for a queue (a marker of `qm` or `qx`, a staged word of `qk`), which is the
result of the lowest executing lane that is no helper. The path then moves on. -/
def Obligations.LaneResultsReachEveryDestination : Prop :=
  ∀ (i : Instr) (opc : Nat) (f : AluF) (fn : List Nat → List Word → Nat) (s : State) (pops : List (Queue × Word))
    (xs : Nat → List Nat) (vo : Nat → Bool),
    valueOf i = some (opc, f, fn) → onFront opc f = false → LanesRead s opc f pops xs vo →
    DstTakes s opc f (dstCount opc f) vo (s.laneResult opc f fn xs) →
    exec i s = .next (s.taken opc f pops vo (dstCount opc f) (s.laneResult opc f fn xs)).advance

/-- 03 R68, 07 R108, R110: on the uniform front a value instruction runs once, when its guard passes, and writes its one result to
the `s` registers or the `sp` predicate of its destination. The group changes in nothing else but KILLs, the path, and the words
that the lowest live lane draws (06 R100). -/
def Obligations.FrontResultsReachScalars : Prop :=
  ∀ (i : Instr) (opc : Nat) (f : AluF) (fn : List Nat → List Word → Nat) (s : State) (xs : List Nat),
    valueOf i = some (opc, f, fn) → FrontReads s opc f xs → s.g.pendingWrite (dstNames f.dst (dstCount opc f)) = none →
    let y := fn (placeImm opc f xs) (s.g.drawn s.frontLane (drawsOf opc f))
    let g := (s.g.kill (killSet (aluUses opc f))).stepCtr [s.frontLane] (drawsOf opc f)
    (∀ r, f.dst = .s r → exec i s = .next (s.setG (g.wrSs r.toNat (dstCount opc f) y)).advance)
    ∧ (∀ r, f.dst = .sp r → exec i s = .next (s.setG (g.wrSp r.toNat (y != 0))).advance)

/-- 02 R43, 07 R108: a value instruction that no lane executes, or whose uniform guard fails on the uniform front, only moves on; so
does `nop` whatever its guard (03 R69). Moving on changes the path and the issue count of the group and nothing else, but for KILLs that wait for a
rejoining (01 R21).
01 R12, R22, 20 R409: a value instruction whose source is poisoned, or unmapped in checked mode, traps precisely and writes
nothing: the first such source in the order SA, SB, SC decides (log [19], DEDUCED), with its name as DETAIL and the executing lanes that are no helpers
as MASK.
01 R20: a write that would leave the group more live mappings than its declared peak traps precisely, with their number as DETAIL. -/
def Obligations.InstructionsMoveOnOrTrap : Prop :=
  ((∀ (g : Guard) (s : State), s.g.present = true → exec (.nop g) s = .next s.advance)
  ∧ (∀ s : State, s.g.present = true → Moves s s.advance ∧ OnlyGroup s s.advance ∧ s.g.sameButPath s.advance.g
      ∧ (s.g.dkill = 0 → s.advance.g.v = s.g.v ∧ s.advance.g.mapped = s.g.mapped ∧ s.advance.g.vpois = s.g.vpois))
  ∧ ∀ (i : Instr) (opc : Nat) (f : AluF) (fn : List Nat → List Word → Nat) (s : State),
    valueOf i = some (opc, f, fn) → s.g.present = true → (usesCarry f opc = true → (s.window s.ctx).isSome = true) →
    (if onFront opc f then s.groupPasses f.guard = false else s.execLanes f.guard = 0) → exec i s = .next s.advance)
  ∧ (∀ (i : Instr) (opc : Nat) (f : AluF) (fn : List Nat → List Word → Nat) (s : State) (k : Nat) (d : DWord),
    valueOf i = some (opc, f, fn) → onFront opc f = false → s.g.present = true →
    (usesCarry f opc = true → (s.window s.ctx).isSome = true) → s.execLive f.guard ≠ 0 →
    nameStop s.g (aluUses opc f) = some (k, d) → exec i s = .next (takeTrap s k 0 d (s.execLive f.guard)))
  ∧ ∀ (i : Instr) (opc : Nat) (f : AluF) (fn : List Nat → List Word → Nat) (s : State) (pops : List (Queue × Word))
    (xs : Nat → List Nat) (vo : Nat → Bool) (d : BitVec 8),
    valueOf i = some (opc, f, fn) → onFront opc f = false → LanesRead s opc f pops xs vo → f.dst = .v d →
    s.g.pendingWrite (s.laneWrites opc f vo) = none →
    let live := s.g.needs (killSet (aluUses opc f)) (dstV f.dst (dstCount opc f))
    s.g.peak < live → exec i s = .next (takeTrap s 6 0 (BitVec.ofNat 64 live) (s.execLive f.guard))

/-- 07 R109, R112, R113: on every element of an integer or packed type, `add`, `sub`, `mul`, `mad`, `min` and `max` form the exact
result under the signedness of the type, wrap it modulo 2^n, and clamp it to the type's range under SAT; `mulhi` gives the high n
bits of the exact product. -/
def Obligations.IntegerElementsWrapOrClamp : Prop :=
  ∀ (mk : AluF → Instr) (op : Nat → Int → Int → Int → Int), (mk, op) ∈ ([
      (Instr.add, fun _ a b _ => a + b), (Instr.sub, fun _ a b _ => a - b), (Instr.mul, fun _ a b _ => a * b),
      (Instr.mulhi, fun n a b _ => a * b / (2 ^ n : Nat)), (Instr.mad, fun _ a b c => a * b + c),
      (Instr.min, fun _ a b _ => Min.min a b), (Instr.max, fun _ a b _ => Max.max a b)
    ] : List ((AluF → Instr) × (Nat → Int → Int → Int → Int))) →
  ∀ f : AluF, (f.ty.isInt || f.ty.isPk) = true → ∃ opc fn, valueOf (mk f) = some (opc, f, fn) ∧
    ∀ (a b c : Nat) (ws : List Word) (i : Nat), i < f.ty.elems →
      let n := tyBits f.ty
      let x := op n (toInt f.ty (elemAt f.ty a i)) (toInt f.ty (elemAt f.ty b i)) (toInt f.ty (elemAt f.ty c i))
      let lo : Int := if f.ty.isSigned then -2 ^ (n - 1) else 0
      let hi : Int := if f.ty.isSigned then 2 ^ (n - 1) - 1 else 2 ^ n - 1
      (elemAt f.ty (fn [a, b, c] ws) i : Int) = (if f.sat then Max.max lo (Min.min hi x) else x) % 2 ^ n

/-- 07 R115: integer quotient and remainder, with the two corner cases of its table; no case traps. -/
def Obligations.IntegerDivisionAndRemainder : Prop :=
  ∀ f : AluF, f.ty.isInt = true → f.sat = false → ∃ dv rm, valueOf (.div f) = some (0x17, f, dv) ∧ valueOf (.rem f) = some (0x18, f, rm) ∧
    ∀ (a b : Nat) (ws : List Word), a < 2 ^ tyBits f.ty → b < 2 ^ tyBits f.ty →
      let n := tyBits f.ty
      let x := toInt f.ty a
      let y := toInt f.ty b
      (b = 0 → dv [a, b] ws = 2 ^ n - 1 ∧ rm [a, b] ws = a)
      ∧ (f.ty.isSigned = true → x = -2 ^ (n - 1) → y = -1 → dv [a, b] ws = a ∧ rm [a, b] ws = 0)
      ∧ (b ≠ 0 → ¬(f.ty.isSigned = true ∧ x = -2 ^ (n - 1) ∧ y = -1) →
          toInt f.ty (dv [a, b] ws) = x.tdiv y
            ∧ x = toInt f.ty (dv [a, b] ws) * y + toInt f.ty (rm [a, b] ws)
            ∧ (toInt f.ty (rm [a, b] ws)).natAbs < y.natAbs
            ∧ (toInt f.ty (rm [a, b] ws) = 0 ∨ (toInt f.ty (rm [a, b] ws) < 0 ↔ x < 0)))

/-- 07 R114: `shl` and `shr` fill with zeros and give 0 for a count of n or more, `sra` fills with the sign bit, and `rot` rotates
left by the count modulo n, where n is the width of the type and the count is 32 bits unsigned.
07 R113, R114, R116: the bit operations, bit by bit. -/
def Obligations.ShiftsAndBitOperations : Prop :=
  (∀ f : AluF, (f.ty.isBit || f.ty == .i32 || f.ty == .i64) = true → ∀ (a c : Nat) (ws : List Word), c < 2 ^ 32 →
    let n := tyBits f.ty
    let x : BitVec n := BitVec.ofNat n a
    ∃ l r s o, valueOf (.shl f) = some (0x0C, f, l) ∧ valueOf (.shr f) = some (0x0D, f, r) ∧ valueOf (.sra f) = some (0x0E, f, s)
      ∧ valueOf (.rot f) = some (0x0F, f, o)
      ∧ l [a, c] ws = (x <<< c).toNat ∧ r [a, c] ws = (x >>> c).toNat ∧ s [a, c] ws = (x.sshiftRight c).toNat
      ∧ o [a, c] ws = (x.rotateLeft (c % n)).toNat)
  ∧ (∀ f : AluF, f.ty.isBit = true → ∀ (a b c : Nat) (ws : List Word) (k : Nat), k < tyBits f.ty →
    let n := tyBits f.ty
    ∃ an oo xo br lo mv se, valueOf (.and f) = some (0x09, f, an) ∧ valueOf (.or f) = some (0x0A, f, oo)
      ∧ valueOf (.xor f) = some (0x0B, f, xo) ∧ valueOf (.brev f) = some (0x14, f, br) ∧ valueOf (.lop f) = some (0x1A, f, lo)
      ∧ valueOf (.mov f) = some (0x01, f, mv) ∧ valueOf (.sel f) = some (0x16, f, se)
      ∧ (an [a, b] ws).testBit k = (a.testBit k && b.testBit k)
      ∧ (oo [a, b] ws).testBit k = (a.testBit k || b.testBit k)
      ∧ (xo [a, b] ws).testBit k = (a.testBit k != b.testBit k)
      ∧ (br [a] ws).testBit k = a.testBit (n - 1 - k)
      ∧ (lo [a, b] ws).testBit k = f.var.toNat.testBit (2 * (if a.testBit k then 1 else 0) + if b.testBit k then 1 else 0)
      ∧ (mv [a] ws).testBit k = a.testBit k
      ∧ (se [a, b, c] ws).testBit k = if c = 0 then b.testBit k else a.testBit k)

/-- 07 R113, R114, R116: counts of bits, bit fields and byte permutation.
07 R116: `cmp` is true where the comparison cc holds for every element under the signedness of the type. -/
def Obligations.FieldsCountsAndComparisons : Prop :=
  (∀ (f : AluF) (a b c : Nat) (ws : List Word), a < 2 ^ tyBits f.ty → b < 2 ^ 32 → c < 2 ^ 32 →
    let n := tyBits f.ty
    let s := b % 32
    let len := Min.min (b / 256 % 64) 32
    (f.ty.isBit = true → ∃ po cl, valueOf (.popc f) = some (0x12, f, po) ∧ valueOf (.clz f) = some (0x13, f, cl)
      ∧ po [a] ws = ((List.range n).filter fun k => a.testBit k).length
      ∧ cl [a] ws ≤ n ∧ (∀ k < n, n - cl [a] ws ≤ k → a.testBit k = false)
      ∧ (a ≠ 0 → cl [a] ws < n ∧ a.testBit (n - 1 - cl [a] ws) = true))
    ∧ (f.ty = .u32 ∨ f.ty = .i32 → ∃ bx, valueOf (.bfx f) = some (0x10, f, bx)
      ∧ (len = 0 → bx [a, b] ws = 0)
      ∧ ∀ k < 32, 0 < len → (bx [a, b] ws).testBit k =
          if k < len then a.testBit (s + k) else f.ty.isSigned && a.testBit (s + (len - 1)))
    ∧ (f.ty = .b32 → ∃ bi pr, valueOf (.bfi f) = some (0x11, f, bi) ∧ valueOf (.prm f) = some (0x19, f, pr)
      ∧ (∀ k < 32, (bi [a, b, c] ws).testBit k = if s ≤ k ∧ k < s + len then a.testBit (k - s) else c.testBit k)
      ∧ ∀ i < 4, ∀ k < 8, (pr [a, b, c] ws).testBit (8 * i + k) =
          let j := c / 16 ^ i % 16
          (a + b * 2 ^ 32).testBit (8 * (j % 8) + if 8 ≤ j then 7 else k)))
  ∧ (∀ f : AluF, f.var.toNat ≤ 5 → ∃ fn, valueOf (.cmp f) = some (0x15, f, fn) ∧ ∀ (a b : Nat) (ws : List Word),
    (fn [a, b] ws ≠ 0 ↔ ∀ i < f.ty.elems,
      let x := toInt f.ty (elemAt f.ty a i)
      let y := toInt f.ty (elemAt f.ty b i)
      match f.var.toNat with
      | 0 => x = y | 1 => x ≠ y | 2 => x < y | 3 => x ≤ y | 4 => x > y | _ => x ≥ y))

/-- 07 R118: `fmin` and `fmax` return, for each element, the operand that is smaller or larger with -0 below +0, the other operand
when one is NaN, and the canonical NaN when both are. `fcmp` compares as IEEE 754 does: +0 equals -0; when an operand is NaN `eq`, `lt`,
`le`, `gt` and `ge` are false and `ne` is true; `.num` and `.nan` tell whether both are numbers. A packed comparison is true only if
every element gives true. Codes are ordered as sign and magnitude.
07 R119: `fclass` sets exactly one bit, by the sign, exponent and mantissa fields of the operand. -/
def Obligations.FloatComparisonsAndClasses : Prop :=
  (∀ f : AluF, f.ty.isFloat = true → ∃ mn mx fc, valueOf (.fmin f) = some (0x24, f, mn) ∧ valueOf (.fmax f) = some (0x25, f, mx)
      ∧ valueOf (.fcmp f) = some (0x26, f, fc) ∧ ∀ (a b : Nat) (ws : List Word),
    let top := 2 ^ (tyBits f.ty - 1)
    let canon := if f.ty = .f32 then 0x7FC00000 else if f.ty = .f16 ∨ f.ty = .f16x2 then 0x7E00 else 0x7FC0
    let inf := if f.ty = .f32 then 0x7F800000 else if f.ty = .f16 ∨ f.ty = .f16x2 then 0x7C00 else 0x7F80
    let isNan (x : Nat) : Prop := inf < x % top
    let key (x : Nat) : Int := if x < top then (x : Int) else -((x - top : Nat) : Int) - 1
    let val (x : Nat) : Int := if x < top then (x : Int) else -((x - top : Nat) : Int)
    (∀ i < f.ty.elems,
      let x := elemAt f.ty a i
      let y := elemAt f.ty b i
      (isNan x → isNan y → elemAt f.ty (mn [a, b] ws) i = canon ∧ elemAt f.ty (mx [a, b] ws) i = canon)
      ∧ (isNan x → ¬isNan y → elemAt f.ty (mn [a, b] ws) i = y ∧ elemAt f.ty (mx [a, b] ws) i = y)
      ∧ (¬isNan x → isNan y → elemAt f.ty (mn [a, b] ws) i = x ∧ elemAt f.ty (mx [a, b] ws) i = x)
      ∧ (¬isNan x → ¬isNan y → elemAt f.ty (mn [a, b] ws) i = (if key x ≤ key y then x else y)
          ∧ elemAt f.ty (mx [a, b] ws) i = (if key x ≤ key y then y else x)))
    ∧ (fc [a, b] ws ≠ 0 ↔ ∀ i < f.ty.elems,
      let x := elemAt f.ty a i
      let y := elemAt f.ty b i
      let num := ¬isNan x ∧ ¬isNan y
      match f.var.toNat with
      | 0 => num ∧ val x = val y
      | 1 => ¬num ∨ val x ≠ val y
      | 2 => num ∧ val x < val y
      | 3 => num ∧ val x ≤ val y
      | 4 => num ∧ val x > val y
      | 5 => num ∧ val x ≥ val y
      | 6 => num
      | _ => ¬num))
  ∧ (∀ f : AluF, f.ty.isFS = true → ∃ fn, valueOf (.fclass f) = some (0x2E, f, fn) ∧ ∀ (a : Nat) (ws : List Word), a < 2 ^ tyBits f.ty →
    let mb := if f.ty = .f32 then 23 else if f.ty = .f16 then 10 else 7
    let eb := if f.ty = .f16 then 5 else 8
    let m := a % 2 ^ mb
    let e := a / 2 ^ mb % 2 ^ eb
    let neg := a.testBit (eb + mb)
    fn [a] ws =
      if e = 2 ^ eb - 1 then (if m ≠ 0 then 2 ^ 8 else if neg then 2 ^ 0 else 2 ^ 7)
      else if e = 0 then (if m = 0 then (if neg then 2 ^ 3 else 2 ^ 4) else if neg then 2 ^ 2 else 2 ^ 5)
      else if neg then 2 ^ 1 else 2 ^ 6)

/-- 06 R98: a value that the target format holds is returned as it is under every rounding mode: so `frnd` of an integral value, a
conversion that loses nothing and a sum that needs no rounding change no bit. A value in its finite range that it does not hold goes to one of the two values
next to it: toward zero, downward or upward, or to the nearer one, with ties to an even code or away from zero; stochastic rounding takes either.
06 R99: a value far beyond the range gives the infinity or the largest finite value that the mode says, and the largest finite value under SAT.
06 R93, R102, 07 R117: a float operation on a NaN operand gives the canonical NaN of its type in that element, whatever the
rounding mode and SAT, and the machine goes on.
07 R124, R125: `unpack` widens element N exactly (sign- or zero-extended for the integer types, a NaN to the canonical one), and `scl` multiplies by
2^(X - 127), where X is the low byte of b, and rounds once, with the canonical NaN for X = 0xFF.
07 R122, R123, R127: `cvt` between integers wraps, or clamps under SAT; to a float it rounds once under VAR, with DSC (for an integer source log [16],
DEDUCED); from a float to an integer it rounds under VAR and saturates, a NaN to 0. `pack` rounds, or clamps, its sources to the elements. `dot` adds
the exact products to c and narrows once. -/
def Obligations.RoundingKeepsExactValuesAndNans : Prop :=
  (∀ (fm : BinFmt) (mode x : Nat) (sat : Bool) (w : Word), fm ∈ [fFP32, fFP16, fBF16, fE4M3, fE5M2, fE2M3, fE3M2, fE2M1] → mode ≤ 5 →
    x < 2 ^ fm.bits → (decodeF fm x).isNaN = false → (decodeF fm x).isInf = false → roundTo fm mode sat w (decodeF fm x).r = x)
  ∧ (∀ (fm : BinFmt) (mode : Nat) (sat neg : Bool) (w : Word) (g : Mag), fm ∈ [fFP32, fFP16, fBF16, fE4M3, fE5M2, fE2M3, fE3M2, fE2M1] → mode ≤ 5 →
    let size (c : Nat) : Nat := match decodeF fm c with | .fin _ m e => (magOf m e).n | _ => 0
    let t := if g.sticky then 1 else 0
    let sign := if neg then 2 ^ (fm.eb + fm.mb) else 0
    let d (c : Nat) : Nat := (2 * (size c : Int) - (2 * g.n + t : Nat)).natAbs
    let up := (mode = 2 ∧ neg = true) ∨ (mode = 3 ∧ neg = false)
    let down := mode = 1 ∨ (mode = 2 ∧ neg = false) ∨ (mode = 3 ∧ neg = true)
    (g.n + t ≤ size fm.maxCode → ∃ c, c ≤ fm.maxCode ∧ roundTo fm mode sat w (.mag neg g) = sign + c
      ∧ (∀ x ≤ fm.maxCode, (size x ≤ g.n → size x ≤ size c) ∧ (g.n + t ≤ size x → size c ≤ size x))
      ∧ (down → size c ≤ g.n) ∧ (up → g.n + t ≤ size c)
      ∧ (mode = 0 ∨ mode = 4 → ∀ x ≤ fm.maxCode, d c ≤ d x ∧ (d c = d x → x ≠ c → if mode = 0 then c % 2 = 0 else size x ≤ size c)))
    ∧ (2 * size fm.maxCode ≤ g.n → roundTo fm mode sat w (.mag neg g) =
        sign + if sat = true ∨ fm.hasInf = false ∨ down then fm.maxCode else (2 ^ fm.eb - 1) * 2 ^ fm.mb))
  ∧ (∀ (mk : AluF → Instr) (k : Nat), (mk, k) ∈ ([(Instr.fadd, 2), (.fsub, 2), (.fmul, 2), (.ffma, 3), (.fdiv, 2), (.frcp, 1), (.fsqrt, 1), (.frsq, 1), (.fexp2, 1),
      (.flog2, 1), (.ftanh, 1), (.frnd, 1), (.fldexp, 1)] : List ((AluF → Instr) × Nat)) →
  ∀ f : AluF, f.ty.isFloat = true → ∃ opc fn, valueOf (mk f) = some (opc, f, fn) ∧ ∀ (a b c : Nat) (ws : List Word) (i : Nat), i < f.ty.elems →
    let nan (x : Nat) : Prop := (decodeF (tyFmt f.ty) (elemAt f.ty x i)).isNaN = true
    nan a ∨ (2 ≤ k ∧ nan b) ∨ (3 ≤ k ∧ nan c) →
    elemAt f.ty (fn [a, b, c] ws) i = match f.ty with | .f32 => 0x7FC00000 | .f16 | .f16x2 => 0x7E00 | _ => 0x7FC0)
  ∧ ((∀ f : AluF, f.ty.isPk = true → f.var.toNat < f.ty.elems → ∃ fn, valueOf (.unpack f) = some (0x3A, f, fn) ∧ ∀ (a : Nat) (ws : List Word),
    (fn [a] ws : Int) = toInt f.ty (elemAt f.ty a f.var.toNat) % 2 ^ 32)
  ∧ (∀ f : AluF, f.ty = .f16x2 ∨ f.ty = .bf16x2 → f.var.toNat < 2 → ∃ fn, valueOf (.unpack f) = some (0x3A, f, fn) ∧ ∀ (a : Nat) (ws : List Word),
    let x := decodeF (tyFmt f.ty) (elemAt f.ty a f.var.toNat)
    let y := fn [a] ws
    (x.isNaN = true → y = 0x7FC00000)
    ∧ (x.isNaN = false → y < 2 ^ 32 ∧ FVal.eqv (decodeF fFP32 y) x = true ∧ y.testBit 31 = x.isNeg))
  ∧ (∀ f : AluF, f.ty.isFS = true → ∃ fn, valueOf (.scl f) = some (0x3C, f, fn) ∧ ∀ (a b : Nat) (ws : List Word), a < 2 ^ tyBits f.ty →
    let x : Int := (b % 256 : Nat)
    (b % 256 = 255 ∨ (decodeF (tyFmt f.ty) a).isNaN = true → fn [a, b] ws = match f.ty with | .f32 => 0x7FC00000 | .f16 => 0x7E00 | _ => 0x7FC0)
    ∧ (b % 256 ≠ 255 → ∀ n m e, decodeF (tyFmt f.ty) a = .fin n m e →
        fn [a, b] ws = roundTo (tyFmt f.ty) f.var.toNat f.sat (ws.getD 0 0) (.mag n (magOf m (e + (x - 127)))))
    ∧ (b % 256 ≠ 255 → f.sat = false → (decodeF (tyFmt f.ty) a).isInf = true → fn [a, b] ws = a)
    ∧ (b % 256 = 127 → (decodeF (tyFmt f.ty) a).isNaN = false → (decodeF (tyFmt f.ty) a).isInf = false → f.var.toNat ≤ 5 → fn [a, b] ws = a)))
  ∧ (∀ f : AluF, f.a.abs = false → f.a.neg = false → (cvtSrc f).elems = f.ty.elems → ∃ fn, valueOf (.cvt f) = some (0x38, f, fn) ∧
    ∀ (a : Nat) (ws : List Word) (i : Nat), i < f.ty.elems →
      let t := cvtSrc f
      let fm := tyFmt f.ty
      let mode := f.var.toNat
      let v := toInt t (elemAt t a i)
      let x := decodeF (tyFmt t) (elemAt t a i)
      let y := elemAt f.ty (fn [a] ws) i
      let n := tyBits f.ty
      let lo : Int := if f.ty.isSigned then -2 ^ (n - 1) else 0
      let hi : Int := if f.ty.isSigned then 2 ^ (n - 1) - 1 else 2 ^ n - 1
      let clamp (q : Int) : Int := Max.max lo (Min.min hi q)
      (t.isFloat = false → f.ty.isFloat = false → (y : Int) = (if f.sat then clamp v else v) % 2 ^ n)
      ∧ (t.isFloat = false → f.ty.isFloat = true →
          y = roundTo fm mode f.sat (ws.getD i 0) (.mag (decide (v < 0)) (magOf v.natAbs (dscOf f))))
      ∧ (t.isFloat = true → f.ty.isFloat = true →
          (x.isNaN = true → y = fm.nan.getD 0)
          ∧ (x.isInf = true → f.sat = false → y = (if x.isNeg then 2 ^ (n - 1) else 0) + (2 ^ fm.eb - 1) * 2 ^ fm.mb)
          ∧ ∀ s m e, x = .fin s m e → y = roundTo fm mode f.sat (ws.getD i 0) (.mag s (magOf m (e + dscOf f))))
      ∧ (t.isFloat = true → f.ty.isFloat = false →
          (x.isNaN = true → y = 0)
          ∧ (x.isInf = true → (y : Int) = (if x.isNeg then lo else hi) % 2 ^ n)
          ∧ ∀ s m e, x = .fin s m e →
            let u : Int := 2 ^ 512
            let z : Int := if s then -((magOf m e).n : Int) else (magOf m e).n
            ∃ q : Int, (y : Int) = clamp q % 2 ^ n
              ∧ (mode = 0 → 2 * (z - q * u).natAbs ≤ u.natAbs ∧ (2 * (z - q * u).natAbs = u.natAbs → q % 2 = 0))
              ∧ (mode = 1 → q = z.tdiv u) ∧ (mode = 2 → q = z / u) ∧ (mode = 3 → q = -(-z / u))
              ∧ (mode = 4 → 2 * (z - q * u).natAbs ≤ u.natAbs ∧ (2 * (z - q * u).natAbs = u.natAbs → z.natAbs < (q * u).natAbs))
              ∧ (mode = 5 → q = z / u ∨ q = -(-z / u))))
  ∧ ((∀ f : AluF, ∃ fn, valueOf (.pack f) = some (0x39, f, fn) ∧ ∀ (a b : Nat) (ws : List Word) (i : Nat), i < f.ty.elems →
      let src := if i = 0 then a else b
      let y := elemAt f.ty (fn [a, b] ws) i
      let half := sgn 16 ((if i < 2 then a else b) / 2 ^ (16 * (i % 2)) % 2 ^ 16)
      (f.ty = .f16x2 ∨ f.ty = .bf16x2 → let fm := tyFmt f.ty
        ((decodeF fFP32 src).isNaN = true → y = fm.nan.getD 0)
        ∧ ∀ s m e, decodeF fFP32 src = .fin s m e → y = roundTo fm f.var.toNat f.sat (ws.getD i 0) (.mag s (magOf m (e + dscOf f))))
      ∧ (f.ty = .i16x2 → (y : Int) = Max.max (-32768) (Min.min 32767 (sgn 32 src)) % 2 ^ 16)
      ∧ (f.ty = .i8x4 → (y : Int) = Max.max (-128) (Min.min 127 half) % 2 ^ 8)
      ∧ (f.ty = .u8x4 → (y : Int) = Max.max 0 (Min.min 255 half) % 2 ^ 8))
  ∧ (∀ (v n : Nat) (signed : Bool), (v, n, signed) ∈ [(3, 4, true), (4, 4, false), (5, 8, true)] →
    ∀ f : AluF, f.ty = .i32 → f.var.toNat = v → ∃ fn, valueOf (.dot f) = some (0x40, f, fn) ∧ ∀ (a b c : Nat) (ws : List Word),
      let k := 32 / n
      let el (x i : Nat) : Int := let u := x / 2 ^ (k * i) % 2 ^ k; if signed then sgn k u else u
      let z := sgn 32 c + ((List.range n).map fun i => el a i * el b i).sum
      (fn [a, b, c] ws : Int) = (if f.sat then Max.max (-2 ^ 31) (Min.min (2 ^ 31 - 1) z) else z) % 2 ^ 32)
  ∧ ∀ (v n : Nat) (fm : BinFmt), (v, n, fm) ∈ [(0, 8, fE2M1), (1, 4, fE4M3), (2, 4, fE5M2), (6, 2, fBF16), (7, 2, fFP16)] →
    ∀ f : AluF, f.ty = .f32 → f.var.toNat = v → ∃ fn, valueOf (.dot f) = some (0x40, f, fn) ∧ ∀ (a b c : Nat) (ws : List Word),
      let k := 32 / n
      let el (x i : Nat) : FVal := decodeF fm (x / 2 ^ (k * i) % 2 ^ k)
      let fixed (x : FVal) : Int := match x with | .fin s m e => alignTo s m e (-150) | _ => 0
      let all := decodeF fFP32 c :: ((List.range n).map (el a) ++ (List.range n).map (el b))
      let t : Int := fixed (decodeF fFP32 c) * 2 ^ 150 + ((List.range n).map fun i => fixed (el a i) * fixed (el b i)).sum
      ((∃ x ∈ all, x.isNaN = true) → fn [a, b, c] ws = 0x7FC00000)
      ∧ ((∀ x ∈ all, x.isNaN = false ∧ x.isInf = false) →
          (t ≠ 0 → fn [a, b, c] ws = roundTo fFP32 0 f.sat 0 (.mag (decide (t < 0)) (magOf t.natAbs (dscOf f - 300))))
          ∧ (t = 0 → fn [a, b, c] ws % 2 ^ 31 = 0)))

/-- 07 R128 to R130, R133, 23 R447: with n as `%width` reads it, `shfl`, `qxch` and `rdlane` give each executing lane the value of source A in the lane j that the mode and
b name; `rdlane` gives 0 for a lane that has ended, and with an `s` destination writes the one value there.
Completion of shfl, qxch and rdlane, for every operand that reads. -/
def Obligations.ShufflesReadTheNamedLane : Prop :=
  ∀ (f : AluF) (s : State) (pops : List (Queue × Word)) (xs : Nat → List Nat) (vo : Nat → Bool),
    let b (opc l : Nat) : Nat := argB (placeImm opc f (xs l)) % 2 ^ 32
    let w := if s.g.pair.isSome = true then 128 else if s.g.narrow = true then 4 else s.g.width
    let shfl (l : Nat) : Nat := match f.var.toNat with
      | 0 => b 0x48 l % w
      | 1 => if b 0x48 l ≤ l then l - b 0x48 l else l
      | 2 => if l + b 0x48 l < w then l + b 0x48 l else l
      | _ => l ^^^ (b 0x48 l % w)
    let qxch (l : Nat) : Nat := match f.var.toNat with
      | 0 => 4 * (l / 4) + b 0x49 l % 4
      | 1 => 4 * (l / 4) + (l + 1) % 4
      | 2 => l ^^^ 1
      | _ => l ^^^ 2
    let rdlane (l : Nat) : Nat := if bitOf s.g.ended (b 0x4E l % w) then 0 else s.crossSrc 0x4E f xs (b 0x4E l % w)
    (LanesRead s 0x48 f pops xs vo → DstTakes s 0x48 f 1 vo (fun l => s.crossSrc 0x48 f xs (shfl l)) → f.dst.isS = false → f.dst.isSp = false →
      exec (.shfl f) s = .next (s.taken 0x48 f pops vo 1 fun l => s.crossSrc 0x48 f xs (shfl l)).advance)
    ∧ (LanesRead s 0x49 f pops xs vo → DstTakes s 0x49 f 1 vo (fun l => s.crossSrc 0x49 f xs (qxch l)) → f.dst.isS = false → f.dst.isSp = false →
      exec (.qxch f) s = .next (s.taken 0x49 f pops vo 1 fun l => s.crossSrc 0x49 f xs (qxch l)).advance)
    ∧ (LanesRead s 0x4E f pops xs vo → DstTakes s 0x4E f 1 vo rdlane → f.dst.isSp = false → f.dst.isS = false →
      exec (.rdlane f) s = .next (s.taken 0x4E f pops vo 1 rdlane).advance)
    ∧ (∀ r, LanesRead s 0x4E f pops xs vo → f.dst = .s r → DstTakes s 0x4E f 1 vo rdlane →
      exec (.rdlane f) s = .next
        (s.setG ((s.laneRest 0x4E f vo (s.g.popped pops)).wrSs r.toNat 1 (rdlane ((lanesOf (s.execLanes f.guard)).headD 0)))).advance)

/-- 07 R131: a vote counts the executing lanes that are no helpers: the ballot of the true ones, whether any is true, whether all are.
The result goes to every executing lane, or once to an `s` or `sp` destination.
07 R132: `gred` combines source A over the executing lanes that are no helpers, in ascending lane order, and gives the result to
every executing lane or once to an `s` destination; `gscan` combines, for lane l, the lanes up to l, without l itself in the exclusive
form. Integer sums wrap, the FP32 sum is exact and rounded once.
07 R132: what the integer combinations of `gred` and `gscan` give on any list of operands: the sum modulo 2^n, the least and the
greatest under the signedness of the type, and the bitwise and, or and exclusive or, with the identities for an empty list; and the FP32 sum: the exact
sum rounded once to nearest even, an infinity or the canonical NaN where the operands make it one, and +0 where it is zero unless every operand is -0.
Completion of vote, gred and gscan, for every destination class. -/
def Obligations.VotesReductionsAndScans : Prop :=
  (∀ (f : AluF) (s : State) (n : BitVec 4), s.g.present = true → s.execLanes f.guard ≠ 0 → f.a.opnd = .p n →
    ¬(f.var = 0 ∧ s.g.width = 64 ∧ Opnd.odd f.dst = true) →
    let k := if f.var = 0 ∧ s.g.width = 64 then 2 else 1
    let t := s.g.pmask n.toNat &&& s.execLive f.guard
    let y : Nat := match f.var.toNat with
      | 0 => t.toNat
      | 1 => if t ≠ 0 then 1 else 0
      | _ => if t = s.execLive f.guard then 1 else 0
    let g := s.g.kill 0
    s.g.pendingWrite (dstNames f.dst k) = none →
    (∀ d, f.dst = .v d → s.g.needs 0 (dstV f.dst k) ≤ s.g.peak →
      exec (.vote f) s = .next (s.setG (g.dstWrite f.dst k ((lanesOf (s.execLanes f.guard)).map fun l => (l, y)))).advance)
    ∧ (∀ r, f.dst = .p r →
      exec (.vote f) s = .next (s.setG (g.dstWrite f.dst k ((lanesOf (s.execLanes f.guard)).map fun l => (l, y)))).advance)
    ∧ (∀ r, f.dst = .s r → exec (.vote f) s = .next (s.setG (g.wrSs r.toNat k y)).advance)
    ∧ (∀ r, f.dst = .sp r → exec (.vote f) s = .next (s.setG (g.wrSp r.toNat (y != 0))).advance))
  ∧ (∀ (f : AluF) (s : State) (pops : List (Queue × Word)) (xs : Nat → List Nat) (vo : Nat → Bool),
    let live := lanesOf (s.execLive f.guard)
    let a (opc j : Nat) : Nat := s.crossSrc opc f xs j
    let all (_ : Nat) : Nat := redVal f.ty f.var.toNat (live.map (a 0x4B))
    let scan (l : Nat) : Nat := redVal f.ty (f.var.toNat % 8) ((live.filter fun j => if 8 ≤ f.var.toNat then j < l else j ≤ l).map (a 0x4C))
    let n := dstCount 0x4B f
    (LanesRead s 0x4B f pops xs vo → f.dst.isS = false → f.dst.isSp = false → DstTakes s 0x4B f n vo all →
      exec (.gred f) s = .next (s.taken 0x4B f pops vo n all).advance)
    ∧ (∀ r, LanesRead s 0x4B f pops xs vo → f.dst = .s r → DstTakes s 0x4B f n vo all →
      exec (.gred f) s = .next (s.setG ((s.laneRest 0x4B f vo (s.g.popped pops)).wrSs r.toNat n (all 0))).advance)
    ∧ (LanesRead s 0x4C f pops xs vo → f.dst.isS = false → f.dst.isSp = false → DstTakes s 0x4C f n vo scan →
      exec (.gscan f) s = .next (s.taken 0x4C f pops vo n scan).advance))
  ∧ (∀ (ty : Ty) (l : List Nat), ty.isInt = true → (∀ x ∈ l, x < 2 ^ tyBits ty) →
    let n := tyBits ty
    redVal ty 0 l = l.sum % 2 ^ n
    ∧ (∀ x ∈ l, toInt ty (redVal ty 1 l) ≤ toInt ty x ∧ toInt ty x ≤ toInt ty (redVal ty 2 l))
    ∧ (l ≠ [] → redVal ty 1 l ∈ l ∧ redVal ty 2 l ∈ l)
    ∧ (∀ k < n, (redVal ty 3 l).testBit k = l.all (·.testBit k) ∧ (redVal ty 4 l).testBit k = l.any (·.testBit k)
        ∧ (redVal ty 5 l).testBit k = (l.countP (·.testBit k) % 2 == 1))
    ∧ (ty.isSigned = false → redVal ty 1 [] = 2 ^ n - 1 ∧ redVal ty 2 [] = 0)
    ∧ (ty.isSigned = true → redVal ty 1 [] = 2 ^ (n - 1) - 1 ∧ redVal ty 2 [] = 2 ^ (n - 1)))
  ∧ ∀ l : List Nat, let vs := l.map (decodeF fFP32)
    let t : Int := (vs.map fun v => match v with | .fin s m e => alignTo s m e (-149) | _ => 0).sum
    ((∃ v ∈ vs, v.isNaN = true) ∨ (FVal.inf true ∈ vs ∧ FVal.inf false ∈ vs) → redVal .f32 0 l = 0x7FC00000)
    ∧ ((∀ v ∈ vs, v.isNaN = false) → ∀ n, FVal.inf n ∈ vs → FVal.inf (!n) ∉ vs → redVal .f32 0 l = if n then 0xFF800000 else 0x7F800000)
    ∧ ((∀ v ∈ vs, v.isNaN = false ∧ v.isInf = false) →
        (t ≠ 0 → redVal .f32 0 l = roundTo fFP32 0 false 0 (.mag (decide (t < 0)) (magOf t.natAbs (-149))))
        ∧ (t = 0 → redVal .f32 0 l = if l ≠ [] ∧ ∀ x ∈ l, x % 2 ^ 32 = 0x80000000 then 0x80000000 else 0))

/-- 13 R291, R292, R293: at turn t the name cK denotes slot (K - t) mod 64 with the expected tag (t - K) mod 2^16; what is written as cK
at turn t is read as c(K + d) at turn t + d; and within a turn a write of cK is read back, and only its slot-lane changes. -/
def Obligations.CarryNamesRotate : Prop :=
  (∀ (k d : Nat) (t : Int), carrySlot (k + d) (t + d) = carrySlot k t ∧ carryTag (k + d) (t + d) = carryTag k t)
  ∧ (∀ (k : Nat) (t : Int), (carrySlot k t : Int) = (k - t) % 64 ∧ ((carryTag k t).toNat : Int) = (t - k) % 65536
      ∧ ((carryTag k t).toNat + carrySlot k t) % 64 = 0 ∧ carrySlot k (t + 64) = carrySlot k t)
  ∧ (∀ (s : State) (ctx k l : Nat) (x : Word), (s.window ctx).isSome = true → k < 64 → l < 64 →
      (s.carryWrite ctx k l x false).carryRead ctx k l = .val x
      ∧ (s.carryWrite ctx k l x true).carryRead ctx k l = .void
      ∧ ∀ j m, j < 64 → m < 64 → ¬(j = k ∧ m = l) → ∀ v, (s.carryWrite ctx k l x v).carryRead ctx j m = s.carryRead ctx j m)

/-- 07 R134, 01 R26, 13 R295: `cset` opens the window (or clears it after a loop) and writes its source as at turn -1 in every executing
lane, the source read in the window that it has opened (log [27], DESIGN CHOICE); in an iteration group it is an illegal instruction of cause 7.
07 R135: `cfwd` writes in each executing lane what it reads: a FULL slot-lane as FULL, a VOID one as VOID, and p14 keeps its bits.
07 R136: `cstat` reports the tag, how it compares with the expected one, and the state of the slot-lane that its operand names. Only
registers change. The tag of an EMPTY slot-lane has no meaning in the manual: the model gives a free value (log [2], DESIGN CHOICE). -/
def Obligations.CarryInstructionsSeedForwardAndReport : Prop :=
  (∀ (f : AluF) (s : State) (k : BitVec 6) (pops : List (Queue × Word)) (xs : Nat → List Nat) (vo : Nat → Bool),
    f.dst = .c k → s.g.present = true →
    let u := s.setG s.g.openWindow
    (s.g.it = none → LanesRead u 0x50 f pops xs vo →
      (∀ l ∈ lanesOf (s.execLanes f.guard), u.carryBad s.ctx k.toNat l = none) → u.g.pendingWrite (u.laneWrites 0x50 f vo) = none →
      exec (.cset f) s = .next (u.taken 0x50 f pops vo 1 fun l => argA (xs l) % 2 ^ tyBits f.ty).advance)
    ∧ (s.g.it ≠ none → exec (.cset f) s = .next (takeTrap s 1 7 ((encodeForm (.alu 0x50 f)).truncate 64) s.pathMask)))
  ∧ (∀ (f : AluF) (s : State) (a d : BitVec 6) (r : Nat → Option Word), f.a.opnd = .c a → f.dst = .c d → s.g.present = true →
    (s.window s.ctx).isSome = true → s.execLive f.guard ≠ 0 → s.mayYield s.ctx d.toNat = true →
    (∀ l ∈ lanesOf (s.execLanes f.guard), s.carryRead s.ctx a.toNat l = (match r l with | some w => .val w | none => .void)
      ∧ s.carryBad s.ctx d.toNat l = none) →
    exec (.cfwd f) s = .next ((lanesOf (s.execLanes f.guard)).foldl (fun u l =>
      u.carryWrite s.ctx d.toNat l ((r l).getD 0) ((r l).isNone || bitOf s.g.helper l)) s).advance)
  ∧ (∀ (f : AluF) (s : State) (k : BitVec 6) (d : BitVec 8), f.a.opnd = .c k → f.dst = .v d → s.g.present = true →
    (s.window s.ctx).isSome = true → s.execLive f.guard ≠ 0 → s.g.pendingWrite (dstNames f.dst 1) = none →
    s.g.needs 0 (dstV f.dst 1) ≤ s.g.peak → ∃ y : Nat → Nat,
      exec (.cstat f) s = .next (State.advance { s.setG ((s.g.kill 0).dstWrite f.dst 1 ((lanesOf (s.execLanes f.guard)).map fun l => (l, y l)))
        with fresh := s.fresh + 64 })
      ∧ ∀ l ∈ lanesOf (s.execLanes f.guard),
        let x := get {} ((s.window s.ctx).getD {}).slots (slotKey (carrySlot k.toNat (s.turnOf s.ctx)) l)
        let e := carryTag k.toNat (s.turnOf s.ctx)
        y l % 4 = (match x.st with | .empty => 0 | .full => 1 | .void => 2)
        ∧ (x.st ≠ .empty → y l / 65536 = x.tag.toNat
            ∧ y l / 4 % 16384 = if x.tag = e then 0 else if (x.tag - e).toNat < 32768 then 2 else 1))

/-- 07 R137 to R139: `rand` gives each executing lane the next word of its stream, the counter under the lane's key, in its `v` destination, and steps the
counter; as `f32` the word's high 24 bits are scaled exactly into [0, 1).
07 R140: `rkey` writes each executing lane's old key to the pair d, sets the lane's key to a and its counter to 0. The other lanes
keep theirs. Completion of rand and rkey. -/
def Obligations.RandomStreamsAndTheirKeys : Prop :=
  (∀ (f : AluF) (s : State) (d : BitVec 8), f.dst = .v d → s.g.present = true → s.execLive f.guard ≠ 0 →
    usesCarry f 0x58 = false → s.g.pendingWrite (dstNames f.dst 1) = none → s.g.needs 0 (dstV f.dst 1) ≤ s.g.peak →
    let ls := lanesOf (s.execLanes f.guard)
    let w (l : Nat) : Word := arx (get 0 s.g.ctr l) (get 0 s.g.key l)
    exec (.rand f) s = .next (s.setG (((s.g.kill 0).stepCtr ls 1).dstWrite f.dst 1
      (ls.map fun l => (l, if f.ty = .f32 then randVal .f32 (w l) else (w l).toNat)))).advance
    ∧ (∀ l, get 0 (s.g.stepCtr ls 1).ctr l = if l ∈ ls then get 0 s.g.ctr l + 1 else get 0 s.g.ctr l)
    ∧ ∀ (x : Word), ∃ m e, decodeF fFP32 (randVal .f32 x) = .fin false m e ∧ alignTo false m e (-149) = alignTo false (x.toNat / 256) (-24) (-149))
  ∧ (∀ (f : AluF) (s : State) (xs : Nat → List Nat) (vo : Nat → Bool), LanesRead s 0x59 f [] xs vo → f.dst.isV = true →
    DstTakes s 0x59 f 2 vo (fun l => (get 0 s.g.key l).toNat) →
    let u := s.taken 0x59 f [] vo 2 fun l => (get 0 s.g.key l).toNat
    ∃ t : Group, exec (.rkey f) s = .next (u.setG t).advance ∧ t = { u.g with key := t.key, ctr := t.ctr }
      ∧ ∀ l, get 0 t.key l = (if l ∈ lanesOf (s.execLanes f.guard) then BitVec.ofNat 64 (argA (placeImm 0x59 f (xs l))) else get 0 s.g.key l)
        ∧ get 0 t.ctr l = (if l ∈ lanesOf (s.execLanes f.guard) then 0 else get 0 s.g.ctr l))

/-- 07 R142, R143, 23 R449: `sset` writes the group setting word and gives the old one, and traps on a word outside its fields; `cap`
gives the registry's value and whether it knows the key; `clk` gives the cycle counter of the group's core. All run on the uniform
front. -/
def Obligations.SettingsClockAndCapabilities : Prop :=
  (∀ (f : AluF) (s : State) (r : BitVec 7), f.dst = .s r → s.g.present = true → s.groupPasses f.guard = true →
    s.g.pendingWrite (dstNames f.dst 2) = none →
    let x := s.frontVal 0x61 f
    let w := s.frontVal 0x62 f
    (nameStop s.g (aluUses 0x61 f) = none → x < 8 → exec (.sset f) s = .next
      (State.advance (s.setG { (s.g.kill 0).wrSs r.toNat 1 s.g.setting.toNat with setting := BitVec.ofNat 32 x })))
    ∧ (nameStop s.g (aluUses 0x61 f) = none → 8 ≤ x → exec (.sset f) s = .next (takeTrap s 8 0 (BitVec.ofNat 64 x) s.pathMask))
    ∧ (nameStop s.g (aluUses 0x62 f) = none → w < 2 ^ 19 → exec (.cap f) s = .next (State.advance (s.setG
        (((s.g.kill 0).wrSs r.toNat 2 ((s.capability s.g (w % 65536)).getD 0)).wrSp (w / 65536 % 8) (s.capability s.g (w % 65536)).isSome))))
    ∧ (onFront 0x63 f = true → usesCarry f 0x63 = false → exec (.clk f) s = .next
        (State.advance (s.setG ((s.g.kill 0).wrSs r.toNat 2 (s.now - (s.core s.g.core).stopped))))))
  ∧ ∀ (f : AluF) (s : State) (d : BitVec 8), f.dst = .v d → onFront 0x63 f = false → s.g.present = true → s.execLive f.guard ≠ 0 →
    usesCarry f 0x63 = false → s.g.pendingWrite (dstNames f.dst 2) = none → s.g.needs 0 (dstV f.dst 2) ≤ s.g.peak →
    exec (.clk f) s = .next (s.setG ((s.g.kill 0).dstWrite f.dst 2
      ((lanesOf (s.execLanes f.guard)).map fun l => (l, (s.now - (s.core s.g.core).stopped) % 2 ^ 64)))).advance

/-- 07 R126, 06 R97: `quant` divides by the block scale, and under SMOOTH by the factor at scratchpad address b, rounds once under VAR
to the target code, and gives the code zero-extended; without SMOOTH b is not read (`dropB`: its KILL alone takes effect, log [15], DEDUCED); the read of
the factor waits for the group's stores and acquiring accesses (10 R226), and for a copy command that owns its word (08 R182). A control word with a reserved bit or a TFMT of 9 or more traps in every executing lane. -/
def Obligations.QuantRoundsToTheTargetCode : Prop :=
  ∀ (f : AluF) (s : State) (pops : List (Queue × Word)) (xs : Nat → List Nat) (vo : Nat → Bool) (c : Nat)
    (pl : Nat → Nat × Nat), s.quantCtl f = c → onFront 0x3B f = false → (usesCarry f 0x3B = true → (s.window s.ctx).isSome = true) →
    let u := (s.dropB f).1
    let h := (s.dropB f).2
    let all := ∀ l ∈ lanesOf (s.execLanes f.guard), argC (xs l) = c
    let t := c % 16
    let y (l : Nat) : Nat := roundElem t f.var.toNat (drawAt (s.g.drawn l (drawsOf 0x3B f)) 0)
      (if c / 256 % 256 = 255 then .nan
       else ((decodeF fFP32 (argA (xs l))).scale (127 - ((c / 256 % 256 : Nat) : Int) + (if t = 5 then 6 else if t = 6 then 2 else 0))).div one)
    let z (l : Nat) : Nat := roundElem t f.var.toNat (drawAt (s.g.drawn l (drawsOf 0x3B f)) 0)
      (if c / 256 % 256 = 255 then .nan
       else ((decodeF fFP32 (argA (xs l))).scale (127 - ((c / 256 % 256 : Nat) : Int) + (if t = 5 then 6 else if t = 6 then 2 else 0))).div
        (decodeF fFP32 (s.scrRead (pl l).1 (pl l).2 4)))
    (c < 65536 → c / 16 % 16 = 0 → t ≤ 8 → LanesRead u 0x3B h pops xs vo → all → DstTakes u 0x3B h 1 vo y →
      exec (.quant f) s = .next (u.taken 0x3B h pops vo 1 y).advance)
    ∧ (c < 65536 → c / 16 % 16 = 8 → t ≤ 8 → LanesRead s 0x3B f pops xs vo → all → DstTakes s 0x3B f 1 vo z →
      (∀ l ∈ lanesOf (s.execLanes f.guard), argB (xs l) % 4 = 0 ∧ s.scrAt s.g (argB (xs l)) 4 = some (pl l)
        ∧ s.inStash (pl l).1 (pl l).2 4 = false ∧ s.poisScr.contains (scrKey (s.space (pl l).1) (pl l).2 / 4) = false
        ∧ s.ownedSpots s.g.part (fun _ _ => true) [(2 ^ 24 + (pl l).1, (pl l).2, 4)] = false) →
      (∀ o ∈ s.g.ops, o.done = true ∨ o.place ≠ .scr) → s.g.heldBack = none →
      exec (.quant f) s = .next (s.taken 0x3B f pops vo 1 z).advance)
    ∧ (65536 ≤ c ∨ c / 16 % 8 ≠ 0 ∨ 9 ≤ t → (if c / 128 % 2 = 0 then LanesRead u 0x3B h pops xs vo else LanesRead s 0x3B f pops xs vo) → all →
      (∀ k, f.dst = .c k → s.mayYield s.ctx k.toNat = true) →
      exec (.quant f) s = .next (takeTrap s 8 0 (BitVec.ofNat 64 c) (s.execLive f.guard)))

/-- 11 R264 to R268, R270 to R273, 02 R57, R58: `bra`, `brx` and `brt` send each branching lane to its target and the others to the next
instruction; an unmarked or misaligned target traps, and so does a branch that would spill too much.
11 R265: the target sets of a branch stand in ascending order of their PCs, every lane of the path is in the set of its own target
and in no other, and no set holds another lane.
22 R432, R433: where trace is on, a `bra` gives one BRANCH packet with the branching lanes, and a `brx` or `brt` with a branching lane gives one INDIRECT
packet for each target set of the path, that of the next instruction among them.
Completion of bra, brx and brt. -/
def Obligations.BranchesMoveTheirLanes : Prop :=
  (∀ (f : CtlF) (s : State), s.g.present = true →
    let m := s.taking f.guard
    let rcv := fieldPc s.pc f.rcv
    let dest (b : Mask) (t : Nat → Word) (l : Nat) : Word := if bitOf b l then t l else pcNext s.pc
    let d := fieldPc s.pc f.tgt
    let a := s.linkVal0 f.link
    let entry (l : Nat) : Option Nat := ((s.code s.g.code).tables.getD (f.tgt.toNat / 8) [])[(a l).toNat]?
    let b := maskOf 64 fun l => bitOf m l && (entry l).isSome
    ((m ≠ 0 → s.marked d = true) → s.branchFits (dest m fun _ => d) rcv →
      exec (.bra f) s = .next (if m = 0 then s.branched (dest m fun _ => d) rcv else (s.branched (dest m fun _ => d) rcv).emitBranch s.g s.pc m))
    ∧ (m ≠ 0 → s.marked d = false → exec (.bra f) s = .next (takeTrap s 3 0 (d.setWidth 64) m))
    ∧ ((m ≠ 0 → s.marked d = true) → ¬s.branchFits (dest m fun _ => d) rcv → exec (.bra f) s = .next (takeTrap s 5 0 0 s.pathMask))
    ∧ (m ≠ 0 → (∀ l ∈ lanesOf m, (a l).toNat % 64 = 0) → s.needOpnd f.link m = .ok () →
      s.branchFits (dest m fun l => pcOfAddr (a l).toNat) rcv →
      exec (.brx f) s = .next ((s.branched (dest m fun l => pcOfAddr (a l).toNat) rcv).traceSets s.pc
        (targetSets s.pathMask (dest m fun l => pcOfAddr (a l).toNat))))
    ∧ (m ≠ 0 → f.tgt.toNat / 8 < (s.code s.g.code).tables.length → (∀ l ∈ lanesOf b, (entry l).getD 0 % 64 = 0) →
      (∀ l, (entry l).getD 0 < 2 ^ 32) →
      s.needOpnd f.link m = .ok () → s.branchFits (dest b fun l => pcOfAddr ((entry l).getD 0)) rcv →
      exec (.brt f) s = .next ((s.branched (dest b fun l => pcOfAddr ((entry l).getD 0)) rcv).traceSets s.pc
        (targetSets s.pathMask (dest b fun l => pcOfAddr ((entry l).getD 0)))))
    ∧ (m = 0 → exec (.brx f) s = .next s.advance ∧ exec (.brt f) s = .next s.advance)
    ∧ (m ≠ 0 → (∃ l ∈ lanesOf m, (a l).toNat % 64 ≠ 0) → ∃ (d : DWord) (k : Mask), exec (.brx f) s = .next (takeTrap s 4 0 d k)
      ∧ ∀ l < 64, bitOf k l = (bitOf m l && (a l).toNat % 64 != 0))
    ∧ (m ≠ 0 → (s.code s.g.code).tables.length ≤ f.tgt.toNat / 8 → exec (.brt f) s = .next (takeTrap s 25 0 (BitVec.ofNat 64 (f.tgt.toNat / 8)) m)))
  ∧ (∀ (m : Mask) (t : Nat → Word),
    (targetSets m t).Pairwise (fun x y => x.1.toNat < y.1.toNat)
    ∧ (∀ x ∈ targetSets m t, x.2 ≠ 0 ∧ ∀ l < 64, (bitOf x.2 l = true ↔ bitOf m l = true ∧ t l = x.1))
    ∧ ∀ l < 64, bitOf m l = true → ∃ x ∈ targetSets m t, bitOf x.2 l = true)

/-- 02 R58, 11 R274: `call` and `callx` write the link, the address of the line after their own, and go to the target; `ret` goes to the
address in its link register. A path none of whose lanes branches moves on. -/
def Obligations.CallsLinkAndReturn : Prop :=
  ∀ (f : CtlF) (s : State) (r : BitVec 7), s.g.present = true → f.link = .s r →
    let m := s.taking f.guard
    let link : Word := BitVec.ofNat 32 (64 * (s.pc.toNat / 8 + 1))
    let g := s.g.countIssue s.slot s.now
    let a := (s.g.rdS r.toNat).toNat
    let d := fieldPc s.pc f.tgt
    (m ≠ 0 → s.marked d = true → s.g.pendingWrite [f.link] = none →
      exec (.call f) s = .next ((s.setG ((g.wrS r.toNat link).goto s.slot d)).emitBranch s.g s.pc m))
    ∧ (m ≠ 0 → a % 64 = 0 → s.needOpnd f.link m = .ok () → s.g.pendingWrite [f.link] = none →
      exec (.callx f) s = .next ((s.setG ((g.wrS r.toNat link).goto s.slot (pcOfAddr a))).emitIndirect s.g s.pc (pcOfAddr a) m))
    ∧ (m ≠ 0 → a % 64 = 0 → s.needOpnd f.link m = .ok () →
      exec (.ret f) s = .next ((s.setG (g.goto s.slot (pcOfAddr a))).emitIndirect s.g s.pc (pcOfAddr a) m))
    ∧ (m ≠ 0 → a % 64 ≠ 0 → exec (.ret f) s = .next (takeTrap s 4 0 (BitVec.ofNat 64 a) m)
        ∧ exec (.callx f) s = .next (takeTrap s 4 0 (BitVec.ofNat 64 a) m))
    ∧ (m = 0 → exec (.call f) s = .next s.advance ∧ exec (.callx f) s = .next s.advance ∧ exec (.ret f) s = .next s.advance)

/-- 11 R275, 18 R377: `exit` ends the executing lanes that are no helpers. While other lanes live the path goes on; the last exit of a
group outside worlds and loops retires it. A handler of which every lane has exited gives way to the paths that its trap saved (log [40], DEDUCED).
01 R16, R32, R33: lanes that end leave the mask of every path, the saved ones too; an ended lane is a helper while its quad holds a
live lane, and has exited otherwise. -/
def Obligations.ExitEndsItsLanes : Prop :=
  (∀ (f : CtlF) (s : State), s.g.present = true →
    let m := s.execLive f.guard
    let g := (s.g.countIssue s.slot s.now).endLanes m
    (m = 0 → exec (.exit f) s = .next s.advance)
    ∧ (m ≠ 0 → s.g.liveLanes &&& ~~~m ≠ 0 →
      let h := (g.goto s.slot (pcNext s.pc)).dropEmptyLevels 2
      exec (.exit f) s = .next (((s.setG h).putSpills s.ctx).emitBranch h s.pc m))
    ∧ (m ≠ 0 → s.g.liveLanes &&& ~~~m = 0 → s.g.it = none → s.g.fork = none →
      exec (.exit f) s = .next ((s.setG g).retireGroup s.ctx s.pc)))
  ∧ (∀ (g : Group) (m : Mask), g.width ≤ 64 → let h := g.endLanes m
    (∀ p ∈ h.stack, p.mask &&& m = 0) ∧ (∀ st ∈ h.saves, ∀ p ∈ st, p.mask &&& m = 0)
    ∧ ∀ l < g.width, (bitOf h.ended l = true ↔ bitOf g.ended l = true ∨ bitOf m l = true)
      ∧ (bitOf h.helper l = true ↔ bitOf h.ended l = true ∧ ∃ j < g.width, j / 4 = l / 4 ∧ bitOf h.ended j = false))

/-- 11 R276: `brk` raises a precise breakpoint trap when at least one executing lane is no helper, with those lanes as its mask; with no
such lane it does nothing.
20 R395: `trap n` raises kind 27 with DETAIL = n and MASK = the executing lanes that are no helpers, and does nothing without one. -/
def Obligations.BreakpointsAndUserTraps : Prop :=
  (∀ (f : CtlF) (s : State), s.g.present = true →
    (s.execLive f.guard ≠ 0 → exec (.brk f) s = .next (takeTrap s 26 0 0 (s.execLive f.guard)))
    ∧ (s.execLive f.guard = 0 → exec (.brk f) s = .next s.advance))
  ∧ (∀ (f : SysF) (s : State), s.g.present = true →
    (s.execLive f.guard ≠ 0 → exec (.trap f) s = .next (takeTrap s 27 0 (BitVec.ofNat 64 f.imm.toNat) (s.execLive f.guard)))
    ∧ (s.execLive f.guard = 0 → exec (.trap f) s = .next s.advance))

/-- 20 R387 to R392, R402: taking a trap at level 0 or 1 with a handler. The record goes on top of the record areas with the PC of the trapping
instruction, the level, world and region; the paths are saved; one path starts at the handler with the trapping path's mask. Registers,
queues, counters and operations in flight keep their values, and of memory only the group's own context changes: it holds the record, and nothing
outside its 131,072 bytes is written while its fields lie inside them. That the context is written at the entry is the model's reading (log [26],
DEDUCED). A group that waits in `bsync` or `reorder` issues nothing, so that no instruction of it traps there.
20 R389, R392, R407: a trap at the third level, or without a handler, kills the block: every group of it that has not retired stops,
the launch is faulted, the partition's count of killed blocks rises, and one kind-31 record with the kind and cause is posted. -/
def Obligations.TakingATrap : Prop :=
  (∀ (s : State) (kind cause : Nat) (detail : DWord) (mask : Mask), s.g.recs.length < 2 → s.g.handler ≠ 0 → s.slot < s.g.stack.length →
    s.g.atBsync = false → s.g.atReorder = none →
    let t := takeTrap s kind cause detail mask
    let n := s.g.recs.length
    let p := s.g.path s.slot
    ∃ r : TrapRec, r.kind = kind ∧ r.cause = cause ∧ r.detail = detail ∧ r.mask = mask ∧ r.pc = s.pc ∧ r.nested = decide (0 < n)
      ∧ r.ctx = s.ctx ∧ r.engine = false ∧ r.region = s.g.topRegion ∧ r.world = BitVec.ofNat 16 s.g.worldWord
      ∧ t.g = { s.g with recs := r :: s.g.recs, saves := setAt s.g.stack s.slot { p with stall := 0, sup := none, trapped := true } :: s.g.saves,
                         stack := [{ pc := s.g.handler, mask := p.mask, rcv := noRcv }], status := .run, parkRec := none, lastSlot := 0,
                         issued := s.g.issued + 1, lastIssue := s.now + 1, lastBeat := if s.g.quiet then s.g.lastBeat else s.now }
      ∧ t.scr = s.scr ∧ t.acc = s.acc ∧ t.remote = s.remote
      ∧ ((∀ x ∈ ctxFields t t.g, x.1 + x.2.length ≤ 131072) →
          ∀ a, (∀ b, s.ctxAddr s.ctx = some b → a < b ∨ b + 131072 ≤ a) → rdByte t.hbm a = rdByte s.hbm a)
      ∧ ∀ b, s.ctxAddr s.ctx = some b → rdBytes t.hbm (b + 0x5E0 + 32 * n) 32 = r.bytes)
  ∧ (∀ (s : State) (kind cause : Nat) (detail : DWord) (mask : Mask), s.g.present = true → (2 ≤ s.g.recs.length ∨ s.g.handler = 0) →
    let t := takeTrap s kind cause detail mask
    (t.block s.g.blk).status = .retiring ∧ (t.block s.g.blk).killed = true
      ∧ (t.launch (s.block s.g.blk).launch).faulted = true
      ∧ (t.part s.g.part).killed = (s.part s.g.part).killed + 1
      ∧ (∃ r : TrapRec, (t.part s.g.part).posts = (s.part s.g.part).posts ++ [(none, [r])] ∧ r.kind = 31
          ∧ r.detail = BitVec.ofNat 64 (kind + 256 * cause) ∧ r.ctx = s.ctx ∧ r.mask = mask ∧ r.pc = s.pc)
      ∧ (∀ n, (s.group n).present = true → (s.group n).blk = s.g.blk → (s.group n).status ≠ .retired →
          (t.group n).status = .retired ∧ (t.group n).stack = [])
      ∧ (∀ n, (s.group n).present = true → (s.group n).blk ≠ s.g.blk → (s.group n).status ≠ .retired → t.group n = s.group n)
      ∧ t.hbm = s.hbm ∧ t.remote = s.remote ∧ t.scr = s.scr ∧ t.acc = s.acc)

/-- 20 R396: `eret` at a level and on a single path returns; elsewhere it traps with kind 30. After a trap of a single path and its
handler's `eret` the group stands where it stood, at the next instruction after a breakpoint or a user trap and at the same one after any
other trap, and every register holds what it held; a group that waits in `bsync` or `reorder` issues nothing. Completion of eret. -/
def Obligations.EretResumesThePath : Prop :=
  (∀ (f : SysF) (s : State), s.g.present = true → s.groupPasses f.guard = true →
    (s.g.recs ≠ [] → s.g.stack.length = 1 → exec (.eret f) s = .next s.returnFrom)
    ∧ (s.g.recs = [] ∨ s.g.stack.length ≠ 1 → exec (.eret f) s = .next (takeTrap s 30 0 0 s.pathMask)))
  ∧ ∀ (s : State) (kind cause : Nat) (detail : DWord) (mask : Mask) (p : Path), s.g.stack = [p] → s.slot = 0 → s.g.recs.length < 2 →
    s.g.handler ≠ 0 → s.g.dkill = 0 → p.mask ≠ 0 → kind ≠ 19 → s.g.atBsync = false → s.g.atReorder = none →
    let q : Path := { p with pc := if kind = 26 ∨ kind = 27 then pcNext p.pc else p.pc, stall := 0, sup := none, trapped := false, tried := false }
    let t := (takeTrap s kind cause detail mask).returnFrom
    t.g = { s.g with stack := if atRcv q then [] else [q], status := .run, parkRec := none, lastSlot := 0,
                     ops := if kind = 18 then s.g.ops.map fun o => { o with refused := false } else s.g.ops,
                     issued := s.g.issued + 2, lastIssue := s.now + 1, lastBeat := if s.g.quiet then s.g.lastBeat else s.now }

/-- 20 R397: `perf` reads word n of the record at the current level for n below 8, then the level, the saved PCs and mask, the group's
issue count (the count before the `perf` itself: log [46], DEDUCED) and its last SC word, into its `s` register.
11 R277, 22 R423 to R425, R433: `sleep n` moves on and its path does not issue for n cycles. `renter` pushes its id, `rleave` pops
one; at depth 8, and at depth 0, they trap and change no stack. `tmark` emits its packet. A group command whose guard fails only moves on. -/
def Obligations.ObservationInstructions : Prop :=
  (∀ (f : SysF) (s : State) (r : BitVec 7), s.g.present = true → s.groupPasses f.guard = true → f.dst = .s r →
    s.g.pendingWrite [f.dst] = none → ∃ x : Word, exec (.perf f) s = .next (s.setG (s.g.wrS r.toNat x)).advance
      ∧ (∀ c, s.g.recs.head? = some c → f.var.toNat < 8 → x = c.word f.var.toNat)
      ∧ (f.var.toNat = 8 → x = BitVec.ofNat 32 s.g.recs.length)
      ∧ (∀ q st, s.g.saves.head? = some (q :: st) → let m := (s.g.shown (s.g.recs.length - 1) q).mask
          (f.var.toNat = 9 → x = q.pc) ∧ (f.var.toNat = 11 → x = m.truncate 32) ∧ (f.var.toNat = 12 → x = (m >>> 32).truncate 32))
      ∧ (f.var.toNat = 13 → x = s.g.issued)
      ∧ (f.var.toNat = 14 → x = s.g.lastSC.truncate 32) ∧ (f.var.toNat = 15 → x = (s.g.lastSC >>> 32).truncate 32))
  ∧ (∀ (f : SysF) (s : State), s.g.present = true →
    let n : BitVec 16 := f.imm.truncate 16
    (s.groupPasses f.guard = true →
      exec (.sleep f) s = .next (s.setG ((s.g.countIssue s.slot s.now).setPath s.slot
        { s.g.path s.slot with pc := pcNext s.pc, sleep := f.imm.toNat + 2, stall := 0, sup := none, tried := false }))
      ∧ exec (.tmark f) s = .next (s.emit s.g 4 (leBytes 2 f.imm.toNat)).advance
      ∧ (s.edgeUnwatched 5 n → s.g.regions.length < 8 →
          exec (.renter f) s = .next (s.setG { s.g with regions := n :: s.g.regions }).advance)
      ∧ (s.edgeUnwatched 5 n → 8 ≤ s.g.regions.length →
          exec (.renter f) s = .next (takeTrap s 8 0 (BitVec.ofNat 64 n.toNat) s.pathMask))
      ∧ (∀ i r, s.g.regions = i :: r → s.edgeUnwatched 6 i → exec (.rleave f) s = .next (s.setG { s.g with regions := r }).advance)
      ∧ (s.g.regions = [] → exec (.rleave f) s = .next (takeTrap s 8 0 0 s.pathMask)))
    ∧ (s.groupPasses f.guard = false → ∀ i ∈ [Instr.sleep f, .tmark f, .renter f, .rleave f, .eret f, .perf f, .wait f, .waitr f, .ufence f,
        .bsync f], exec i s = .next s.advance))

/-- 09 R205, R208 to R212: a load, store or atomic that passes the checks puts one operation in flight with an access for each executing
lane, its counter rises by one, KILLs take effect and the path moves on. No memory changes and no register is written until the operation
completes. -/
def Obligations.MemoryInstructionsIssue : Prop :=
  ∀ (mk : MemF → Instr) (opc : Nat), (mk, opc) ∈ ([(Instr.ld, 0x00), (.st, 0x01), (.amoAdd, 0x02), (.amoMin, 0x03), (.amoMax, 0x04),
      (.amoAnd, 0x05), (.amoOr, 0x06), (.amoXor, 0x07), (.amoXchg, 0x08), (.amoCas, 0x09), (.amoFadd, 0x0A)] : List ((MemF → Instr) × Nat)) →
  ∀ (f : MemF) (s : State) (accs : List Acc), s.g.present = true → s.memFirst opc f = .ok accs → accs ≠ [] → MemClear s opc f accs →
    let o := s.memOp opc f accs
    let u := s.launchOp o
    exec (mk f) s = .next (u.setG (u.g.kill (killSet (memUses opc f)))).advance
    ∧ (o.parked = false → u = s.setG (Group.rise { s.g with ops := s.g.ops ++ [o] } (memCls opc f)))
    ∧ MemorySame s (u.setG (u.g.kill (killSet (memUses opc f)))).advance
    ∧ accs = (s.memLanes opc f).map (s.memAcc f)
    ∧ o.bytes = 2 ^ f.size.toNat ∧ o.done = false ∧ o.accs.map (·.lane) = s.memLanes opc f ∧ (∀ x ∈ s.g.ops, x.id < o.id)

/-- 09 R208, R189, R192, R195: the checks of a memory instruction in their order: null object, record format, alignment, bounds (a lane out
of bounds is no fault under CLIP). The lanes that fail make the mask and the lowest of them gives DETAIL. Nothing is accessed. -/
def Obligations.AddressChecksTrapInOrder : Prop :=
  ∀ (mk : MemF → Instr) (opc : Nat), (mk, opc) ∈ ([(Instr.ld, 0x00), (.st, 0x01), (.amoAdd, 0x02), (.amoMin, 0x03), (.amoMax, 0x04),
      (.amoAnd, 0x05), (.amoOr, 0x06), (.amoXor, 0x07), (.amoXchg, 0x08), (.amoCas, 0x09), (.amoFadd, 0x0A)] : List ((MemF → Instr) × Nat)) →
  ∀ (f : MemF) (s : State) (l : Nat) (ls : List Nat), s.g.present = true → memUniform opc f = false → s.memLanes opc f = l :: ls →
    s.memNames opc f (l :: ls) = .ok () →
    let r := s.memRec f
    let mask (bad : List Nat) : Mask := bad.foldl (fun m j => m ||| oneBit j) 0
    let mis := (l :: ls).filter (s.misaligned f)
    let out := (l :: ls).filter fun j => (s.memAcc f j).clipped
    (MemF.place f = Where.dev → r.obj = 0 → exec (mk f) s = .next (takeTrap s 14 0 (s.memDetail f l) (mask (l :: ls))))
    ∧ (MemF.place f = Where.dev → r.obj ≠ 0 → r.bad = true → exec (mk f) s = .next (takeTrap s 15 0 (s.memDetail f l) (mask (l :: ls))))
    ∧ ((MemF.place f = Where.dev → r.obj ≠ 0 ∧ r.bad = false) → ∀ j js, mis = j :: js →
        exec (mk f) s = .next (takeTrap s 16 0 (s.memDetail f j) (mask mis)))
    ∧ ((MemF.place f = Where.dev → r.obj ≠ 0 ∧ r.bad = false ∧ r.clip = false) → mis = [] → ∀ j js, out = j :: js →
        exec (mk f) s = .next (takeTrap s 17 0 (s.memDetail f j) (mask out)))

/-- 09 R205, R206: LOAD_COMPLETION and STORE_COMPLETION perform an operation in flight that may be performed, each its own kind, and change
nothing where there is none.
09 R194, R209, R211, R212 through BUF 12: a performed store leaves the low bytes of DATA at its address, low byte first; a performed
atomic leaves there what R212 gives and returns the old value; a load changes no memory and gives its destination registers the bytes,
sign-extended under VAR 1. Every other byte of every memory keeps its value. -/
def Obligations.OperationsPerform : Prop :=
  (∀ (s : State) (ctx n : Nat),
    (∀ o, (s.group ctx).ops.find? (·.id == n) = some o → s.opReady ctx o = true → s.clocked (s.group ctx).core = true →
      (Op.returns o = true → exec (.loadCompletion ctx n) s = .next ((s.performOp ctx o).syncCnt ctx) ∧ exec (.storeCompletion ctx n) s = .next s)
      ∧ (Op.returns o = false → exec (.storeCompletion ctx n) s = .next ((s.performOp ctx o).syncCnt ctx) ∧ exec (.loadCompletion ctx n) s = .next s))
    ∧ ((s.group ctx).ops.find? (·.id == n) = none → exec (.loadCompletion ctx n) s = .next s ∧ exec (.storeCompletion ctx n) s = .next s))
  ∧ (∀ (s : State) (ctx : Nat) (o : Op) (a : Acc), o.accs = [a] → o.got = [] → a.clipped = false → o.place = .scr → o.ord = 0 → a.lane < 64 →
    o.bytes ∈ [1, 2, 4, 8, 16] →
    let k := scrKey (s.space a.obj) a.off
    let n := o.bytes
    let b := 8 * n
    let old := rdN s.scr k n
    let t := s.performOp ctx o
    let int (x : Nat) : Int := if o.signed then sgn b x else x
    (o.kind = .store → rdN t.scr k n = a.val % 256 ^ n ∧ ScratchOnly s t k n)
    ∧ (o.kind = .load → MemorySame s t)
    ∧ (o.kind = .amo → ScratchOnly s t k n ∧ (o.amo ≠ 10 → a.val < 2 ^ b → rdN t.scr k n =
        match o.amo with
        | 2 => (old + a.val) % 2 ^ b
        | 3 => if int old ≤ int a.val then old else a.val
        | 4 => if int a.val ≤ int old then old else a.val
        | 5 => old &&& a.val
        | 6 => old ||| a.val
        | 7 => old ^^^ a.val
        | 8 => a.val
        | 9 => if old = a.exp then a.val else old
        | _ => rdN t.scr k n))
    ∧ (∀ r : BitVec 8, o.kind = .load ∨ (o.kind = .amo ∧ o.ret = true) → o.dst = .v r → (s.group ctx).dkill = 0 → ∀ m j, j < 64 →
        (t.group ctx).rdV m j = if j = a.lane ∧ r.toNat ≤ m ∧ m < r.toNat + regsOf n then
          wordN (if o.signed ∧ n ≤ 2 then wrap 32 (sgn b old) else old) (m - r.toNat) else (s.group ctx).rdV m j))

/-- 09 R194, R205, R209, R211 for object bytes that lie in device memory, outside any world: a performed store leaves DATA at the
bytes' home, and a load with no L1 copy about reads them there.
18 R365, R366 in a world, for bytes of one line: a store changes no memory; the world then sees DATA in the stored bytes and every other byte as before, its
first store to a line creates the view line, and who does not resolve through this world sees every byte as before. A load in a world reads
the bytes as its world sees them. -/
def Obligations.DeviceAccessesPerform : Prop :=
  (∀ (s : State) (ctx : Nat) (o : Op) (a : Acc) (base : Nat), o.accs = [a] → o.got = [] → a.clipped = false → a.absent = false → a.held = false → o.place = .dev → o.world = 0 →
    o.ord = 0 → a.lane < 64 → o.bytes ∈ [1, 2, 4, 8, 16] → AtHome s (s.group ctx).part a.obj a.off o.bytes base →
    let n := o.bytes
    let t := s.performOp ctx o
    (o.kind = .store → rdN t.hbm base n = a.val % 256 ^ n ∧ (∀ c, c < base ∨ base + n ≤ c → rdByte t.hbm c = rdByte s.hbm c)
      ∧ t.remote = s.remote ∧ t.scr = s.scr ∧ t.acc = s.acc)
    ∧ (o.kind = .load → MemorySame s t ∧ ∀ r : BitVec 8, o.dst = .v r → o.signed = false → (s.group ctx).dkill = 0 → s.l1 = [] →
        ∀ i < regsOf n, r.toNat + i < 256 → (t.group ctx).rdV (r.toNat + i) a.lane = wordN (rdN s.hbm base n) i))
  ∧ ∀ (s : State) (ctx : Nat) (o : Op) (a : Acc) (base : Nat), o.accs = [a] → o.got = [] → a.clipped = false → a.absent = false → a.held = false →
    o.place = .dev → o.ord = 0 → a.lane < 64 → o.bytes ∈ [1, 2, 4, 8, 16] →
    (∀ i < o.bytes, placeOf (s.part (s.group ctx).part) a.obj (a.off + i) = some ⟨false, base + i⟩) → base % 64 + o.bytes ≤ 64 →
    (∀ e ∈ s.groups, e.2.stash = none) → (∀ e ∈ s.parts, e.2.parked = []) → (∀ v ∈ s.views, v.bytes.length = 64) →
    o.world ≠ 0 → o.world ∉ s.dropped → (∀ e ∈ s.links, e.1 ≠ o.world) →
    let n := o.bytes
    let w := o.world
    let t := s.performOp ctx o
    MemorySame s t
    ∧ (o.kind = .store →
      (∀ q : Place, t.seeByte w q = if q.remote = false ∧ base ≤ q.addr ∧ q.addr < base + n then BitVec.ofNat 8 (a.val / 256 ^ (q.addr - base))
        else s.seeByte w q)
      ∧ (s.viewAt w false (base / 64) = none → ∃ v, t.views = v :: s.views ∧ v.line = base / 64 ∧ v.world = w ∧ v.remote = false)
      ∧ ∀ (u : Nat) (q : Place), w ∉ s.chain 4 u → t.seeByte u q = s.seeByte u q)
    ∧ (o.kind = .load → t.views = s.views ∧ ∀ r : BitVec 8, o.dst = .v r → o.signed = false → (s.group ctx).dkill = 0 →
        ∀ i < regsOf n, r.toNat + i < 256 → (t.group ctx).rdV (r.toNat + i) a.lane
          = wordN (leNat ((List.range n).map fun j => s.seeByte w ⟨false, base + j⟩)) i)

/-- 09 R213 to R216: `pref` may bring lines near and counts in LD only with a flag, `pgreq` asks for absent extents and changes no other
thing, `smap` maps or unmaps the stash window after writing back the old one, `swb` and `sdrop` put an SP operation in flight.
09 R208, 17 R348, R349: an `swb` that names a line which is or will be DIRTY and whose object takes no store there faults, with a record for each
page. Completion of pref, pgreq, smap, swb and sdrop. -/
def Obligations.PrefetchAndStashInstructions : Prop :=
  ∀ (f : MemF) (s : State), s.g.present = true →
    let ls := lanesOf (s.execLive f.guard)
    let hits := (((ls.map (s.memAcc f)).filter s.willDirty).map fun a => xlatHits (s.part s.g.part) 1 64 (s.lineAcc a)).flatten
    (ls ≠ [] → s.memNames 0x11 f ls = .ok () → s.checkRec f none ls = .ok () →
      let t := s.askAll (ls.map (s.memAcc f))
      exec (.pgreq f) s = .next (t.setG (t.g.kill (killSet (memUses 0x11 f)))).advance ∧ MemorySame s t)
    ∧ (ls ≠ [] → s.memNames 0x10 f ls = .ok () → s.checkRec f none ls = .ok () → s.g.heldBack = none → 15 ≤ f.flagp.toNat →
      let t := if f.cache = 3 then s else s.bring f.cache.toNat (s.prefAccs f ls)
      let u := if s.softLoad f then t else t.askAll ((s.prefAccs f ls).filter (·.absent))
      exec (.pref f) s = .next (u.setG (u.g.kill (killSet (memUses 0x10 f)))).advance ∧ u.g.cLD = s.g.cLD
        ∧ ((∀ e ∈ s.groups, e.2.stash = none) → MemorySame s u))
    ∧ (s.groupPasses f.guard = true → nameStop s.g (memUses 0x12 f) = none → s.dataVal f 0 4 0 = 0 → s.g.ops = [] → s.g.cSP.toNat < 62 →
      let t := s.writeBackAll s.ctx true
      exec (.smap f) s = .next (t.setG { t.g with stash := none }).countSp.advance)
    ∧ (∀ w lines m, s.groupPasses f.guard = true → nameStop s.g (memUses 0x12 f) = none → s.g.ops = [] → s.g.cSP.toNat < 62 → s.g.stash = none →
      s.dataVal f 0 4 0 = lines * 2 ^ 20 + w * 64 → w < 2 ^ 14 → 0 < lines → lines < 2 ^ 12 → s.memOff f 0 = (64 * m : Nat) → (s.memRec f).obj ≠ 0 →
      (s.memRec f).bad = false → (s.memRec f).zord = false → (s.memRec f).xpose = false → (s.memRec f).swz = 0 → 64 * m + 64 * lines ≤ (s.memRec f).extent →
      (w + lines) * 64 ≤ (s.space s.g.space).size → s.windowClash s.g.space w lines = false →
      exec (.smap f) s = .next (s.setG { s.g with stash := some ⟨BitVec.ofNat 32 (lines * 2 ^ 20 + w * 64), f.buf.toNat, (s.memRec f).w, 64 * m, []⟩ }).countSp.advance)
    ∧ (∀ (mk : MemF → Instr) (opc : Nat) (kind : OpKind), (mk, opc, kind) ∈ ([(Instr.swb, 0x13, .swb), (Instr.sdrop, 0x14, .sdrop)] : List ((MemF → Instr) × Nat × OpKind)) →
      ls ≠ [] → s.memNames opc f ls = .ok () → (∀ l ∈ ls, (s.memAcc f l).clipped = false) → (kind = .swb → hits = []) → s.g.memStalls .sp 0 [] = .ok () →
      ∃ o : Op, o.kind = kind ∧ o.place = .stash ∧ o.bytes = 64 ∧ o.parked = false ∧ o.accs.map (·.lane) = ls ∧ (∀ x ∈ o.accs, x.off ≤ (s.memAcc f x.lane).off)
        ∧ exec (mk f) s = .next (s.setG ((Group.rise { s.g with ops := s.g.ops ++ [o] } .sp).kill (killSet (memUses opc f)))).advance)
    ∧ (ls ≠ [] → s.memNames 0x13 f ls = .ok () → (∀ l ∈ ls, (s.memAcc f l).clipped = false) → groupPages hits ≠ [] →
      exec (.swb f) s = .next (parkXlat s (groupPages hits)))
    ∧ (ls = [] → ∀ i ∈ [Instr.pgreq f, .pref f, .swb f, .sdrop f], exec i s = .next s.advance)

/-- 09 R217, R218, 08 R183, 10 R241, R250: `wait` returns once the counter of every class is at or below its threshold (63: no
condition), `waitr` once that of one class is, and each stalls under that class's reason before; a held fault of a waited class is raised
first. `fence` returns once LD, ST and SP read 0, and from `blk` on no L1 copy of the core is left. `ufence` does not wait: it marks the
stores and atomics in flight. -/
def Obligations.WaitsAndFencesReturn : Prop :=
  ∀ (f : SysF) (s : State), s.g.present = true → s.groupPasses f.guard = true →
    let n := f.imm.toNat
    let ws : List (Cls × Nat) := [(.ld, n % 64), (.st, n / 64 % 64), (.sp, n / 4096 % 64), (.cp, n / 2 ^ 18 % 64), (.mx, n / 2 ^ 24 % 64)]
    let c := clsOf f.var.toNat
    let x := s.skVal f.a.opnd % 64
    let marks := (s.g.ops.filter fun o => !o.done && (o.kind == .store || o.kind == .amo)).map (·.id)
    ((∀ h ∈ s.g.held, ∀ w ∈ ws, w.1 = h.cls → w.2 = 63) → (∀ w ∈ ws, w.2 ≠ 63 → (s.g.cnt w.1).toNat ≤ w.2) → exec (.wait f) s = .next s.advance)
    ∧ ((∀ h ∈ s.g.held, ∀ w ∈ ws, w.1 = h.cls → w.2 = 63) → (∃ w ∈ ws, w.2 ≠ 63 ∧ w.2 < (s.g.cnt w.1).toNat) →
        ∃ w ∈ ws, w.2 ≠ 63 ∧ w.2 < (s.g.cnt w.1).toNat ∧ exec (.wait f) s = .next (s.stallAt w.1.reason))
    ∧ (∀ h hs, s.g.held = h :: hs → (∃ w ∈ ws, w.1 = h.cls ∧ w.2 ≠ 63) → exec (.wait f) s = .next (takeStop s (.held h)))
    ∧ (nameStop s.g [⟨f.a, 1, .b32⟩] = none → x = 63 ∨ ((∀ h ∈ s.g.held, h.cls ≠ c) ∧ (s.g.cnt c).toNat ≤ x) → exec (.waitr f) s = .next s.advance)
    ∧ (nameStop s.g [⟨f.a, 1, .b32⟩] = none → x < 63 → (∀ h ∈ s.g.held, h.cls ≠ c) → x < (s.g.cnt c).toNat →
        exec (.waitr f) s = .next (s.stallAt c.reason))
    ∧ ((3 ≤ f.var.toNat → s.liveSiblings s.g = false) → (∀ h ∈ s.g.held, ¬(h.cls = .st ∧ h.trec.kind = 22)) →
        s.g.cLD = 0 → s.g.cST = 0 → s.g.cSP = 0 →
        exec (.fence f) s = .next (if f.var = 0 then s else { s with l1 := s.l1.filter fun y => y.core != s.g.core }).advance)
    ∧ exec (.ufence f) s = .next (s.setG { s.g with ufence := marks }).advance

/-- 10 R240 to R244: `acq` drops the core's L1 copies of the guard's regions, `rel` puts an ST operation in flight that raises GEN by one
when it is performed, `bind` adds an entry to the binding table, and `unbind` removes the entry at its handle, or does nothing without
one. Each checks its handles and the world first; a guard whose bytes +4 to +15 are not zero traps. Completion of acq, rel, bind and unbind. -/
def Obligations.GuardsAndBindings : Prop :=
  (∀ (f : SysF) (s : State), s.g.present = true → s.groupPasses f.guard = true → s.needPair f.a = .ok () → s.needPair f.b = .ok () →
    let h := s.pairVal f.a.opnd
    let q := s.pairVal f.b.opnd
    let p := s.part s.g.part
    let inside := s.liveSiblings s.g = false
    let o : Op := { id := s.g.newId, cls := .st, kind := .rel, place := .dev, bytes := 16, pc := s.pc, world := s.g.world,
                    accs := [{ lane := 0, obj := objOf h, off := offOf h }] }
    (s.checkGuard h = .ok () → (3 ≤ f.var.toNat → inside) → s.g.heldBack = none → s.guardBusy h = none → s.guardExt h = .resident →
      (s.guardFine h = true →
        exec (.acq f) s = .next (if f.var = 0 then s else s.acquire s.g.part s.g.core [.bound h]).advance)
      ∧ (s.guardFine h = false → exec (.acq f) s = .next (takeTrap s 22 0 h s.pathMask)))
    ∧ (s.checkGuard h = .ok () → (3 ≤ f.var.toNat → inside) → s.g.relWait = none → s.g.cST.toNat < 62 → s.guardExt h = .resident →
      exec (.rel f) s = .next (s.setG (Group.rise { s.g with ops := s.g.ops ++ [o] } .st)).advance)
    ∧ (s.checkHandle h 65536 (f.imm.toNat * 65536) = .ok () → s.checkGuard q = .ok () → inside → s.g.relWait = none → s.g.heldBack = none →
      (∀ b ∈ p.binds, b.obj = objOf h → offOf h + f.imm.toNat * 65536 ≤ b.base ∨ b.base + b.len * 65536 ≤ offOf h) →
      (p.binds.length < 4096 → s.guardBusy q = none → s.guardExt q = .resident → s.guardFine q = true →
        exec (.bind f) s = .next (s.setPart s.g.part { p with binds := p.binds ++ [⟨objOf h, offOf h, f.imm.toNat, q⟩] }).advance)
      ∧ (4096 ≤ p.binds.length → exec (.bind f) s = .next (takeTrap s 23 0 h s.pathMask)))
    ∧ (s.checkHandle h 65536 1 = .ok () → inside →
      let at_ := p.binds.find? fun b => b.obj == objOf h && b.base == offOf h
      (at_ = none → exec (.unbind f) s = .next s.advance)
      ∧ ∀ e, at_ = some e → s.g.relWait = none → s.g.heldBack = none → s.guardBusy e.guard = none → s.guardExt e.guard = .resident →
        exec (.unbind f) s = .next (if s.guardFine e.guard = true then
          (s.setPart s.g.part { p with binds := p.binds.filter fun b => !(b.obj == objOf h && b.base == offOf h) }).advance
          else takeTrap s 22 0 e.guard s.pathMask))
    ∧ (s.checkGuard h = .ok () → 3 ≤ f.var.toNat → ¬inside →
      exec (.acq f) s = .next (takeTrap s 20 1 0 s.pathMask) ∧ exec (.rel f) s = .next (takeTrap s 20 1 0 s.pathMask)))
  ∧ ∀ (s : State) (ctx : Nat) (o : Op) (a : Acc) (base : Nat), o.kind = .rel → o.world = 0 → o.accs = [a] →
    AtHome s (s.group ctx).part a.obj a.off 16 base → rdN s.hbm base 16 < 2 ^ 32 →
    let t := s.performOp ctx o
    rdN t.hbm base 16 = (rdN s.hbm base 16 + 1) % 2 ^ 32 ∧ (∀ c, c < base ∨ base + 16 ≤ c → rdByte t.hbm c = rdByte s.hbm c)
      ∧ t.scr = s.scr ∧ t.acc = s.acc ∧ t.remote = s.remote

/-- 10 R245: `bsync` on a single path outside iteration groups arrives and holds its group; a diverged group and an iteration group trap
without arriving. BSYNC_COMPLETE, once every group of the world in the block stands there and what those that have exited issued is performed, moves each of them on together, advances the
barrier generation and leaves no L1 copy in their cores; before that it changes nothing. The `bsync` that comes last is complete with the meeting that follows it. -/
def Obligations.BlockBarrierMeets : Prop :=
  (∀ (f : SysF) (s : State), s.g.present = true → s.groupPasses f.guard = true →
    (s.g.diverged = false → s.g.it = none → s.g.heldBack = none → s.g.relWait = none →
      exec (.bsync f) s = .next ((s.setG { s.g with atBsync := true }).stallAt 6))
    ∧ (s.g.diverged = true ∨ s.g.it ≠ none → exec (.bsync f) s = .next (takeTrap s 24 0 0 s.pathMask))
    ∧ (s.g.diverged = false → s.g.it = none → s.g.heldBack = none → s.g.relWait = none → s.slot = 0 → s.g.status ≠ .retired →
      (s.groups.map (·.1)).Nodup → (s.block s.g.blk).status = .running →
      (∀ e ∈ s.groups, e.2.blk = s.g.blk → e.2.atBsync = true → e.2.world = s.g.world) →
      (∀ c ∈ s.barrierGroups s.g.blk s.g.world, c ≠ s.ctx → (s.group c).atBsync = true) →
      (∀ c ∈ s.barrierGroups s.g.blk s.g.world, s.clocked (s.group c).core = true) → s.exitedBusy s.g.blk s.g.world = false →
      ∃ u t, exec (.bsync f) s = .next u ∧ exec (.bsyncComplete s.g.blk) u = .next t
        ∧ t.g = Group.next { s.g with atBsync := false, bsyncs := s.g.bsyncs + 1 } 0 s.now ∧ MemorySame s t))
  ∧ ∀ (s : State) (b w : Nat), (s.groups.map (·.1)).Nodup → (s.block b).status = .running →
    (∀ e ∈ s.groups, e.2.blk = b → e.2.atBsync = true → e.2.world = w) →
    let cs := s.barrierGroups b w
    ((∃ c ∈ cs, (s.group c).atBsync = false) ∨ s.exitedBusy b w = true → exec (.bsyncComplete b) s = .next s)
    ∧ (cs ≠ [] → (∀ c ∈ cs, (s.group c).atBsync = true ∧ s.clocked (s.group c).core = true) → s.exitedBusy b w = false → ∃ t, exec (.bsyncComplete b) s = .next t
      ∧ (∀ c ∈ cs, t.group c = Group.next { s.group c with atBsync := false, bsyncs := (s.group c).bsyncs + 1 } 0 s.now)
      ∧ (∀ c, c ∉ cs → t.group c = s.group c)
      ∧ (t.block b).gen = ((s.block b).gen + 1) % 8 ∧ (∀ x ∈ t.l1, x ∈ s.l1 ∧ ∀ c ∈ cs, x.core ≠ (s.group c).core) ∧ MemorySame s t)

/-- 10 R246 to R249: `pbinit` and `pbarr` put an SP operation in flight; performed, they write the count twice with phase 0, and take one
arrival from PENDING, which at zero flips the phase and starts the next; at a broken barrier an arrival does nothing. `pbwait` returns true
at another phase than its operand's, with no L1 copy left in the core, returns false at a broken barrier of the same phase, and stalls else. -/
def Obligations.PhaseBarriersCountArrivals : Prop :=
  (∀ (f : SysF) (s : State) (sp b : Nat), s.g.present = true → s.groupPasses f.guard = true → s.needSrc f.a = .ok () → s.needSrc f.b = .ok () →
    s.barrierAt (s.skVal f.a.opnd) = .ok (sp, b) →
    let n := s.skVal f.b.opnd
    let k := s.block s.g.blk
    let op (kind : OpKind) (x : Nat) (u : State) : State := u.setG (Group.rise { u.g with ops := u.g.ops ++ [s.barrierOp kind sp b x] } .sp)
    (s.g.memStalls .sp 0 [] = .ok () → 0 < n → n < 65536 →
      exec (.pbinit f) s = .next (op .pbinit n (s.setBlock s.g.blk
        { k with pbars := if (sp, b) ∈ k.pbars then k.pbars else k.pbars ++ [(sp, b)] })).advance)
    ∧ (n = 0 ∨ 65536 ≤ n → exec (.pbinit f) s = .next (takeTrap s 8 0 (BitVec.ofNat 64 n) s.pathMask))
    ∧ (s.g.memStalls .sp 2 [] = .ok () → s.poisScrAt (scrKey (s.space sp) b) 8 = false → exec (.pbarr f) s = .next (op .pbarr 0 s).advance)
    ∧ (∀ r, f.dst = .sp r → s.g.heldBack = none → s.barrierBusy sp b = false → s.poisScrAt (scrKey (s.space sp) b) 8 = false →
      (s.pbPhase sp b ≠ n % 2 → exec (.pbwait f) s =
          .next (State.setG { s with l1 := s.l1.filter fun y => y.core != s.g.core } (s.g.wrSp r.toNat true)).advance)
      ∧ (s.pbPhase sp b = n % 2 → s.pbExp sp b = 0 → exec (.pbwait f) s = .next (s.setG (s.g.wrSp r.toNat false)).advance)
      ∧ (s.pbPhase sp b = n % 2 → s.pbExp sp b ≠ 0 → exec (.pbwait f) s = .next (s.stallAt 7))))
  ∧ ∀ (s : State) (ctx : Nat) (o : Op) (a : Acc), o.accs = [a] → a.clipped = false → o.place = .scr → o.ord = 0 → a.val < 65536 →
    let e := s.pbExp a.obj a.off
    let p := s.pbPend a.obj a.off
    let t := s.performOp ctx o
    let word := rdN t.scr (scrKey (s.space a.obj) a.off) 8
    (o.kind = .pbinit → word = a.val + 65536 * a.val)
    ∧ (o.kind = .pbarr → e ≠ 0 → word = if p ≤ 1 then e + 65536 * e + 2 ^ 32 * (1 - s.pbPhase a.obj a.off)
        else e + 65536 * (p - 1) + 2 ^ 32 * s.pbPhase a.obj a.off)
    ∧ (o.kind = .pbarr → e = 0 → t.scr = s.scr)
    ∧ (o.kind = .pbinit ∨ o.kind = .pbarr → ScratchOnly s t (scrKey (s.space a.obj) a.off) 8)

/-- 11 R278, R279: `reorder` holds its group until every group of the part stands at its own; it traps in an iteration group, which alone takes the
trap; a group that has retired has no place in the meeting, and the KILL of the key takes effect at the meeting (all three log [43], DEDUCED). REORDER_MEET
then sorts the threads ascending by their key with the ended ones last, equal keys keeping their order, and the group of rank r takes the
r-th run of threads: lane l holds the named registers and the ended state of the thread that comes there. The `reorder` that comes last is
complete with the meeting that follows it. Completion of reorder. -/
def Obligations.ReorderSortsTheThreads : Prop :=
  let ready (s : State) (c width : Nat) (names : List Nat) : Prop := (s.group c).width = width ∧ (s.group c).diverged = false
    ∧ (s.group c).win = none ∧ s.liveSiblings (s.group c) = false ∧ (s.group c).meetNeeds names ≤ (s.group c).peak
  (∀ (f : AluF) (s : State), s.g.present = true → s.groupPasses f.guard = true → (usesCarry f 0x4D = true → (s.window s.ctx).isSome = true) →
    (∀ n, f.a.opnd = .v n → s.g.vpois.getLsbD n.toNat = false) →
    let u := (s.setG { s.g with atReorder := some ⟨s.slot, f.a.opnd, f.a.kill, f.imm.getD 0⟩ }).stallAt 6
    (s.g.it ≠ none → exec (.reorder f) s = .next (takeTrap s 24 0 0 s.pathMask))
    ∧ (s.g.it = none → s.keyStop f.a.opnd = .ok () → (∀ o ∈ s.g.ops, Op.writes o = []) → exec (.reorder f) s = .next u)
    ∧ (s.g.it = none → (∀ o ∈ s.g.ops, Op.writes o = []) → ∀ (n : BitVec 8) (width : Nat), f.a.opnd = .v n → s.slot = 0 →
      (s.groups.map (·.1)).Nodup → (s.block s.g.blk).status = .running →
      (∀ e ∈ s.groups, e.2.blk = s.g.blk → e.2.atReorder.isSome = true → e.2.world = s.g.world) →
      let part := s.partOfGroup s.g
      let cs := s.meeting s.g.blk part s.g.world
      let names := maskNames (f.imm.getD 0)
      s.ctx ∈ cs → (∀ c ∈ cs, s.clocked (s.group c).core = true) → (∀ c ∈ cs, c ≠ s.ctx → ∃ key kill, (s.group c).atReorder = some ⟨0, .v key, kill, f.imm.getD 0⟩) →
      (∀ c ∈ cs, ready u c width names) →
      (∀ r c, cs[r]? = some c → (u.resorted c r width (u.sortThreads cs width) names false).liveLanes ≠ 0) →
      ∃ t, exec (.reorder f) s = .next u ∧ exec (.reorderMeet s.g.blk part) u = .next t ∧ MemorySame s t
        ∧ t.g.atReorder = none ∧ t.g.reorders = s.g.reorders + 1 ∧ t.g.issued = s.g.issued + 1))
  ∧ (∀ (f : AluF) (s : State), s.g.present = true → s.groupPasses f.guard = false → (usesCarry f 0x4D = true → (s.window s.ctx).isSome = true) →
    exec (.reorder f) s = .next s.advance)
  ∧ ∀ (s : State) (b part w width : Nat) (mask : Word), (s.groups.map (·.1)).Nodup → (s.block b).status = .running →
    (∀ e ∈ s.groups, e.2.blk = b → e.2.atReorder.isSome = true → e.2.world = w) →
    let cs := s.meeting b part w
    let order := s.sortThreads cs width
    let names := maskNames mask
    order.Pairwise (fun x y => x.k ≤ y.k) ∧ order.length = cs.length * width
    ∧ (∀ c ∈ cs, ∀ l < width, (⟨if bitOf (s.group c).ended l then 2 ^ 32 else s.keyVal c l, c, l⟩ : Thread) ∈ order)
    ∧ (∀ c ∈ cs, ∀ sl key kill m, (s.group c).atReorder = some ⟨sl, .v key, kill, m⟩ → ∀ l, s.keyVal c l = ((s.group c).rdV key.toNat l).toNat)
    ∧ ((∃ c ∈ cs, (s.group c).atReorder = none) → exec (.reorderMeet b part) s = .next s)
    ∧ (∀ c0 r0, cs = c0 :: r0 → (∀ c ∈ cs, s.clocked (s.group c).core = true) → (∀ c ∈ cs, ∃ key kill, (s.group c).atReorder = some ⟨0, .v key, kill, mask⟩) → (∀ c ∈ cs, ready s c width names) →
      (∀ r c, cs[r]? = some c → (s.resorted c r width order names false).liveLanes ≠ 0) →
      ∃ t, exec (.reorderMeet b part) s = .next t ∧ MemorySame s t
        ∧ ∀ r c, cs[r]? = some c → t.group c = (Group.next
          { s.resorted c r width order names false with atReorder := none, reorders := (s.group c).reorders + 1 } 0 s.now).kill
            ((s.group c).keyKill &&& ~~~(nameSet names)))
    ∧ (∀ r c l x, cs[r]? = some c → l < width → width ≤ 64 → (s.group c).width = width → order[r * width + l]? = some x →
        (∀ n ∈ names, (s.resorted c r width order names false).rdV n l = (s.group x.ctx).rdV n x.lane)
        ∧ bitOf (s.resorted c r width order names false).ended l = bitOf (s.group x.ctx).ended x.lane)

/-- 13 R285, R287, R294, R297 to R299, R303 to R305: `twill` of N iterations suspends its group and launches the first min(N, S) as groups of
their own at the slot after it; with N = 0 it goes on at RESUME with turn S - 1. `turn` voids the names of its stage and begins the next one,
or retires the group after the last; `tbrk` sets the break iteration and cancels the later ones. ORDERED_STAGE_WAKE opens a stage. A loop whose
iteration groups find no room in the core or the context pool waits (log [6], DESIGN CHOICE, for the pool).
13 R294: voiding names at a turn leaves a slot-lane that holds the tag or a later one, makes every other named one VOID with the tag,
and touches no slot-lane that is not named. -/
def Obligations.LoopsLaunchTurnAndBreak : Prop :=
  ((∀ (f : TwF) (s : State) (p : Path), s.g.present = true → s.groupPasses f.guard = true → s.needSrc f.a = .ok () →
    let n := s.skVal f.a.opnd
    let st := f.sm1.toNat + 1
    (s.g.it ≠ none → exec (.twill f) s = .next (takeTrap s 13 1 0 s.pathMask))
    ∧ (s.g.it = none → s.g.diverged = true → exec (.twill f) s = .next (takeTrap s 13 2 0 s.pathMask))
    ∧ (s.g.it = none → s.g.stack = [p] → p.rcv = noRcv → p.mask ≠ 0 → s.slot = 0 → s.g.diverged = false → n < 2 ^ 31 → s.tableOk s.g.code f.imm.toNat = true →
      (st + 1) * s.g.peak * s.g.width * 4 ≤ 262144 → s.g.relWait = none →
      ((s.fits s.g.core s.g.cpart st s.g.width s.g.peak && s.ctxRoom s.g.part st) = false → ∃ w : Window, exec (.twill f) s =
        .next ((s.setG { s.g.openWindow with win := some { w with wait := true } }).stallAt 8) ∧ w.loop = (s.g.openWindow.win.getD {}).loop)
      ∧ ((s.fits s.g.core s.g.cpart st s.g.width s.g.peak && s.ctxRoom s.g.part st) = true → ∃ (t : State) (w : Window), exec (.twill f) s = .next t ∧ t.g.win = some w ∧ t.g.issued = s.g.issued + 1
        ∧ (n = 0 → t.g.status = .run ∧ w.loop = none ∧ w.turn = some (st - 1) ∧ w.ended = true
            ∧ (t.g.path 0).pc = pcOfByte (s.resumeOf s.g.code f.imm.toNat))
        ∧ (0 < n → t.g.status = .suspended ∧ ∃ lp, w.loop = some lp ∧ lp.n = n ∧ lp.s = st ∧ lp.ordered = f.ordered ∧ lp.brk = none
            ∧ lp.next = Min.min n st ∧ lp.live.length = Min.min n st ∧ lp.places.length = st
            ∧ ∀ i c, lp.live[i]? = some c → ∃ it, (t.group c).it = some it ∧ it.launcher = s.ctx ∧ it.i = i ∧ it.k = 0
              ∧ (t.group c).stack = [{ pc := pcNext s.pc, mask := p.mask, rcv := noRcv }] ∧ (t.group c).s = s.g.s ∧ (t.group c).v = s.g.v))))
  ∧ (∀ (f : TwF) (s : State), s.g.present = true → s.groupPasses f.guard = true →
    (s.g.it = none → exec (.turn f) s = .next (takeTrap s 13 5 0 s.pathMask) ∧ exec (.tbrk f) s = .next (takeTrap s 13 5 0 s.pathMask))
    ∧ ∀ it lp, s.g.it = some it → s.loopOf it.launcher = some lp →
      let u := s.setSlots s.ctx fun m => voidNames m s.g.width (s.ymask s.g.code lp.table it.k) (it.i + it.k : Nat)
      let u := u.setG (u.g.countIssue s.slot s.now)
      (s.g.diverged = false → it.k + 1 < lp.s → lp.ordered = false → (∀ b, lp.brk = some b → it.i ≤ b) →
        exec (.turn f) s = .next (u.setG ({ u.g with it := some { it with k := it.k + 1, waitRel := false } }.goto s.slot lp.body)))
      ∧ (s.g.diverged = false → it.k + 1 = lp.s → lp.ordered = false → s.g.relWait = none → exec (.turn f) s = .next (u.retireIter s.ctx))
      ∧ ((∀ b, lp.brk = some b → it.i ≤ b) → exec (.tbrk f) s = .next (s.breakLoop it.launcher it.i).advance)
      ∧ (∀ b, lp.brk = some b → b < it.i → exec (.tbrk f) s = .next s.advance))
  ∧ (∀ (s : State) (lc i : Nat) (lp : Loop), s.loopOf lc = some lp → (∀ c ∈ lp.live, c ≠ lc) →
    let t := s.breakLoop lc i
    (∃ q, t.loopOf lc = some q ∧ q.brk = some i ∧ q.live = lp.live ∧ q.next = lp.next)
    ∧ ∀ c ∈ lp.live, ∀ x, (s.group c).it = some x → (t.group c).it = some { x with cancelled := x.cancelled || decide (i < x.i) })
  ∧ ∀ (s : State) (ctx : Nat) (it : Iter), (s.group ctx).it = some it → it.waitRel = true → s.stageOpen it = true → s.clocked (s.group ctx).core = true →
    exec (.orderedStageWake ctx) s = .next (s.setGroup ctx { s.group ctx with it := some { it with waitRel := false } }))
  ∧ (∀ (m : SMap Slot) (width : Nat) (mask : DWord) (t : Int) (k l : Nat), width ≤ 64 → k < 64 → l < 64 →
    let key := slotKey (carrySlot k t) l
    let old := get {} m key
    let new := get {} (voidNames m width mask t) key
    new = if mask.getLsbD k = true ∧ l < width ∧ ¬(old.st ≠ .empty ∧ (old.tag = carryTag k t ∨ tagLater old.tag (carryTag k t) = true))
      then ⟨0, carryTag k t, .void⟩ else old)

/-- 08 R162, R165, 09 R217, R218, 10 R249, 11 R277, 13 R287, R292, 18 R372, R375, 01 R28: an instruction at which a path stands stalled is
executed again by its wake event, or issues again as the next occurrence when it waits for a carry or a queue (that it stands first in the agenda is
the model's order, log [1], DESIGN CHOICE); a sleep of which no cycle is left ends, and its path may rejoin (11 R266). -/
def Obligations.WakesResumeTheStalledInstruction : Prop :=
  ∀ (s : State) (ctx slot : Nat),
    let u : State := { s with cur := (ctx, slot) }
    (∀ (f : SysF), (stalledAt s ctx slot = some (.wait f) → ∃ t, exec (.waitReturn ctx slot) s = .next t ∧ exec (.wait f) u = .next t)
      ∧ (stalledAt s ctx slot = some (.waitr f) → ∃ t, exec (.waitReturn ctx slot) s = .next t ∧ exec (.waitr f) u = .next t)
      ∧ (stalledAt s ctx slot = some (.pbwait f) → ∃ t, exec (.pbwaitReturn ctx slot) s = .next t ∧ exec (.pbwait f) u = .next t))
    ∧ (∀ (f : EngF), (stalledAt s ctx slot = some (.accwait f) → ∃ t, exec (.accwaitReturn ctx slot) s = .next t ∧ exec (.accwait f) u = .next t)
      ∧ (stalledAt s ctx slot = some (.accpatch f) → ∃ t, exec (.accpatchApply ctx slot) s = .next t ∧ exec (.accpatch f) u = .next t)
      ∧ (stalledAt s ctx slot = some (.choose f) → ∃ t, exec (.arbiterWake ctx slot) s = .next t ∧ exec (.choose f) u = .next t)
      ∧ (stalledAt s ctx slot = some (.wjoin f) → ∃ t, exec (.arbiterWake ctx slot) s = .next t ∧ exec (.wjoin f) u = .next t))
    ∧ (∀ (f : TwF), stalledAt s ctx slot = some (.twill f) → ∃ t, exec (.twillPlacesTaken ctx slot) s = .next t ∧ exec (.twill f) u = .next t)
    ∧ (∀ i, stalledAt s ctx slot = some i →
        (((s.group ctx).path slot).stall = 9 → exec (.carryReadWake ctx slot) s = .next { s with agenda := .issue ctx slot :: s.agenda })
        ∧ (((s.group ctx).path slot).stall = 10 → exec (.queueRegisterWake ctx slot) s = .next { s with agenda := .issue ctx slot :: s.agenda }))
    ∧ (stalledAt s ctx slot = none → ∀ i ∈ [Instr.waitReturn ctx slot, .pbwaitReturn ctx slot, .accwaitReturn ctx slot, .accpatchApply ctx slot,
        .arbiterWake ctx slot, .twillPlacesTaken ctx slot, .carryReadWake ctx slot, .queueRegisterWake ctx slot], exec i s = .next s)
    ∧ (∀ p, (s.group ctx).present = true → s.clocked (s.group ctx).core = true → pathIn (s.group ctx).stack slot = some p → p.sleep = 1 →
        let g := (s.group ctx).setPath slot { p with sleep := 0 }
        exec (.sleepExpiry ctx slot) s = .next (s.setGroup ctx (g.restack (tidy (g.stack.length + 1) g.stack)).flushKills))

/-- 08 R167 to R169, 15 R336: `qpush` puts its word (the lowest contributing lane's, for a `v` source) as a marker in `qm` or `qx`, or stages
it in `qk`; bits above 16 trap for a marker. `qpop` takes the oldest word to its destination and stalls on an empty queue; `qpoll` tells
whether one waits. A marker that waits for nothing is a token at once, and a full queue loses its oldest.
15 R329, R336 to R338: in a task, `tspawn` enqueues its record at TAIL of its sub-ring, OUTSTANDING rises by one, and a receipt comes in
`qk` when the record asks for one; `tcont` sets the continuation of its task. Elsewhere both trap, and so does a malformed record, with its first word as
DETAIL (log [24], DEDUCED); a full sub-ring stalls. Completion of qpush, qpop, qpoll, tspawn and tcont. -/
def Obligations.QueuesAndTaskInstructions : Prop :=
  ((∀ (f : EngF) (s : State), s.g.present = true →
    let q := queueOf f.q
    let m := if f.a.opnd.isV then s.execLive f.guard else if s.groupPasses f.guard then s.pathMask else 0
    let w := s.linkVal0 f.a.opnd ((lanesOf m).headD 0)
    let ks := killSet [⟨f.a, 1, .b32⟩]
    let room := match q with
      | .qm => s.g.mkM.length < 64
      | .qx => s.g.mkX.length < 64
      | .qk => s.g.staged.length < 15
    let ls := lanesOf (s.execLive f.guard)
    (m = 0 → exec (.qpush f) s = .next s.advance)
    ∧ (m ≠ 0 → nameStop s.g [⟨f.a, 1, .b32⟩] = none → (q = .qk ∨ w.toNat < 65536) → room → exec (.qpush f) s = .next (s.setG ((s.pushed q w s.g).kill ks)).advance)
    ∧ (m ≠ 0 → nameStop s.g [⟨f.a, 1, .b32⟩] = none → q ≠ .qk → 65536 ≤ w.toNat → exec (.qpush f) s = .next (takeTrap s 8 0 (w.setWidth 64) m))
    ∧ (∀ x r d, s.g.queue q = x :: r → f.dst = .v d → s.execLive f.guard ≠ 0 → s.g.pendingWrite [f.dst] = none →
        s.g.needs 0 (dstV f.dst 1) ≤ s.g.peak →
        exec (.qpop f) s = .next (s.setG (((s.g.popQ q).kill 0).dstWrite f.dst 1 (ls.map fun l => (l, x.toNat)))).advance)
    ∧ (s.groupPasses f.guard = true → s.g.pendingWrite [f.dst] = none → ∀ x r n, s.g.queue q = x :: r → f.dst = .s n →
        exec (.qpop f) s = .next (s.setG (((s.g.kill 0).wrS n.toNat x).popQ q)).advance)
    ∧ (s.groupPasses f.guard = true → f.dst.isV = false → s.g.queue q = [] → exec (.qpop f) s = .next (s.stallAt 10))
    ∧ (s.groupPasses f.guard = true → s.g.pendingWrite [f.dst] = none → ∀ n, f.dst = .sp n →
        exec (.qpoll f) s = .next (s.setG ((s.g.kill 0).wrSp n.toNat (s.g.queue q != []))).advance))
  ∧ (∀ (q : List Word) (w : Word), q.length ≤ 64 → (pushTok q w).length = Min.min 64 (q.length + 1)
      ∧ (pushTok q w).getLast? = some (if q.length < 64 then w else w ||| 0x8000))
  ∧ ∀ (s : State) (w : Word), w.toNat < 65536 → s.g.mkM = [] → s.mIds s.ctx = [] →
      (s.pushed .qm w s.g).mkM = [] ∧ (s.pushed .qm w s.g).qm = pushTok s.g.qm (BitVec.ofNat 32 (w.toNat * 65536 + 0x4000)))
  ∧ ((∀ (f : EngF) (s : State), s.g.present = true → s.groupPasses f.guard = true → s.needRecord f.a = .ok () →
    let r := recWords s.g f.a.opnd
    (s.taskLaunch s.g = none → exec (.tspawn f) s = .next (takeTrap s 28 0 0 s.pathMask) ∧ exec (.tcont f) s = .next (takeTrap s 28 0 0 s.pathMask))
    ∧ ∀ l, s.taskLaunch s.g = some l →
      (recOk r = false → exec (.tspawn f) s = .next (takeTrap s 8 0 (BitVec.ofNat 64 (recEntry r)) s.pathMask)
        ∧ exec (.tcont f) s = .next (takeTrap s 8 0 (BitVec.ofNat 64 (recEntry r)) s.pathMask))
      ∧ (recOk r = true → s.liveSiblings s.g = false → exec (.tcont f) s = .next (s.setCont s.g.blk r).advance)
      ∧ ∀ p, recOk r = true → s.liveSiblings s.g = false → s.g.relWait = none → (s.launch l).pool = some p →
        (p.full (recPri r) = true → exec (.tspawn f) s = .next (s.stallAt 10))
        ∧ (p.full (recPri r) = false →
          let u := s.enqueue l r
          let word := BitVec.ofNat 32 (p.tail.getD (recPri r) 0 % 65536 * 65536 + recPri r)
          exec (.tspawn f) s = .next (if recReceipt r then u.setG { u.g with qk := pushTok u.g.qk word } else u).advance))
  ∧ (∀ (s : State) (l : Nat) (p : Pool) (r : List Word), (s.launch l).pool = some p → p.tail.length = 4 →
    let i := recPri r
    ∃ q, ((s.enqueue l r).launch l).pool = some q ∧ q.outst = p.outst + 1 ∧ q.head = p.head ∧ q.taken = p.taken
      ∧ q.tail.getD i 0 = (p.tail.getD i 0 + 1) % 2 ^ 32 ∧ ∀ j, j ≠ i → q.tail.getD j 0 = p.tail.getD j 0)
  ∧ ∀ (s : State) (l : Nat) (p : Pool) (r : List Word) (base : Nat), (s.launch l).pool = some p → r.length = 16 →
    let h := p.ringAt (recPri r) (p.tail.getD (recPri r) 0)
    AtHome s (s.launch l).part (objOf h) (offOf h) 64 base →
    rdBytes (s.enqueue l r).hbm base 64 = bytesOfWords r ∧ ∀ a, a < base ∨ base + 64 ≤ a → rdByte (s.enqueue l r).hbm a = rdByte s.hbm a)

/-- 15 R325 to R327, R333: an idle worker takes the oldest record of its width from the highest sub-ring that has one, an aged head first; a record that is
taken before older ones is kept as taken until HEAD passes it (log [20], DEDUCED).
The task starts at ENTRY, in the last kernel that begins at or before it (log [102], DEDUCED), with the record in `s0` to `s15`. A record that cannot run, and one for whose width the pool has no worker, adds a
task fault and retires at once. TASK_RECORD_AGES ages a head that has stood for 262,144 cycles. -/
def Obligations.WorkersTakeRecords : Prop :=
  (∀ (s : State) (ctx : Nat) (p : Pool) (pri i : Nat) (r : List Word), let g := s.group ctx
    g.present = true → g.status = .idle → g.saved = false → s.clocked g.core = true → (s.block g.blk).status = .running →
    s.suspendedLaunch g.launch = false → (s.launch g.launch).pool = some p → p.retireOf (ctx % 65536) = none → s.nextTask (s.launch g.launch).part p (wcode g.width) = some (pri, i, r) →
    let c := s.code (s.launch g.launch).code
    (∀ k, recordFault c p r = none → c.kernelAt (recEntry r) = some k → ∃ t, exec (.taskDequeue ctx) s = .next t
      ∧ (t.launch g.launch).pool = some (p.take pri i s.now) ∧ t.hbm = s.hbm ∧ t.remote = s.remote
      ∧ (t.group ctx).status = .run ∧ (t.group ctx).stack = [{ pc := pcOfAddr (recEntry r), mask := if c.ulbel = some 4 then 0xF else fullMask g.width, rcv := noRcv }]
      ∧ (∀ j, j < 16 → (t.group ctx).rdS j = r.getD j 0) ∧ (∀ l, l < g.width → get 0 (t.group ctx).tid l = BitVec.ofNat 32 l)
      ∧ (t.group ctx).v = [] ∧ (t.group ctx).mapped = 0 ∧ (t.group ctx).peak = k.regs
      ∧ (t.block g.blk).x = recWord r 4 % 65536 ∧ (t.block g.blk).y = recWord r 4 / 65536 ∧ (t.block g.blk).z = recWord r 5 % 65536)
    ∧ (∀ kind, recordFault c p r = some kind → recSucc r = 0 → 1 < p.outst → ∃ t, exec (.taskDequeue ctx) s = .next t
      ∧ (t.launch g.launch).pool = some { p.take pri i s.now with fcount := (p.fcount + 1) % 2 ^ 32, outst := p.outst - 1 }))
  ∧ (∀ (s : State) (part : Nat) (p : Pool) (w pri i : Nat) (r : List Word), s.nextTask part p w = some (pri, i, r) →
    i ∈ p.waiting pri ∧ r = s.ringRec part p pri i ∧ recW r = w ∧ pri < 4
    ∧ ((∀ j < 4, p.agedHead j s.now = false) → ∀ j, pri < j → j < 4 → s.oldest part p j w = none)
    ∧ ∀ j < 4, p.agedHead j s.now = true → (∃ q, s.oldest part p j w = some (p.head.getD j 0, q)) →
      pri ≤ j ∧ i = p.head.getD pri 0 ∧ p.agedHead pri s.now = true)
  ∧ (∀ (s : State) (launch pri i : Nat) (p : Pool) (r : List Word), (s.launch launch).pool = some p →
    (s.launch launch).st = .active ∨ (s.launch launch).st = .placed → s.suspendedLaunch launch = false → pri < 4 →
    ((List.range 4).filter fun w => p.wcount.getD w 0 == 0).findSome? (fun w => s.oldest (s.launch launch).part p pri w) = some (i, r) →
    (∀ x ∈ p.retiring, x.ctx = 0xFFFFFFFF → s.retireStalls launch x = true) → recSucc r = 0 → 1 < p.outst → ∃ t, exec (.noWorkerTake launch pri) s = .next t
      ∧ (t.launch launch).pool = some { p.take pri i s.now with fcount := (p.fcount + 1) % 2 ^ 32, outst := p.outst - 1 })
  ∧ ∀ (s : State) (launch pri : Nat) (p : Pool), (s.launch launch).pool = some p → pri < 4 → 0 < p.count pri → p.since.getD pri 0 + 262144 ≤ s.now →
    exec (.taskRecordAges launch pri) s = .next (s.setLaunch launch { s.launch launch with pool := some { p with aged := setAt p.aged pri true } })

/-- 15 R328, R332, R334: a task whose group has retired and whose work is done retires: OUTSTANDING falls by one and its worker is idle again.
A continuation without a SUCC takes over its task's; with its sub-ring full the retirement stalls there. The step on a join cell lowers COUNT by one,
at the last one the record of CONT is to be enqueued, and it faults at zero and at a malformed cell. A pool whose workers are all stuck on full
sub-rings, or idle without a record, ends, unless the device has a record to take or a retirement that can go on. -/
def Obligations.TasksRetireAndJoin : Prop :=
  (∀ (s : State) (ctx : Nat) (tk : Task) (p : Pool), let g := s.group ctx
    g.present = true → s.clocked g.core = true → (s.block g.blk).worker.isSome = true → ctx ∈ (s.block g.blk).groups → (s.block g.blk).status ≠ .retiring → s.blockDone g.blk = true →
    (s.block g.blk).task = some tk → (s.flushBlock g.blk).2 = true → tk.cont = none → recSucc tk.words = 0 → (s.block g.blk).launch = g.launch →
    (s.launch g.launch).pool = some p → p.retireOf (ctx % 65536) = none → 1 < p.outst →
    ∃ t, exec (.taskRetirement ctx) s = .next t ∧ (t.launch g.launch).pool = some { p with outst := p.outst - 1 }
      ∧ t.group ctx = idleGroup g (p.resOf (wcode g.width)).2.1 s.now ∧ (t.block g.blk).task = none)
  ∧ (∀ (s : State) (lid : Nat) (r : Retire) (k : List Word) (p : Pool), (s.launch lid).pool = some p → r.k = some k →
    (p.full (recPri k) = true → s.retireTask lid r = (s, some r))
    ∧ (p.full (recPri k) = false → recSucc k = 0 → r.cont = none → let u := s.enqueue lid (setSucc k r.succ)
      ∃ q, u.launch lid = { s.launch lid with pool := some q } ∧
        s.retireTask lid r = (u.setLaunch lid { s.launch lid with pool := some { q with outst := p.outst } }, none)))
  ∧ (∀ (s : State) (lid n : Nat) (r : Retire), r.succ ≠ 0 → let part := (s.launch lid).part; let h := r.succ; let q := { r with succ := 0 }
    (s.joinCount part h = .ok 0 → s.joinStep lid r = (s.taskFault lid (r.fault 1), q))
    ∧ (h.toNat % 16 ≠ 0 → s.joinStep lid r = (s.taskFault lid (r.fault 2), q))
    ∧ (s.joinCount part h = .ok (n + 1) → let t := s.devWrite part h (leBytes 4 n)
      (n ≠ 0 → s.joinStep lid r = (t, q))
      ∧ (n = 0 → s.contOf part h = none → s.joinStep lid r = (t, q))
      ∧ (n = 0 → s.contOf part h = some none → s.joinStep lid r = (t.taskFault lid (r.fault 2), q))
      ∧ (∀ c, n = 0 → s.contOf part h = some (some c) → s.joinStep lid r = (t, { q with cont := some c }))))
  ∧ (∀ (s : State) (lid : Nat) (r x : Retire) (u : State) (c : List Word), r.k = none → s.joinStep lid r = (u, x) → x.cont = some c →
    (u.hasRoom lid c = false → s.retireTask lid r = (u, some x))
    ∧ (u.hasRoom lid c = true → ∀ p, ((u.enqueue lid c).launch lid).pool = some p → s.retireTask lid r =
        ((u.enqueue lid c).setLaunch lid { (u.enqueue lid c).launch lid with pool := some { p with outst := p.outst - 1 } }, none)))
  ∧ ∀ (s : State) (launch b : Nat) (p : Pool), (s.launch launch).pool = some p → let bs := p.workers.map (·.2)
    let idle (c : Nat) : Prop := let n := (s.block c).groups.headD 0
      (s.group n).status = .idle ∧ p.retireOf (n % 65536) = none ∧ ∀ pri < 4, s.oldest (s.launch launch).part p pri (wcode (s.group n).width) = none
    bs.find? (s.workerStuck launch p) = some b → (∀ c ∈ bs, s.workerStuck launch p c = true ∨ idle c) → p.wants = [] → (∀ x ∈ p.retiring, x.ctx = 0xFFFFFFFF → s.retireStalls launch x = true) →
    (∀ pri < 4, s.noWorkerRec (s.launch launch).part p pri = none) → (s.flushBlocks bs).2 = true → (∀ c ∈ bs, (s.flushBlocks bs).1.midStep c = false) →
    ∃ t, exec (.ringFull launch) s = .next t ∧ t.launch launch = {} ∧ ∀ c ∈ bs, t.block c = {}

/-- 08 R151 to R155, R160, R161, R167: `mma` and `mmd` vote the format word and append one command, MX rising by one. The engine starts a
command at the front for its tiles when the versions are those that it expects and discards it with a held stale-version fault when one is
later, MX falling with it (log [83], DEDUCED); at completion each tile's version is the expected one plus 1, the command leaves the ring and a token arrives
for each tile, with FAULT and a held poison fault when it has read poison (08 R183). The DETAIL of an illegal command block is the format word (log [24],
DEDUCED). Completion of mma and mmd. -/
def Obligations.MatrixCommandsRun : Prop :=
  (∀ (dual : Bool) (mk : EngF → Instr), (dual, mk) ∈ ([(false, Instr.mma), (true, Instr.mmd)] : List (Bool × (EngF → Instr))) →
    ∀ (f : EngF) (s : State) (fw : Word), s.g.present = true → s.execLive f.guard ≠ 0 → nameStop s.g [⟨f.a, 1, .b32⟩, ⟨f.b, 8, .b32⟩] = none →
    let m := s.execLive f.guard
    let x := s.space s.g.space
    let c := cmdWords s.g f.b.opnd
    let cmd : MCmd := { id := ringId x.ring, dual := dual, fw := fw, words := c, ctx := s.ctx, pc := s.pc, mask := s.pathMask, stamp := s.copyStamp }
    ((∀ l ∈ lanesOf m, s.linkVal0 f.a.opnd l = fw) →
      (fwLegal dual fw.toNat = true → blockOk x dual fw.toNat c = true → s.g.heldBack = none → x.ring.length < 64 → s.g.cMX.toNat < 62 →
        exec (mk f) s = .next (State.setG (s.setSpace s.g.space { x with ring := x.ring ++ [cmd] })
          ((s.g.rise .mx).kill (killSet [⟨f.a, 1, .b32⟩, ⟨f.b, 8, .b32⟩]))).advance)
      ∧ (fwLegal dual fw.toNat = false ∨ blockOk x dual fw.toNat c = false → exec (mk f) s = .next (takeTrap s 8 0 (fw.setWidth 64) m)))
    ∧ (s.linkVal0 f.a.opnd ((lanesOf m).headD 0) = fw → (∃ l ∈ lanesOf m, s.linkVal0 f.a.opnd l ≠ fw) →
        exec (mk f) s = .next (takeTrap s 9 0 (fw.setWidth 64) m)))
  ∧ (∀ v e : BitVec 16, (tagLater v e = true ↔ 1 ≤ (v - e).toNat ∧ (v - e).toNat ≤ 32767) ∧ (tagEarlier v e = true ↔ 32768 ≤ (v - e).toNat))
  ∧ (∀ (s : State) (sp n : Nat) (c : MCmd), let x := s.space sp
    s.matrixRuns x = true → x.ring[n]? = some c → c.running = false → frontOf x.ring n c = true →
    ((∀ e ∈ MCmd.expects c, s.ver sp e.1 = e.2) → s.engineBusy x.core = false → exec (.matrixCommandStart sp n) s =
      .next (s.setSpace sp { x with ring := x.ring.map fun d => if d.id == c.id && d.ctx == c.ctx then { c with running := true } else d }))
    ∧ (∀ e, (MCmd.expects c).find? (fun e => tagLater (s.ver sp e.1) e.2) = some e → (s.group c.ctx).present = true →
        (s.group c.ctx).status ≠ .retired → ∃ t h, exec (.matrixCommandStart sp n) s = .next t ∧ (t.group c.ctx).held = (s.group c.ctx).held ++ [h]
        ∧ h.cls = .mx ∧ h.trec.kind = 10 ∧ h.trec.detail = BitVec.ofNat 64 (e.1 + (s.ver sp e.1).toNat * 65536 + e.2.toNat * 2 ^ 32)
        ∧ t.tiles = s.tiles ∧ (t.group c.ctx).cMX = (s.group c.ctx).cMX - 1
        ∧ (t.space sp).ring = x.ring.filter fun d => !(d.id == c.id && d.ctx == c.ctx)))
  ∧ ∀ (s : State) (sp : Nat) (c : MCmd), let x := s.space sp
    s.matrixRuns x = true → x.ring.find? (fun c => c.running && mcSteps c.words ≤ c.step) = some c →
    (s.group c.ctx).present = true → (s.group c.ctx).status ≠ .retired → (c.dual = true → mcTile c.words ≠ mcTile2 c.words) →
    ∃ t, exec (.matrixCommandCompletion sp) s = .next t ∧ MemorySame s t
      ∧ (∀ e ∈ MCmd.expects c, (t.tile (tileKey sp e.1)).ver = e.2 + 1 ∧ (t.tile (tileKey sp e.1)).ovf = (s.tile (tileKey sp e.1)).ovf)
      ∧ (t.space sp).ring = x.ring.filter (fun d => !(d.id == c.id && d.ctx == c.ctx)) ∧ (t.group c.ctx).cMX = (s.group c.ctx).cMX - 1
      ∧ ((s.group c.ctx).mkM = [] → (t.group c.ctx).qm = (MCmd.expects c).foldl (fun q e => pushTok q (BitVec.ofNat 32
          ((e.2 + 1).toNat * 65536 + (if c.pois then 32 else 0) + (if (s.tile (tileKey sp e.1)).ovf then 16 else 0) + e.1))) (s.group c.ctx).qm)
      ∧ (if c.pois then ∃ h, (t.group c.ctx).held = (s.group c.ctx).held ++ [h] ∧ h.cls = .mx ∧ h.trec.kind = 29 ∧ h.trec.pc = c.pc
          else (t.group c.ctx).held = (s.group c.ctx).held)

/-- 08 R162 to R166: `accwait` returns at its version or a later one and raises a held matrix fault first; `acczero` clears a tile and its
version; `accld` puts an SP operation in flight that reads one word a lane; `accpatch` applies its lanes in ascending order and makes the
version c + 1. A tile number outside the block traps.
08 R157, R158, R165: one accumulation of an integer chunk adds the exact sum of its 32 products and clamps the result to 32 bits; an FP32
one rounds the exact sum of the element and the scaled chunk once, to nearest even, and under SATF an infinite result becomes the largest finite one
of its sign. A patch replaces its element, or adds or multiplies in
the style of the tile, and changes no other element. Completion of accwait, accpatch, acczero and accld. -/
def Obligations.AccumulatorsAccumulateExactly : Prop :=
  (∀ (f : EngF) (s : State), s.g.present = true →
    let m := s.execLive f.guard
    let sp := s.g.space
    let q := f.q.toNat
    let tile := q < (s.space sp).acc
    let e : BitVec 16 := BitVec.ofNat 16 (s.skVal f.a.opnd)
    let v := s.ver sp q
    let idx (l : Nat) : Nat := (s.linkVal0 f.a.opnd l).toNat
    let us : List SrcUse := [⟨f.a, 1, .b32⟩]
    let us3 : List SrcUse := [⟨f.a, 1, .b32⟩, ⟨f.b, 1, .b32⟩, ⟨f.c, 1, .b32⟩]
    let c : BitVec 16 := BitVec.ofNat 16 (s.skVal f.c.opnd)
    let k := accKey (s.space sp) q 0
    (s.groupPasses f.guard = true →
      (s.needSrc f.a = .ok () → tile → (∀ h ∈ s.g.held, h.cls ≠ .mx) →
        ((v - e).toNat < 32768 → exec (.accwait f) s = .next s.advance) ∧ (32768 ≤ (v - e).toNat → exec (.accwait f) s = .next (s.stallAt 5)))
      ∧ (s.needSrc f.a = .ok () → tile → ∀ h, s.g.held.find? (·.cls == .mx) = some h → exec (.accwait f) s = .next (takeStop s (.held h)))
      ∧ (tile → s.tileRuns sp q = false → s.g.readsAcc = false → ∃ t, exec (.acczero f) s = .next (State.advance t)
        ∧ t = (State.setTile { s with acc := t.acc, poisAcc := t.poisAcc } (tileKey sp q) {})
        ∧ (∀ a, rdByte t.acc a = if k ≤ a ∧ a < k + 16384 then 0 else rdByte s.acc a))
      ∧ (¬tile → exec (.acczero f) s = .next (takeTrap s 8 0 (BitVec.ofNat 64 q) s.pathMask)
        ∧ (s.needSrc f.a = .ok () → exec (.accwait f) s = .next (takeTrap s 8 0 (BitVec.ofNat 64 q) s.pathMask))))
    ∧ (m ≠ 0 → nameStop s.g us = none → s.g.needs (killSet us) (dstV f.dst 1) ≤ s.g.peak → tile → (∀ l ∈ lanesOf m, idx l < 4096) →
        s.g.memStalls .sp 0 [f.dst] = .ok () →
        let o : Op := { id := s.g.newId, cls := .sp, kind := .accld, place := .acc, bytes := 4, dst := f.dst, pc := s.pc, world := s.g.world,
                        accs := (lanesOf m).map fun l => { lane := l, addr := accKey (s.space sp) q (4 * idx l) } }
        exec (.accld f) s = .next (s.setG ((Group.rise { s.g with ops := s.g.ops ++ [o] } .sp).kill (killSet us))).advance)
    ∧ (m ≠ 0 → nameStop s.g us3 = none → tile → (∀ l ∈ lanesOf m, idx l < 2 ^ 14 ∧ idx l / 4096 ≠ 3) → s.tileRuns sp q = false →
        s.g.readsAcc = false →
        (v = c → s.poisAcc = [] → ∃ t, exec (.accpatch f) s = .next (State.advance t)
          ∧ t.g = s.g.kill (killSet us3) ∧ t.ver sp q = c + 1 ∧ t.hbm = s.hbm ∧ t.scr = s.scr
          ∧ t.acc = ((lanesOf m).foldl (fun u l => u.patch sp q (idx l) (s.linkVal0 f.b.opnd l).toNat) s).acc
          ∧ (∀ a, a < k ∨ k + 16384 ≤ a → rdByte t.acc a = rdByte s.acc a))
        ∧ (v ≠ c → tagLater v c = true → exec (.accpatch f) s = .next
            (takeTrap s 10 0 (BitVec.ofNat 64 (q + v.toNat * 65536 + c.toNat * 2 ^ 32)) m))))
  ∧ ((∀ (x y : Nat → Int) (acc h : Nat) (sat : Bool), h < 2 → acc < 2 ^ 32 →
    let sum := ((List.range 32).map fun k => x (32 * h + k) * y (32 * h + k)).sum
    let v := chunkSum (fun k => FVal.ofInt (x k)) (fun k => FVal.ofInt (y k)) h 127 127
    let z := sgn 32 acc + sum
    let w : Int := if z < -2 ^ 31 then -2 ^ 31 else if 2 ^ 31 - 1 < z then 2 ^ 31 - 1 else z
    (accumulate true sat acc v).1 = (w % 2 ^ 32).toNat ∧ ((accumulate true sat acc v).2 = true ↔ w ≠ z))
  ∧ (∀ (acc : Nat) (v : FVal), let r := roundTo fFP32 0 false 0 (FVal.add false (decodeF fFP32 acc) v).r
    accumulate false false acc v = (r, false)
    ∧ accumulate false true acc v = (if r = 0x7F800000 then 0x7F7FFFFF else if r = 0xFF800000 then 0xFF7FFFFF else r, false))
  ∧ (∀ (x y : Nat → FVal) (h k sa sb : Nat), k < 32 → (x (32 * h + k)).isNaN = true → chunkSum x y h sa sb = .nan)
  ∧ ∀ (s : State) (sp q a b : Nat), q < 16 → a < 2 ^ 14 → b < 2 ^ 32 →
    let e := a % 4096
    let mode := a / 4096
    let old := s.tileWord sp q e
    let t := s.patch sp q a b
    let int := (s.tile (tileKey sp q)).int
    (mode = 0 → t.tileWord sp q e = b)
    ∧ (mode = 1 → int = true → t.tileWord sp q e = wrap 32 (Max.max (-2 ^ 31) (Min.min (2 ^ 31 - 1) (sgn 32 old + sgn 32 b))))
    ∧ (mode = 2 → int = true → t.tileWord sp q e = wrap 32 (Max.max (-2 ^ 31) (Min.min (2 ^ 31 - 1) (sgn 32 old * sgn 32 b))))
    ∧ (mode = 1 → int = false → t.tileWord sp q e = roundTo fFP32 0 false 0 (FVal.add false (decodeF fFP32 old) (decodeF fFP32 b)).r % 2 ^ 32)
    ∧ (∀ p e', p ≠ q ∨ e' ≠ e → p < 16 → e' < 4096 → t.tileWord sp p e' = s.tileWord sp p e'))

/-- 08 R172, R176, R182, R183: a copy command whose block passes the checks is appended with its records as they stand, and CP rises by one; a bad block
traps with its first word as DETAIL (log [24], DEDUCED).
COPY_COMPLETION runs the oldest command to the next 4 KiB boundary of its destination at one moment (log [80], DEDUCED), where it stands until it goes
on; at its end it leaves, CP falls by one, and under NOTIFY a token with its TAG comes in `qx`. ENGINE_FAULT holds the fault that its next piece meets; that the
command stays and CP with it is the model's reading of 20 R401 (log [82], DEDUCED).
08 R175, R177, R178, 09 R191: a row of a box of bytes through a linear record, outside any world: `cpld` of a format to itself leaves in
scratchpad, from SADDR + r × PITCH on, the bytes of the object from MOFF + r × STRIDE on, and `cpst` of INT8 leaves the scratchpad bytes in the
object; no other byte of any memory changes. Completion of cpld, cpst, cpred and cpgat. -/
def Obligations.CopyCommandsRunToCompletion : Prop :=
  ((∀ (mk : EngF → Instr) (opc : Nat), (mk, opc) ∈ ([(Instr.cpld, 0x10), (.cpst, 0x11), (.cpred, 0x12), (.cpgat, 0x13)] : List ((EngF → Instr) × Nat)) →
    ∀ (f : EngF) (s : State), s.g.present = true → s.groupPasses f.guard = true →
    let c := s.copyCmd opc f
    let x := s.space s.g.space
    nameStop s.g (⟨f.a, 8, .b32⟩ :: recUse c.mbuf ++ (if c.recX.isEmpty then [] else recUse (c.aux2 % 16))) = none → c.mbuf < 12 →
    let fine := c.recX = [] ∨ ((c.xrec).obj ≠ 0 ∧ (c.xrec).bad = false)
    ((c.mrec).obj ≠ 0 → (c.mrec).bad = false → fine → c.bad x = false → (c.gathers = true ∨ c.boundsStop = none) →
      s.g.heldBack = none → s.g.cCP.toNat < 62 → (s.part s.g.part).watches = [] → s.g.world = 0 ∨ c.loads = true →
      exec (mk f) s = .next (s.setG (Group.rise { s.g with copies := s.g.copies ++
        [{ c with owns := c.left s.g.space, stamp := s.copyStamp }] } .cp)).advance)
    ∧ ((c.mrec).obj = 0 → exec (mk f) s = .next (takeTrap s 14 0 ((c.mrec).detail c.moff) s.pathMask))
    ∧ ((c.mrec).obj ≠ 0 → (c.mrec).bad = true → exec (mk f) s = .next (takeTrap s 15 0 ((c.mrec).detail c.moff) s.pathMask))
    ∧ ((c.mrec).obj ≠ 0 → (c.mrec).bad = false → fine → c.bad x = true → exec (mk f) s = .next (takeTrap s 8 0 (BitVec.ofNat 64 (c.w 0)) s.pathMask))
    ∧ c.op = opc ∧ c.words = cmdWords s.g f.a.opnd ∧ c.recM = (s.g.record c.mbuf).w)
  ∧ (∀ (s : State) (ctx : Nat) (x : CopyCmd), let g := s.group ctx
    s.enginesRun g.blk g.core = true → g.nextCopy = some x → g.ops = [] → g.status ≠ .retired → s.copyWaits ctx x = false →
    let p := s.runUnit g x
    (p.stop = none → x.dRows ≤ p.cmd.row → p.cmd.pois = none → x.arriving = false → p.st.group ctx = g → ∃ t, exec (.copyCompletion ctx) s = .next t
      ∧ MemorySame p.st t ∧ (t.group ctx).copies = g.copies.filter (fun c => c.id != x.id) ∧ (t.group ctx).cCP = g.cCP - 1
      ∧ (t.group ctx).held = g.held
      ∧ (g.mkX = [] → (t.group ctx).qx = if x.notify then pushTok g.qx (BitVec.ofNat 32 (x.tag * 65536)) else g.qx))
    ∧ (p.stop = none → p.cmd.row < x.dRows → p.st.group ctx = g → exec (.copyCompletion ctx) s = .next (p.st.setGroup ctx (g.setCopy p.cmd)))
    ∧ (∀ k c d, let y := s.readIdx g.space x (x.rowsTo x.unit); s.unitFault g y y.todo = some (.fault k c d) →
        x.gathers = false ∨ (s.part g.part).watches = [] → ∃ t h,
      exec (.engineFault ctx) s = .next t ∧ MemorySame s t ∧ (t.group ctx).held = g.held ++ [h] ∧ h.cls = .cp ∧ h.cmd = some x.id
      ∧ h.trec.kind = k ∧ h.trec.cause = c ∧ h.trec.detail = d ∧ h.trec.pc = x.pc ∧ h.trec.engine = true ∧ (t.group ctx).cCP = g.cCP)))
  ∧ (∀ (s : State) (g : Group) (x : CopyCmd) (i base : Nat), let r := x.mrec
    let off := x.moff + i * r.stride
    let key := scrKey (s.space g.space) (x.saddr + i * x.pitch)
    g.world = 0 → x.xfmt = r.fmt → x.smooth = false → x.plane = false → x.xpose = false → x.fromAcc = false → x.mxs = false →
    r.zord = false → r.swz = 0 → off + x.cols ≤ r.extent → s.anyPois = false → s.poisScr = [] →
    AtHome s g.part r.obj (r.base + off) x.cols base →
    (x.op = 0x10 → r.fmt ∈ [3, 4, 5] → let t := (s.loadUnit g x (places i 0 x.cols)).1
      (∀ c < x.cols, rdByte t.scr (key + c) = rdByte s.hbm (base + c)) ∧ ScratchOnly s t key x.cols ∧ (s.loadUnit g x (places i 0 x.cols)).2 = none)
    ∧ (x.op = 0x11 → r.fmt = 5 → let t := (s.storeUnit g x (places i 0 x.cols)).1
      (∀ c < x.cols, rdByte t.hbm (base + c) = rdByte s.scr (key + c))
      ∧ (∀ a, a < base ∨ base + x.cols ≤ a → rdByte t.hbm a = rdByte s.hbm a) ∧ t.scr = s.scr ∧ t.acc = s.acc ∧ t.remote = s.remote))

/-- 18 R361 to R364: `fork` traps in a crowded block, in an iteration and in a handler, the block's shape before the group's context, an order that is the
model's reading (log [19], DEDUCED); it waits for the counters and writes the stash
window back; a check of R363 that fails leaves the group alone with its cause in `s95`. Otherwise there are n copies in worlds of their own,
one deeper, with the registers, predicates and keys of the forking group but for `s95`, which holds the copy's number; copies 1 to n - 1 have
spaces of their own with the same scratchpad bytes. -/
def Obligations.ForksMakeCopies : Prop :=
  ∀ (f : EngF) (s : State) (d : BitVec 3), s.g.present = true → s.groupPasses f.guard = true → f.dst = .sp d →
    let n := f.imm.toNat
    let t := s.writeBackAll s.ctx true
    let one := partsOf (s.launch (s.block s.g.blk).launch).groups ≤ 1
    let quiet := s.g.held = [] ∧ s.g.cLD = 0 ∧ s.g.cST = 0 ∧ s.g.cSP = 0 ∧ s.g.cCP = 0 ∧ s.g.cMX = 0
    (s.crowded = true ∨ ¬one → exec (.fork f) s = .next (takeTrap s 21 1 0 s.pathMask))
    ∧ (s.crowded = false → one → s.g.it ≠ none ∨ s.g.recs ≠ [] → exec (.fork f) s = .next (takeTrap s 21 2 0 s.pathMask))
    ∧ (s.crowded = false → one → s.g.it = none → s.g.recs = [] → s.g.held = [] → ¬quiet → exec (.fork f) s = .next (s.stallAt 14))
    ∧ (s.crowded = false → one → s.g.it = none → s.g.recs = [] → quiet →
      (∀ c, t.forkLacks n = some c →
        exec (.fork f) s = .next (t.setG ((t.g.wrS 95 (BitVec.ofNat 32 (2 ^ 31 + c))).wrSp d.toNat false)).advance)
      ∧ (t.forkLacks n = none → 2 ≤ n → t.g.present = true → t.g.status = .run →
        ∃ (u : State) (k : Nat), exec (.fork f) s = .next u ∧ (u.fork k).present = true ∧ (u.fork k).copies.length = n
          ∧ (u.fork k).pWorld = t.g.world ∧ (u.fork k).pDepth = t.g.depth ∧ (u.fork k).pFork = t.g.fork
          ∧ ((u.fork k).copies.map (·.world)).Nodup ∧ u.g.issued = t.g.issued + 1
          ∧ ∀ j < n, ∃ c, (c = s.ctx ↔ j = 0) ∧ let x := u.group c
            x.copy = j ∧ x.fork = some k ∧ x.depth = t.g.depth + 1 ∧ x.world = (u.copyOf k j).world
            ∧ x.rdS 95 = BitVec.ofNat 32 j ∧ x.sp.getLsbD d.toNat = true ∧ (∀ r < 95, x.rdS r = t.g.rdS r)
            ∧ x.stack = u.g.stack ∧ x.v = u.g.v ∧ x.p = t.g.p ∧ x.key = t.g.key ∧ x.ctr = t.g.ctr
            ∧ x.core = t.g.core ∧ x.cpart = t.g.cpart
            ∧ ((t.space t.g.space).present = true → (t.space t.g.space).base = t.g.space * 2 ^ 20 → Memory.wf t.scr = true → j ≠ 0 →
              x.space ≠ t.g.space ∧ ∀ a < 2 ^ 20, rdByte u.scr ((u.space x.space).base + a) = rdByte t.scr ((t.space t.g.space).base + a))))

/-- 18 R371, R375: `wdone` posts a verdict and parks every copy but copy 0; `wjoin` reads the verdicts into `s` registers: the code of a
copy that has ended, 0 for one without a verdict. Outside a world both trap, and `wjoin` traps in every copy but copy 0.
18 R376: `wabort` in a copy other than copy 0 ends the copy with the verdict 0xFFFF_FFFE and drops its view and log; in copy 0 every
sibling ends, the fork is gone, and the group goes on in the parent's world with its registers as they stand. -/
def Obligations.VerdictsAndAborts : Prop :=
  (∀ (f : EngF) (s : State), s.g.present = true → s.groupPasses f.guard = true →
    (s.g.fork = none → exec (.wdone f) s = .next (takeTrap s 21 3 0 s.pathMask) ∧ exec (.wjoin f) s = .next (takeTrap s 21 3 0 s.pathMask)
      ∧ exec (.choose f) s = .next (takeTrap s 21 3 0 s.pathMask) ∧ exec (.wabort f) s = .next (takeTrap s 21 3 0 s.pathMask))
    ∧ ∀ k, s.g.fork = some k → let cs := (s.fork k).copies
      let a := s.skVal f.a.opnd
      (s.g.copy ≠ 0 → exec (.wjoin f) s = .next (takeTrap s 21 4 0 s.pathMask) ∧ exec (.choose f) s = .next (takeTrap s 21 4 0 s.pathMask))
      ∧ (s.needSrc f.a = .ok () → 0xFFFFFFFE ≤ a → exec (.wdone f) s = .next (takeTrap s 8 0 (BitVec.ofNat 64 a) s.pathMask))
      ∧ (s.needSrc f.a = .ok () → a < 0xFFFFFFFE → s.g.copy < cs.length → s.g.held = [] → s.g.cLD = 0 → s.g.cST = 0 → s.g.cSP = 0 → s.g.cCP = 0 →
        s.g.cMX = 0 → ∃ u, exec (.wdone f) s = .next u ∧ (u.copyOf k s.g.copy).verdict = some (BitVec.ofNat 32 a)
          ∧ (u.fork k).copies.length = cs.length ∧ (∀ j, j ≠ s.g.copy → u.copyOf k j = s.copyOf k j)
          ∧ u.g.status = (if s.g.copy = 0 then s.g.status else .copyPark) ∧ u.g.issued = s.g.issued + 1 ∧ MemorySame s u)
      ∧ (∀ d, s.g.copy = 0 → f.dst = .s d → d.toNat + cs.length ≤ 96 → s.allPosted k = false → exec (.wjoin f) s = .next (s.stallAt 14))
      ∧ ∀ d, s.g.copy = 0 → f.dst = .s d → d.toNat + cs.length ≤ 96 → s.allPosted k = true → s.g.pendingWrite (opndSpan f.dst cs.length) = none →
        ∃ u, exec (.wjoin f) s = .next u ∧ OnlyGroup s u ∧ u.g.issued = s.g.issued + 1
          ∧ (∀ r, (r < d.toNat ∨ d.toNat + cs.length ≤ r) → u.g.rdS r = s.g.rdS r)
          ∧ ∀ m (c : Copy), cs[m]? = some c → u.g.rdS (d.toNat + m) = (c.imposed.orElse fun _ => c.verdict).getD 0)
  ∧ (∀ (f : EngF) (s : State) (k : Nat), s.g.present = true → s.groupPasses f.guard = true → s.g.fork = some k → s.g.copy < (s.fork k).copies.length →
    (s.copyOf k s.g.copy).ctx = s.ctx → (∀ j, s.nested k j = []) →
    (s.g.copy ≠ 0 → ∃ u, exec (.wabort f) s = .next u ∧ MemorySame s u ∧ (u.copyOf k s.g.copy).imposed = some 0xFFFFFFFE
      ∧ (u.copyOf k s.g.copy).log = [] ∧ u.g.status = .retired
      ∧ (∀ v ∈ s.views, v.world = (s.copyOf k s.g.copy).world → v.world ∈ u.dropped)
      ∧ ∀ j, j ≠ s.g.copy → u.copyOf k j = s.copyOf k j)
    ∧ (s.g.copy = 0 → s.g.ops = [] → s.g.copies = [] → ((s.fork k).copies.map (·.ctx)).Nodup → ∃ u, exec (.wabort f) s = .next u ∧ MemorySame s u ∧ u.fork k = {}
      ∧ u.g.world = (s.fork k).pWorld ∧ u.g.depth = (s.fork k).pDepth ∧ u.g.copy = (s.fork k).pCopy ∧ u.g.fork = (s.fork k).pFork
      ∧ u.g.s = s.g.s ∧ u.g.p = s.g.p ∧ u.g.sp = s.g.sp ∧ u.g.issued = s.g.issued + 1 ∧ (s.g.dkill = 0 → u.g.v = s.g.v)
      ∧ ∀ j (x : Copy), j ≠ 0 → (s.fork k).copies[j]? = some x → x.imposed = none → (u.group x.ctx).status = .retired))

/-- 18 R372 to R374: `choose` stalls until every copy has posted or ended, and traps for an index past the copies, for one that has ended, and where the
parent copy's log would not hold the entries of both. Completion: else it commits view k, and a parent copy's log then ends with k's entries. Then
copy k goes on in the parent's world, every other copy ends, the lines of k's view resolve to the parent's and the lines of the others are dropped.
VIEW_LINE_RETAG scrubs a dropped line, gives a committed one the parent's tag, and writes it home outside worlds, once its extent is not LEAVING (17 R351). -/
def Obligations.ChoosingCommitsOneView : Prop :=
  (∀ (f : EngF) (s : State) (k : Nat), s.g.present = true → s.groupPasses f.guard = true → s.g.fork = some k → s.g.copy = 0 → s.needSrc f.a = .ok () →
    let w := s.skVal f.a.opnd
    let fk := s.fork k
    let c := s.copyOf k w
    (fk.copies.length ≤ w → exec (.choose f) s = .next (takeTrap s 21 6 0 s.pathMask))
    ∧ (w < fk.copies.length → s.allPosted k = false → exec (.choose f) s = .next (s.stallAt 14))
    ∧ (w < fk.copies.length → s.allPosted k = true → c.imposed ≠ none → exec (.choose f) s = .next (takeTrap s 21 5 0 s.pathMask))
    ∧ (w < fk.copies.length → s.allPosted k = true → c.imposed = none →
      let fits := ∀ pf, fk.pFork = some pf → (s.copyOf pf fk.pCopy).log.length + c.log.length ≤ 64
      (¬fits → exec (.choose f) s = .next (takeTrap s 21 7 0 s.pathMask))
      ∧ (fits → s.g.held = [] → s.g.cLD = 0 → s.g.cST = 0 → s.g.cSP = 0 → s.g.cCP = 0 → s.g.cMX = 0 →
        ∃ u, exec (.choose f) s = .next u ∧ u = s.advance.commitView k w
          ∧ ((fk.copies.map (·.ctx)).Nodup → (∀ j, s.nested k j = []) →
            (∀ pf, fk.pFork = some pf → pf ≠ k → fk.pCopy < (s.fork pf).copies.length →
              (u.copyOf pf fk.pCopy).log = (s.copyOf pf fk.pCopy).log ++ c.log)
            ∧ (c.log = [] → (∀ e ∈ s.groups, e.2.stash = none) → u.fork k = {} ∧ MemorySame s u
              ∧ (u.group c.ctx).world = fk.pWorld ∧ (u.group c.ctx).depth = fk.pDepth ∧ (u.group c.ctx).copy = fk.pCopy
              ∧ (u.group c.ctx).fork = fk.pFork ∧ (u.group c.ctx).status = .run
              ∧ (∀ v ∈ s.views, v.world = c.world → v ∈ u.views ∧ (c.world, fk.pWorld) ∈ u.links)
              ∧ ∀ j (x : Copy), j ≠ w → fk.copies[j]? = some x → x.imposed = none →
                (u.group x.ctx).status = .retired ∧ ∀ v ∈ s.views, v.world = x.world → x.world ∈ u.dropped)))))
  ∧ ∀ (s : State) (line world : Nat) (v : View), s.views.find? (fun v => v.line == line && v.world == world) = some v →
    (world ∈ s.dropped → ∃ u, exec (.viewLineRetag line world) s = .next u ∧ MemorySame s u
      ∧ u.views = s.views.filter fun x => !(x.line == line && x.remote == v.remote && x.world == world))
    ∧ (∀ t, world ∉ s.dropped → s.links.find? (·.1 == world) = some (world, t) → s.viewAt (s.effTag world) v.remote line = some v →
      let rest := s.views.filter fun x => !(x.line == line && x.remote == v.remote && s.effTag x.world == s.effTag world && !s.dropped.contains x.world)
      ∃ u, exec (.viewLineRetag line world) s = .next u
        ∧ (t ≠ 0 → u.views = { v with world := t } :: rest ∧ MemorySame s u)
        ∧ (t = 0 → line * 64 < 2 ^ 100 → s.lineLeaving v.remote line = true → u = s)
        ∧ (t = 0 → line * 64 < 2 ^ 100 → s.lineLeaving v.remote line = false → u.views = rest ∧ (∀ i < 64, u.homeByte ⟨v.remote, line * 64 + i⟩ = v.bytes.getD i 0)
          ∧ ∀ (r : Bool) a, r ≠ v.remote ∨ a < line * 64 ∨ line * 64 + 64 ≤ a → u.homeByte ⟨r, a⟩ = s.homeByte ⟨r, a⟩))

/-- 23 R438 to R440: what every command of a queue shares. Nothing happens on an empty ring, before the command's turn, or for another
command; an over-full ring, a malformed entry and an unknown operation end at once with their status. A TAIL that was too far ahead ends the entries one by
one, until it is written again, and a STATUS handle that is no multiple of 8 takes no write (both log [101], DEDUCED); a LAUNCH that is refused so takes its
sequence number as its detail (log [100], DEDUCED). An end writes the status and its detail at the STATUS handle and passes HEAD over the entry; the other
queues keep theirs. -/
def Obligations.CommandsEndInOrder : Prop :=
  (∀ (op act : Nat) (mk : Nat → Nat → Instr), (op, act, mk) ∈ ([(1, 0, .launch), (2, 0, .load), (3, 0, .objupdate), (4, 0, .extupdate), (5, 0, .watch),
      (6, 0, .traceOff), (6, 1, .traceOn), (6, 2, .traceDrain), (7, 0, .resolveRetry), (7, 1, .resolveDeliver), (8, 0, .preempt), (9, 0, .restore),
      (10, 0, .grant), (11, 0, .migrate)] : List (Nat × Nat × (Nat → Nat → Instr))) →
    ∀ (s : State) (p q : Nat), let x := s.queue p q; let b := x.entry s.hbm
      (x.log = 0 ∨ x.waiting s.hbm = 0 ∨ s.cmdWaits x (fld b 0 1) = true → exec (mk p q) s = .next s)
      ∧ (x.log ≠ 0 → x.waiting s.hbm ≠ 0 → s.cmdWaits x (fld b 0 1) = false →
        (∀ c, x.refusal s.hbm = some c → let n := (s.part p).nextSeq
          exec (mk p q) s = .next (if fld b 0 1 = 1 then (s.setPart p { s.part p with nextSeq := n + 1 }).ended p q b c n.toNat else s.ended p q b c 0))
        ∧ (x.refusal s.hbm = none → fld b 0 1 ≠ op ∨ actionOf b ≠ act → exec (mk p q) s = .next s)))
  ∧ (∀ (x : CmdQ) (m : SMap Byte), let op := fld (x.entry m) 0 1
      let late := 2 ^ x.log < x.waiting m ∨ x.overTail = some (x.tail m)
      (late → x.refusal m = some 1) ∧ (¬late → op = 0 ∨ 11 < op → x.refusal m = some 12)
      ∧ (¬late → 1 ≤ op → op ≤ 11 → cmdFormat x.gen (x.entry m) = false → x.refusal m = some 1))
  ∧ (∀ (s : State) (x : CmdQ) (op : Nat), (s.cmdWaits x 1 = true ↔ x.launches ≠ [])
      ∧ (op ≠ 1 → (s.cmdWaits x op = true ↔ ∃ l ∈ x.launches, (s.launch l).st = .queued)))
  ∧ ∀ (s : State) (p q code detail : Nat) (b : List Byte), let t := s.ended p q b code detail
      let x := s.queue p q
      t.queue p q = { x with head := (x.head + 1) % 2 ^ 32, overTail := (t.queue p q).overTail } ∧ (∀ r, r ≠ q → t.queue p r = s.queue p r)
      ∧ (fld b 8 8 = 0 → (t.queue p q).overTail = if 2 ^ x.log < x.waiting s.hbm ∨ x.overTail = some (x.tail s.hbm) then some (x.tail s.hbm) else none)
      ∧ rdN t.hbm x.base 4 = (x.head + 1) % 2 ^ 32
      ∧ ∀ base, let h : DWord := BitVec.ofNat 64 (fld b 8 8)
        h ≠ 0 → h.toNat % 8 = 0 → AtHome s p (objOf h) (offOf h) 8 base → base + 8 ≤ x.base ∨ x.base + 4 ≤ base →
        rdN t.hbm base 4 = code % 2 ^ 32 ∧ rdN t.hbm (base + 4) 4 = detail % 2 ^ 32

/-- 11 R254, R255, 15 R317, R323, 23 R439, R442: LAUNCH queues the launch that its entry describes, or ends it with its status; either way it
takes the next sequence number, which a refused one has as its detail (log [100], DEDUCED). LAUNCH_ACTIVATION starts the launch at the front of its queue: it reads the argument image and the scoreboard,
and a launch of which every block is marked, or a pool without records, ends at once.
23 R444, R445, R453: LOAD ends with BADOBJ for a source that is not there, and for a destination (log [101], DEDUCED), with the status of a bad object
(FORMAT, or CAPREQ and the key of a requirement or patch that the device does not meet), and otherwise places the code and answers its handle. A kernel entry that is no slot 0 ends it with FORMAT (the model's choice, log [116]). -/
def Obligations.LaunchesAndCodeArrive : Prop :=
  ((∀ (s : State) (p q : Nat) (b : List Byte), CmdAtHead s p q 1 0 b → let x := s.queue p q; let n := (s.part p).nextSeq
    (∀ c, s.checkLaunch p q x b = .error c →
      exec (.launch p q) s = .next ((s.setPart p { s.part p with nextSeq := n + 1 }).ended p q b c n.toNat))
    ∧ ∀ l, s.checkLaunch p q x b = .ok l → ∃ (u : State) (id : Nat), exec (.launch p q) s = .next u ∧ s.launch id = {} ∧ u.launch id = l
      ∧ (u.queue p q).launches = x.launches ++ [id] ∧ (u.queue p q).head = (x.head + 1) % 2 ^ 32 ∧ (u.part p).nextSeq = n + 1
      ∧ l.st = .queued ∧ l.seq = n ∧ l.part = p ∧ l.queue = q ∧ l.kind = fld b 0x18 1 ∧ l.kernel = fld b 0x1A 2 ∧ l.gang = fld b 0x1E 2
      ∧ l.x = fld b 0x20 4 ∧ l.y = fld b 0x24 2 ∧ l.z = fld b 0x26 2 ∧ (∀ m, m ≠ id → u.launch m = s.launch m))
  ∧ (∀ (s : State) (p q : Nat) (b : List Byte), let x := s.queue p q
    (launchFieldBad x.gen b = true → s.checkLaunch p q x b = .error 1)
    ∧ (launchFieldBad x.gen b = false → s.codeOf p (fld b 0x10 8) = none → s.checkLaunch p q x b = .error 2))
  ∧ ∀ (s : State) (p q id : Nat) (r : List Nat), (s.queue p q).launches = id :: r → let l := s.launch id
    (l.st ≠ .queued → exec (.launchActivation p q) s = .next s)
    ∧ (l.st = .queued → ∀ base, AtHome s l.part (objOf l.argsAt) (offOf l.argsAt) 384 base →
      (l.tart = none → l.pool = none → ∃ u, exec (.launchActivation p q) s = .next u ∧ (u.launch id).st = .active
        ∧ ∀ w < 96, get 0 (u.launch id).args w = BitVec.ofNat 32 (rdN s.hbm (base + 4 * w) 4))
      ∧ (∀ t, l.tart = some t → (s.presetBits l t.sbh).length = Launch.count l → ∃ u, exec (.launchActivation p q) s = .next u ∧ u.launch id = {})
      ∧ (∀ t, l.tart = some t → (s.presetBits l t.sbh).length ≠ Launch.count l → ∃ u, exec (.launchActivation p q) s = .next u
        ∧ (u.launch id).st = .active ∧ (u.launch id).placed = s.presetBits l t.sbh
        ∧ (u.launch id).tart = some { t with score := s.presetBits l t.sbh })
      ∧ (∀ pl pl', l.tart = none → l.pool = some pl → s.readPool { l with st := .active, args := readImage (leBytes 384 (s.devRead l.part l.argsAt 384)) } pl = .ok pl' → pl'.outst = 0 →
        ∃ u, exec (.launchActivation p q) s = .next u ∧ u.launch id = {})))
  ∧ ((∀ (s : State) (p q : Nat) (b : List Byte), CmdAtHead s p q 2 0 b →
    let src : DWord := BitVec.ofNat 64 (fld b 0x10 8)
    let dst : DWord := BitVec.ofNat 64 (fld b 0x20 8)
    let n := fld b 0x18 8
    let bytes := leBytes n (s.devRead p src n)
    let id := (s.codes.filter fun e => e.1 / 2 ^ 32 == p).length
    (((s.part p).holds src n && (s.part p).holds dst 1) = false → exec (.load p q) s = .next (s.ended p q b 2 0))
    ∧ ((s.part p).holds src n = true → (s.part p).holds dst 1 = true →
      (∀ c d, s.readCode p bytes dst = .error (c, d) → exec (.load p q) s = .next (s.ended p q b c d))
      ∧ ∀ k, s.readCode p bytes dst = .ok k → ∃ u : State, exec (.load p q) s = .next (u.ended p q b 0 (id + 1)) ∧ u.code (codeKey p id) = k
        ∧ (∀ m, m ≠ codeKey p id → u.code m = s.code m) ∧ u.scr = s.scr ∧ u.acc = s.acc))
  ∧ ∀ (s : State) (p : Nat) (b : List Byte) (dst : DWord), let l := sectionsOf b; let sec := secBytes l b
    (objectOk b = false → s.readCode p b dst = .error (12, 0))
    ∧ (objectOk b = true → ∀ k, s.unmet (sec 2) = some k → s.readCode p b dst = .error (9, k))
    ∧ (objectOk b = true → s.unmet (sec 2) = none → fld b 8 4 = 9 → (findSec l 4).isSome = true →
      (∃ i < (sec 1).length / 32, fld (sec 1) (32 * i) 4 % 64 ≠ 0) → s.readCode p b dst = .error (12, 0))
    ∧ (objectOk b = true → s.unmet (sec 2) = none → fld b 8 4 = 9 → (findSec l 4).isSome = true →
      (∀ i < (sec 1).length / 32, fld (sec 1) (32 * i) 4 % 64 = 0) → ∀ k, s.unbindable (sec 3) = some k → s.readCode p b dst = .error (9, k))
    ∧ (objectOk b = true → s.unmet (sec 2) = none → fld b 8 4 = 9 → (findSec l 4).isSome = true →
      (∀ i < (sec 1).length / 32, fld (sec 1) (32 * i) 4 % 64 = 0) → s.unbindable (sec 3) = none →
      ∃ k, s.readCode p b dst = .ok k ∧ k.hot = (sec 4).length ∧ k.size = (sec 4 ++ sec 5).length ∧ k.ulbel = none
        ∧ (∀ i, rdByte k.text i = (sec 4 ++ sec 5).getD i 0) ∧ (∀ i, rdByte k.seg i = (sec 3).getD i 0)
        ∧ k.kernels.length = (sec 1).length / 32
        ∧ ∀ i x, k.kernels[i]? = some x → x.entry = fld (sec 1) (32 * i) 4 ∧ x.width = 8 * 2 ^ fld (sec 1) (32 * i + 4) 1
          ∧ x.regs = fld (sec 1) (32 * i + 6) 2 ∧ x.scratch = fld (sec 1) (32 * i + 8) 4 ∧ x.acc = fld (sec 1) (32 * i + 12) 1))

/-- 17 R345 to R347, R351, 10 R223: OBJUPDATE writes a legal entry into the table and installs, or destroys, its object and a destroyed object's bindings
(what memory holds is stated for a device without groups and held writes); EXTUPDATE makes one of the five moves of R351 and writes the descriptor. That
both also write the table memory is log [74], DESIGN CHOICE. An id that is not there ends with BADOBJ, an illegal entry or move with FIELD, an entry of an
absent object among them (both log [101], DEDUCED), and neither changes anything. -/
def Obligations.ObjectsAndExtentsChange : Prop :=
  (∀ (s : State) (p q : Nat) (b : List Byte), CmdAtHead s p q 3 0 b →
    let id := fld b 0x10 4
    let e := (b.drop 0x18).take 32
    let x := s.part p
    (id = 0 ∨ 2 ^ x.otlog ≤ id → exec (.objupdate p q) s = .next (s.ended p q b 2 0))
    ∧ (id ≠ 0 → id < 2 ^ x.otlog → 1 < fld e 0 1 ∨ (fld e 0 1 = 0 ∧ s.entryOk p e = false) ∨ (fld e 0 1 = 1 ∧ s.readObj p e = none) →
      exec (.objupdate p q) s = .next (s.ended p q b 1 0))
    ∧ ∀ o, id ≠ 0 → id < 2 ^ x.otlog → (fld e 0 1 = 0 ∧ s.entryOk p e = true ∧ o = {}) ∨ (fld e 0 1 = 1 ∧ s.readObj p e = some o) →
      ∃ u : State, exec (.objupdate p q) s = .next (u.ended p q b 0 0) ∧ (s.groups = [] → x.heldWrites = [] → (u.part p).obj id = o
        ∧ (∀ i, i ≠ id → (u.part p).obj i = x.obj i) ∧ rdBytes u.hbm (x.otbase + 32 * id) 32 = e
        ∧ (∀ a, a < x.otbase + 32 * id ∨ x.otbase + 32 * id + 32 ≤ a → rdByte u.hbm a = rdByte s.hbm a)
        ∧ (u.part p).binds = if o.live then x.binds else x.binds.filter fun y => y.obj != id))
  ∧ (∀ (s : State) (p q : Nat) (b : List Byte), CmdAtHead s p q 4 0 b →
    let id := fld b 0x10 4
    let i := fld b 0x14 2
    let d := (b.drop 0x18).take 16
    let o := (s.part p).obj id
    let n := readExt d
    (id = 0 ∨ 2 ^ (s.part p).otlog ≤ id ∨ o.live = false → exec (.extupdate p q) s = .next (s.ended p q b 2 0))
    ∧ (id ≠ 0 → id < 2 ^ (s.part p).otlog → o.live = true →
      (o.exts[i]? = none → exec (.extupdate p q) s = .next (s.ended p q b 1 0))
      ∧ ∀ y, o.exts[i]? = some y →
        (s.extOk p o.host d = false ∨ mayMove y.st n.st = false ∨ extsSorted (setAt o.exts i n) = false →
          exec (.extupdate p q) s = .next (s.ended p q b 1 0))
        ∧ (s.extOk p o.host d = true → mayMove y.st n.st = true → extsSorted (setAt o.exts i n) = true →
          ∃ u : State, exec (.extupdate p q) s = .next (u.ended p q b 0 0) ∧ (s.groups = [] → (s.part p).heldWrites = [] →
            (u.part p).obj id = { o with exts := setAt o.exts i (if n.st = .away ∧ y.want = true then { n with st := .returning } else n) }
            ∧ rdBytes u.hbm (o.xlist + 16 * i) 16 = d
            ∧ (∀ a, a < o.xlist + 16 * i ∨ o.xlist + 16 * i + 16 ≤ a → rdByte u.hbm a = rdByte s.hbm a)
            ∧ ((u.part p).posts = if n.st = .away ∧ y.want = true then (s.part p).posts ++ [(none, [returnRec id n.first])] else (s.part p).posts)))))
  ∧ ∀ a b, mayMove a b = true ↔ (a, b) ∈ [(ExtSt.resident, ExtSt.leaving), (.leaving, .away), (.leaving, .resident), (.away, .returning), (.returning, .resident)]

/-- 20 R399, 22 R417, R432 to R435: WATCH sets a watchpoint unit from a legal descriptor. TRACE turns a cluster's trace on, with a SYNC, and off,
and drains whole packets to memory, oldest first, within its limit, and leaves what does not fit (log [110], DEDUCED); a cluster of another partition ends
with FIELD, a bad buffer with BADOBJ (log [101], DEDUCED). RESOLVE makes a group that is parked on a fault execute its instruction again
or enter its handler, and ends with NOTPARKED for one that is not. -/
def Obligations.WatchTraceAndResolve : Prop :=
  ∀ (s : State) (p q act : Nat) (b : List Byte),
    (CmdAtHead s p q 5 0 b → let n := fld b 0x10 1; let d := (b.drop 0x18).take 32
      (16 ≤ n ∨ watchOk d = false → exec (.watch p q) s = .next (s.ended p q b 1 0))
      ∧ (n < 16 → watchOk d = true → ∃ u : State, exec (.watch p q) s = .next (u.ended p q b 0 0) ∧ MemorySame s u
        ∧ (∀ m, get {} (u.part p).watches m = if m = n then readWatch d else get {} (s.part p).watches m)))
    ∧ (CmdAtHead s p q 6 act b → let c := fld b 0x10 1; let h : DWord := BitVec.ofNat 64 (fld b 0x18 8); let n := fld b 0x20 4
      (c ∉ s.clustersOf p → act < 3 → ∀ mk ∈ [Instr.traceOff, .traceOn, .traceDrain][act]?, exec (mk p q) s = .next (s.ended p q b 1 0))
      ∧ (c ∈ s.clustersOf p →
        (act = 0 → exec (.traceOff p q) s = .next ((s.setCluster c { s.cluster c with on := false }).ended p q b 0 0))
        ∧ (act = 1 → ∃ u : State, exec (.traceOn p q) s = .next (u.ended p q b 0 0) ∧ (u.cluster c).on = true ∧ MemorySame s u
          ∧ ((s.cluster c).on = true → u.cluster c = s.cluster c)
          ∧ ((s.cluster c).on = false → (s.cluster c).buf = [] → (s.cluster c).gated = false → (s.cluster c).dropped = 0 →
            (u.cluster c).buf = [⟨s.clusterCycles c, 0, 6, 0, []⟩]))
        ∧ (act = 2 → (s.part p).holds h n = false → exec (.traceDrain p q) s = .next (s.ended p q b 2 0))
        ∧ (act = 2 → (s.part p).holds h n = true → ∃ (u : State) (sent rest : List Pkt) (bytes : List Byte),
          exec (.traceDrain p q) s = .next (u.ended p q b 0 bytes.length) ∧ (s.cluster c).buf = sent ++ rest ∧ bytes.length ≤ n
          ∧ bytes = (bufBytes (s.cluster c).lastTime (s.cluster c).lastSync sent) ∧ rest <+: (u.cluster c).buf ∧ u.scr = s.scr ∧ u.acc = s.acc)))
    ∧ (CmdAtHead s p q 7 act b → let i := fld b 0x10 4; let c := p * 65536 + i; let g := s.group c
      (s.parkedAt p i = none → (act = 0 → exec (.resolveRetry p q) s = .next (s.ended p q b 8 0))
        ∧ (act = 1 → exec (.resolveDeliver p q) s = .next (s.ended p q b 8 0)))
      ∧ ∀ k r, s.parkedAt p i = some (k, r) →
        (act = 0 → r.engine = false → exec (.resolveRetry p q) s = .next ((s.setGroup c
          (Group.unrefused { g.setPath k { g.path k with stall := 0 } with status := .run, parkRec := none })).ended p q b 0 0))
        ∧ (act = 1 → exec (.resolveDeliver p q) s = .next ((takeRec s c k r).ended p q b 0 0)))

/-- 20 R402 to R405, 15 R320: PREEMPT halts every running or parked block of a launch and takes back a restore that waits, and answers their number;
RESTORE puts its saved blocks, and those that still halt, in the ready set, or ends with CAPACITY, also where another partition holds the launch's saved
blocks; both do nothing for a launch that has ended, and answer OK and 0 for a sequence number that names none (log [101], DEDUCED).
GROUP_SAVE writes a group's context, with its `s` registers at +0x80, once its loads and stash operations have completed; the last group's save is its
block's. 17 R357, 23 R450: GRANT opens a window of a live object to the management controller and answers its index; an object that is not there ends
with BADOBJ, a window that is not made of whole pages of it with FIELD (log [101], DEDUCED). MIGRATE needs every block saved (BUSY) and the other device's capabilities to
be the same (MISMATCH), and takes the partition's groups, blocks, launches and code away. -/
def Obligations.BlocksStopReturnAndMove : Prop :=
  ((∀ (s : State) (p q : Nat) (b : List Byte), (s.blocks.map (·.1)).Nodup → let seq := fld b 0x10 4
    (CmdAtHead s p q 8 0 b →
      (s.launchOf p seq = none → exec (.preempt p q) s = .next (s.ended p q b 0 0))
      ∧ ∀ id, s.launchOf p seq = some id →
        let bs := s.blocksOf id fun k => k.status == .running || k.status == .parked || k.restoring
        ∃ u : State, exec (.preempt p q) s = .next (u.ended p q b 0 bs.length)
          ∧ (∀ n ∈ bs, (s.block n).status = .running ∨ (s.block n).status = .parked → (u.block n).status = .halting ∨ (u.block n).status = .saved)
          ∧ (∀ n ∈ bs, (s.block n).status = .saved → (u.block n).restoring = false ∧ (u.block n).status = .saved)
          ∧ ∀ n, (s.block n).launch ≠ id → u.block n = s.block n)
    ∧ (CmdAtHead s p q 9 0 b →
      (s.launchOf p seq = none → exec (.restore p q) s = .next (s.ended p q b (if s.savedElsewhere p seq then 6 else 0) 0))
      ∧ ∀ id, s.launchOf p seq = some id →
        let bs := s.blocksOf id fun k => (k.status == .saved || k.status == .halting) && !k.restoring
        let fits := if (s.launch id).gang ≠ 0 then (s.gangsOf bs).all (s.couldRestore p true) = true else s.couldRestore p false bs = true
        (¬fits → exec (.restore p q) s = .next (s.ended p q b 6 0))
        ∧ (fits → ∃ u : State, exec (.restore p q) s = .next (u.ended p q b 0 bs.length) ∧ MemorySame s u
          ∧ ∀ n, u.block n = if n ∈ bs then { s.block n with restoring := true } else s.block n)))
  ∧ ∀ (s : State) (ctx : Nat), let g := s.group ctx
    g.present = true → s.clocked g.core = true → g.saved = false → g.status ≠ .retired → (s.block g.blk).status = .halting → g.saveReady = true → g.stash = none →
    (∀ e ∈ s.groups, e.2.blk = g.blk → e.2.status = .retired → e.2.stash = none) →
    ∃ u, exec (.groupSave ctx) s = .next u ∧ (u.group ctx).saved = true ∧ (u.group ctx).s = g.s ∧ (u.group ctx).stack.length ≤ g.stack.length
      ∧ (∀ n, n ≠ ctx → { u.group n with saved := (s.group n).saved } = s.group n ∧ ((s.group n).blk ≠ g.blk → u.group n = s.group n))
      ∧ (∀ a, s.ctxAddr ctx = some a → ∀ r < 96, rdN u.hbm (a + 0x80 + 4 * r) 4 = (g.rdS r).toNat)
      ∧ (s.midStep g.blk = false → (∀ e ∈ s.groups, e.2.present = true → e.2.blk = g.blk → e.2.status ≠ .retired → e.2.saved = true ∨ e.1 = ctx) →
        (u.block g.blk).status = .saved ∧ (u.block g.blk).preempts = (s.block g.blk).preempts + 1))
  ∧ (∀ (s : State) (p q : Nat) (b : List Byte), let x := s.part p
    (CmdAtHead s p q 10 0 b → let obj := fld b 0x10 4; let perm := fld b 0x14 1; let off := fld b 0x18 8; let len := fld b 0x20 8
      let there := obj ≠ 0 ∧ obj < 2 ^ x.otlog ∧ (x.obj obj).live = true
      let good := perm < 4 ∧ off % 65536 = 0 ∧ len % 65536 = 0 ∧ off + len ≤ (x.obj obj).size
      (¬there → exec (.grant p q) s = .next (s.ended p q b 2 0)) ∧ (there → ¬good → exec (.grant p q) s = .next (s.ended p q b 1 0))
      ∧ (there → good → exec (.grant p q) s = .next ((s.setPart p { x with grants := x.grants ++ [⟨obj, perm, off, len⟩] }).ended p q b 0 x.grants.length)))
    ∧ (CmdAtHead s p q 11 0 b →
      let quiet := ∀ k ∈ s.blocks, k.2.present = true → k.2.part = p → k.2.status = .saved
      let same := s.capDig = Config.remoteCapDig (fld b 0x10 2) (fld b 0x12 2)
      (¬quiet → exec (.migrate p q) s = .next (s.ended p q b 7 0)) ∧ (quiet → ¬same → exec (.migrate p q) s = .next (s.ended p q b 13 0))
      ∧ (quiet → same → ∃ u : State, exec (.migrate p q) s = .next (u.ended p q b 0 0) ∧ MemorySame s u
        ∧ (p, fld b 0x10 2) ∈ u.migrated ∧ (∀ e ∈ u.groups, e.2.part ≠ p) ∧ (∀ e ∈ u.blocks, e.2.part ≠ p) ∧ (∀ e ∈ u.launches, e.2.part ≠ p)
        ∧ (∀ e ∈ u.codes, e.2.part ≠ p) ∧ ∀ e ∈ s.groups, e.2.part ≠ p → e ∈ u.groups)))

/-- 17 R356, R358 to R360, 20 R410, 23 R437, R451: the requests of the management endpoint answer: SUMMARY its 256 bytes and ATTEST its report over the
nonce, that ATTEST and PARTCONFIG of an absent partition answer FIELD being the model's reading (log [107], DEDUCED); PARTCOUNT divides an idle device anew and zeroes the stacks that change their owner and the command and fault rings, and every other byte keeps what
a reader outside worlds saw (committed lines go home: log [106], DEDUCED); PARTCONFIG writes a legal
configuration; FIRMWARE and the boot code run an accepted image, and else the recovery loader; POWER sets the clock. -/
def Obligations.ManagementRequestsAnswer : Prop :=
  (∀ s : State, exec .summary s = .next ({ s with fresh := s.fresh + 2 }.answer 0 s.summaryBytes) ∧ s.summaryBytes.length = 256
    ∧ fld s.summaryBytes 0 4 = 1 ∧ fld s.summaryBytes 4 2 = s.npart % 65536 ∧ fld s.summaryBytes 16 4 = devNum s.dev)
  ∧ (∀ (s : State) (p : Nat) (nonce : BitVec 256),
    (s.npart ≤ p → exec (.attest p nonce) s = .next (s.answer 1 []))
    ∧ (p < s.npart → ∃ r : List Byte, exec (.attest p nonce) s = .next (s.answer 0 r) ∧ r.length = 30168 ∧ fld r 16 32 = nonce.toNat
      ∧ fld r 4 2 = p % 65536 ∧ ∀ i < 29792, r.getD (376 + i) 0 = Config.signature (r.take 376) i))
  ∧ (∀ (s : State) (n : Nat),
    (n ∉ [1, 2, 4, 8] → exec (.partcount n) s = .next (s.answer 1 []))
    ∧ (n ∈ [1, 2, 4, 8] → s.idle = false → exec (.partcount n) s = .next (s.answer 7 []))
    ∧ (n ∈ [1, 2, 4, 8] → s.idle = true → ∃ u, exec (.partcount n) s = .next u ∧ u.npart = n ∧ u.replyCode = 0 ∧ u.groups = []
      ∧ ∀ a, let st := a / (Config.framesPerStack * 65536)
        let moves := st / (Config.hbmStacks / s.npart) ≠ st / (Config.hbmStacks / n)
        let ring := ∃ e ∈ s.parts, ∃ r ∈ e.2.rings, r.1 ≤ a ∧ a < r.1 + r.2
        (moves ∨ ring → rdByte u.hbm a = 0)
        ∧ (¬moves → ¬ring → (∀ e ∈ s.parts, e.2.parked = []) → (∀ v ∈ s.views, v.line * 64 < 2 ^ 100) → rdByte u.hbm a = s.seeByte 0 ⟨false, a⟩)))
  ∧ (∀ (s : State) (p : Nat) (c : PartCfg),
    (s.npart ≤ p ∨ s.cfgOk p c = false → exec (.partconfig p c) s = .next (s.answer 1 []))
    ∧ (p < s.npart → s.cfgOk p c = true → s.idle = false → exec (.partconfig p c) s = .next (s.answer 7 []))
    ∧ (p < s.npart → s.cfgOk p c = true → s.idle = true → ∃ u, exec (.partconfig p c) s = .next u ∧ u.replyCode = 0
      ∧ u.part p = (s.part p).configure c ∧ (u.part p).otbase = c.otbase ∧ (u.part p).frTail = 0 ∧ rdN u.hbm (c.frbase + 4) 4 = 0
      ∧ (∀ i x, c.queues[i]? = some x → (u.queue p i).base = x.1 ∧ (u.queue p i).log = x.2.1 ∧ (u.queue p i).head = 0) ∧ ∀ r, r ≠ p → u.part r = s.part r))
  ∧ (∀ (s : State) (i : FwImage),
    (s.accepts i = true → ∃ u, exec (.firmware i) s = .next u ∧ u.dev = .running ∧ u.svn = i.svn ∧ u.minSvn = Max.max s.minSvn i.newMin ∧ u.image = some i
      ∧ u.replyCode = 0 ∧ exec .firmwareBoot { s with image := some i } = .next ({ s with image := some i }.runImage i))
    ∧ (s.accepts i = false → ∃ u, exec (.firmware i) s = .next u ∧ u.dev = .recovery ∧ u.image = some i ∧ u.svn = s.svn ∧ u.minSvn = s.minSvn
      ∧ exec .firmwareBoot { s with image := some i } = .next { s with image := some i, dev := .recovery })
    ∧ exec .firmwareBoot { s with image := none } = .next { s with image := none, dev := .recovery }
    ∧ (s.accepts i = true → s.minSvn ≤ i.svn))
  ∧ ∀ (s : State) (st : PowerState), ∃ u, exec (.power st) s = .next u ∧ u.power = st ∧ u.replyCode = 0 ∧ MemorySame s u
    ∧ u.khz = (match st with | .cap k => Min.min k 1750000 | _ => 1750000) ∧ ∀ core, u.clocked core =
      (!s.halted.contains (core / 96) && !(s.cluster (core / 8)).gated && !(st == .idle && s.idleCluster (core / 8)) && s.dev != .off)

/-- 01 R29, 11 R254 to R259, 15 R316, 20 R406: BLOCK_PLACEMENT starts the next block of the launch that comes first, on cores that take its parts: each
group, for which the context pool has room (log [6], DESIGN CHOICE), at its kernel's entry with the argument image in `s0` to `s95` and everything else as R29 lists it. GANG_AGES ages a gang, new or saved, that
has held its reservations for 131,072 cycles. BLOCK_RETIREMENT frees a finished block, and the last one ends its launch; what a gang's launch keeps
is stated where no other group has an operation in flight or has tried its instruction. -/
def Obligations.BlocksStartAndRetire : Prop :=
  (∀ (s : State) (p pri id : Nat) (cores cs : List Nat) (r : List (Nat × Job)), let l := s.launch id; let k := kernelOf s l; let c := s.code l.code
    s.restoreJobs p = [] → s.launchJobs p = (pri, .launch id) :: r → s.ctxRoom p l.groups = true → l.gang = 0 → l.pool = none → l.tart = none →
    s.findCores p (partsOf l.groups) cores (fun x => !s.shut x (s.launchPri l) none) (fun j x => s.fitsPart x (s.demand l j)) = some cs →
    ∃ (u : State) (b : Nat), exec (.blockPlacement p cores) s = .next u ∧ s.block b = {}
      ∧ u.launch id = { l with next := l.next + 1, st := if l.next + 1 = Launch.count l then .placed else .active }
      ∧ (u.block b).status = .running ∧ (u.block b).launch = id ∧ (u.block b).index = l.next ∧ (u.block b).x = l.next % l.x
      ∧ (u.block b).y = l.next / l.x % l.y ∧ (u.block b).z = l.next / (l.x * l.y) ∧ (u.block b).groups.length = l.groups
      ∧ (u.block b).groups.Nodup ∧ ∀ i n, (u.block b).groups[i]? = some n → let g := u.group n
        g.present = true ∧ g.blk = b ∧ g.gidx = i ∧ g.width = k.width ∧ g.peak = k.regs ∧ g.core = cs.getD (i / perPart l.groups) 0
        ∧ g.stack = [{ pc := pcOfAddr k.entry, mask := if c.ulbel = some 4 then 0xF else fullMask k.width, rcv := noRcv }]
        ∧ (k.objects = [] → ∀ w, g.rdS w = get 0 l.args w) ∧ g.v = [] ∧ g.mapped = 0 ∧ g.p = [] ∧ g.sp = 0 ∧ g.ctr = [] ∧ g.setting = 4
        ∧ g.recs = [] ∧ g.regions = [] ∧ g.win = none ∧ g.ops = [] ∧ g.cLD = 0 ∧ g.cST = 0 ∧ g.cSP = 0 ∧ g.cCP = 0 ∧ g.cMX = 0
        ∧ g.world = 0 ∧ g.stalls = [] ∧ ∀ w < k.width, get 0 g.tid w = BitVec.ofNat 32 (i * k.width + w))
  ∧ (∀ (s : State) (p : Nat) (cores : List Nat), s.distribute p cores = none → exec (.blockPlacement p cores) s = .next s)
  ∧ (∀ (s : State) (cluster : Nat), ∃ u, exec (.gangAges cluster) s = .next u ∧ MemorySame s u ∧ ∀ id, let l := s.launch id; let m := u.launch id
    { m with aged := l.aged, backAged := l.backAged } = l
    ∧ (m.aged = true ↔ l.aged = true ∨ ∃ r, l.resv = some r ∧ r.1 = cluster ∧ r.2.2 + 131072 ≤ s.now)
    ∧ (m.backAged = true ↔ l.backAged = true ∨ ∃ r, l.back = some r ∧ r.2.1 = cluster ∧ r.2.2.2 + 131072 ≤ s.now))
  ∧ ∀ (s : State) (b : Nat), let k := s.block b; let l := s.launch k.launch
    (s.blockDone b = false → exec (.blockRetirement b) s = .next s)
    ∧ (s.blockDone b = true → (s.groups.map (·.1)).Nodup → k.worker = none → (∀ n ∈ s.blockGroups b, (s.group n).stash = none) → l.tart = none → l.recbase = 0 →
      ∃ u, exec (.blockRetirement b) s = .next u ∧ u.block b = {} ∧ (∀ n, (s.group n).present = true → (s.group n).blk = b → u.group n = {})
        ∧ (∀ e ∈ s.spaces, e.2.blk = b → e.2.present = true → u.space e.1 = {})
        ∧ (l.retired + 1 ≠ Launch.count l → l.gang = 0 ∨ (∀ e ∈ s.groups, e.2.blk ≠ b → e.2.ops = [] ∧ ∀ q ∈ e.2.stack, q.tried = false) → u.launch k.launch = { l with retired := l.retired + 1 })
        ∧ (l.retired + 1 = Launch.count l → u.launch k.launch = {}))

/-- 17 R357, 20 R408, R409, 22 R426, R427, R435, 23 R451, R452: a thermal trip halts the clocks of a die, throttling never lifts the clock above its
ceiling, a gated cluster loses its trace and says so when it returns, a power fault and the loss of supply change the device's state, a corrected
error is counted and an uncorrectable one poisons its unit. A clock cycle, while no committed log is left to perform, counts one stall for every
resident group that has not issued in it and shortens every sleep (a spill holds its group for that one cycle: log [85], DESIGN CHOICE). Which units an error
poisons is the event's to say (log [109], DEDUCED). -/
def Obligations.DeviceEventsHappen : Prop :=
  ∀ s : State,
    (∀ die, ∃ u, exec (.thermalTrip die) s = .next u ∧ u.dev = .thermal ∧ MemorySame s u ∧ (∀ core, core / 96 = die → u.clocked core = false)
      ∧ u.groups = s.groups)
    ∧ (∀ khz, exec (.clockThrottle khz) s = .next { s with khz := Min.min khz (match s.power with | .cap k => Min.min k 1750000 | _ => 1750000) })
    ∧ (∀ c, let k := s.cluster c
        (c < 24 → k.gated = false → ∃ u, exec (.thermalGating c) s = .next u ∧ (u.cluster c).gated = true ∧ (u.cluster c).buf = []
          ∧ (u.cluster c).lost = k.lost + bufCount k.lastTime k.lastSync k.buf + k.dropped ∧ (∀ core, core / 8 = c → u.clocked core = false))
        ∧ (k.gated = true → ∃ u, exec (.clusterReturn c) s = .next u ∧ (u.cluster c).gated = false ∧ (u.cluster c).lost = 0
          ∧ (u.cluster c).buf = [⟨s.clusterCycles c, 0, 7, 1, leBytes 4 k.lost⟩, ⟨s.clusterCycles c, 0, 6, 0, []⟩]))
    ∧ exec .powerFault s = .next { s with dev := .powerFault }
    ∧ exec .supplyOff s = .next { s with dev := .off }
    ∧ exec .singleBitError s = .next { s with corrected := s.corrected + 1 }
    ∧ (∀ (l w e sp t : Nat) (c n : Nat), ∃ u1 u2 u3 u4 u5,
        exec (.uncorrectableError (.line l)) s = .next u1 ∧ l ∈ u1.poisLines ∧ u1.poisonUnits = s.poisonUnits + 1
        ∧ exec (.uncorrectableError (.scratchWord sp w)) s = .next u2 ∧ scrKey (s.space sp) (4 * w) / 4 ∈ u2.poisScr
        ∧ exec (.uncorrectableError (.tileWord sp t e)) s = .next u3 ∧ accKey (s.space sp) t (4 * e) / 4 ∈ u3.poisAcc
        ∧ exec (.uncorrectableError (.vname c n)) s = .next u4 ∧ (n < 256 → (u4.group c).vpois.getLsbD n = true)
        ∧ exec (.uncorrectableError (.sname c n)) s = .next u5 ∧ (n < 96 → (u5.group c).spois.getLsbD n = true)
        ∧ MemorySame s u1 ∧ MemorySame s u2 ∧ MemorySame s u3 ∧ MemorySame s u4 ∧ MemorySame s u5)
    ∧ ∃ u, exec .arithmeticClockCycle s = .next u ∧ u.now = s.now + 1 ∧ ((∀ e ∈ s.groups, e.2.replay = []) →
        ∀ c, let g := s.group c; let r := stallReason s c
          let next (p : Path) : Path := { p with stall := 0, sleep := if 1 < p.sleep then p.sleep - 1 else p.sleep }
          counts s c = true →
            (∀ n, get 0 (u.group c).stalls n = if n = r ∧ g.issuedNow s.now = false then get 0 g.stalls n + 1 else get 0 g.stalls n)
            ∧ (u.group c).moving = false ∧ (u.group c).stack = g.stack.map next ∧ (u.group c).saves = g.saves.map fun l => l.map next)

/-- 02 R37, R41, 09 R198, 10 R228, 17 R349: an eviction ends a cached copy and no memory changes; a text line arrives with what the text holds when its
parities pass, and else is not kept (log [55], DEDUCED); a full cache gives up a cold line before a hot one. A cold line that has no place waits, and its
extent is asked for. A recall writes a DIRTY stash line home and leaves it CLEAN, UNFILLED for a writer. A refused load, stash fill or
ownership of a stash line parks its group with its fault posted and stays in flight, marked as refused, where the group runs; a refused store or
write-back ends without effect, and its fault is posted and held for ST (log [68], DEDUCED); the refused fetch of a cold line parks its group.
20 R398, 23 R436, R438, 17 R351, R357: a remote store leaves its bytes in the memory of an object that is RESIDENT and may be stored to, or of the
partition's own memory (object 0: the model's form for what system software places before any object exists, log [53], DESIGN CHOICE), waits for an extent
that is not RESIDENT, and does nothing where it may not be made (log [108], DEDUCED); the management controller stores through a window only (log [107],
DEDUCED); a second agent that writes a command ring stops the model (log [121], DESIGN CHOICE). The oldest posting is written to the fault ring when
it has room, and TAIL passes its records. -/
def Obligations.CachesRecallsAndRingsMove : Prop :=
  (∀ s : State,
    (∀ core line, ∃ u, exec (.cacheEviction (.l1 core line)) s = .next u ∧ MemorySame s u ∧ ∀ x, x ∈ u.l1 ↔ x ∈ s.l1 ∧ ¬(x.core = core ∧ x.line = line))
    ∧ (∀ line world, exec (.cacheEviction (.view line world)) s = .next s)
    ∧ (∀ core code line, ∃ u, exec (.cacheEviction (.text core code line)) s = .next u ∧ MemorySame s u
        ∧ ∀ x, x ∈ u.icache ↔ x ∈ s.icache ∧ ¬(x.core = core ∧ x.code = code ∧ x.line = line))
    ∧ (∀ core code line, let bits := s.textLine code line; let c := s.code code
        s.clocked core = true → 64 * (line + 1) ≤ c.size → (∀ x ∈ s.icache, ¬(x.core = core ∧ x.code = code ∧ x.line = line)) →
        (c.hot ≤ 64 * line → s.coldPlaced c line = false → ∃ u, exec (.icacheLineFill core code line) s = .next u ∧ MemorySame s u ∧ u.icache = s.icache)
        ∧ (64 * line < c.hot ∨ s.coldPlaced c line = true →
          (lineParityOk bits = false → exec (.icacheLineFill core code line) s = .next s)
          ∧ (lineParityOk bits = true → ∃ u, exec (.icacheLineFill core code line) s = .next u ∧ MemorySame s u
            ∧ ⟨core, code, line, bits⟩ ∈ u.icache ∧ (∀ x ∈ u.icache, x = ⟨core, code, line, bits⟩ ∨ x ∈ s.icache)
            ∧ (∀ x ∈ s.icache, x.core ≠ core ∨ (s.icache.filter (·.core == core)).length < 1024 → x ∈ u.icache)
            ∧ (∀ x ∈ s.icache, x ∉ u.icache → 64 * x.line < (s.code x.code).hot →
                ∀ y ∈ u.icache, y.core = core → y = ⟨core, code, line, bits⟩ ∨ 64 * y.line < (s.code y.code).hot)
            ∧ (u.icache.filter (·.core == core)).length ≤ 1024)))
    ∧ (∀ ctx line (write : Bool) (x : Stash) base, let g := s.group ctx; let r : Rec := ⟨x.recw⟩; let off := r.base + x.m + 64 * line
        let from_ := scrKey (s.space g.space) ((x.wline + line) * 64)
        g.stash = some x → line < x.lines0 → get LineSt.unfilled x.lines line = .dirty → g.world = 0 → s.views = [] →
        (∀ i < 64, ∃ p, translate (s.part g.part) r.obj (off + i) 1 = .ok (.resident, p)) →
        (∀ i < 64, placeOf (s.part g.part) r.obj (off + i) = some ⟨false, base + i⟩) →
        ∃ u, exec (.directoryRecall ctx line write) s = .next u ∧ rdBytes u.hbm base 64 = rdBytes s.scr from_ 64 ∧ u.scr = s.scr
          ∧ (∀ a, a < base ∨ base + 64 ≤ a → rdByte u.hbm a = rdByte s.hbm a)
          ∧ ∃ y, (u.group ctx).stash = some y ∧ get LineSt.unfilled y.lines line = (if write then .unfilled else .clean))
    ∧ (∀ ctx n (o : Op), let g := s.group ctx; let host (obj : Nat) : Bool := ((s.part g.part).obj obj).host
        n ≠ 0 → (g.ops.find? fun o => o.id == n && !o.done && !o.parked && !o.refused
          && (o.place == .dev || (o.place == .stash && o.accs.any (s.asks ctx o))) && o.accs.any fun a => !a.clipped && host a.obj) = some o →
        o.kind ≠ .pref →
        let now := Op.returns o = true ∨ (o.place = .stash ∧ o.kind ≠ .swb)
        let recs (rs : List TrapRec) : Prop := rs ≠ [] ∧ ∀ x ∈ rs, x.pc = o.pc ∧ (x.kind = 32 ∨ (x.kind = 18 ∧ x.cause = 4))
        (¬now → ∃ (u : State) (r : TrapRec) (rs : List TrapRec), exec (.apertureRefusal ctx n) s = .next u ∧ MemorySame s u ∧ r.kind = 18 ∧ r.cause = 4
          ∧ r.pc = o.pc ∧ recs rs ∧ (u.part g.part).posts = (s.part g.part).posts ++ [(none, rs)]
          ∧ (u.group ctx).held = g.held ++ [{ cls := .st, trec := r }] ∧ (∀ x ∈ (u.group ctx).ops, x ∈ g.ops ∨ x.done = true))
        ∧ (now → g.status = .run → g.saved = false → ∃ (u : State) (r : TrapRec) (rs : List TrapRec), exec (.apertureRefusal ctx n) s = .next u
          ∧ MemorySame s u ∧ r.kind = 18 ∧ r.cause = 4 ∧ r.pc = o.pc ∧ recs rs ∧ (u.part g.part).posts = (s.part g.part).posts ++ [(some ctx, rs)]
          ∧ (u.group ctx).status = .faultPark ∧ (u.group ctx).held = g.held
          ∧ (u.group ctx).ops = g.ops.map (fun x => if x.id == o.id then { x with refused := true } else x)
          ∧ (u.group ctx).parkRec.any (·.2 == r) = true)
        ∧ (now → g.status ≠ .retired → g.status ≠ .run ∨ g.saved = true → exec (.apertureRefusal ctx n) s = .next s))
    ∧ ∀ ctx, let g := s.group ctx; let c := s.code g.code; let p := g.path 0; let line := lineOfPc p.pc
        canIssue s ctx 0 = true → (g.path 1).stall ≠ 11 ∨ p.stall = 11 → c.hot ≤ 64 * line → 64 * (line + 1) ≤ c.size →
        (∀ x ∈ s.icache, ¬(x.core = g.core ∧ x.code = g.code ∧ x.line = line)) →
        s.coldPlaced c line = true ∨ (s.part c.part).holds (handle c.coldObj (64 * line - c.hot)) 64 = false →
        ∃ (u : State) (rs : List TrapRec), exec (.apertureRefusal ctx 0) s = .next u ∧ MemorySame s u ∧ (u.group ctx).status = .faultPark
          ∧ (u.part g.part).posts = (s.part g.part).posts ++ [(some ctx, rs)] ∧ (∀ r ∈ rs, r.kind = 18 ∧ r.cause = 4))
  ∧ ((∀ (s : State) (p agent obj off base : Nat) (bytes : List Byte),
    (s.storePlaces p obj off bytes.length = none → exec (.remoteStore p agent obj off bytes) s = .next s)
    ∧ ∀ ps, s.storePlaces p obj off bytes.length = some ps →
      let qs := (ps.filterMap fun x => if x.remote then none else (s.part p).ringOf x.addr).eraseDups
      let may := (agent = controller → obj ≠ 0) ∧ (s.part p).mayStore agent obj off bytes.length = true
      let waits := ((s.part p).rangeStates obj off bytes.length).any (·.1 != .resident) = true
      (¬may → exec (.remoteStore p agent obj off bytes) s = .next s)
      ∧ (may → (s.part p).ringClash agent qs = true → exec (.remoteStore p agent obj off bytes) s = .fault .twoRingWriters)
      ∧ (may → (s.part p).ringClash agent qs = false → obj < 2 ^ 24 → off < 2 ^ 40 →
        (obj ≠ 0 → waits → ∃ u, exec (.remoteStore p agent obj off bytes) s = .next u ∧ MemorySame s u
          ∧ (u.part p).heldWrites = (s.part p).heldWrites ++ [(obj, off, bytes)])
        ∧ (obj = 0 ∨ ¬waits → ps = (List.range bytes.length).map (fun i => (⟨false, base + i⟩ : Place)) → s.views = [] →
            (∀ e ∈ s.groups, e.2.stash = none) →
          ∃ u, exec (.remoteStore p agent obj off bytes) s = .next u ∧ rdBytes u.hbm base bytes.length = bytes
            ∧ (∀ a, a < base ∨ base + bytes.length ≤ a → rdByte u.hbm a = rdByte s.hbm a) ∧ u.remote = s.remote ∧ u.scr = s.scr ∧ u.acc = s.acc
            ∧ ∀ q ∈ qs, (u.queue p q).writer = some agent ∧ ((s.part p).tailIn q ps = true → (u.queue p q).overTail = none))))
  ∧ ∀ (s : State) (p : Nat) (park : Option Nat) (rs : List TrapRec) (rest : List (Option Nat × List TrapRec)), let x := s.part p
    (x.posts = [] → exec (.faultRingPosting p) s = .next s)
    ∧ (x.posts = (park, rs) :: rest → x.frlog = 0 ∨ s.ringFree p < rs.length → exec (.faultRingPosting p) s = .next s)
    ∧ (x.posts = (park, rs) :: rest → x.frlog ≠ 0 → rs.length ≤ s.ringFree p → ∃ u, exec (.faultRingPosting p) s = .next u
      ∧ (u.part p).posts = rest ∧ (u.part p).frTail = x.frTail + BitVec.ofNat 32 rs.length
      ∧ rdN u.hbm (x.frbase + 4) 4 = (u.part p).frTail.toNat ∧ rdN u.hbm x.frbase 4 = rdN s.hbm x.frbase 4
      ∧ ∀ r, rs = [r] → rdBytes u.hbm (x.frbase + 64 + 32 * (x.frTail.toNat % 2 ^ x.frlog)) 32 = r.bytes))
end

