-- ==== Sys2Proof/Laws/Map.lean ====
section
/-! SUPPORT. Laws/Map.lean: reading after writing a sparse table, its canonical form, and bytes of memory. -/

namespace Sys2Proof.Machine

variable {α : Type} {d : α} {m : SMap α}

/-! ### Reading after removing and inserting -/

@[simp] theorem get_nil (i : Nat) : get d [] i = d := rfl

theorem get_del_same (m : SMap α) (i : Nat) : get d (del m i) i = d := by
  induction m with
  | nil => rfl
  | cons e r ih =>
    obtain ⟨k, v⟩ := e
    by_cases h : k = i <;> simp [del, get, h, ih]

theorem get_del_ne (m : SMap α) {i j : Nat} (h : j ≠ i) : get d (del m i) j = get d m j := by
  induction m with
  | nil => rfl
  | cons e r ih =>
    obtain ⟨k, v⟩ := e
    by_cases hk : k = i
    · simp [del, get, hk, ih, Ne.symm h]
    · by_cases hj : k = j
      · subst hj
        simp [del, get, hk]
      · simp [del, get, hk, hj, ih]

theorem get_ins_same (m : SMap α) (i : Nat) (x : α) (h : ∀ e ∈ m, e.1 ≠ i) : get d (ins i x m) i = x := by
  induction m with
  | nil => simp [ins, get]
  | cons e r ih =>
    obtain ⟨k, v⟩ := e
    have hk : k ≠ i := h (k, v) (by simp)
    by_cases hl : i < k
    · simp [ins, hl, get]
    · simp [ins, hl, get, hk]
      exact ih fun e he => h e (by simp [he])

theorem get_ins_ne (m : SMap α) {i j : Nat} (x : α) (h : j ≠ i) : get d (ins i x m) j = get d m j := by
  induction m with
  | nil => simp [ins, get, Ne.symm h]
  | cons e r ih =>
    obtain ⟨k, v⟩ := e
    by_cases hl : i < k
    · simp [ins, hl, get, Ne.symm h]
    · by_cases hj : k = j
      · subst hj
        simp [ins, hl, get]
      · simp [ins, hl, get, hj, ih]

theorem del_keys (m : SMap α) (i : Nat) : ∀ e ∈ del m i, e.1 ≠ i := by
  induction m with
  | nil => simp [del]
  | cons e r ih =>
    obtain ⟨k, v⟩ := e
    by_cases hk : k = i
    · simpa [del, hk] using ih
    · intro x hx
      simp [del, hk] at hx
      rcases hx with rfl | hx
      · exact hk
      · exact ih x hx

variable [DecidableEq α]

/-- A read after a write to the same key gives the value written. -/
@[simp] theorem get_put_same (m : SMap α) (i : Nat) (x : α) : get d (put d m i x) i = x := by
  unfold put
  split
  · next h => rw [h, get_del_same]
  · exact get_ins_same _ _ _ (del_keys m i)

/-- A write leaves every other key alone. -/
theorem get_put_ne (m : SMap α) {i j : Nat} (x : α) (h : j ≠ i) : get d (put d m i x) j = get d m j := by
  unfold put
  split
  · exact get_del_ne m h
  · rw [get_ins_ne _ _ h, get_del_ne m h]

theorem get_put (m : SMap α) (i j : Nat) (x : α) : get d (put d m i x) j = if j = i then x else get d m j := by
  by_cases h : j = i
  · subst h; simp
  · simp [h, get_put_ne m x h]

/-! ### The canonical form -/

theorem wfFrom_weaken {lo : Nat} {o : Option Nat} (h : wfFrom d (some lo) m = true) (hl : ∀ k, o = some k → k ≤ lo) :
    wfFrom d o m = true := by
  cases m with
  | nil => rfl
  | cons e r =>
    obtain ⟨k, v⟩ := e
    simp only [wfFrom, Bool.and_eq_true, decide_eq_true_eq] at h ⊢
    refine ⟨⟨?_, h.1.2⟩, h.2⟩
    cases o with
    | none => rfl
    | some j => exact decide_eq_true (lt_of_le_of_lt (hl j rfl) h.1.1)

theorem wfFrom_del {o : Option Nat} (i : Nat) (h : wfFrom d o m = true) : wfFrom d o (del m i) = true := by
  induction m generalizing o with
  | nil => rfl
  | cons e r ih =>
    obtain ⟨k, v⟩ := e
    simp only [wfFrom, Bool.and_eq_true] at h
    by_cases hk : k = i
    · simp only [del, hk, if_true]
      refine ih (wfFrom_weaken h.2 ?_)
      intro j hj
      have h1 := h.1.1
      rw [hj] at h1
      exact le_of_lt (by simpa using h1)
    · simp only [del, hk, if_false, wfFrom, Bool.and_eq_true]
      exact ⟨h.1, ih h.2⟩

theorem wfFrom_ins {o : Option Nat} {i : Nat} {x : α} (h : wfFrom d o m = true) (hk : ∀ e ∈ m, e.1 ≠ i) (hx : x ≠ d)
    (ho : ∀ j, o = some j → j < i) : wfFrom d o (ins i x m) = true := by
  induction m generalizing o with
  | nil =>
    cases o with
    | none => simp [ins, wfFrom, hx]
    | some j => simp [ins, wfFrom, hx, ho j rfl]
  | cons e r ih =>
    obtain ⟨k, v⟩ := e
    simp only [wfFrom, Bool.and_eq_true] at h
    by_cases hl : i < k
    · simp only [ins, hl, if_true, wfFrom, Bool.and_eq_true]
      refine ⟨⟨?_, by simp [hx]⟩, ⟨by simp, h.1.2⟩, h.2⟩
      cases o with
      | none => rfl
      | some j => exact decide_eq_true (ho j rfl)
    · have hki : k < i := lt_of_le_of_ne (Nat.le_of_not_lt hl) (hk (k, v) (by simp))
      simp only [ins, hl, if_false, wfFrom, Bool.and_eq_true]
      refine ⟨h.1, ih h.2 (fun e he => hk e (by simp [he])) ?_⟩
      intro j hj
      cases hj
      exact hki

/-- A write keeps the canonical form. -/
theorem wf_put (m : SMap α) (i : Nat) (x : α) (h : wf d m = true) : wf d (put d m i x) = true := by
  unfold put
  split
  · exact wfFrom_del i h
  · next hx => exact wfFrom_ins (wfFrom_del i h) (del_keys m i) hx (by simp)

theorem wfFrom_filter {o : Option Nat} (p : Nat × α → Bool) (h : wfFrom d o m = true) : wfFrom d o (m.filter p) = true := by
  induction m generalizing o with
  | nil => rfl
  | cons e r ih =>
    obtain ⟨k, v⟩ := e
    simp only [wfFrom, Bool.and_eq_true] at h
    by_cases hp : p (k, v)
    · simp only [List.filter_cons, hp, if_true, wfFrom, Bool.and_eq_true]
      exact ⟨h.1, ih h.2⟩
    · simp only [List.filter_cons, hp]
      refine ih (wfFrom_weaken h.2 ?_)
      intro j hj
      have h1 := h.1.1
      rw [hj] at h1
      exact le_of_lt (by simpa using h1)

theorem wf_filter (p : Nat × α → Bool) (h : wf d m = true) : wf d (m.filter p) = true := wfFrom_filter p h

/-! ### Bytes -/

theorem rdByte_wrByte_same (m : SMap Byte) (a : Nat) (b : Byte) : rdByte (wrByte m a b) a = b := get_put_same m a b
theorem rdByte_wrByte_ne (m : SMap Byte) {a c : Nat} (b : Byte) (h : c ≠ a) : rdByte (wrByte m a b) c = rdByte m c :=
  get_put_ne m b h

theorem wf_wrByte (m : SMap Byte) (a : Nat) (b : Byte) (h : Memory.wf m = true) : Memory.wf (wrByte m a b) = true :=
  wf_put m a b h

theorem wf_wrN (n : Nat) (m : SMap Byte) (a x : Nat) (h : Memory.wf m = true) : Memory.wf (wrN m a n x) = true := by
  induction n generalizing m a x with
  | zero => exact h
  | succ n ih => exact ih _ _ _ (wf_wrByte m a _ h)

theorem wf_wrBytes (bs : List Byte) (m : SMap Byte) (a : Nat) (h : Memory.wf m = true) : Memory.wf (wrBytes m a bs) = true := by
  induction bs generalizing m a with
  | nil => exact h
  | cons b r ih => exact ih _ _ (wf_wrByte m a b h)

theorem wf_zeroN (m : SMap Byte) (a n : Nat) (h : Memory.wf m = true) : Memory.wf (zeroN m a n) = true := wf_filter _ h

/-- Bytes outside a written run read as before. -/
theorem rdByte_wrN_out (n : Nat) (m : SMap Byte) (a x c : Nat) (h : c < a ∨ a + n ≤ c) : rdByte (wrN m a n x) c = rdByte m c := by
  induction n generalizing m a x with
  | zero => rfl
  | succ n ih =>
    have h1 : c ≠ a := by omega
    rw [wrN, ih _ _ _ (by omega), rdByte_wrByte_ne _ _ h1]

theorem rdByte_wrBytes_out (bs : List Byte) (m : SMap Byte) (a c : Nat) (h : c < a ∨ a + bs.length ≤ c) :
    rdByte (wrBytes m a bs) c = rdByte m c := by
  induction bs generalizing m a with
  | nil => rfl
  | cons b r ih =>
    simp only [List.length_cons] at h
    have h1 : c ≠ a := by omega
    rw [wrBytes, ih _ _ (by omega), rdByte_wrByte_ne _ _ h1]

/-- A number written reads back, taken modulo the bytes written (09 R194). -/
theorem rdN_wrN (n : Nat) (m : SMap Byte) (a x : Nat) : rdN (wrN m a n x) a n = x % 256 ^ n := by
  induction n generalizing m a x with
  | zero => simp [rdN, Nat.mod_one]
  | succ n ih =>
    have h0 : rdByte (wrN (wrByte m a (BitVec.ofNat 8 x)) (a + 1) n (x / 256)) a = BitVec.ofNat 8 x := by
      rw [rdByte_wrN_out _ _ _ _ _ (by omega), rdByte_wrByte_same]
    have hp : 256 ^ (n + 1) = 256 * 256 ^ n := by rw [Nat.pow_succ, Nat.mul_comm]
    rw [wrN, rdN, h0, ih, BitVec.toNat_ofNat, hp, Nat.mod_mul]

end Sys2Proof.Machine
end

