-- ==== Sys2Proof/Laws/Commands.lean ====
section
/-! SUPPORT. Laws/Commands.lean: what a command event answers (23 R438 to R440). -/

namespace Sys2Proof.Machine

/-- A command event always answers a next state. -/
theorem runCmd_next (p q op act : Nat) (body : List Byte → State → Nat × Nat × State) (s : State) :
    ∃ t, runCmd p q op act body s = .next t := ⟨_, rfl⟩

/-- Nothing happens where no command stands at the head, or its turn has not come. -/
theorem runCmd_idle {p q op act : Nat} {body : List Byte → State → Nat × Nat × State} {s : State} (h : (s.queue p q).log = 0
    ∨ (s.queue p q).waiting s.hbm = 0 ∨ s.cmdWaits (s.queue p q) (fld ((s.queue p q).entry s.hbm) 0 1) = true) :
    runCmd p q op act body s = .next s := by
  unfold runCmd
  rcases h with h | h | h
  · simp [h]
  · simp [h]
  · simp [h]

/-- The command at the head runs its body and ends. -/
theorem runCmd_head {p q op act : Nat} {body : List Byte → State → Nat × Nat × State} {s : State} {b : List Byte}
    (h : CmdAtHead s p q op act b) : runCmd p q op act body s = .next ((body b s).2.2.ended p q b (body b s).1 (body b s).2.1) := by
  obtain ⟨h1, h2, rfl, h4, h5, h6, h7⟩ := h
  unfold runCmd State.ended
  rw [h6] at h4
  simp [h1, h2, h4, h5, h6, h7]

end Sys2Proof.Machine
end

