-- ==== Sys2Proof/Laws/State.lean ====
section
/-! SUPPORT. Laws/State.lean: one lemma for each field under each update of the state and of a group. -/

namespace Sys2Proof.Machine

/-! ### Entries of the tables after an update -/

@[simp] theorem State.setGroup_same (s : State) (n : Nat) (x : Group) : (s.setGroup n x).group n = x := get_put_same _ _ _
theorem State.setGroup_ne (s : State) {n m : Nat} (x : Group) (h : m ≠ n) : (s.setGroup n x).group m = s.group m := get_put_ne _ _ h
@[simp] theorem State.setBlock_same (s : State) (n : Nat) (x : Block) : (s.setBlock n x).block n = x := get_put_same _ _ _
theorem State.setBlock_ne (s : State) {n m : Nat} (x : Block) (h : m ≠ n) : (s.setBlock n x).block m = s.block m := get_put_ne _ _ h
@[simp] theorem State.setSpace_same (s : State) (n : Nat) (x : Space) : (s.setSpace n x).space n = x := get_put_same _ _ _
theorem State.setSpace_ne (s : State) {n m : Nat} (x : Space) (h : m ≠ n) : (s.setSpace n x).space m = s.space m := get_put_ne _ _ h
@[simp] theorem State.setLaunch_same (s : State) (n : Nat) (x : Launch) : (s.setLaunch n x).launch n = x := get_put_same _ _ _
theorem State.setLaunch_ne (s : State) {n m : Nat} (x : Launch) (h : m ≠ n) : (s.setLaunch n x).launch m = s.launch m := get_put_ne _ _ h
@[simp] theorem State.setCode_same (s : State) (n : Nat) (x : Code) : (s.setCode n x).code n = x := get_put_same _ _ _
theorem State.setCode_ne (s : State) {n m : Nat} (x : Code) (h : m ≠ n) : (s.setCode n x).code m = s.code m := get_put_ne _ _ h
@[simp] theorem State.setPart_same (s : State) (n : Nat) (x : Part) : (s.setPart n x).part n = x := get_put_same _ _ _
theorem State.setPart_ne (s : State) {n m : Nat} (x : Part) (h : m ≠ n) : (s.setPart n x).part m = s.part m := get_put_ne _ _ h
@[simp] theorem State.setCore_same (s : State) (n : Nat) (x : Core) : (s.setCore n x).core n = x := get_put_same _ _ _
theorem State.setCore_ne (s : State) {n m : Nat} (x : Core) (h : m ≠ n) : (s.setCore n x).core m = s.core m := get_put_ne _ _ h
@[simp] theorem State.setTile_same (s : State) (n : Nat) (x : Tile) : (s.setTile n x).tile n = x := get_put_same _ _ _
theorem State.setTile_ne (s : State) {n m : Nat} (x : Tile) (h : m ≠ n) : (s.setTile n x).tile m = s.tile m := get_put_ne _ _ h
@[simp] theorem State.setCluster_same (s : State) (n : Nat) (x : Cluster) : (s.setCluster n x).cluster n = x := get_put_same _ _ _
theorem State.setCluster_ne (s : State) {n m : Nat} (x : Cluster) (h : m ≠ n) : (s.setCluster n x).cluster m = s.cluster m := get_put_ne _ _ h
@[simp] theorem State.setFork_same (s : State) (n : Nat) (x : Fork) : (s.setFork n x).fork n = x := get_put_same _ _ _
theorem State.setFork_ne (s : State) {n m : Nat} (x : Fork) (h : m ≠ n) : (s.setFork n x).fork m = s.fork m := get_put_ne _ _ h

/-! ### Under `setGroup` -/

@[simp] theorem State.setGroup_agenda (s : State) (n : Nat) (x : Group) : (s.setGroup n x).agenda = s.agenda := rfl
@[simp] theorem State.setGroup_cur (s : State) (n : Nat) (x : Group) : (s.setGroup n x).cur = s.cur := rfl
@[simp] theorem State.setGroup_fresh (s : State) (n : Nat) (x : Group) : (s.setGroup n x).fresh = s.fresh := rfl
@[simp] theorem State.setGroup_now (s : State) (n : Nat) (x : Group) : (s.setGroup n x).now = s.now := rfl
@[simp] theorem State.setGroup_npart (s : State) (n : Nat) (x : Group) : (s.setGroup n x).npart = s.npart := rfl
@[simp] theorem State.setGroup_dev (s : State) (n : Nat) (x : Group) : (s.setGroup n x).dev = s.dev := rfl
@[simp] theorem State.setGroup_halted (s : State) (n : Nat) (x : Group) : (s.setGroup n x).halted = s.halted := rfl
@[simp] theorem State.setGroup_image (s : State) (n : Nat) (x : Group) : (s.setGroup n x).image = s.image := rfl
@[simp] theorem State.setGroup_svn (s : State) (n : Nat) (x : Group) : (s.setGroup n x).svn = s.svn := rfl
@[simp] theorem State.setGroup_minSvn (s : State) (n : Nat) (x : Group) : (s.setGroup n x).minSvn = s.minSvn := rfl
@[simp] theorem State.setGroup_fwDigest (s : State) (n : Nat) (x : Group) : (s.setGroup n x).fwDigest = s.fwDigest := rfl
@[simp] theorem State.setGroup_corrected (s : State) (n : Nat) (x : Group) : (s.setGroup n x).corrected = s.corrected := rfl
@[simp] theorem State.setGroup_poisonUnits (s : State) (n : Nat) (x : Group) : (s.setGroup n x).poisonUnits = s.poisonUnits := rfl
@[simp] theorem State.setGroup_khz (s : State) (n : Nat) (x : Group) : (s.setGroup n x).khz = s.khz := rfl
@[simp] theorem State.setGroup_power (s : State) (n : Nat) (x : Group) : (s.setGroup n x).power = s.power := rfl
@[simp] theorem State.setGroup_hbm (s : State) (n : Nat) (x : Group) : (s.setGroup n x).hbm = s.hbm := rfl
@[simp] theorem State.setGroup_remote (s : State) (n : Nat) (x : Group) : (s.setGroup n x).remote = s.remote := rfl
@[simp] theorem State.setGroup_scr (s : State) (n : Nat) (x : Group) : (s.setGroup n x).scr = s.scr := rfl
@[simp] theorem State.setGroup_acc (s : State) (n : Nat) (x : Group) : (s.setGroup n x).acc = s.acc := rfl
@[simp] theorem State.setGroup_l1 (s : State) (n : Nat) (x : Group) : (s.setGroup n x).l1 = s.l1 := rfl
@[simp] theorem State.setGroup_icache (s : State) (n : Nat) (x : Group) : (s.setGroup n x).icache = s.icache := rfl
@[simp] theorem State.setGroup_sc (s : State) (n : Nat) (x : Group) : (s.setGroup n x).sc = s.sc := rfl
@[simp] theorem State.setGroup_poisLines (s : State) (n : Nat) (x : Group) : (s.setGroup n x).poisLines = s.poisLines := rfl
@[simp] theorem State.setGroup_poisScr (s : State) (n : Nat) (x : Group) : (s.setGroup n x).poisScr = s.poisScr := rfl
@[simp] theorem State.setGroup_poisAcc (s : State) (n : Nat) (x : Group) : (s.setGroup n x).poisAcc = s.poisAcc := rfl
@[simp] theorem State.setGroup_cores (s : State) (n : Nat) (x : Group) : (s.setGroup n x).cores = s.cores := rfl
@[simp] theorem State.setGroup_tiles (s : State) (n : Nat) (x : Group) : (s.setGroup n x).tiles = s.tiles := rfl
@[simp] theorem State.setGroup_clusters (s : State) (n : Nat) (x : Group) : (s.setGroup n x).clusters = s.clusters := rfl
@[simp] theorem State.setGroup_parts (s : State) (n : Nat) (x : Group) : (s.setGroup n x).parts = s.parts := rfl
@[simp] theorem State.setGroup_blocks (s : State) (n : Nat) (x : Group) : (s.setGroup n x).blocks = s.blocks := rfl
@[simp] theorem State.setGroup_spaces (s : State) (n : Nat) (x : Group) : (s.setGroup n x).spaces = s.spaces := rfl
@[simp] theorem State.setGroup_launches (s : State) (n : Nat) (x : Group) : (s.setGroup n x).launches = s.launches := rfl
@[simp] theorem State.setGroup_codes (s : State) (n : Nat) (x : Group) : (s.setGroup n x).codes = s.codes := rfl
@[simp] theorem State.setGroup_forks (s : State) (n : Nat) (x : Group) : (s.setGroup n x).forks = s.forks := rfl
@[simp] theorem State.setGroup_views (s : State) (n : Nat) (x : Group) : (s.setGroup n x).views = s.views := rfl
@[simp] theorem State.setGroup_links (s : State) (n : Nat) (x : Group) : (s.setGroup n x).links = s.links := rfl
@[simp] theorem State.setGroup_dropped (s : State) (n : Nat) (x : Group) : (s.setGroup n x).dropped = s.dropped := rfl
@[simp] theorem State.setGroup_migrated (s : State) (n : Nat) (x : Group) : (s.setGroup n x).migrated = s.migrated := rfl
@[simp] theorem State.setGroup_reply (s : State) (n : Nat) (x : Group) : (s.setGroup n x).reply = s.reply := rfl
@[simp] theorem State.setGroup_replyCode (s : State) (n : Nat) (x : Group) : (s.setGroup n x).replyCode = s.replyCode := rfl
@[simp] theorem State.setGroup_on_block (s : State) (n m : Nat) (x : Group) : (s.setGroup n x).block m = s.block m := rfl
@[simp] theorem State.setGroup_on_space (s : State) (n m : Nat) (x : Group) : (s.setGroup n x).space m = s.space m := rfl
@[simp] theorem State.setGroup_on_launch (s : State) (n m : Nat) (x : Group) : (s.setGroup n x).launch m = s.launch m := rfl
@[simp] theorem State.setGroup_on_code (s : State) (n m : Nat) (x : Group) : (s.setGroup n x).code m = s.code m := rfl
@[simp] theorem State.setGroup_on_part (s : State) (n m : Nat) (x : Group) : (s.setGroup n x).part m = s.part m := rfl
@[simp] theorem State.setGroup_on_core (s : State) (n m : Nat) (x : Group) : (s.setGroup n x).core m = s.core m := rfl
@[simp] theorem State.setGroup_on_tile (s : State) (n m : Nat) (x : Group) : (s.setGroup n x).tile m = s.tile m := rfl
@[simp] theorem State.setGroup_on_cluster (s : State) (n m : Nat) (x : Group) : (s.setGroup n x).cluster m = s.cluster m := rfl
@[simp] theorem State.setGroup_on_fork (s : State) (n m : Nat) (x : Group) : (s.setGroup n x).fork m = s.fork m := rfl

/-! ### Under `setBlock` -/

@[simp] theorem State.setBlock_agenda (s : State) (n : Nat) (x : Block) : (s.setBlock n x).agenda = s.agenda := rfl
@[simp] theorem State.setBlock_cur (s : State) (n : Nat) (x : Block) : (s.setBlock n x).cur = s.cur := rfl
@[simp] theorem State.setBlock_fresh (s : State) (n : Nat) (x : Block) : (s.setBlock n x).fresh = s.fresh := rfl
@[simp] theorem State.setBlock_now (s : State) (n : Nat) (x : Block) : (s.setBlock n x).now = s.now := rfl
@[simp] theorem State.setBlock_npart (s : State) (n : Nat) (x : Block) : (s.setBlock n x).npart = s.npart := rfl
@[simp] theorem State.setBlock_dev (s : State) (n : Nat) (x : Block) : (s.setBlock n x).dev = s.dev := rfl
@[simp] theorem State.setBlock_halted (s : State) (n : Nat) (x : Block) : (s.setBlock n x).halted = s.halted := rfl
@[simp] theorem State.setBlock_image (s : State) (n : Nat) (x : Block) : (s.setBlock n x).image = s.image := rfl
@[simp] theorem State.setBlock_svn (s : State) (n : Nat) (x : Block) : (s.setBlock n x).svn = s.svn := rfl
@[simp] theorem State.setBlock_minSvn (s : State) (n : Nat) (x : Block) : (s.setBlock n x).minSvn = s.minSvn := rfl
@[simp] theorem State.setBlock_fwDigest (s : State) (n : Nat) (x : Block) : (s.setBlock n x).fwDigest = s.fwDigest := rfl
@[simp] theorem State.setBlock_corrected (s : State) (n : Nat) (x : Block) : (s.setBlock n x).corrected = s.corrected := rfl
@[simp] theorem State.setBlock_poisonUnits (s : State) (n : Nat) (x : Block) : (s.setBlock n x).poisonUnits = s.poisonUnits := rfl
@[simp] theorem State.setBlock_khz (s : State) (n : Nat) (x : Block) : (s.setBlock n x).khz = s.khz := rfl
@[simp] theorem State.setBlock_power (s : State) (n : Nat) (x : Block) : (s.setBlock n x).power = s.power := rfl
@[simp] theorem State.setBlock_hbm (s : State) (n : Nat) (x : Block) : (s.setBlock n x).hbm = s.hbm := rfl
@[simp] theorem State.setBlock_remote (s : State) (n : Nat) (x : Block) : (s.setBlock n x).remote = s.remote := rfl
@[simp] theorem State.setBlock_scr (s : State) (n : Nat) (x : Block) : (s.setBlock n x).scr = s.scr := rfl
@[simp] theorem State.setBlock_acc (s : State) (n : Nat) (x : Block) : (s.setBlock n x).acc = s.acc := rfl
@[simp] theorem State.setBlock_l1 (s : State) (n : Nat) (x : Block) : (s.setBlock n x).l1 = s.l1 := rfl
@[simp] theorem State.setBlock_icache (s : State) (n : Nat) (x : Block) : (s.setBlock n x).icache = s.icache := rfl
@[simp] theorem State.setBlock_sc (s : State) (n : Nat) (x : Block) : (s.setBlock n x).sc = s.sc := rfl
@[simp] theorem State.setBlock_poisLines (s : State) (n : Nat) (x : Block) : (s.setBlock n x).poisLines = s.poisLines := rfl
@[simp] theorem State.setBlock_poisScr (s : State) (n : Nat) (x : Block) : (s.setBlock n x).poisScr = s.poisScr := rfl
@[simp] theorem State.setBlock_poisAcc (s : State) (n : Nat) (x : Block) : (s.setBlock n x).poisAcc = s.poisAcc := rfl
@[simp] theorem State.setBlock_cores (s : State) (n : Nat) (x : Block) : (s.setBlock n x).cores = s.cores := rfl
@[simp] theorem State.setBlock_tiles (s : State) (n : Nat) (x : Block) : (s.setBlock n x).tiles = s.tiles := rfl
@[simp] theorem State.setBlock_clusters (s : State) (n : Nat) (x : Block) : (s.setBlock n x).clusters = s.clusters := rfl
@[simp] theorem State.setBlock_parts (s : State) (n : Nat) (x : Block) : (s.setBlock n x).parts = s.parts := rfl
@[simp] theorem State.setBlock_groups (s : State) (n : Nat) (x : Block) : (s.setBlock n x).groups = s.groups := rfl
@[simp] theorem State.setBlock_spaces (s : State) (n : Nat) (x : Block) : (s.setBlock n x).spaces = s.spaces := rfl
@[simp] theorem State.setBlock_launches (s : State) (n : Nat) (x : Block) : (s.setBlock n x).launches = s.launches := rfl
@[simp] theorem State.setBlock_codes (s : State) (n : Nat) (x : Block) : (s.setBlock n x).codes = s.codes := rfl
@[simp] theorem State.setBlock_forks (s : State) (n : Nat) (x : Block) : (s.setBlock n x).forks = s.forks := rfl
@[simp] theorem State.setBlock_views (s : State) (n : Nat) (x : Block) : (s.setBlock n x).views = s.views := rfl
@[simp] theorem State.setBlock_links (s : State) (n : Nat) (x : Block) : (s.setBlock n x).links = s.links := rfl
@[simp] theorem State.setBlock_dropped (s : State) (n : Nat) (x : Block) : (s.setBlock n x).dropped = s.dropped := rfl
@[simp] theorem State.setBlock_migrated (s : State) (n : Nat) (x : Block) : (s.setBlock n x).migrated = s.migrated := rfl
@[simp] theorem State.setBlock_reply (s : State) (n : Nat) (x : Block) : (s.setBlock n x).reply = s.reply := rfl
@[simp] theorem State.setBlock_replyCode (s : State) (n : Nat) (x : Block) : (s.setBlock n x).replyCode = s.replyCode := rfl
@[simp] theorem State.setBlock_on_group (s : State) (n m : Nat) (x : Block) : (s.setBlock n x).group m = s.group m := rfl
@[simp] theorem State.setBlock_on_space (s : State) (n m : Nat) (x : Block) : (s.setBlock n x).space m = s.space m := rfl
@[simp] theorem State.setBlock_on_launch (s : State) (n m : Nat) (x : Block) : (s.setBlock n x).launch m = s.launch m := rfl
@[simp] theorem State.setBlock_on_code (s : State) (n m : Nat) (x : Block) : (s.setBlock n x).code m = s.code m := rfl
@[simp] theorem State.setBlock_on_part (s : State) (n m : Nat) (x : Block) : (s.setBlock n x).part m = s.part m := rfl
@[simp] theorem State.setBlock_on_core (s : State) (n m : Nat) (x : Block) : (s.setBlock n x).core m = s.core m := rfl
@[simp] theorem State.setBlock_on_tile (s : State) (n m : Nat) (x : Block) : (s.setBlock n x).tile m = s.tile m := rfl
@[simp] theorem State.setBlock_on_cluster (s : State) (n m : Nat) (x : Block) : (s.setBlock n x).cluster m = s.cluster m := rfl
@[simp] theorem State.setBlock_on_fork (s : State) (n m : Nat) (x : Block) : (s.setBlock n x).fork m = s.fork m := rfl

/-! ### Under `setSpace` -/

@[simp] theorem State.setSpace_agenda (s : State) (n : Nat) (x : Space) : (s.setSpace n x).agenda = s.agenda := rfl
@[simp] theorem State.setSpace_cur (s : State) (n : Nat) (x : Space) : (s.setSpace n x).cur = s.cur := rfl
@[simp] theorem State.setSpace_fresh (s : State) (n : Nat) (x : Space) : (s.setSpace n x).fresh = s.fresh := rfl
@[simp] theorem State.setSpace_now (s : State) (n : Nat) (x : Space) : (s.setSpace n x).now = s.now := rfl
@[simp] theorem State.setSpace_npart (s : State) (n : Nat) (x : Space) : (s.setSpace n x).npart = s.npart := rfl
@[simp] theorem State.setSpace_dev (s : State) (n : Nat) (x : Space) : (s.setSpace n x).dev = s.dev := rfl
@[simp] theorem State.setSpace_halted (s : State) (n : Nat) (x : Space) : (s.setSpace n x).halted = s.halted := rfl
@[simp] theorem State.setSpace_image (s : State) (n : Nat) (x : Space) : (s.setSpace n x).image = s.image := rfl
@[simp] theorem State.setSpace_svn (s : State) (n : Nat) (x : Space) : (s.setSpace n x).svn = s.svn := rfl
@[simp] theorem State.setSpace_minSvn (s : State) (n : Nat) (x : Space) : (s.setSpace n x).minSvn = s.minSvn := rfl
@[simp] theorem State.setSpace_fwDigest (s : State) (n : Nat) (x : Space) : (s.setSpace n x).fwDigest = s.fwDigest := rfl
@[simp] theorem State.setSpace_corrected (s : State) (n : Nat) (x : Space) : (s.setSpace n x).corrected = s.corrected := rfl
@[simp] theorem State.setSpace_poisonUnits (s : State) (n : Nat) (x : Space) : (s.setSpace n x).poisonUnits = s.poisonUnits := rfl
@[simp] theorem State.setSpace_khz (s : State) (n : Nat) (x : Space) : (s.setSpace n x).khz = s.khz := rfl
@[simp] theorem State.setSpace_power (s : State) (n : Nat) (x : Space) : (s.setSpace n x).power = s.power := rfl
@[simp] theorem State.setSpace_hbm (s : State) (n : Nat) (x : Space) : (s.setSpace n x).hbm = s.hbm := rfl
@[simp] theorem State.setSpace_remote (s : State) (n : Nat) (x : Space) : (s.setSpace n x).remote = s.remote := rfl
@[simp] theorem State.setSpace_scr (s : State) (n : Nat) (x : Space) : (s.setSpace n x).scr = s.scr := rfl
@[simp] theorem State.setSpace_acc (s : State) (n : Nat) (x : Space) : (s.setSpace n x).acc = s.acc := rfl
@[simp] theorem State.setSpace_l1 (s : State) (n : Nat) (x : Space) : (s.setSpace n x).l1 = s.l1 := rfl
@[simp] theorem State.setSpace_icache (s : State) (n : Nat) (x : Space) : (s.setSpace n x).icache = s.icache := rfl
@[simp] theorem State.setSpace_sc (s : State) (n : Nat) (x : Space) : (s.setSpace n x).sc = s.sc := rfl
@[simp] theorem State.setSpace_poisLines (s : State) (n : Nat) (x : Space) : (s.setSpace n x).poisLines = s.poisLines := rfl
@[simp] theorem State.setSpace_poisScr (s : State) (n : Nat) (x : Space) : (s.setSpace n x).poisScr = s.poisScr := rfl
@[simp] theorem State.setSpace_poisAcc (s : State) (n : Nat) (x : Space) : (s.setSpace n x).poisAcc = s.poisAcc := rfl
@[simp] theorem State.setSpace_cores (s : State) (n : Nat) (x : Space) : (s.setSpace n x).cores = s.cores := rfl
@[simp] theorem State.setSpace_tiles (s : State) (n : Nat) (x : Space) : (s.setSpace n x).tiles = s.tiles := rfl
@[simp] theorem State.setSpace_clusters (s : State) (n : Nat) (x : Space) : (s.setSpace n x).clusters = s.clusters := rfl
@[simp] theorem State.setSpace_parts (s : State) (n : Nat) (x : Space) : (s.setSpace n x).parts = s.parts := rfl
@[simp] theorem State.setSpace_groups (s : State) (n : Nat) (x : Space) : (s.setSpace n x).groups = s.groups := rfl
@[simp] theorem State.setSpace_blocks (s : State) (n : Nat) (x : Space) : (s.setSpace n x).blocks = s.blocks := rfl
@[simp] theorem State.setSpace_launches (s : State) (n : Nat) (x : Space) : (s.setSpace n x).launches = s.launches := rfl
@[simp] theorem State.setSpace_codes (s : State) (n : Nat) (x : Space) : (s.setSpace n x).codes = s.codes := rfl
@[simp] theorem State.setSpace_forks (s : State) (n : Nat) (x : Space) : (s.setSpace n x).forks = s.forks := rfl
@[simp] theorem State.setSpace_views (s : State) (n : Nat) (x : Space) : (s.setSpace n x).views = s.views := rfl
@[simp] theorem State.setSpace_links (s : State) (n : Nat) (x : Space) : (s.setSpace n x).links = s.links := rfl
@[simp] theorem State.setSpace_dropped (s : State) (n : Nat) (x : Space) : (s.setSpace n x).dropped = s.dropped := rfl
@[simp] theorem State.setSpace_migrated (s : State) (n : Nat) (x : Space) : (s.setSpace n x).migrated = s.migrated := rfl
@[simp] theorem State.setSpace_reply (s : State) (n : Nat) (x : Space) : (s.setSpace n x).reply = s.reply := rfl
@[simp] theorem State.setSpace_replyCode (s : State) (n : Nat) (x : Space) : (s.setSpace n x).replyCode = s.replyCode := rfl
@[simp] theorem State.setSpace_on_group (s : State) (n m : Nat) (x : Space) : (s.setSpace n x).group m = s.group m := rfl
@[simp] theorem State.setSpace_on_block (s : State) (n m : Nat) (x : Space) : (s.setSpace n x).block m = s.block m := rfl
@[simp] theorem State.setSpace_on_launch (s : State) (n m : Nat) (x : Space) : (s.setSpace n x).launch m = s.launch m := rfl
@[simp] theorem State.setSpace_on_code (s : State) (n m : Nat) (x : Space) : (s.setSpace n x).code m = s.code m := rfl
@[simp] theorem State.setSpace_on_part (s : State) (n m : Nat) (x : Space) : (s.setSpace n x).part m = s.part m := rfl
@[simp] theorem State.setSpace_on_core (s : State) (n m : Nat) (x : Space) : (s.setSpace n x).core m = s.core m := rfl
@[simp] theorem State.setSpace_on_tile (s : State) (n m : Nat) (x : Space) : (s.setSpace n x).tile m = s.tile m := rfl
@[simp] theorem State.setSpace_on_cluster (s : State) (n m : Nat) (x : Space) : (s.setSpace n x).cluster m = s.cluster m := rfl
@[simp] theorem State.setSpace_on_fork (s : State) (n m : Nat) (x : Space) : (s.setSpace n x).fork m = s.fork m := rfl

/-! ### Under `setLaunch` -/

@[simp] theorem State.setLaunch_agenda (s : State) (n : Nat) (x : Launch) : (s.setLaunch n x).agenda = s.agenda := rfl
@[simp] theorem State.setLaunch_cur (s : State) (n : Nat) (x : Launch) : (s.setLaunch n x).cur = s.cur := rfl
@[simp] theorem State.setLaunch_fresh (s : State) (n : Nat) (x : Launch) : (s.setLaunch n x).fresh = s.fresh := rfl
@[simp] theorem State.setLaunch_now (s : State) (n : Nat) (x : Launch) : (s.setLaunch n x).now = s.now := rfl
@[simp] theorem State.setLaunch_npart (s : State) (n : Nat) (x : Launch) : (s.setLaunch n x).npart = s.npart := rfl
@[simp] theorem State.setLaunch_dev (s : State) (n : Nat) (x : Launch) : (s.setLaunch n x).dev = s.dev := rfl
@[simp] theorem State.setLaunch_halted (s : State) (n : Nat) (x : Launch) : (s.setLaunch n x).halted = s.halted := rfl
@[simp] theorem State.setLaunch_image (s : State) (n : Nat) (x : Launch) : (s.setLaunch n x).image = s.image := rfl
@[simp] theorem State.setLaunch_svn (s : State) (n : Nat) (x : Launch) : (s.setLaunch n x).svn = s.svn := rfl
@[simp] theorem State.setLaunch_minSvn (s : State) (n : Nat) (x : Launch) : (s.setLaunch n x).minSvn = s.minSvn := rfl
@[simp] theorem State.setLaunch_fwDigest (s : State) (n : Nat) (x : Launch) : (s.setLaunch n x).fwDigest = s.fwDigest := rfl
@[simp] theorem State.setLaunch_corrected (s : State) (n : Nat) (x : Launch) : (s.setLaunch n x).corrected = s.corrected := rfl
@[simp] theorem State.setLaunch_poisonUnits (s : State) (n : Nat) (x : Launch) : (s.setLaunch n x).poisonUnits = s.poisonUnits := rfl
@[simp] theorem State.setLaunch_khz (s : State) (n : Nat) (x : Launch) : (s.setLaunch n x).khz = s.khz := rfl
@[simp] theorem State.setLaunch_power (s : State) (n : Nat) (x : Launch) : (s.setLaunch n x).power = s.power := rfl
@[simp] theorem State.setLaunch_hbm (s : State) (n : Nat) (x : Launch) : (s.setLaunch n x).hbm = s.hbm := rfl
@[simp] theorem State.setLaunch_remote (s : State) (n : Nat) (x : Launch) : (s.setLaunch n x).remote = s.remote := rfl
@[simp] theorem State.setLaunch_scr (s : State) (n : Nat) (x : Launch) : (s.setLaunch n x).scr = s.scr := rfl
@[simp] theorem State.setLaunch_acc (s : State) (n : Nat) (x : Launch) : (s.setLaunch n x).acc = s.acc := rfl
@[simp] theorem State.setLaunch_l1 (s : State) (n : Nat) (x : Launch) : (s.setLaunch n x).l1 = s.l1 := rfl
@[simp] theorem State.setLaunch_icache (s : State) (n : Nat) (x : Launch) : (s.setLaunch n x).icache = s.icache := rfl
@[simp] theorem State.setLaunch_sc (s : State) (n : Nat) (x : Launch) : (s.setLaunch n x).sc = s.sc := rfl
@[simp] theorem State.setLaunch_poisLines (s : State) (n : Nat) (x : Launch) : (s.setLaunch n x).poisLines = s.poisLines := rfl
@[simp] theorem State.setLaunch_poisScr (s : State) (n : Nat) (x : Launch) : (s.setLaunch n x).poisScr = s.poisScr := rfl
@[simp] theorem State.setLaunch_poisAcc (s : State) (n : Nat) (x : Launch) : (s.setLaunch n x).poisAcc = s.poisAcc := rfl
@[simp] theorem State.setLaunch_cores (s : State) (n : Nat) (x : Launch) : (s.setLaunch n x).cores = s.cores := rfl
@[simp] theorem State.setLaunch_tiles (s : State) (n : Nat) (x : Launch) : (s.setLaunch n x).tiles = s.tiles := rfl
@[simp] theorem State.setLaunch_clusters (s : State) (n : Nat) (x : Launch) : (s.setLaunch n x).clusters = s.clusters := rfl
@[simp] theorem State.setLaunch_parts (s : State) (n : Nat) (x : Launch) : (s.setLaunch n x).parts = s.parts := rfl
@[simp] theorem State.setLaunch_groups (s : State) (n : Nat) (x : Launch) : (s.setLaunch n x).groups = s.groups := rfl
@[simp] theorem State.setLaunch_blocks (s : State) (n : Nat) (x : Launch) : (s.setLaunch n x).blocks = s.blocks := rfl
@[simp] theorem State.setLaunch_spaces (s : State) (n : Nat) (x : Launch) : (s.setLaunch n x).spaces = s.spaces := rfl
@[simp] theorem State.setLaunch_codes (s : State) (n : Nat) (x : Launch) : (s.setLaunch n x).codes = s.codes := rfl
@[simp] theorem State.setLaunch_forks (s : State) (n : Nat) (x : Launch) : (s.setLaunch n x).forks = s.forks := rfl
@[simp] theorem State.setLaunch_views (s : State) (n : Nat) (x : Launch) : (s.setLaunch n x).views = s.views := rfl
@[simp] theorem State.setLaunch_links (s : State) (n : Nat) (x : Launch) : (s.setLaunch n x).links = s.links := rfl
@[simp] theorem State.setLaunch_dropped (s : State) (n : Nat) (x : Launch) : (s.setLaunch n x).dropped = s.dropped := rfl
@[simp] theorem State.setLaunch_migrated (s : State) (n : Nat) (x : Launch) : (s.setLaunch n x).migrated = s.migrated := rfl
@[simp] theorem State.setLaunch_reply (s : State) (n : Nat) (x : Launch) : (s.setLaunch n x).reply = s.reply := rfl
@[simp] theorem State.setLaunch_replyCode (s : State) (n : Nat) (x : Launch) : (s.setLaunch n x).replyCode = s.replyCode := rfl
@[simp] theorem State.setLaunch_on_group (s : State) (n m : Nat) (x : Launch) : (s.setLaunch n x).group m = s.group m := rfl
@[simp] theorem State.setLaunch_on_block (s : State) (n m : Nat) (x : Launch) : (s.setLaunch n x).block m = s.block m := rfl
@[simp] theorem State.setLaunch_on_space (s : State) (n m : Nat) (x : Launch) : (s.setLaunch n x).space m = s.space m := rfl
@[simp] theorem State.setLaunch_on_code (s : State) (n m : Nat) (x : Launch) : (s.setLaunch n x).code m = s.code m := rfl
@[simp] theorem State.setLaunch_on_part (s : State) (n m : Nat) (x : Launch) : (s.setLaunch n x).part m = s.part m := rfl
@[simp] theorem State.setLaunch_on_core (s : State) (n m : Nat) (x : Launch) : (s.setLaunch n x).core m = s.core m := rfl
@[simp] theorem State.setLaunch_on_tile (s : State) (n m : Nat) (x : Launch) : (s.setLaunch n x).tile m = s.tile m := rfl
@[simp] theorem State.setLaunch_on_cluster (s : State) (n m : Nat) (x : Launch) : (s.setLaunch n x).cluster m = s.cluster m := rfl
@[simp] theorem State.setLaunch_on_fork (s : State) (n m : Nat) (x : Launch) : (s.setLaunch n x).fork m = s.fork m := rfl

/-! ### Under `setCode` -/

@[simp] theorem State.setCode_agenda (s : State) (n : Nat) (x : Code) : (s.setCode n x).agenda = s.agenda := rfl
@[simp] theorem State.setCode_cur (s : State) (n : Nat) (x : Code) : (s.setCode n x).cur = s.cur := rfl
@[simp] theorem State.setCode_fresh (s : State) (n : Nat) (x : Code) : (s.setCode n x).fresh = s.fresh := rfl
@[simp] theorem State.setCode_now (s : State) (n : Nat) (x : Code) : (s.setCode n x).now = s.now := rfl
@[simp] theorem State.setCode_npart (s : State) (n : Nat) (x : Code) : (s.setCode n x).npart = s.npart := rfl
@[simp] theorem State.setCode_dev (s : State) (n : Nat) (x : Code) : (s.setCode n x).dev = s.dev := rfl
@[simp] theorem State.setCode_halted (s : State) (n : Nat) (x : Code) : (s.setCode n x).halted = s.halted := rfl
@[simp] theorem State.setCode_image (s : State) (n : Nat) (x : Code) : (s.setCode n x).image = s.image := rfl
@[simp] theorem State.setCode_svn (s : State) (n : Nat) (x : Code) : (s.setCode n x).svn = s.svn := rfl
@[simp] theorem State.setCode_minSvn (s : State) (n : Nat) (x : Code) : (s.setCode n x).minSvn = s.minSvn := rfl
@[simp] theorem State.setCode_fwDigest (s : State) (n : Nat) (x : Code) : (s.setCode n x).fwDigest = s.fwDigest := rfl
@[simp] theorem State.setCode_corrected (s : State) (n : Nat) (x : Code) : (s.setCode n x).corrected = s.corrected := rfl
@[simp] theorem State.setCode_poisonUnits (s : State) (n : Nat) (x : Code) : (s.setCode n x).poisonUnits = s.poisonUnits := rfl
@[simp] theorem State.setCode_khz (s : State) (n : Nat) (x : Code) : (s.setCode n x).khz = s.khz := rfl
@[simp] theorem State.setCode_power (s : State) (n : Nat) (x : Code) : (s.setCode n x).power = s.power := rfl
@[simp] theorem State.setCode_hbm (s : State) (n : Nat) (x : Code) : (s.setCode n x).hbm = s.hbm := rfl
@[simp] theorem State.setCode_remote (s : State) (n : Nat) (x : Code) : (s.setCode n x).remote = s.remote := rfl
@[simp] theorem State.setCode_scr (s : State) (n : Nat) (x : Code) : (s.setCode n x).scr = s.scr := rfl
@[simp] theorem State.setCode_acc (s : State) (n : Nat) (x : Code) : (s.setCode n x).acc = s.acc := rfl
@[simp] theorem State.setCode_l1 (s : State) (n : Nat) (x : Code) : (s.setCode n x).l1 = s.l1 := rfl
@[simp] theorem State.setCode_icache (s : State) (n : Nat) (x : Code) : (s.setCode n x).icache = s.icache := rfl
@[simp] theorem State.setCode_sc (s : State) (n : Nat) (x : Code) : (s.setCode n x).sc = s.sc := rfl
@[simp] theorem State.setCode_poisLines (s : State) (n : Nat) (x : Code) : (s.setCode n x).poisLines = s.poisLines := rfl
@[simp] theorem State.setCode_poisScr (s : State) (n : Nat) (x : Code) : (s.setCode n x).poisScr = s.poisScr := rfl
@[simp] theorem State.setCode_poisAcc (s : State) (n : Nat) (x : Code) : (s.setCode n x).poisAcc = s.poisAcc := rfl
@[simp] theorem State.setCode_cores (s : State) (n : Nat) (x : Code) : (s.setCode n x).cores = s.cores := rfl
@[simp] theorem State.setCode_tiles (s : State) (n : Nat) (x : Code) : (s.setCode n x).tiles = s.tiles := rfl
@[simp] theorem State.setCode_clusters (s : State) (n : Nat) (x : Code) : (s.setCode n x).clusters = s.clusters := rfl
@[simp] theorem State.setCode_parts (s : State) (n : Nat) (x : Code) : (s.setCode n x).parts = s.parts := rfl
@[simp] theorem State.setCode_groups (s : State) (n : Nat) (x : Code) : (s.setCode n x).groups = s.groups := rfl
@[simp] theorem State.setCode_blocks (s : State) (n : Nat) (x : Code) : (s.setCode n x).blocks = s.blocks := rfl
@[simp] theorem State.setCode_spaces (s : State) (n : Nat) (x : Code) : (s.setCode n x).spaces = s.spaces := rfl
@[simp] theorem State.setCode_launches (s : State) (n : Nat) (x : Code) : (s.setCode n x).launches = s.launches := rfl
@[simp] theorem State.setCode_forks (s : State) (n : Nat) (x : Code) : (s.setCode n x).forks = s.forks := rfl
@[simp] theorem State.setCode_views (s : State) (n : Nat) (x : Code) : (s.setCode n x).views = s.views := rfl
@[simp] theorem State.setCode_links (s : State) (n : Nat) (x : Code) : (s.setCode n x).links = s.links := rfl
@[simp] theorem State.setCode_dropped (s : State) (n : Nat) (x : Code) : (s.setCode n x).dropped = s.dropped := rfl
@[simp] theorem State.setCode_migrated (s : State) (n : Nat) (x : Code) : (s.setCode n x).migrated = s.migrated := rfl
@[simp] theorem State.setCode_reply (s : State) (n : Nat) (x : Code) : (s.setCode n x).reply = s.reply := rfl
@[simp] theorem State.setCode_replyCode (s : State) (n : Nat) (x : Code) : (s.setCode n x).replyCode = s.replyCode := rfl
@[simp] theorem State.setCode_on_group (s : State) (n m : Nat) (x : Code) : (s.setCode n x).group m = s.group m := rfl
@[simp] theorem State.setCode_on_block (s : State) (n m : Nat) (x : Code) : (s.setCode n x).block m = s.block m := rfl
@[simp] theorem State.setCode_on_space (s : State) (n m : Nat) (x : Code) : (s.setCode n x).space m = s.space m := rfl
@[simp] theorem State.setCode_on_launch (s : State) (n m : Nat) (x : Code) : (s.setCode n x).launch m = s.launch m := rfl
@[simp] theorem State.setCode_on_part (s : State) (n m : Nat) (x : Code) : (s.setCode n x).part m = s.part m := rfl
@[simp] theorem State.setCode_on_core (s : State) (n m : Nat) (x : Code) : (s.setCode n x).core m = s.core m := rfl
@[simp] theorem State.setCode_on_tile (s : State) (n m : Nat) (x : Code) : (s.setCode n x).tile m = s.tile m := rfl
@[simp] theorem State.setCode_on_cluster (s : State) (n m : Nat) (x : Code) : (s.setCode n x).cluster m = s.cluster m := rfl
@[simp] theorem State.setCode_on_fork (s : State) (n m : Nat) (x : Code) : (s.setCode n x).fork m = s.fork m := rfl

/-! ### Under `setPart` -/

@[simp] theorem State.setPart_agenda (s : State) (n : Nat) (x : Part) : (s.setPart n x).agenda = s.agenda := rfl
@[simp] theorem State.setPart_cur (s : State) (n : Nat) (x : Part) : (s.setPart n x).cur = s.cur := rfl
@[simp] theorem State.setPart_fresh (s : State) (n : Nat) (x : Part) : (s.setPart n x).fresh = s.fresh := rfl
@[simp] theorem State.setPart_now (s : State) (n : Nat) (x : Part) : (s.setPart n x).now = s.now := rfl
@[simp] theorem State.setPart_npart (s : State) (n : Nat) (x : Part) : (s.setPart n x).npart = s.npart := rfl
@[simp] theorem State.setPart_dev (s : State) (n : Nat) (x : Part) : (s.setPart n x).dev = s.dev := rfl
@[simp] theorem State.setPart_halted (s : State) (n : Nat) (x : Part) : (s.setPart n x).halted = s.halted := rfl
@[simp] theorem State.setPart_image (s : State) (n : Nat) (x : Part) : (s.setPart n x).image = s.image := rfl
@[simp] theorem State.setPart_svn (s : State) (n : Nat) (x : Part) : (s.setPart n x).svn = s.svn := rfl
@[simp] theorem State.setPart_minSvn (s : State) (n : Nat) (x : Part) : (s.setPart n x).minSvn = s.minSvn := rfl
@[simp] theorem State.setPart_fwDigest (s : State) (n : Nat) (x : Part) : (s.setPart n x).fwDigest = s.fwDigest := rfl
@[simp] theorem State.setPart_corrected (s : State) (n : Nat) (x : Part) : (s.setPart n x).corrected = s.corrected := rfl
@[simp] theorem State.setPart_poisonUnits (s : State) (n : Nat) (x : Part) : (s.setPart n x).poisonUnits = s.poisonUnits := rfl
@[simp] theorem State.setPart_khz (s : State) (n : Nat) (x : Part) : (s.setPart n x).khz = s.khz := rfl
@[simp] theorem State.setPart_power (s : State) (n : Nat) (x : Part) : (s.setPart n x).power = s.power := rfl
@[simp] theorem State.setPart_hbm (s : State) (n : Nat) (x : Part) : (s.setPart n x).hbm = s.hbm := rfl
@[simp] theorem State.setPart_remote (s : State) (n : Nat) (x : Part) : (s.setPart n x).remote = s.remote := rfl
@[simp] theorem State.setPart_scr (s : State) (n : Nat) (x : Part) : (s.setPart n x).scr = s.scr := rfl
@[simp] theorem State.setPart_acc (s : State) (n : Nat) (x : Part) : (s.setPart n x).acc = s.acc := rfl
@[simp] theorem State.setPart_l1 (s : State) (n : Nat) (x : Part) : (s.setPart n x).l1 = s.l1 := rfl
@[simp] theorem State.setPart_icache (s : State) (n : Nat) (x : Part) : (s.setPart n x).icache = s.icache := rfl
@[simp] theorem State.setPart_sc (s : State) (n : Nat) (x : Part) : (s.setPart n x).sc = s.sc := rfl
@[simp] theorem State.setPart_poisLines (s : State) (n : Nat) (x : Part) : (s.setPart n x).poisLines = s.poisLines := rfl
@[simp] theorem State.setPart_poisScr (s : State) (n : Nat) (x : Part) : (s.setPart n x).poisScr = s.poisScr := rfl
@[simp] theorem State.setPart_poisAcc (s : State) (n : Nat) (x : Part) : (s.setPart n x).poisAcc = s.poisAcc := rfl
@[simp] theorem State.setPart_cores (s : State) (n : Nat) (x : Part) : (s.setPart n x).cores = s.cores := rfl
@[simp] theorem State.setPart_tiles (s : State) (n : Nat) (x : Part) : (s.setPart n x).tiles = s.tiles := rfl
@[simp] theorem State.setPart_clusters (s : State) (n : Nat) (x : Part) : (s.setPart n x).clusters = s.clusters := rfl
@[simp] theorem State.setPart_groups (s : State) (n : Nat) (x : Part) : (s.setPart n x).groups = s.groups := rfl
@[simp] theorem State.setPart_blocks (s : State) (n : Nat) (x : Part) : (s.setPart n x).blocks = s.blocks := rfl
@[simp] theorem State.setPart_spaces (s : State) (n : Nat) (x : Part) : (s.setPart n x).spaces = s.spaces := rfl
@[simp] theorem State.setPart_launches (s : State) (n : Nat) (x : Part) : (s.setPart n x).launches = s.launches := rfl
@[simp] theorem State.setPart_codes (s : State) (n : Nat) (x : Part) : (s.setPart n x).codes = s.codes := rfl
@[simp] theorem State.setPart_forks (s : State) (n : Nat) (x : Part) : (s.setPart n x).forks = s.forks := rfl
@[simp] theorem State.setPart_views (s : State) (n : Nat) (x : Part) : (s.setPart n x).views = s.views := rfl
@[simp] theorem State.setPart_links (s : State) (n : Nat) (x : Part) : (s.setPart n x).links = s.links := rfl
@[simp] theorem State.setPart_dropped (s : State) (n : Nat) (x : Part) : (s.setPart n x).dropped = s.dropped := rfl
@[simp] theorem State.setPart_migrated (s : State) (n : Nat) (x : Part) : (s.setPart n x).migrated = s.migrated := rfl
@[simp] theorem State.setPart_reply (s : State) (n : Nat) (x : Part) : (s.setPart n x).reply = s.reply := rfl
@[simp] theorem State.setPart_replyCode (s : State) (n : Nat) (x : Part) : (s.setPart n x).replyCode = s.replyCode := rfl
@[simp] theorem State.setPart_on_group (s : State) (n m : Nat) (x : Part) : (s.setPart n x).group m = s.group m := rfl
@[simp] theorem State.setPart_on_block (s : State) (n m : Nat) (x : Part) : (s.setPart n x).block m = s.block m := rfl
@[simp] theorem State.setPart_on_space (s : State) (n m : Nat) (x : Part) : (s.setPart n x).space m = s.space m := rfl
@[simp] theorem State.setPart_on_launch (s : State) (n m : Nat) (x : Part) : (s.setPart n x).launch m = s.launch m := rfl
@[simp] theorem State.setPart_on_code (s : State) (n m : Nat) (x : Part) : (s.setPart n x).code m = s.code m := rfl
@[simp] theorem State.setPart_on_core (s : State) (n m : Nat) (x : Part) : (s.setPart n x).core m = s.core m := rfl
@[simp] theorem State.setPart_on_tile (s : State) (n m : Nat) (x : Part) : (s.setPart n x).tile m = s.tile m := rfl
@[simp] theorem State.setPart_on_cluster (s : State) (n m : Nat) (x : Part) : (s.setPart n x).cluster m = s.cluster m := rfl
@[simp] theorem State.setPart_on_fork (s : State) (n m : Nat) (x : Part) : (s.setPart n x).fork m = s.fork m := rfl

/-! ### Under `setCore` -/

@[simp] theorem State.setCore_agenda (s : State) (n : Nat) (x : Core) : (s.setCore n x).agenda = s.agenda := rfl
@[simp] theorem State.setCore_cur (s : State) (n : Nat) (x : Core) : (s.setCore n x).cur = s.cur := rfl
@[simp] theorem State.setCore_fresh (s : State) (n : Nat) (x : Core) : (s.setCore n x).fresh = s.fresh := rfl
@[simp] theorem State.setCore_now (s : State) (n : Nat) (x : Core) : (s.setCore n x).now = s.now := rfl
@[simp] theorem State.setCore_npart (s : State) (n : Nat) (x : Core) : (s.setCore n x).npart = s.npart := rfl
@[simp] theorem State.setCore_dev (s : State) (n : Nat) (x : Core) : (s.setCore n x).dev = s.dev := rfl
@[simp] theorem State.setCore_halted (s : State) (n : Nat) (x : Core) : (s.setCore n x).halted = s.halted := rfl
@[simp] theorem State.setCore_image (s : State) (n : Nat) (x : Core) : (s.setCore n x).image = s.image := rfl
@[simp] theorem State.setCore_svn (s : State) (n : Nat) (x : Core) : (s.setCore n x).svn = s.svn := rfl
@[simp] theorem State.setCore_minSvn (s : State) (n : Nat) (x : Core) : (s.setCore n x).minSvn = s.minSvn := rfl
@[simp] theorem State.setCore_fwDigest (s : State) (n : Nat) (x : Core) : (s.setCore n x).fwDigest = s.fwDigest := rfl
@[simp] theorem State.setCore_corrected (s : State) (n : Nat) (x : Core) : (s.setCore n x).corrected = s.corrected := rfl
@[simp] theorem State.setCore_poisonUnits (s : State) (n : Nat) (x : Core) : (s.setCore n x).poisonUnits = s.poisonUnits := rfl
@[simp] theorem State.setCore_khz (s : State) (n : Nat) (x : Core) : (s.setCore n x).khz = s.khz := rfl
@[simp] theorem State.setCore_power (s : State) (n : Nat) (x : Core) : (s.setCore n x).power = s.power := rfl
@[simp] theorem State.setCore_hbm (s : State) (n : Nat) (x : Core) : (s.setCore n x).hbm = s.hbm := rfl
@[simp] theorem State.setCore_remote (s : State) (n : Nat) (x : Core) : (s.setCore n x).remote = s.remote := rfl
@[simp] theorem State.setCore_scr (s : State) (n : Nat) (x : Core) : (s.setCore n x).scr = s.scr := rfl
@[simp] theorem State.setCore_acc (s : State) (n : Nat) (x : Core) : (s.setCore n x).acc = s.acc := rfl
@[simp] theorem State.setCore_l1 (s : State) (n : Nat) (x : Core) : (s.setCore n x).l1 = s.l1 := rfl
@[simp] theorem State.setCore_icache (s : State) (n : Nat) (x : Core) : (s.setCore n x).icache = s.icache := rfl
@[simp] theorem State.setCore_sc (s : State) (n : Nat) (x : Core) : (s.setCore n x).sc = s.sc := rfl
@[simp] theorem State.setCore_poisLines (s : State) (n : Nat) (x : Core) : (s.setCore n x).poisLines = s.poisLines := rfl
@[simp] theorem State.setCore_poisScr (s : State) (n : Nat) (x : Core) : (s.setCore n x).poisScr = s.poisScr := rfl
@[simp] theorem State.setCore_poisAcc (s : State) (n : Nat) (x : Core) : (s.setCore n x).poisAcc = s.poisAcc := rfl
@[simp] theorem State.setCore_tiles (s : State) (n : Nat) (x : Core) : (s.setCore n x).tiles = s.tiles := rfl
@[simp] theorem State.setCore_clusters (s : State) (n : Nat) (x : Core) : (s.setCore n x).clusters = s.clusters := rfl
@[simp] theorem State.setCore_parts (s : State) (n : Nat) (x : Core) : (s.setCore n x).parts = s.parts := rfl
@[simp] theorem State.setCore_groups (s : State) (n : Nat) (x : Core) : (s.setCore n x).groups = s.groups := rfl
@[simp] theorem State.setCore_blocks (s : State) (n : Nat) (x : Core) : (s.setCore n x).blocks = s.blocks := rfl
@[simp] theorem State.setCore_spaces (s : State) (n : Nat) (x : Core) : (s.setCore n x).spaces = s.spaces := rfl
@[simp] theorem State.setCore_launches (s : State) (n : Nat) (x : Core) : (s.setCore n x).launches = s.launches := rfl
@[simp] theorem State.setCore_codes (s : State) (n : Nat) (x : Core) : (s.setCore n x).codes = s.codes := rfl
@[simp] theorem State.setCore_forks (s : State) (n : Nat) (x : Core) : (s.setCore n x).forks = s.forks := rfl
@[simp] theorem State.setCore_views (s : State) (n : Nat) (x : Core) : (s.setCore n x).views = s.views := rfl
@[simp] theorem State.setCore_links (s : State) (n : Nat) (x : Core) : (s.setCore n x).links = s.links := rfl
@[simp] theorem State.setCore_dropped (s : State) (n : Nat) (x : Core) : (s.setCore n x).dropped = s.dropped := rfl
@[simp] theorem State.setCore_migrated (s : State) (n : Nat) (x : Core) : (s.setCore n x).migrated = s.migrated := rfl
@[simp] theorem State.setCore_reply (s : State) (n : Nat) (x : Core) : (s.setCore n x).reply = s.reply := rfl
@[simp] theorem State.setCore_replyCode (s : State) (n : Nat) (x : Core) : (s.setCore n x).replyCode = s.replyCode := rfl
@[simp] theorem State.setCore_on_group (s : State) (n m : Nat) (x : Core) : (s.setCore n x).group m = s.group m := rfl
@[simp] theorem State.setCore_on_block (s : State) (n m : Nat) (x : Core) : (s.setCore n x).block m = s.block m := rfl
@[simp] theorem State.setCore_on_space (s : State) (n m : Nat) (x : Core) : (s.setCore n x).space m = s.space m := rfl
@[simp] theorem State.setCore_on_launch (s : State) (n m : Nat) (x : Core) : (s.setCore n x).launch m = s.launch m := rfl
@[simp] theorem State.setCore_on_code (s : State) (n m : Nat) (x : Core) : (s.setCore n x).code m = s.code m := rfl
@[simp] theorem State.setCore_on_part (s : State) (n m : Nat) (x : Core) : (s.setCore n x).part m = s.part m := rfl
@[simp] theorem State.setCore_on_tile (s : State) (n m : Nat) (x : Core) : (s.setCore n x).tile m = s.tile m := rfl
@[simp] theorem State.setCore_on_cluster (s : State) (n m : Nat) (x : Core) : (s.setCore n x).cluster m = s.cluster m := rfl
@[simp] theorem State.setCore_on_fork (s : State) (n m : Nat) (x : Core) : (s.setCore n x).fork m = s.fork m := rfl

/-! ### Under `setTile` -/

@[simp] theorem State.setTile_agenda (s : State) (n : Nat) (x : Tile) : (s.setTile n x).agenda = s.agenda := rfl
@[simp] theorem State.setTile_cur (s : State) (n : Nat) (x : Tile) : (s.setTile n x).cur = s.cur := rfl
@[simp] theorem State.setTile_fresh (s : State) (n : Nat) (x : Tile) : (s.setTile n x).fresh = s.fresh := rfl
@[simp] theorem State.setTile_now (s : State) (n : Nat) (x : Tile) : (s.setTile n x).now = s.now := rfl
@[simp] theorem State.setTile_npart (s : State) (n : Nat) (x : Tile) : (s.setTile n x).npart = s.npart := rfl
@[simp] theorem State.setTile_dev (s : State) (n : Nat) (x : Tile) : (s.setTile n x).dev = s.dev := rfl
@[simp] theorem State.setTile_halted (s : State) (n : Nat) (x : Tile) : (s.setTile n x).halted = s.halted := rfl
@[simp] theorem State.setTile_image (s : State) (n : Nat) (x : Tile) : (s.setTile n x).image = s.image := rfl
@[simp] theorem State.setTile_svn (s : State) (n : Nat) (x : Tile) : (s.setTile n x).svn = s.svn := rfl
@[simp] theorem State.setTile_minSvn (s : State) (n : Nat) (x : Tile) : (s.setTile n x).minSvn = s.minSvn := rfl
@[simp] theorem State.setTile_fwDigest (s : State) (n : Nat) (x : Tile) : (s.setTile n x).fwDigest = s.fwDigest := rfl
@[simp] theorem State.setTile_corrected (s : State) (n : Nat) (x : Tile) : (s.setTile n x).corrected = s.corrected := rfl
@[simp] theorem State.setTile_poisonUnits (s : State) (n : Nat) (x : Tile) : (s.setTile n x).poisonUnits = s.poisonUnits := rfl
@[simp] theorem State.setTile_khz (s : State) (n : Nat) (x : Tile) : (s.setTile n x).khz = s.khz := rfl
@[simp] theorem State.setTile_power (s : State) (n : Nat) (x : Tile) : (s.setTile n x).power = s.power := rfl
@[simp] theorem State.setTile_hbm (s : State) (n : Nat) (x : Tile) : (s.setTile n x).hbm = s.hbm := rfl
@[simp] theorem State.setTile_remote (s : State) (n : Nat) (x : Tile) : (s.setTile n x).remote = s.remote := rfl
@[simp] theorem State.setTile_scr (s : State) (n : Nat) (x : Tile) : (s.setTile n x).scr = s.scr := rfl
@[simp] theorem State.setTile_acc (s : State) (n : Nat) (x : Tile) : (s.setTile n x).acc = s.acc := rfl
@[simp] theorem State.setTile_l1 (s : State) (n : Nat) (x : Tile) : (s.setTile n x).l1 = s.l1 := rfl
@[simp] theorem State.setTile_icache (s : State) (n : Nat) (x : Tile) : (s.setTile n x).icache = s.icache := rfl
@[simp] theorem State.setTile_sc (s : State) (n : Nat) (x : Tile) : (s.setTile n x).sc = s.sc := rfl
@[simp] theorem State.setTile_poisLines (s : State) (n : Nat) (x : Tile) : (s.setTile n x).poisLines = s.poisLines := rfl
@[simp] theorem State.setTile_poisScr (s : State) (n : Nat) (x : Tile) : (s.setTile n x).poisScr = s.poisScr := rfl
@[simp] theorem State.setTile_poisAcc (s : State) (n : Nat) (x : Tile) : (s.setTile n x).poisAcc = s.poisAcc := rfl
@[simp] theorem State.setTile_cores (s : State) (n : Nat) (x : Tile) : (s.setTile n x).cores = s.cores := rfl
@[simp] theorem State.setTile_clusters (s : State) (n : Nat) (x : Tile) : (s.setTile n x).clusters = s.clusters := rfl
@[simp] theorem State.setTile_parts (s : State) (n : Nat) (x : Tile) : (s.setTile n x).parts = s.parts := rfl
@[simp] theorem State.setTile_groups (s : State) (n : Nat) (x : Tile) : (s.setTile n x).groups = s.groups := rfl
@[simp] theorem State.setTile_blocks (s : State) (n : Nat) (x : Tile) : (s.setTile n x).blocks = s.blocks := rfl
@[simp] theorem State.setTile_spaces (s : State) (n : Nat) (x : Tile) : (s.setTile n x).spaces = s.spaces := rfl
@[simp] theorem State.setTile_launches (s : State) (n : Nat) (x : Tile) : (s.setTile n x).launches = s.launches := rfl
@[simp] theorem State.setTile_codes (s : State) (n : Nat) (x : Tile) : (s.setTile n x).codes = s.codes := rfl
@[simp] theorem State.setTile_forks (s : State) (n : Nat) (x : Tile) : (s.setTile n x).forks = s.forks := rfl
@[simp] theorem State.setTile_views (s : State) (n : Nat) (x : Tile) : (s.setTile n x).views = s.views := rfl
@[simp] theorem State.setTile_links (s : State) (n : Nat) (x : Tile) : (s.setTile n x).links = s.links := rfl
@[simp] theorem State.setTile_dropped (s : State) (n : Nat) (x : Tile) : (s.setTile n x).dropped = s.dropped := rfl
@[simp] theorem State.setTile_migrated (s : State) (n : Nat) (x : Tile) : (s.setTile n x).migrated = s.migrated := rfl
@[simp] theorem State.setTile_reply (s : State) (n : Nat) (x : Tile) : (s.setTile n x).reply = s.reply := rfl
@[simp] theorem State.setTile_replyCode (s : State) (n : Nat) (x : Tile) : (s.setTile n x).replyCode = s.replyCode := rfl
@[simp] theorem State.setTile_on_group (s : State) (n m : Nat) (x : Tile) : (s.setTile n x).group m = s.group m := rfl
@[simp] theorem State.setTile_on_block (s : State) (n m : Nat) (x : Tile) : (s.setTile n x).block m = s.block m := rfl
@[simp] theorem State.setTile_on_space (s : State) (n m : Nat) (x : Tile) : (s.setTile n x).space m = s.space m := rfl
@[simp] theorem State.setTile_on_launch (s : State) (n m : Nat) (x : Tile) : (s.setTile n x).launch m = s.launch m := rfl
@[simp] theorem State.setTile_on_code (s : State) (n m : Nat) (x : Tile) : (s.setTile n x).code m = s.code m := rfl
@[simp] theorem State.setTile_on_part (s : State) (n m : Nat) (x : Tile) : (s.setTile n x).part m = s.part m := rfl
@[simp] theorem State.setTile_on_core (s : State) (n m : Nat) (x : Tile) : (s.setTile n x).core m = s.core m := rfl
@[simp] theorem State.setTile_on_cluster (s : State) (n m : Nat) (x : Tile) : (s.setTile n x).cluster m = s.cluster m := rfl
@[simp] theorem State.setTile_on_fork (s : State) (n m : Nat) (x : Tile) : (s.setTile n x).fork m = s.fork m := rfl

/-! ### Under `setCluster` -/

@[simp] theorem State.setCluster_agenda (s : State) (n : Nat) (x : Cluster) : (s.setCluster n x).agenda = s.agenda := rfl
@[simp] theorem State.setCluster_cur (s : State) (n : Nat) (x : Cluster) : (s.setCluster n x).cur = s.cur := rfl
@[simp] theorem State.setCluster_fresh (s : State) (n : Nat) (x : Cluster) : (s.setCluster n x).fresh = s.fresh := rfl
@[simp] theorem State.setCluster_now (s : State) (n : Nat) (x : Cluster) : (s.setCluster n x).now = s.now := rfl
@[simp] theorem State.setCluster_npart (s : State) (n : Nat) (x : Cluster) : (s.setCluster n x).npart = s.npart := rfl
@[simp] theorem State.setCluster_dev (s : State) (n : Nat) (x : Cluster) : (s.setCluster n x).dev = s.dev := rfl
@[simp] theorem State.setCluster_halted (s : State) (n : Nat) (x : Cluster) : (s.setCluster n x).halted = s.halted := rfl
@[simp] theorem State.setCluster_image (s : State) (n : Nat) (x : Cluster) : (s.setCluster n x).image = s.image := rfl
@[simp] theorem State.setCluster_svn (s : State) (n : Nat) (x : Cluster) : (s.setCluster n x).svn = s.svn := rfl
@[simp] theorem State.setCluster_minSvn (s : State) (n : Nat) (x : Cluster) : (s.setCluster n x).minSvn = s.minSvn := rfl
@[simp] theorem State.setCluster_fwDigest (s : State) (n : Nat) (x : Cluster) : (s.setCluster n x).fwDigest = s.fwDigest := rfl
@[simp] theorem State.setCluster_corrected (s : State) (n : Nat) (x : Cluster) : (s.setCluster n x).corrected = s.corrected := rfl
@[simp] theorem State.setCluster_poisonUnits (s : State) (n : Nat) (x : Cluster) : (s.setCluster n x).poisonUnits = s.poisonUnits := rfl
@[simp] theorem State.setCluster_khz (s : State) (n : Nat) (x : Cluster) : (s.setCluster n x).khz = s.khz := rfl
@[simp] theorem State.setCluster_power (s : State) (n : Nat) (x : Cluster) : (s.setCluster n x).power = s.power := rfl
@[simp] theorem State.setCluster_hbm (s : State) (n : Nat) (x : Cluster) : (s.setCluster n x).hbm = s.hbm := rfl
@[simp] theorem State.setCluster_remote (s : State) (n : Nat) (x : Cluster) : (s.setCluster n x).remote = s.remote := rfl
@[simp] theorem State.setCluster_scr (s : State) (n : Nat) (x : Cluster) : (s.setCluster n x).scr = s.scr := rfl
@[simp] theorem State.setCluster_acc (s : State) (n : Nat) (x : Cluster) : (s.setCluster n x).acc = s.acc := rfl
@[simp] theorem State.setCluster_l1 (s : State) (n : Nat) (x : Cluster) : (s.setCluster n x).l1 = s.l1 := rfl
@[simp] theorem State.setCluster_icache (s : State) (n : Nat) (x : Cluster) : (s.setCluster n x).icache = s.icache := rfl
@[simp] theorem State.setCluster_sc (s : State) (n : Nat) (x : Cluster) : (s.setCluster n x).sc = s.sc := rfl
@[simp] theorem State.setCluster_poisLines (s : State) (n : Nat) (x : Cluster) : (s.setCluster n x).poisLines = s.poisLines := rfl
@[simp] theorem State.setCluster_poisScr (s : State) (n : Nat) (x : Cluster) : (s.setCluster n x).poisScr = s.poisScr := rfl
@[simp] theorem State.setCluster_poisAcc (s : State) (n : Nat) (x : Cluster) : (s.setCluster n x).poisAcc = s.poisAcc := rfl
@[simp] theorem State.setCluster_cores (s : State) (n : Nat) (x : Cluster) : (s.setCluster n x).cores = s.cores := rfl
@[simp] theorem State.setCluster_tiles (s : State) (n : Nat) (x : Cluster) : (s.setCluster n x).tiles = s.tiles := rfl
@[simp] theorem State.setCluster_parts (s : State) (n : Nat) (x : Cluster) : (s.setCluster n x).parts = s.parts := rfl
@[simp] theorem State.setCluster_groups (s : State) (n : Nat) (x : Cluster) : (s.setCluster n x).groups = s.groups := rfl
@[simp] theorem State.setCluster_blocks (s : State) (n : Nat) (x : Cluster) : (s.setCluster n x).blocks = s.blocks := rfl
@[simp] theorem State.setCluster_spaces (s : State) (n : Nat) (x : Cluster) : (s.setCluster n x).spaces = s.spaces := rfl
@[simp] theorem State.setCluster_launches (s : State) (n : Nat) (x : Cluster) : (s.setCluster n x).launches = s.launches := rfl
@[simp] theorem State.setCluster_codes (s : State) (n : Nat) (x : Cluster) : (s.setCluster n x).codes = s.codes := rfl
@[simp] theorem State.setCluster_forks (s : State) (n : Nat) (x : Cluster) : (s.setCluster n x).forks = s.forks := rfl
@[simp] theorem State.setCluster_views (s : State) (n : Nat) (x : Cluster) : (s.setCluster n x).views = s.views := rfl
@[simp] theorem State.setCluster_links (s : State) (n : Nat) (x : Cluster) : (s.setCluster n x).links = s.links := rfl
@[simp] theorem State.setCluster_dropped (s : State) (n : Nat) (x : Cluster) : (s.setCluster n x).dropped = s.dropped := rfl
@[simp] theorem State.setCluster_migrated (s : State) (n : Nat) (x : Cluster) : (s.setCluster n x).migrated = s.migrated := rfl
@[simp] theorem State.setCluster_reply (s : State) (n : Nat) (x : Cluster) : (s.setCluster n x).reply = s.reply := rfl
@[simp] theorem State.setCluster_replyCode (s : State) (n : Nat) (x : Cluster) : (s.setCluster n x).replyCode = s.replyCode := rfl
@[simp] theorem State.setCluster_on_group (s : State) (n m : Nat) (x : Cluster) : (s.setCluster n x).group m = s.group m := rfl
@[simp] theorem State.setCluster_on_block (s : State) (n m : Nat) (x : Cluster) : (s.setCluster n x).block m = s.block m := rfl
@[simp] theorem State.setCluster_on_space (s : State) (n m : Nat) (x : Cluster) : (s.setCluster n x).space m = s.space m := rfl
@[simp] theorem State.setCluster_on_launch (s : State) (n m : Nat) (x : Cluster) : (s.setCluster n x).launch m = s.launch m := rfl
@[simp] theorem State.setCluster_on_code (s : State) (n m : Nat) (x : Cluster) : (s.setCluster n x).code m = s.code m := rfl
@[simp] theorem State.setCluster_on_part (s : State) (n m : Nat) (x : Cluster) : (s.setCluster n x).part m = s.part m := rfl
@[simp] theorem State.setCluster_on_core (s : State) (n m : Nat) (x : Cluster) : (s.setCluster n x).core m = s.core m := rfl
@[simp] theorem State.setCluster_on_tile (s : State) (n m : Nat) (x : Cluster) : (s.setCluster n x).tile m = s.tile m := rfl
@[simp] theorem State.setCluster_on_fork (s : State) (n m : Nat) (x : Cluster) : (s.setCluster n x).fork m = s.fork m := rfl

/-! ### Under `setFork` -/

@[simp] theorem State.setFork_agenda (s : State) (n : Nat) (x : Fork) : (s.setFork n x).agenda = s.agenda := rfl
@[simp] theorem State.setFork_cur (s : State) (n : Nat) (x : Fork) : (s.setFork n x).cur = s.cur := rfl
@[simp] theorem State.setFork_fresh (s : State) (n : Nat) (x : Fork) : (s.setFork n x).fresh = s.fresh := rfl
@[simp] theorem State.setFork_now (s : State) (n : Nat) (x : Fork) : (s.setFork n x).now = s.now := rfl
@[simp] theorem State.setFork_npart (s : State) (n : Nat) (x : Fork) : (s.setFork n x).npart = s.npart := rfl
@[simp] theorem State.setFork_dev (s : State) (n : Nat) (x : Fork) : (s.setFork n x).dev = s.dev := rfl
@[simp] theorem State.setFork_halted (s : State) (n : Nat) (x : Fork) : (s.setFork n x).halted = s.halted := rfl
@[simp] theorem State.setFork_image (s : State) (n : Nat) (x : Fork) : (s.setFork n x).image = s.image := rfl
@[simp] theorem State.setFork_svn (s : State) (n : Nat) (x : Fork) : (s.setFork n x).svn = s.svn := rfl
@[simp] theorem State.setFork_minSvn (s : State) (n : Nat) (x : Fork) : (s.setFork n x).minSvn = s.minSvn := rfl
@[simp] theorem State.setFork_fwDigest (s : State) (n : Nat) (x : Fork) : (s.setFork n x).fwDigest = s.fwDigest := rfl
@[simp] theorem State.setFork_corrected (s : State) (n : Nat) (x : Fork) : (s.setFork n x).corrected = s.corrected := rfl
@[simp] theorem State.setFork_poisonUnits (s : State) (n : Nat) (x : Fork) : (s.setFork n x).poisonUnits = s.poisonUnits := rfl
@[simp] theorem State.setFork_khz (s : State) (n : Nat) (x : Fork) : (s.setFork n x).khz = s.khz := rfl
@[simp] theorem State.setFork_power (s : State) (n : Nat) (x : Fork) : (s.setFork n x).power = s.power := rfl
@[simp] theorem State.setFork_hbm (s : State) (n : Nat) (x : Fork) : (s.setFork n x).hbm = s.hbm := rfl
@[simp] theorem State.setFork_remote (s : State) (n : Nat) (x : Fork) : (s.setFork n x).remote = s.remote := rfl
@[simp] theorem State.setFork_scr (s : State) (n : Nat) (x : Fork) : (s.setFork n x).scr = s.scr := rfl
@[simp] theorem State.setFork_acc (s : State) (n : Nat) (x : Fork) : (s.setFork n x).acc = s.acc := rfl
@[simp] theorem State.setFork_l1 (s : State) (n : Nat) (x : Fork) : (s.setFork n x).l1 = s.l1 := rfl
@[simp] theorem State.setFork_icache (s : State) (n : Nat) (x : Fork) : (s.setFork n x).icache = s.icache := rfl
@[simp] theorem State.setFork_sc (s : State) (n : Nat) (x : Fork) : (s.setFork n x).sc = s.sc := rfl
@[simp] theorem State.setFork_poisLines (s : State) (n : Nat) (x : Fork) : (s.setFork n x).poisLines = s.poisLines := rfl
@[simp] theorem State.setFork_poisScr (s : State) (n : Nat) (x : Fork) : (s.setFork n x).poisScr = s.poisScr := rfl
@[simp] theorem State.setFork_poisAcc (s : State) (n : Nat) (x : Fork) : (s.setFork n x).poisAcc = s.poisAcc := rfl
@[simp] theorem State.setFork_cores (s : State) (n : Nat) (x : Fork) : (s.setFork n x).cores = s.cores := rfl
@[simp] theorem State.setFork_tiles (s : State) (n : Nat) (x : Fork) : (s.setFork n x).tiles = s.tiles := rfl
@[simp] theorem State.setFork_clusters (s : State) (n : Nat) (x : Fork) : (s.setFork n x).clusters = s.clusters := rfl
@[simp] theorem State.setFork_parts (s : State) (n : Nat) (x : Fork) : (s.setFork n x).parts = s.parts := rfl
@[simp] theorem State.setFork_groups (s : State) (n : Nat) (x : Fork) : (s.setFork n x).groups = s.groups := rfl
@[simp] theorem State.setFork_blocks (s : State) (n : Nat) (x : Fork) : (s.setFork n x).blocks = s.blocks := rfl
@[simp] theorem State.setFork_spaces (s : State) (n : Nat) (x : Fork) : (s.setFork n x).spaces = s.spaces := rfl
@[simp] theorem State.setFork_launches (s : State) (n : Nat) (x : Fork) : (s.setFork n x).launches = s.launches := rfl
@[simp] theorem State.setFork_codes (s : State) (n : Nat) (x : Fork) : (s.setFork n x).codes = s.codes := rfl
@[simp] theorem State.setFork_views (s : State) (n : Nat) (x : Fork) : (s.setFork n x).views = s.views := rfl
@[simp] theorem State.setFork_links (s : State) (n : Nat) (x : Fork) : (s.setFork n x).links = s.links := rfl
@[simp] theorem State.setFork_dropped (s : State) (n : Nat) (x : Fork) : (s.setFork n x).dropped = s.dropped := rfl
@[simp] theorem State.setFork_migrated (s : State) (n : Nat) (x : Fork) : (s.setFork n x).migrated = s.migrated := rfl
@[simp] theorem State.setFork_reply (s : State) (n : Nat) (x : Fork) : (s.setFork n x).reply = s.reply := rfl
@[simp] theorem State.setFork_replyCode (s : State) (n : Nat) (x : Fork) : (s.setFork n x).replyCode = s.replyCode := rfl
@[simp] theorem State.setFork_on_group (s : State) (n m : Nat) (x : Fork) : (s.setFork n x).group m = s.group m := rfl
@[simp] theorem State.setFork_on_block (s : State) (n m : Nat) (x : Fork) : (s.setFork n x).block m = s.block m := rfl
@[simp] theorem State.setFork_on_space (s : State) (n m : Nat) (x : Fork) : (s.setFork n x).space m = s.space m := rfl
@[simp] theorem State.setFork_on_launch (s : State) (n m : Nat) (x : Fork) : (s.setFork n x).launch m = s.launch m := rfl
@[simp] theorem State.setFork_on_code (s : State) (n m : Nat) (x : Fork) : (s.setFork n x).code m = s.code m := rfl
@[simp] theorem State.setFork_on_part (s : State) (n m : Nat) (x : Fork) : (s.setFork n x).part m = s.part m := rfl
@[simp] theorem State.setFork_on_core (s : State) (n m : Nat) (x : Fork) : (s.setFork n x).core m = s.core m := rfl
@[simp] theorem State.setFork_on_tile (s : State) (n m : Nat) (x : Fork) : (s.setFork n x).tile m = s.tile m := rfl
@[simp] theorem State.setFork_on_cluster (s : State) (n m : Nat) (x : Fork) : (s.setFork n x).cluster m = s.cluster m := rfl

/-! ### Under the group updates of a path -/

@[simp] theorem Group.setPath_present (g : Group) (k : Nat) (p : Path) : (g.setPath k p).present = g.present := rfl
@[simp] theorem Group.setPath_saved (g : Group) (k : Nat) (p : Path) : (g.setPath k p).saved = g.saved := rfl
@[simp] theorem Group.setPath_part (g : Group) (k : Nat) (p : Path) : (g.setPath k p).part = g.part := rfl
@[simp] theorem Group.setPath_blk (g : Group) (k : Nat) (p : Path) : (g.setPath k p).blk = g.blk := rfl
@[simp] theorem Group.setPath_launch (g : Group) (k : Nat) (p : Path) : (g.setPath k p).launch = g.launch := rfl
@[simp] theorem Group.setPath_code (g : Group) (k : Nat) (p : Path) : (g.setPath k p).code = g.code := rfl
@[simp] theorem Group.setPath_space (g : Group) (k : Nat) (p : Path) : (g.setPath k p).space = g.space := rfl
@[simp] theorem Group.setPath_gidx (g : Group) (k : Nat) (p : Path) : (g.setPath k p).gidx = g.gidx := rfl
@[simp] theorem Group.setPath_width (g : Group) (k : Nat) (p : Path) : (g.setPath k p).width = g.width := rfl
@[simp] theorem Group.setPath_core (g : Group) (k : Nat) (p : Path) : (g.setPath k p).core = g.core := rfl
@[simp] theorem Group.setPath_cpart (g : Group) (k : Nat) (p : Path) : (g.setPath k p).cpart = g.cpart := rfl
@[simp] theorem Group.setPath_gslot (g : Group) (k : Nat) (p : Path) : (g.setPath k p).gslot = g.gslot := rfl
@[simp] theorem Group.setPath_peak (g : Group) (k : Nat) (p : Path) : (g.setPath k p).peak = g.peak := rfl
@[simp] theorem Group.setPath_checked (g : Group) (k : Nat) (p : Path) : (g.setPath k p).checked = g.checked := rfl
@[simp] theorem Group.setPath_handler (g : Group) (k : Nat) (p : Path) : (g.setPath k p).handler = g.handler := rfl
@[simp] theorem Group.setPath_status (g : Group) (k : Nat) (p : Path) : (g.setPath k p).status = g.status := rfl
@[simp] theorem Group.setPath_lastIssue (g : Group) (k : Nat) (p : Path) : (g.setPath k p).lastIssue = g.lastIssue := rfl
@[simp] theorem Group.setPath_lastBeat (g : Group) (k : Nat) (p : Path) : (g.setPath k p).lastBeat = g.lastBeat := rfl
@[simp] theorem Group.setPath_front (g : Group) (k : Nat) (p : Path) : (g.setPath k p).front = g.front := rfl
@[simp] theorem Group.setPath_quiet (g : Group) (k : Nat) (p : Path) : (g.setPath k p).quiet = g.quiet := rfl
@[simp] theorem Group.setPath_moving (g : Group) (k : Nat) (p : Path) : (g.setPath k p).moving = g.moving := rfl
@[simp] theorem Group.setPath_lastSlot (g : Group) (k : Nat) (p : Path) : (g.setPath k p).lastSlot = g.lastSlot := rfl
@[simp] theorem Group.setPath_saves (g : Group) (k : Nat) (p : Path) : (g.setPath k p).saves = g.saves := rfl
@[simp] theorem Group.setPath_recs (g : Group) (k : Nat) (p : Path) : (g.setPath k p).recs = g.recs := rfl
@[simp] theorem Group.setPath_v (g : Group) (k : Nat) (p : Path) : (g.setPath k p).v = g.v := rfl
@[simp] theorem Group.setPath_mapped (g : Group) (k : Nat) (p : Path) : (g.setPath k p).mapped = g.mapped := rfl
@[simp] theorem Group.setPath_dkill (g : Group) (k : Nat) (p : Path) : (g.setPath k p).dkill = g.dkill := rfl
@[simp] theorem Group.setPath_vpois (g : Group) (k : Nat) (p : Path) : (g.setPath k p).vpois = g.vpois := rfl
@[simp] theorem Group.setPath_s (g : Group) (k : Nat) (p : Path) : (g.setPath k p).s = g.s := rfl
@[simp] theorem Group.setPath_spois (g : Group) (k : Nat) (p : Path) : (g.setPath k p).spois = g.spois := rfl
@[simp] theorem Group.setPath_p (g : Group) (k : Nat) (p : Path) : (g.setPath k p).p = g.p := rfl
@[simp] theorem Group.setPath_sp (g : Group) (k : Nat) (p : Path) : (g.setPath k p).sp = g.sp := rfl
@[simp] theorem Group.setPath_win (g : Group) (k : Nat) (p : Path) : (g.setPath k p).win = g.win := rfl
@[simp] theorem Group.setPath_it (g : Group) (k : Nat) (p : Path) : (g.setPath k p).it = g.it := rfl
@[simp] theorem Group.setPath_qm (g : Group) (k : Nat) (p : Path) : (g.setPath k p).qm = g.qm := rfl
@[simp] theorem Group.setPath_qx (g : Group) (k : Nat) (p : Path) : (g.setPath k p).qx = g.qx := rfl
@[simp] theorem Group.setPath_qk (g : Group) (k : Nat) (p : Path) : (g.setPath k p).qk = g.qk := rfl
@[simp] theorem Group.setPath_mkM (g : Group) (k : Nat) (p : Path) : (g.setPath k p).mkM = g.mkM := rfl
@[simp] theorem Group.setPath_mkX (g : Group) (k : Nat) (p : Path) : (g.setPath k p).mkX = g.mkX := rfl
@[simp] theorem Group.setPath_staged (g : Group) (k : Nat) (p : Path) : (g.setPath k p).staged = g.staged := rfl
@[simp] theorem Group.setPath_cLD (g : Group) (k : Nat) (p : Path) : (g.setPath k p).cLD = g.cLD := rfl
@[simp] theorem Group.setPath_cST (g : Group) (k : Nat) (p : Path) : (g.setPath k p).cST = g.cST := rfl
@[simp] theorem Group.setPath_cSP (g : Group) (k : Nat) (p : Path) : (g.setPath k p).cSP = g.cSP := rfl
@[simp] theorem Group.setPath_cCP (g : Group) (k : Nat) (p : Path) : (g.setPath k p).cCP = g.cCP := rfl
@[simp] theorem Group.setPath_cMX (g : Group) (k : Nat) (p : Path) : (g.setPath k p).cMX = g.cMX := rfl
@[simp] theorem Group.setPath_ops (g : Group) (k : Nat) (p : Path) : (g.setPath k p).ops = g.ops := rfl
@[simp] theorem Group.setPath_copies (g : Group) (k : Nat) (p : Path) : (g.setPath k p).copies = g.copies := rfl
@[simp] theorem Group.setPath_held (g : Group) (k : Nat) (p : Path) : (g.setPath k p).held = g.held := rfl
@[simp] theorem Group.setPath_regions (g : Group) (k : Nat) (p : Path) : (g.setPath k p).regions = g.regions := rfl
@[simp] theorem Group.setPath_exited (g : Group) (k : Nat) (p : Path) : (g.setPath k p).exited = g.exited := rfl
@[simp] theorem Group.setPath_helper (g : Group) (k : Nat) (p : Path) : (g.setPath k p).helper = g.helper := rfl
@[simp] theorem Group.setPath_world (g : Group) (k : Nat) (p : Path) : (g.setPath k p).world = g.world := rfl
@[simp] theorem Group.setPath_depth (g : Group) (k : Nat) (p : Path) : (g.setPath k p).depth = g.depth := rfl
@[simp] theorem Group.setPath_copy (g : Group) (k : Nat) (p : Path) : (g.setPath k p).copy = g.copy := rfl
@[simp] theorem Group.setPath_fork (g : Group) (k : Nat) (p : Path) : (g.setPath k p).fork = g.fork := rfl
@[simp] theorem Group.setPath_stalls (g : Group) (k : Nat) (p : Path) : (g.setPath k p).stalls = g.stalls := rfl
@[simp] theorem Group.setPath_issued (g : Group) (k : Nat) (p : Path) : (g.setPath k p).issued = g.issued := rfl
@[simp] theorem Group.setPath_key (g : Group) (k : Nat) (p : Path) : (g.setPath k p).key = g.key := rfl
@[simp] theorem Group.setPath_ctr (g : Group) (k : Nat) (p : Path) : (g.setPath k p).ctr = g.ctr := rfl
@[simp] theorem Group.setPath_setting (g : Group) (k : Nat) (p : Path) : (g.setPath k p).setting = g.setting := rfl
@[simp] theorem Group.setPath_stash (g : Group) (k : Nat) (p : Path) : (g.setPath k p).stash = g.stash := rfl
@[simp] theorem Group.setPath_lastSC (g : Group) (k : Nat) (p : Path) : (g.setPath k p).lastSC = g.lastSC := rfl
@[simp] theorem Group.setPath_ufence (g : Group) (k : Nat) (p : Path) : (g.setPath k p).ufence = g.ufence := rfl
@[simp] theorem Group.setPath_tid (g : Group) (k : Nat) (p : Path) : (g.setPath k p).tid = g.tid := rfl
@[simp] theorem Group.setPath_bsyncs (g : Group) (k : Nat) (p : Path) : (g.setPath k p).bsyncs = g.bsyncs := rfl
@[simp] theorem Group.setPath_atBsync (g : Group) (k : Nat) (p : Path) : (g.setPath k p).atBsync = g.atBsync := rfl
@[simp] theorem Group.setPath_reorders (g : Group) (k : Nat) (p : Path) : (g.setPath k p).reorders = g.reorders := rfl
@[simp] theorem Group.setPath_atReorder (g : Group) (k : Nat) (p : Path) : (g.setPath k p).atReorder = g.atReorder := rfl
@[simp] theorem Group.setPath_parkRec (g : Group) (k : Nat) (p : Path) : (g.setPath k p).parkRec = g.parkRec := rfl
@[simp] theorem Group.setPath_replay (g : Group) (k : Nat) (p : Path) : (g.setPath k p).replay = g.replay := rfl
@[simp] theorem Group.setPath_pair (g : Group) (k : Nat) (p : Path) : (g.setPath k p).pair = g.pair := rfl
@[simp] theorem Group.setPath_narrow (g : Group) (k : Nat) (p : Path) : (g.setPath k p).narrow = g.narrow := rfl
@[simp] theorem Group.countIssue_present (g : Group) (k t : Nat) : (g.countIssue k t).present = g.present := rfl
@[simp] theorem Group.countIssue_saved (g : Group) (k t : Nat) : (g.countIssue k t).saved = g.saved := rfl
@[simp] theorem Group.countIssue_part (g : Group) (k t : Nat) : (g.countIssue k t).part = g.part := rfl
@[simp] theorem Group.countIssue_blk (g : Group) (k t : Nat) : (g.countIssue k t).blk = g.blk := rfl
@[simp] theorem Group.countIssue_launch (g : Group) (k t : Nat) : (g.countIssue k t).launch = g.launch := rfl
@[simp] theorem Group.countIssue_code (g : Group) (k t : Nat) : (g.countIssue k t).code = g.code := rfl
@[simp] theorem Group.countIssue_space (g : Group) (k t : Nat) : (g.countIssue k t).space = g.space := rfl
@[simp] theorem Group.countIssue_gidx (g : Group) (k t : Nat) : (g.countIssue k t).gidx = g.gidx := rfl
@[simp] theorem Group.countIssue_width (g : Group) (k t : Nat) : (g.countIssue k t).width = g.width := rfl
@[simp] theorem Group.countIssue_core (g : Group) (k t : Nat) : (g.countIssue k t).core = g.core := rfl
@[simp] theorem Group.countIssue_cpart (g : Group) (k t : Nat) : (g.countIssue k t).cpart = g.cpart := rfl
@[simp] theorem Group.countIssue_gslot (g : Group) (k t : Nat) : (g.countIssue k t).gslot = g.gslot := rfl
@[simp] theorem Group.countIssue_peak (g : Group) (k t : Nat) : (g.countIssue k t).peak = g.peak := rfl
@[simp] theorem Group.countIssue_checked (g : Group) (k t : Nat) : (g.countIssue k t).checked = g.checked := rfl
@[simp] theorem Group.countIssue_handler (g : Group) (k t : Nat) : (g.countIssue k t).handler = g.handler := rfl
@[simp] theorem Group.countIssue_status (g : Group) (k t : Nat) : (g.countIssue k t).status = g.status := rfl
@[simp] theorem Group.countIssue_front (g : Group) (k t : Nat) : (g.countIssue k t).front = g.front := rfl
@[simp] theorem Group.countIssue_quiet (g : Group) (k t : Nat) : (g.countIssue k t).quiet = g.quiet := rfl
@[simp] theorem Group.countIssue_moving (g : Group) (k t : Nat) : (g.countIssue k t).moving = g.moving := rfl
@[simp] theorem Group.countIssue_stack (g : Group) (k t : Nat) : (g.countIssue k t).stack = g.stack := rfl
@[simp] theorem Group.countIssue_saves (g : Group) (k t : Nat) : (g.countIssue k t).saves = g.saves := rfl
@[simp] theorem Group.countIssue_recs (g : Group) (k t : Nat) : (g.countIssue k t).recs = g.recs := rfl
@[simp] theorem Group.countIssue_v (g : Group) (k t : Nat) : (g.countIssue k t).v = g.v := rfl
@[simp] theorem Group.countIssue_mapped (g : Group) (k t : Nat) : (g.countIssue k t).mapped = g.mapped := rfl
@[simp] theorem Group.countIssue_dkill (g : Group) (k t : Nat) : (g.countIssue k t).dkill = g.dkill := rfl
@[simp] theorem Group.countIssue_vpois (g : Group) (k t : Nat) : (g.countIssue k t).vpois = g.vpois := rfl
@[simp] theorem Group.countIssue_s (g : Group) (k t : Nat) : (g.countIssue k t).s = g.s := rfl
@[simp] theorem Group.countIssue_spois (g : Group) (k t : Nat) : (g.countIssue k t).spois = g.spois := rfl
@[simp] theorem Group.countIssue_p (g : Group) (k t : Nat) : (g.countIssue k t).p = g.p := rfl
@[simp] theorem Group.countIssue_sp (g : Group) (k t : Nat) : (g.countIssue k t).sp = g.sp := rfl
@[simp] theorem Group.countIssue_win (g : Group) (k t : Nat) : (g.countIssue k t).win = g.win := rfl
@[simp] theorem Group.countIssue_it (g : Group) (k t : Nat) : (g.countIssue k t).it = g.it := rfl
@[simp] theorem Group.countIssue_qm (g : Group) (k t : Nat) : (g.countIssue k t).qm = g.qm := rfl
@[simp] theorem Group.countIssue_qx (g : Group) (k t : Nat) : (g.countIssue k t).qx = g.qx := rfl
@[simp] theorem Group.countIssue_qk (g : Group) (k t : Nat) : (g.countIssue k t).qk = g.qk := rfl
@[simp] theorem Group.countIssue_mkM (g : Group) (k t : Nat) : (g.countIssue k t).mkM = g.mkM := rfl
@[simp] theorem Group.countIssue_mkX (g : Group) (k t : Nat) : (g.countIssue k t).mkX = g.mkX := rfl
@[simp] theorem Group.countIssue_staged (g : Group) (k t : Nat) : (g.countIssue k t).staged = g.staged := rfl
@[simp] theorem Group.countIssue_cLD (g : Group) (k t : Nat) : (g.countIssue k t).cLD = g.cLD := rfl
@[simp] theorem Group.countIssue_cST (g : Group) (k t : Nat) : (g.countIssue k t).cST = g.cST := rfl
@[simp] theorem Group.countIssue_cSP (g : Group) (k t : Nat) : (g.countIssue k t).cSP = g.cSP := rfl
@[simp] theorem Group.countIssue_cCP (g : Group) (k t : Nat) : (g.countIssue k t).cCP = g.cCP := rfl
@[simp] theorem Group.countIssue_cMX (g : Group) (k t : Nat) : (g.countIssue k t).cMX = g.cMX := rfl
@[simp] theorem Group.countIssue_ops (g : Group) (k t : Nat) : (g.countIssue k t).ops = g.ops := rfl
@[simp] theorem Group.countIssue_copies (g : Group) (k t : Nat) : (g.countIssue k t).copies = g.copies := rfl
@[simp] theorem Group.countIssue_held (g : Group) (k t : Nat) : (g.countIssue k t).held = g.held := rfl
@[simp] theorem Group.countIssue_regions (g : Group) (k t : Nat) : (g.countIssue k t).regions = g.regions := rfl
@[simp] theorem Group.countIssue_exited (g : Group) (k t : Nat) : (g.countIssue k t).exited = g.exited := rfl
@[simp] theorem Group.countIssue_helper (g : Group) (k t : Nat) : (g.countIssue k t).helper = g.helper := rfl
@[simp] theorem Group.countIssue_world (g : Group) (k t : Nat) : (g.countIssue k t).world = g.world := rfl
@[simp] theorem Group.countIssue_depth (g : Group) (k t : Nat) : (g.countIssue k t).depth = g.depth := rfl
@[simp] theorem Group.countIssue_copy (g : Group) (k t : Nat) : (g.countIssue k t).copy = g.copy := rfl
@[simp] theorem Group.countIssue_fork (g : Group) (k t : Nat) : (g.countIssue k t).fork = g.fork := rfl
@[simp] theorem Group.countIssue_stalls (g : Group) (k t : Nat) : (g.countIssue k t).stalls = g.stalls := rfl
@[simp] theorem Group.countIssue_key (g : Group) (k t : Nat) : (g.countIssue k t).key = g.key := rfl
@[simp] theorem Group.countIssue_ctr (g : Group) (k t : Nat) : (g.countIssue k t).ctr = g.ctr := rfl
@[simp] theorem Group.countIssue_setting (g : Group) (k t : Nat) : (g.countIssue k t).setting = g.setting := rfl
@[simp] theorem Group.countIssue_stash (g : Group) (k t : Nat) : (g.countIssue k t).stash = g.stash := rfl
@[simp] theorem Group.countIssue_lastSC (g : Group) (k t : Nat) : (g.countIssue k t).lastSC = g.lastSC := rfl
@[simp] theorem Group.countIssue_ufence (g : Group) (k t : Nat) : (g.countIssue k t).ufence = g.ufence := rfl
@[simp] theorem Group.countIssue_tid (g : Group) (k t : Nat) : (g.countIssue k t).tid = g.tid := rfl
@[simp] theorem Group.countIssue_bsyncs (g : Group) (k t : Nat) : (g.countIssue k t).bsyncs = g.bsyncs := rfl
@[simp] theorem Group.countIssue_atBsync (g : Group) (k t : Nat) : (g.countIssue k t).atBsync = g.atBsync := rfl
@[simp] theorem Group.countIssue_reorders (g : Group) (k t : Nat) : (g.countIssue k t).reorders = g.reorders := rfl
@[simp] theorem Group.countIssue_atReorder (g : Group) (k t : Nat) : (g.countIssue k t).atReorder = g.atReorder := rfl
@[simp] theorem Group.countIssue_parkRec (g : Group) (k t : Nat) : (g.countIssue k t).parkRec = g.parkRec := rfl
@[simp] theorem Group.countIssue_replay (g : Group) (k t : Nat) : (g.countIssue k t).replay = g.replay := rfl
@[simp] theorem Group.countIssue_pair (g : Group) (k t : Nat) : (g.countIssue k t).pair = g.pair := rfl
@[simp] theorem Group.countIssue_narrow (g : Group) (k t : Nat) : (g.countIssue k t).narrow = g.narrow := rfl
@[simp] theorem Group.restack_present (g : Group) (st : List Path) : (g.restack st).present = g.present := rfl
@[simp] theorem Group.restack_saved (g : Group) (st : List Path) : (g.restack st).saved = g.saved := rfl
@[simp] theorem Group.restack_part (g : Group) (st : List Path) : (g.restack st).part = g.part := rfl
@[simp] theorem Group.restack_blk (g : Group) (st : List Path) : (g.restack st).blk = g.blk := rfl
@[simp] theorem Group.restack_launch (g : Group) (st : List Path) : (g.restack st).launch = g.launch := rfl
@[simp] theorem Group.restack_code (g : Group) (st : List Path) : (g.restack st).code = g.code := rfl
@[simp] theorem Group.restack_space (g : Group) (st : List Path) : (g.restack st).space = g.space := rfl
@[simp] theorem Group.restack_gidx (g : Group) (st : List Path) : (g.restack st).gidx = g.gidx := rfl
@[simp] theorem Group.restack_width (g : Group) (st : List Path) : (g.restack st).width = g.width := rfl
@[simp] theorem Group.restack_core (g : Group) (st : List Path) : (g.restack st).core = g.core := rfl
@[simp] theorem Group.restack_cpart (g : Group) (st : List Path) : (g.restack st).cpart = g.cpart := rfl
@[simp] theorem Group.restack_gslot (g : Group) (st : List Path) : (g.restack st).gslot = g.gslot := rfl
@[simp] theorem Group.restack_peak (g : Group) (st : List Path) : (g.restack st).peak = g.peak := rfl
@[simp] theorem Group.restack_checked (g : Group) (st : List Path) : (g.restack st).checked = g.checked := rfl
@[simp] theorem Group.restack_handler (g : Group) (st : List Path) : (g.restack st).handler = g.handler := rfl
@[simp] theorem Group.restack_status (g : Group) (st : List Path) : (g.restack st).status = g.status := rfl
@[simp] theorem Group.restack_lastIssue (g : Group) (st : List Path) : (g.restack st).lastIssue = g.lastIssue := rfl
@[simp] theorem Group.restack_lastBeat (g : Group) (st : List Path) : (g.restack st).lastBeat = g.lastBeat := rfl
@[simp] theorem Group.restack_front (g : Group) (st : List Path) : (g.restack st).front = g.front := rfl
@[simp] theorem Group.restack_quiet (g : Group) (st : List Path) : (g.restack st).quiet = g.quiet := rfl
@[simp] theorem Group.restack_lastSlot (g : Group) (st : List Path) : (g.restack st).lastSlot = g.lastSlot := rfl
@[simp] theorem Group.restack_saves (g : Group) (st : List Path) : (g.restack st).saves = g.saves := rfl
@[simp] theorem Group.restack_recs (g : Group) (st : List Path) : (g.restack st).recs = g.recs := rfl
@[simp] theorem Group.restack_v (g : Group) (st : List Path) : (g.restack st).v = g.v := rfl
@[simp] theorem Group.restack_mapped (g : Group) (st : List Path) : (g.restack st).mapped = g.mapped := rfl
@[simp] theorem Group.restack_dkill (g : Group) (st : List Path) : (g.restack st).dkill = g.dkill := rfl
@[simp] theorem Group.restack_vpois (g : Group) (st : List Path) : (g.restack st).vpois = g.vpois := rfl
@[simp] theorem Group.restack_s (g : Group) (st : List Path) : (g.restack st).s = g.s := rfl
@[simp] theorem Group.restack_spois (g : Group) (st : List Path) : (g.restack st).spois = g.spois := rfl
@[simp] theorem Group.restack_p (g : Group) (st : List Path) : (g.restack st).p = g.p := rfl
@[simp] theorem Group.restack_sp (g : Group) (st : List Path) : (g.restack st).sp = g.sp := rfl
@[simp] theorem Group.restack_win (g : Group) (st : List Path) : (g.restack st).win = g.win := rfl
@[simp] theorem Group.restack_it (g : Group) (st : List Path) : (g.restack st).it = g.it := rfl
@[simp] theorem Group.restack_qm (g : Group) (st : List Path) : (g.restack st).qm = g.qm := rfl
@[simp] theorem Group.restack_qx (g : Group) (st : List Path) : (g.restack st).qx = g.qx := rfl
@[simp] theorem Group.restack_qk (g : Group) (st : List Path) : (g.restack st).qk = g.qk := rfl
@[simp] theorem Group.restack_mkM (g : Group) (st : List Path) : (g.restack st).mkM = g.mkM := rfl
@[simp] theorem Group.restack_mkX (g : Group) (st : List Path) : (g.restack st).mkX = g.mkX := rfl
@[simp] theorem Group.restack_staged (g : Group) (st : List Path) : (g.restack st).staged = g.staged := rfl
@[simp] theorem Group.restack_cLD (g : Group) (st : List Path) : (g.restack st).cLD = g.cLD := rfl
@[simp] theorem Group.restack_cST (g : Group) (st : List Path) : (g.restack st).cST = g.cST := rfl
@[simp] theorem Group.restack_cSP (g : Group) (st : List Path) : (g.restack st).cSP = g.cSP := rfl
@[simp] theorem Group.restack_cCP (g : Group) (st : List Path) : (g.restack st).cCP = g.cCP := rfl
@[simp] theorem Group.restack_cMX (g : Group) (st : List Path) : (g.restack st).cMX = g.cMX := rfl
@[simp] theorem Group.restack_ops (g : Group) (st : List Path) : (g.restack st).ops = g.ops := rfl
@[simp] theorem Group.restack_copies (g : Group) (st : List Path) : (g.restack st).copies = g.copies := rfl
@[simp] theorem Group.restack_held (g : Group) (st : List Path) : (g.restack st).held = g.held := rfl
@[simp] theorem Group.restack_regions (g : Group) (st : List Path) : (g.restack st).regions = g.regions := rfl
@[simp] theorem Group.restack_exited (g : Group) (st : List Path) : (g.restack st).exited = g.exited := rfl
@[simp] theorem Group.restack_helper (g : Group) (st : List Path) : (g.restack st).helper = g.helper := rfl
@[simp] theorem Group.restack_world (g : Group) (st : List Path) : (g.restack st).world = g.world := rfl
@[simp] theorem Group.restack_depth (g : Group) (st : List Path) : (g.restack st).depth = g.depth := rfl
@[simp] theorem Group.restack_copy (g : Group) (st : List Path) : (g.restack st).copy = g.copy := rfl
@[simp] theorem Group.restack_fork (g : Group) (st : List Path) : (g.restack st).fork = g.fork := rfl
@[simp] theorem Group.restack_stalls (g : Group) (st : List Path) : (g.restack st).stalls = g.stalls := rfl
@[simp] theorem Group.restack_issued (g : Group) (st : List Path) : (g.restack st).issued = g.issued := rfl
@[simp] theorem Group.restack_key (g : Group) (st : List Path) : (g.restack st).key = g.key := rfl
@[simp] theorem Group.restack_ctr (g : Group) (st : List Path) : (g.restack st).ctr = g.ctr := rfl
@[simp] theorem Group.restack_setting (g : Group) (st : List Path) : (g.restack st).setting = g.setting := rfl
@[simp] theorem Group.restack_stash (g : Group) (st : List Path) : (g.restack st).stash = g.stash := rfl
@[simp] theorem Group.restack_lastSC (g : Group) (st : List Path) : (g.restack st).lastSC = g.lastSC := rfl
@[simp] theorem Group.restack_ufence (g : Group) (st : List Path) : (g.restack st).ufence = g.ufence := rfl
@[simp] theorem Group.restack_tid (g : Group) (st : List Path) : (g.restack st).tid = g.tid := rfl
@[simp] theorem Group.restack_bsyncs (g : Group) (st : List Path) : (g.restack st).bsyncs = g.bsyncs := rfl
@[simp] theorem Group.restack_atBsync (g : Group) (st : List Path) : (g.restack st).atBsync = g.atBsync := rfl
@[simp] theorem Group.restack_reorders (g : Group) (st : List Path) : (g.restack st).reorders = g.reorders := rfl
@[simp] theorem Group.restack_atReorder (g : Group) (st : List Path) : (g.restack st).atReorder = g.atReorder := rfl
@[simp] theorem Group.restack_parkRec (g : Group) (st : List Path) : (g.restack st).parkRec = g.parkRec := rfl
@[simp] theorem Group.restack_replay (g : Group) (st : List Path) : (g.restack st).replay = g.replay := rfl
@[simp] theorem Group.restack_pair (g : Group) (st : List Path) : (g.restack st).pair = g.pair := rfl
@[simp] theorem Group.restack_narrow (g : Group) (st : List Path) : (g.restack st).narrow = g.narrow := rfl
@[simp] theorem Group.wrV_present (g : Group) (n l : Nat) (x : Word) : (g.wrV n l x).present = g.present := rfl
@[simp] theorem Group.wrV_saved (g : Group) (n l : Nat) (x : Word) : (g.wrV n l x).saved = g.saved := rfl
@[simp] theorem Group.wrV_part (g : Group) (n l : Nat) (x : Word) : (g.wrV n l x).part = g.part := rfl
@[simp] theorem Group.wrV_blk (g : Group) (n l : Nat) (x : Word) : (g.wrV n l x).blk = g.blk := rfl
@[simp] theorem Group.wrV_launch (g : Group) (n l : Nat) (x : Word) : (g.wrV n l x).launch = g.launch := rfl
@[simp] theorem Group.wrV_code (g : Group) (n l : Nat) (x : Word) : (g.wrV n l x).code = g.code := rfl
@[simp] theorem Group.wrV_space (g : Group) (n l : Nat) (x : Word) : (g.wrV n l x).space = g.space := rfl
@[simp] theorem Group.wrV_gidx (g : Group) (n l : Nat) (x : Word) : (g.wrV n l x).gidx = g.gidx := rfl
@[simp] theorem Group.wrV_width (g : Group) (n l : Nat) (x : Word) : (g.wrV n l x).width = g.width := rfl
@[simp] theorem Group.wrV_core (g : Group) (n l : Nat) (x : Word) : (g.wrV n l x).core = g.core := rfl
@[simp] theorem Group.wrV_cpart (g : Group) (n l : Nat) (x : Word) : (g.wrV n l x).cpart = g.cpart := rfl
@[simp] theorem Group.wrV_gslot (g : Group) (n l : Nat) (x : Word) : (g.wrV n l x).gslot = g.gslot := rfl
@[simp] theorem Group.wrV_peak (g : Group) (n l : Nat) (x : Word) : (g.wrV n l x).peak = g.peak := rfl
@[simp] theorem Group.wrV_checked (g : Group) (n l : Nat) (x : Word) : (g.wrV n l x).checked = g.checked := rfl
@[simp] theorem Group.wrV_handler (g : Group) (n l : Nat) (x : Word) : (g.wrV n l x).handler = g.handler := rfl
@[simp] theorem Group.wrV_status (g : Group) (n l : Nat) (x : Word) : (g.wrV n l x).status = g.status := rfl
@[simp] theorem Group.wrV_lastIssue (g : Group) (n l : Nat) (x : Word) : (g.wrV n l x).lastIssue = g.lastIssue := rfl
@[simp] theorem Group.wrV_lastBeat (g : Group) (n l : Nat) (x : Word) : (g.wrV n l x).lastBeat = g.lastBeat := rfl
@[simp] theorem Group.wrV_front (g : Group) (n l : Nat) (x : Word) : (g.wrV n l x).front = g.front := rfl
@[simp] theorem Group.wrV_quiet (g : Group) (n l : Nat) (x : Word) : (g.wrV n l x).quiet = g.quiet := rfl
@[simp] theorem Group.wrV_moving (g : Group) (n l : Nat) (x : Word) : (g.wrV n l x).moving = g.moving := rfl
@[simp] theorem Group.wrV_lastSlot (g : Group) (n l : Nat) (x : Word) : (g.wrV n l x).lastSlot = g.lastSlot := rfl
@[simp] theorem Group.wrV_stack (g : Group) (n l : Nat) (x : Word) : (g.wrV n l x).stack = g.stack := rfl
@[simp] theorem Group.wrV_saves (g : Group) (n l : Nat) (x : Word) : (g.wrV n l x).saves = g.saves := rfl
@[simp] theorem Group.wrV_recs (g : Group) (n l : Nat) (x : Word) : (g.wrV n l x).recs = g.recs := rfl
@[simp] theorem Group.wrV_dkill (g : Group) (n l : Nat) (x : Word) : (g.wrV n l x).dkill = g.dkill := rfl
@[simp] theorem Group.wrV_s (g : Group) (n l : Nat) (x : Word) : (g.wrV n l x).s = g.s := rfl
@[simp] theorem Group.wrV_spois (g : Group) (n l : Nat) (x : Word) : (g.wrV n l x).spois = g.spois := rfl
@[simp] theorem Group.wrV_p (g : Group) (n l : Nat) (x : Word) : (g.wrV n l x).p = g.p := rfl
@[simp] theorem Group.wrV_sp (g : Group) (n l : Nat) (x : Word) : (g.wrV n l x).sp = g.sp := rfl
@[simp] theorem Group.wrV_win (g : Group) (n l : Nat) (x : Word) : (g.wrV n l x).win = g.win := rfl
@[simp] theorem Group.wrV_it (g : Group) (n l : Nat) (x : Word) : (g.wrV n l x).it = g.it := rfl
@[simp] theorem Group.wrV_qm (g : Group) (n l : Nat) (x : Word) : (g.wrV n l x).qm = g.qm := rfl
@[simp] theorem Group.wrV_qx (g : Group) (n l : Nat) (x : Word) : (g.wrV n l x).qx = g.qx := rfl
@[simp] theorem Group.wrV_qk (g : Group) (n l : Nat) (x : Word) : (g.wrV n l x).qk = g.qk := rfl
@[simp] theorem Group.wrV_mkM (g : Group) (n l : Nat) (x : Word) : (g.wrV n l x).mkM = g.mkM := rfl
@[simp] theorem Group.wrV_mkX (g : Group) (n l : Nat) (x : Word) : (g.wrV n l x).mkX = g.mkX := rfl
@[simp] theorem Group.wrV_staged (g : Group) (n l : Nat) (x : Word) : (g.wrV n l x).staged = g.staged := rfl
@[simp] theorem Group.wrV_cLD (g : Group) (n l : Nat) (x : Word) : (g.wrV n l x).cLD = g.cLD := rfl
@[simp] theorem Group.wrV_cST (g : Group) (n l : Nat) (x : Word) : (g.wrV n l x).cST = g.cST := rfl
@[simp] theorem Group.wrV_cSP (g : Group) (n l : Nat) (x : Word) : (g.wrV n l x).cSP = g.cSP := rfl
@[simp] theorem Group.wrV_cCP (g : Group) (n l : Nat) (x : Word) : (g.wrV n l x).cCP = g.cCP := rfl
@[simp] theorem Group.wrV_cMX (g : Group) (n l : Nat) (x : Word) : (g.wrV n l x).cMX = g.cMX := rfl
@[simp] theorem Group.wrV_ops (g : Group) (n l : Nat) (x : Word) : (g.wrV n l x).ops = g.ops := rfl
@[simp] theorem Group.wrV_copies (g : Group) (n l : Nat) (x : Word) : (g.wrV n l x).copies = g.copies := rfl
@[simp] theorem Group.wrV_held (g : Group) (n l : Nat) (x : Word) : (g.wrV n l x).held = g.held := rfl
@[simp] theorem Group.wrV_regions (g : Group) (n l : Nat) (x : Word) : (g.wrV n l x).regions = g.regions := rfl
@[simp] theorem Group.wrV_exited (g : Group) (n l : Nat) (x : Word) : (g.wrV n l x).exited = g.exited := rfl
@[simp] theorem Group.wrV_helper (g : Group) (n l : Nat) (x : Word) : (g.wrV n l x).helper = g.helper := rfl
@[simp] theorem Group.wrV_world (g : Group) (n l : Nat) (x : Word) : (g.wrV n l x).world = g.world := rfl
@[simp] theorem Group.wrV_depth (g : Group) (n l : Nat) (x : Word) : (g.wrV n l x).depth = g.depth := rfl
@[simp] theorem Group.wrV_copy (g : Group) (n l : Nat) (x : Word) : (g.wrV n l x).copy = g.copy := rfl
@[simp] theorem Group.wrV_fork (g : Group) (n l : Nat) (x : Word) : (g.wrV n l x).fork = g.fork := rfl
@[simp] theorem Group.wrV_stalls (g : Group) (n l : Nat) (x : Word) : (g.wrV n l x).stalls = g.stalls := rfl
@[simp] theorem Group.wrV_issued (g : Group) (n l : Nat) (x : Word) : (g.wrV n l x).issued = g.issued := rfl
@[simp] theorem Group.wrV_key (g : Group) (n l : Nat) (x : Word) : (g.wrV n l x).key = g.key := rfl
@[simp] theorem Group.wrV_ctr (g : Group) (n l : Nat) (x : Word) : (g.wrV n l x).ctr = g.ctr := rfl
@[simp] theorem Group.wrV_setting (g : Group) (n l : Nat) (x : Word) : (g.wrV n l x).setting = g.setting := rfl
@[simp] theorem Group.wrV_stash (g : Group) (n l : Nat) (x : Word) : (g.wrV n l x).stash = g.stash := rfl
@[simp] theorem Group.wrV_lastSC (g : Group) (n l : Nat) (x : Word) : (g.wrV n l x).lastSC = g.lastSC := rfl
@[simp] theorem Group.wrV_ufence (g : Group) (n l : Nat) (x : Word) : (g.wrV n l x).ufence = g.ufence := rfl
@[simp] theorem Group.wrV_tid (g : Group) (n l : Nat) (x : Word) : (g.wrV n l x).tid = g.tid := rfl
@[simp] theorem Group.wrV_bsyncs (g : Group) (n l : Nat) (x : Word) : (g.wrV n l x).bsyncs = g.bsyncs := rfl
@[simp] theorem Group.wrV_atBsync (g : Group) (n l : Nat) (x : Word) : (g.wrV n l x).atBsync = g.atBsync := rfl
@[simp] theorem Group.wrV_reorders (g : Group) (n l : Nat) (x : Word) : (g.wrV n l x).reorders = g.reorders := rfl
@[simp] theorem Group.wrV_atReorder (g : Group) (n l : Nat) (x : Word) : (g.wrV n l x).atReorder = g.atReorder := rfl
@[simp] theorem Group.wrV_parkRec (g : Group) (n l : Nat) (x : Word) : (g.wrV n l x).parkRec = g.parkRec := rfl
@[simp] theorem Group.wrV_replay (g : Group) (n l : Nat) (x : Word) : (g.wrV n l x).replay = g.replay := rfl
@[simp] theorem Group.wrV_pair (g : Group) (n l : Nat) (x : Word) : (g.wrV n l x).pair = g.pair := rfl
@[simp] theorem Group.wrV_narrow (g : Group) (n l : Nat) (x : Word) : (g.wrV n l x).narrow = g.narrow := rfl
@[simp] theorem Group.wrS_present (g : Group) (n : Nat) (x : Word) : (g.wrS n x).present = g.present := rfl
@[simp] theorem Group.wrS_saved (g : Group) (n : Nat) (x : Word) : (g.wrS n x).saved = g.saved := rfl
@[simp] theorem Group.wrS_part (g : Group) (n : Nat) (x : Word) : (g.wrS n x).part = g.part := rfl
@[simp] theorem Group.wrS_blk (g : Group) (n : Nat) (x : Word) : (g.wrS n x).blk = g.blk := rfl
@[simp] theorem Group.wrS_launch (g : Group) (n : Nat) (x : Word) : (g.wrS n x).launch = g.launch := rfl
@[simp] theorem Group.wrS_code (g : Group) (n : Nat) (x : Word) : (g.wrS n x).code = g.code := rfl
@[simp] theorem Group.wrS_space (g : Group) (n : Nat) (x : Word) : (g.wrS n x).space = g.space := rfl
@[simp] theorem Group.wrS_gidx (g : Group) (n : Nat) (x : Word) : (g.wrS n x).gidx = g.gidx := rfl
@[simp] theorem Group.wrS_width (g : Group) (n : Nat) (x : Word) : (g.wrS n x).width = g.width := rfl
@[simp] theorem Group.wrS_core (g : Group) (n : Nat) (x : Word) : (g.wrS n x).core = g.core := rfl
@[simp] theorem Group.wrS_cpart (g : Group) (n : Nat) (x : Word) : (g.wrS n x).cpart = g.cpart := rfl
@[simp] theorem Group.wrS_gslot (g : Group) (n : Nat) (x : Word) : (g.wrS n x).gslot = g.gslot := rfl
@[simp] theorem Group.wrS_peak (g : Group) (n : Nat) (x : Word) : (g.wrS n x).peak = g.peak := rfl
@[simp] theorem Group.wrS_checked (g : Group) (n : Nat) (x : Word) : (g.wrS n x).checked = g.checked := rfl
@[simp] theorem Group.wrS_handler (g : Group) (n : Nat) (x : Word) : (g.wrS n x).handler = g.handler := rfl
@[simp] theorem Group.wrS_status (g : Group) (n : Nat) (x : Word) : (g.wrS n x).status = g.status := rfl
@[simp] theorem Group.wrS_lastIssue (g : Group) (n : Nat) (x : Word) : (g.wrS n x).lastIssue = g.lastIssue := rfl
@[simp] theorem Group.wrS_lastBeat (g : Group) (n : Nat) (x : Word) : (g.wrS n x).lastBeat = g.lastBeat := rfl
@[simp] theorem Group.wrS_front (g : Group) (n : Nat) (x : Word) : (g.wrS n x).front = g.front := rfl
@[simp] theorem Group.wrS_quiet (g : Group) (n : Nat) (x : Word) : (g.wrS n x).quiet = g.quiet := rfl
@[simp] theorem Group.wrS_moving (g : Group) (n : Nat) (x : Word) : (g.wrS n x).moving = g.moving := rfl
@[simp] theorem Group.wrS_lastSlot (g : Group) (n : Nat) (x : Word) : (g.wrS n x).lastSlot = g.lastSlot := rfl
@[simp] theorem Group.wrS_stack (g : Group) (n : Nat) (x : Word) : (g.wrS n x).stack = g.stack := rfl
@[simp] theorem Group.wrS_saves (g : Group) (n : Nat) (x : Word) : (g.wrS n x).saves = g.saves := rfl
@[simp] theorem Group.wrS_recs (g : Group) (n : Nat) (x : Word) : (g.wrS n x).recs = g.recs := rfl
@[simp] theorem Group.wrS_v (g : Group) (n : Nat) (x : Word) : (g.wrS n x).v = g.v := rfl
@[simp] theorem Group.wrS_mapped (g : Group) (n : Nat) (x : Word) : (g.wrS n x).mapped = g.mapped := rfl
@[simp] theorem Group.wrS_dkill (g : Group) (n : Nat) (x : Word) : (g.wrS n x).dkill = g.dkill := rfl
@[simp] theorem Group.wrS_vpois (g : Group) (n : Nat) (x : Word) : (g.wrS n x).vpois = g.vpois := rfl
@[simp] theorem Group.wrS_p (g : Group) (n : Nat) (x : Word) : (g.wrS n x).p = g.p := rfl
@[simp] theorem Group.wrS_sp (g : Group) (n : Nat) (x : Word) : (g.wrS n x).sp = g.sp := rfl
@[simp] theorem Group.wrS_win (g : Group) (n : Nat) (x : Word) : (g.wrS n x).win = g.win := rfl
@[simp] theorem Group.wrS_it (g : Group) (n : Nat) (x : Word) : (g.wrS n x).it = g.it := rfl
@[simp] theorem Group.wrS_qm (g : Group) (n : Nat) (x : Word) : (g.wrS n x).qm = g.qm := rfl
@[simp] theorem Group.wrS_qx (g : Group) (n : Nat) (x : Word) : (g.wrS n x).qx = g.qx := rfl
@[simp] theorem Group.wrS_qk (g : Group) (n : Nat) (x : Word) : (g.wrS n x).qk = g.qk := rfl
@[simp] theorem Group.wrS_mkM (g : Group) (n : Nat) (x : Word) : (g.wrS n x).mkM = g.mkM := rfl
@[simp] theorem Group.wrS_mkX (g : Group) (n : Nat) (x : Word) : (g.wrS n x).mkX = g.mkX := rfl
@[simp] theorem Group.wrS_staged (g : Group) (n : Nat) (x : Word) : (g.wrS n x).staged = g.staged := rfl
@[simp] theorem Group.wrS_cLD (g : Group) (n : Nat) (x : Word) : (g.wrS n x).cLD = g.cLD := rfl
@[simp] theorem Group.wrS_cST (g : Group) (n : Nat) (x : Word) : (g.wrS n x).cST = g.cST := rfl
@[simp] theorem Group.wrS_cSP (g : Group) (n : Nat) (x : Word) : (g.wrS n x).cSP = g.cSP := rfl
@[simp] theorem Group.wrS_cCP (g : Group) (n : Nat) (x : Word) : (g.wrS n x).cCP = g.cCP := rfl
@[simp] theorem Group.wrS_cMX (g : Group) (n : Nat) (x : Word) : (g.wrS n x).cMX = g.cMX := rfl
@[simp] theorem Group.wrS_ops (g : Group) (n : Nat) (x : Word) : (g.wrS n x).ops = g.ops := rfl
@[simp] theorem Group.wrS_copies (g : Group) (n : Nat) (x : Word) : (g.wrS n x).copies = g.copies := rfl
@[simp] theorem Group.wrS_held (g : Group) (n : Nat) (x : Word) : (g.wrS n x).held = g.held := rfl
@[simp] theorem Group.wrS_regions (g : Group) (n : Nat) (x : Word) : (g.wrS n x).regions = g.regions := rfl
@[simp] theorem Group.wrS_exited (g : Group) (n : Nat) (x : Word) : (g.wrS n x).exited = g.exited := rfl
@[simp] theorem Group.wrS_helper (g : Group) (n : Nat) (x : Word) : (g.wrS n x).helper = g.helper := rfl
@[simp] theorem Group.wrS_world (g : Group) (n : Nat) (x : Word) : (g.wrS n x).world = g.world := rfl
@[simp] theorem Group.wrS_depth (g : Group) (n : Nat) (x : Word) : (g.wrS n x).depth = g.depth := rfl
@[simp] theorem Group.wrS_copy (g : Group) (n : Nat) (x : Word) : (g.wrS n x).copy = g.copy := rfl
@[simp] theorem Group.wrS_fork (g : Group) (n : Nat) (x : Word) : (g.wrS n x).fork = g.fork := rfl
@[simp] theorem Group.wrS_stalls (g : Group) (n : Nat) (x : Word) : (g.wrS n x).stalls = g.stalls := rfl
@[simp] theorem Group.wrS_issued (g : Group) (n : Nat) (x : Word) : (g.wrS n x).issued = g.issued := rfl
@[simp] theorem Group.wrS_key (g : Group) (n : Nat) (x : Word) : (g.wrS n x).key = g.key := rfl
@[simp] theorem Group.wrS_ctr (g : Group) (n : Nat) (x : Word) : (g.wrS n x).ctr = g.ctr := rfl
@[simp] theorem Group.wrS_setting (g : Group) (n : Nat) (x : Word) : (g.wrS n x).setting = g.setting := rfl
@[simp] theorem Group.wrS_stash (g : Group) (n : Nat) (x : Word) : (g.wrS n x).stash = g.stash := rfl
@[simp] theorem Group.wrS_lastSC (g : Group) (n : Nat) (x : Word) : (g.wrS n x).lastSC = g.lastSC := rfl
@[simp] theorem Group.wrS_ufence (g : Group) (n : Nat) (x : Word) : (g.wrS n x).ufence = g.ufence := rfl
@[simp] theorem Group.wrS_tid (g : Group) (n : Nat) (x : Word) : (g.wrS n x).tid = g.tid := rfl
@[simp] theorem Group.wrS_bsyncs (g : Group) (n : Nat) (x : Word) : (g.wrS n x).bsyncs = g.bsyncs := rfl
@[simp] theorem Group.wrS_atBsync (g : Group) (n : Nat) (x : Word) : (g.wrS n x).atBsync = g.atBsync := rfl
@[simp] theorem Group.wrS_reorders (g : Group) (n : Nat) (x : Word) : (g.wrS n x).reorders = g.reorders := rfl
@[simp] theorem Group.wrS_atReorder (g : Group) (n : Nat) (x : Word) : (g.wrS n x).atReorder = g.atReorder := rfl
@[simp] theorem Group.wrS_parkRec (g : Group) (n : Nat) (x : Word) : (g.wrS n x).parkRec = g.parkRec := rfl
@[simp] theorem Group.wrS_replay (g : Group) (n : Nat) (x : Word) : (g.wrS n x).replay = g.replay := rfl
@[simp] theorem Group.wrS_pair (g : Group) (n : Nat) (x : Word) : (g.wrS n x).pair = g.pair := rfl
@[simp] theorem Group.wrS_narrow (g : Group) (n : Nat) (x : Word) : (g.wrS n x).narrow = g.narrow := rfl
@[simp] theorem Group.wrSp_present (g : Group) (n : Nat) (b : Bool) : (g.wrSp n b).present = g.present := rfl
@[simp] theorem Group.wrSp_saved (g : Group) (n : Nat) (b : Bool) : (g.wrSp n b).saved = g.saved := rfl
@[simp] theorem Group.wrSp_part (g : Group) (n : Nat) (b : Bool) : (g.wrSp n b).part = g.part := rfl
@[simp] theorem Group.wrSp_blk (g : Group) (n : Nat) (b : Bool) : (g.wrSp n b).blk = g.blk := rfl
@[simp] theorem Group.wrSp_launch (g : Group) (n : Nat) (b : Bool) : (g.wrSp n b).launch = g.launch := rfl
@[simp] theorem Group.wrSp_code (g : Group) (n : Nat) (b : Bool) : (g.wrSp n b).code = g.code := rfl
@[simp] theorem Group.wrSp_space (g : Group) (n : Nat) (b : Bool) : (g.wrSp n b).space = g.space := rfl
@[simp] theorem Group.wrSp_gidx (g : Group) (n : Nat) (b : Bool) : (g.wrSp n b).gidx = g.gidx := rfl
@[simp] theorem Group.wrSp_width (g : Group) (n : Nat) (b : Bool) : (g.wrSp n b).width = g.width := rfl
@[simp] theorem Group.wrSp_core (g : Group) (n : Nat) (b : Bool) : (g.wrSp n b).core = g.core := rfl
@[simp] theorem Group.wrSp_cpart (g : Group) (n : Nat) (b : Bool) : (g.wrSp n b).cpart = g.cpart := rfl
@[simp] theorem Group.wrSp_gslot (g : Group) (n : Nat) (b : Bool) : (g.wrSp n b).gslot = g.gslot := rfl
@[simp] theorem Group.wrSp_peak (g : Group) (n : Nat) (b : Bool) : (g.wrSp n b).peak = g.peak := rfl
@[simp] theorem Group.wrSp_checked (g : Group) (n : Nat) (b : Bool) : (g.wrSp n b).checked = g.checked := rfl
@[simp] theorem Group.wrSp_handler (g : Group) (n : Nat) (b : Bool) : (g.wrSp n b).handler = g.handler := rfl
@[simp] theorem Group.wrSp_status (g : Group) (n : Nat) (b : Bool) : (g.wrSp n b).status = g.status := rfl
@[simp] theorem Group.wrSp_lastIssue (g : Group) (n : Nat) (b : Bool) : (g.wrSp n b).lastIssue = g.lastIssue := rfl
@[simp] theorem Group.wrSp_lastBeat (g : Group) (n : Nat) (b : Bool) : (g.wrSp n b).lastBeat = g.lastBeat := rfl
@[simp] theorem Group.wrSp_front (g : Group) (n : Nat) (b : Bool) : (g.wrSp n b).front = g.front := rfl
@[simp] theorem Group.wrSp_quiet (g : Group) (n : Nat) (b : Bool) : (g.wrSp n b).quiet = g.quiet := rfl
@[simp] theorem Group.wrSp_moving (g : Group) (n : Nat) (b : Bool) : (g.wrSp n b).moving = g.moving := rfl
@[simp] theorem Group.wrSp_lastSlot (g : Group) (n : Nat) (b : Bool) : (g.wrSp n b).lastSlot = g.lastSlot := rfl
@[simp] theorem Group.wrSp_stack (g : Group) (n : Nat) (b : Bool) : (g.wrSp n b).stack = g.stack := rfl
@[simp] theorem Group.wrSp_saves (g : Group) (n : Nat) (b : Bool) : (g.wrSp n b).saves = g.saves := rfl
@[simp] theorem Group.wrSp_recs (g : Group) (n : Nat) (b : Bool) : (g.wrSp n b).recs = g.recs := rfl
@[simp] theorem Group.wrSp_v (g : Group) (n : Nat) (b : Bool) : (g.wrSp n b).v = g.v := rfl
@[simp] theorem Group.wrSp_mapped (g : Group) (n : Nat) (b : Bool) : (g.wrSp n b).mapped = g.mapped := rfl
@[simp] theorem Group.wrSp_dkill (g : Group) (n : Nat) (b : Bool) : (g.wrSp n b).dkill = g.dkill := rfl
@[simp] theorem Group.wrSp_vpois (g : Group) (n : Nat) (b : Bool) : (g.wrSp n b).vpois = g.vpois := rfl
@[simp] theorem Group.wrSp_s (g : Group) (n : Nat) (b : Bool) : (g.wrSp n b).s = g.s := rfl
@[simp] theorem Group.wrSp_spois (g : Group) (n : Nat) (b : Bool) : (g.wrSp n b).spois = g.spois := rfl
@[simp] theorem Group.wrSp_p (g : Group) (n : Nat) (b : Bool) : (g.wrSp n b).p = g.p := rfl
@[simp] theorem Group.wrSp_win (g : Group) (n : Nat) (b : Bool) : (g.wrSp n b).win = g.win := rfl
@[simp] theorem Group.wrSp_it (g : Group) (n : Nat) (b : Bool) : (g.wrSp n b).it = g.it := rfl
@[simp] theorem Group.wrSp_qm (g : Group) (n : Nat) (b : Bool) : (g.wrSp n b).qm = g.qm := rfl
@[simp] theorem Group.wrSp_qx (g : Group) (n : Nat) (b : Bool) : (g.wrSp n b).qx = g.qx := rfl
@[simp] theorem Group.wrSp_qk (g : Group) (n : Nat) (b : Bool) : (g.wrSp n b).qk = g.qk := rfl
@[simp] theorem Group.wrSp_mkM (g : Group) (n : Nat) (b : Bool) : (g.wrSp n b).mkM = g.mkM := rfl
@[simp] theorem Group.wrSp_mkX (g : Group) (n : Nat) (b : Bool) : (g.wrSp n b).mkX = g.mkX := rfl
@[simp] theorem Group.wrSp_staged (g : Group) (n : Nat) (b : Bool) : (g.wrSp n b).staged = g.staged := rfl
@[simp] theorem Group.wrSp_cLD (g : Group) (n : Nat) (b : Bool) : (g.wrSp n b).cLD = g.cLD := rfl
@[simp] theorem Group.wrSp_cST (g : Group) (n : Nat) (b : Bool) : (g.wrSp n b).cST = g.cST := rfl
@[simp] theorem Group.wrSp_cSP (g : Group) (n : Nat) (b : Bool) : (g.wrSp n b).cSP = g.cSP := rfl
@[simp] theorem Group.wrSp_cCP (g : Group) (n : Nat) (b : Bool) : (g.wrSp n b).cCP = g.cCP := rfl
@[simp] theorem Group.wrSp_cMX (g : Group) (n : Nat) (b : Bool) : (g.wrSp n b).cMX = g.cMX := rfl
@[simp] theorem Group.wrSp_ops (g : Group) (n : Nat) (b : Bool) : (g.wrSp n b).ops = g.ops := rfl
@[simp] theorem Group.wrSp_copies (g : Group) (n : Nat) (b : Bool) : (g.wrSp n b).copies = g.copies := rfl
@[simp] theorem Group.wrSp_held (g : Group) (n : Nat) (b : Bool) : (g.wrSp n b).held = g.held := rfl
@[simp] theorem Group.wrSp_regions (g : Group) (n : Nat) (b : Bool) : (g.wrSp n b).regions = g.regions := rfl
@[simp] theorem Group.wrSp_exited (g : Group) (n : Nat) (b : Bool) : (g.wrSp n b).exited = g.exited := rfl
@[simp] theorem Group.wrSp_helper (g : Group) (n : Nat) (b : Bool) : (g.wrSp n b).helper = g.helper := rfl
@[simp] theorem Group.wrSp_world (g : Group) (n : Nat) (b : Bool) : (g.wrSp n b).world = g.world := rfl
@[simp] theorem Group.wrSp_depth (g : Group) (n : Nat) (b : Bool) : (g.wrSp n b).depth = g.depth := rfl
@[simp] theorem Group.wrSp_copy (g : Group) (n : Nat) (b : Bool) : (g.wrSp n b).copy = g.copy := rfl
@[simp] theorem Group.wrSp_fork (g : Group) (n : Nat) (b : Bool) : (g.wrSp n b).fork = g.fork := rfl
@[simp] theorem Group.wrSp_stalls (g : Group) (n : Nat) (b : Bool) : (g.wrSp n b).stalls = g.stalls := rfl
@[simp] theorem Group.wrSp_issued (g : Group) (n : Nat) (b : Bool) : (g.wrSp n b).issued = g.issued := rfl
@[simp] theorem Group.wrSp_key (g : Group) (n : Nat) (b : Bool) : (g.wrSp n b).key = g.key := rfl
@[simp] theorem Group.wrSp_ctr (g : Group) (n : Nat) (b : Bool) : (g.wrSp n b).ctr = g.ctr := rfl
@[simp] theorem Group.wrSp_setting (g : Group) (n : Nat) (b : Bool) : (g.wrSp n b).setting = g.setting := rfl
@[simp] theorem Group.wrSp_stash (g : Group) (n : Nat) (b : Bool) : (g.wrSp n b).stash = g.stash := rfl
@[simp] theorem Group.wrSp_lastSC (g : Group) (n : Nat) (b : Bool) : (g.wrSp n b).lastSC = g.lastSC := rfl
@[simp] theorem Group.wrSp_ufence (g : Group) (n : Nat) (b : Bool) : (g.wrSp n b).ufence = g.ufence := rfl
@[simp] theorem Group.wrSp_tid (g : Group) (n : Nat) (b : Bool) : (g.wrSp n b).tid = g.tid := rfl
@[simp] theorem Group.wrSp_bsyncs (g : Group) (n : Nat) (b : Bool) : (g.wrSp n b).bsyncs = g.bsyncs := rfl
@[simp] theorem Group.wrSp_atBsync (g : Group) (n : Nat) (b : Bool) : (g.wrSp n b).atBsync = g.atBsync := rfl
@[simp] theorem Group.wrSp_reorders (g : Group) (n : Nat) (b : Bool) : (g.wrSp n b).reorders = g.reorders := rfl
@[simp] theorem Group.wrSp_atReorder (g : Group) (n : Nat) (b : Bool) : (g.wrSp n b).atReorder = g.atReorder := rfl
@[simp] theorem Group.wrSp_parkRec (g : Group) (n : Nat) (b : Bool) : (g.wrSp n b).parkRec = g.parkRec := rfl
@[simp] theorem Group.wrSp_replay (g : Group) (n : Nat) (b : Bool) : (g.wrSp n b).replay = g.replay := rfl
@[simp] theorem Group.wrSp_pair (g : Group) (n : Nat) (b : Bool) : (g.wrSp n b).pair = g.pair := rfl
@[simp] theorem Group.wrSp_narrow (g : Group) (n : Nat) (b : Bool) : (g.wrSp n b).narrow = g.narrow := rfl
@[simp] theorem Group.free_present (g : Group) (ns : BitVec 256) : (g.free ns).present = g.present := rfl
@[simp] theorem Group.free_saved (g : Group) (ns : BitVec 256) : (g.free ns).saved = g.saved := rfl
@[simp] theorem Group.free_part (g : Group) (ns : BitVec 256) : (g.free ns).part = g.part := rfl
@[simp] theorem Group.free_blk (g : Group) (ns : BitVec 256) : (g.free ns).blk = g.blk := rfl
@[simp] theorem Group.free_launch (g : Group) (ns : BitVec 256) : (g.free ns).launch = g.launch := rfl
@[simp] theorem Group.free_code (g : Group) (ns : BitVec 256) : (g.free ns).code = g.code := rfl
@[simp] theorem Group.free_space (g : Group) (ns : BitVec 256) : (g.free ns).space = g.space := rfl
@[simp] theorem Group.free_gidx (g : Group) (ns : BitVec 256) : (g.free ns).gidx = g.gidx := rfl
@[simp] theorem Group.free_width (g : Group) (ns : BitVec 256) : (g.free ns).width = g.width := rfl
@[simp] theorem Group.free_core (g : Group) (ns : BitVec 256) : (g.free ns).core = g.core := rfl
@[simp] theorem Group.free_cpart (g : Group) (ns : BitVec 256) : (g.free ns).cpart = g.cpart := rfl
@[simp] theorem Group.free_gslot (g : Group) (ns : BitVec 256) : (g.free ns).gslot = g.gslot := rfl
@[simp] theorem Group.free_peak (g : Group) (ns : BitVec 256) : (g.free ns).peak = g.peak := rfl
@[simp] theorem Group.free_checked (g : Group) (ns : BitVec 256) : (g.free ns).checked = g.checked := rfl
@[simp] theorem Group.free_handler (g : Group) (ns : BitVec 256) : (g.free ns).handler = g.handler := rfl
@[simp] theorem Group.free_status (g : Group) (ns : BitVec 256) : (g.free ns).status = g.status := rfl
@[simp] theorem Group.free_lastIssue (g : Group) (ns : BitVec 256) : (g.free ns).lastIssue = g.lastIssue := rfl
@[simp] theorem Group.free_lastBeat (g : Group) (ns : BitVec 256) : (g.free ns).lastBeat = g.lastBeat := rfl
@[simp] theorem Group.free_front (g : Group) (ns : BitVec 256) : (g.free ns).front = g.front := rfl
@[simp] theorem Group.free_quiet (g : Group) (ns : BitVec 256) : (g.free ns).quiet = g.quiet := rfl
@[simp] theorem Group.free_moving (g : Group) (ns : BitVec 256) : (g.free ns).moving = g.moving := rfl
@[simp] theorem Group.free_lastSlot (g : Group) (ns : BitVec 256) : (g.free ns).lastSlot = g.lastSlot := rfl
@[simp] theorem Group.free_stack (g : Group) (ns : BitVec 256) : (g.free ns).stack = g.stack := rfl
@[simp] theorem Group.free_saves (g : Group) (ns : BitVec 256) : (g.free ns).saves = g.saves := rfl
@[simp] theorem Group.free_recs (g : Group) (ns : BitVec 256) : (g.free ns).recs = g.recs := rfl
@[simp] theorem Group.free_s (g : Group) (ns : BitVec 256) : (g.free ns).s = g.s := rfl
@[simp] theorem Group.free_spois (g : Group) (ns : BitVec 256) : (g.free ns).spois = g.spois := rfl
@[simp] theorem Group.free_p (g : Group) (ns : BitVec 256) : (g.free ns).p = g.p := rfl
@[simp] theorem Group.free_sp (g : Group) (ns : BitVec 256) : (g.free ns).sp = g.sp := rfl
@[simp] theorem Group.free_win (g : Group) (ns : BitVec 256) : (g.free ns).win = g.win := rfl
@[simp] theorem Group.free_it (g : Group) (ns : BitVec 256) : (g.free ns).it = g.it := rfl
@[simp] theorem Group.free_qm (g : Group) (ns : BitVec 256) : (g.free ns).qm = g.qm := rfl
@[simp] theorem Group.free_qx (g : Group) (ns : BitVec 256) : (g.free ns).qx = g.qx := rfl
@[simp] theorem Group.free_qk (g : Group) (ns : BitVec 256) : (g.free ns).qk = g.qk := rfl
@[simp] theorem Group.free_mkM (g : Group) (ns : BitVec 256) : (g.free ns).mkM = g.mkM := rfl
@[simp] theorem Group.free_mkX (g : Group) (ns : BitVec 256) : (g.free ns).mkX = g.mkX := rfl
@[simp] theorem Group.free_staged (g : Group) (ns : BitVec 256) : (g.free ns).staged = g.staged := rfl
@[simp] theorem Group.free_cLD (g : Group) (ns : BitVec 256) : (g.free ns).cLD = g.cLD := rfl
@[simp] theorem Group.free_cST (g : Group) (ns : BitVec 256) : (g.free ns).cST = g.cST := rfl
@[simp] theorem Group.free_cSP (g : Group) (ns : BitVec 256) : (g.free ns).cSP = g.cSP := rfl
@[simp] theorem Group.free_cCP (g : Group) (ns : BitVec 256) : (g.free ns).cCP = g.cCP := rfl
@[simp] theorem Group.free_cMX (g : Group) (ns : BitVec 256) : (g.free ns).cMX = g.cMX := rfl
@[simp] theorem Group.free_ops (g : Group) (ns : BitVec 256) : (g.free ns).ops = g.ops := rfl
@[simp] theorem Group.free_copies (g : Group) (ns : BitVec 256) : (g.free ns).copies = g.copies := rfl
@[simp] theorem Group.free_held (g : Group) (ns : BitVec 256) : (g.free ns).held = g.held := rfl
@[simp] theorem Group.free_regions (g : Group) (ns : BitVec 256) : (g.free ns).regions = g.regions := rfl
@[simp] theorem Group.free_exited (g : Group) (ns : BitVec 256) : (g.free ns).exited = g.exited := rfl
@[simp] theorem Group.free_helper (g : Group) (ns : BitVec 256) : (g.free ns).helper = g.helper := rfl
@[simp] theorem Group.free_world (g : Group) (ns : BitVec 256) : (g.free ns).world = g.world := rfl
@[simp] theorem Group.free_depth (g : Group) (ns : BitVec 256) : (g.free ns).depth = g.depth := rfl
@[simp] theorem Group.free_copy (g : Group) (ns : BitVec 256) : (g.free ns).copy = g.copy := rfl
@[simp] theorem Group.free_fork (g : Group) (ns : BitVec 256) : (g.free ns).fork = g.fork := rfl
@[simp] theorem Group.free_stalls (g : Group) (ns : BitVec 256) : (g.free ns).stalls = g.stalls := rfl
@[simp] theorem Group.free_issued (g : Group) (ns : BitVec 256) : (g.free ns).issued = g.issued := rfl
@[simp] theorem Group.free_key (g : Group) (ns : BitVec 256) : (g.free ns).key = g.key := rfl
@[simp] theorem Group.free_ctr (g : Group) (ns : BitVec 256) : (g.free ns).ctr = g.ctr := rfl
@[simp] theorem Group.free_setting (g : Group) (ns : BitVec 256) : (g.free ns).setting = g.setting := rfl
@[simp] theorem Group.free_stash (g : Group) (ns : BitVec 256) : (g.free ns).stash = g.stash := rfl
@[simp] theorem Group.free_lastSC (g : Group) (ns : BitVec 256) : (g.free ns).lastSC = g.lastSC := rfl
@[simp] theorem Group.free_ufence (g : Group) (ns : BitVec 256) : (g.free ns).ufence = g.ufence := rfl
@[simp] theorem Group.free_tid (g : Group) (ns : BitVec 256) : (g.free ns).tid = g.tid := rfl
@[simp] theorem Group.free_bsyncs (g : Group) (ns : BitVec 256) : (g.free ns).bsyncs = g.bsyncs := rfl
@[simp] theorem Group.free_atBsync (g : Group) (ns : BitVec 256) : (g.free ns).atBsync = g.atBsync := rfl
@[simp] theorem Group.free_reorders (g : Group) (ns : BitVec 256) : (g.free ns).reorders = g.reorders := rfl
@[simp] theorem Group.free_atReorder (g : Group) (ns : BitVec 256) : (g.free ns).atReorder = g.atReorder := rfl
@[simp] theorem Group.free_parkRec (g : Group) (ns : BitVec 256) : (g.free ns).parkRec = g.parkRec := rfl
@[simp] theorem Group.free_replay (g : Group) (ns : BitVec 256) : (g.free ns).replay = g.replay := rfl
@[simp] theorem Group.free_pair (g : Group) (ns : BitVec 256) : (g.free ns).pair = g.pair := rfl
@[simp] theorem Group.free_narrow (g : Group) (ns : BitVec 256) : (g.free ns).narrow = g.narrow := rfl
@[simp] theorem Group.flushKills_present (g : Group) : g.flushKills.present = g.present := by unfold Group.flushKills; split <;> rfl
@[simp] theorem Group.flushKills_saved (g : Group) : g.flushKills.saved = g.saved := by unfold Group.flushKills; split <;> rfl
@[simp] theorem Group.flushKills_part (g : Group) : g.flushKills.part = g.part := by unfold Group.flushKills; split <;> rfl
@[simp] theorem Group.flushKills_blk (g : Group) : g.flushKills.blk = g.blk := by unfold Group.flushKills; split <;> rfl
@[simp] theorem Group.flushKills_launch (g : Group) : g.flushKills.launch = g.launch := by unfold Group.flushKills; split <;> rfl
@[simp] theorem Group.flushKills_code (g : Group) : g.flushKills.code = g.code := by unfold Group.flushKills; split <;> rfl
@[simp] theorem Group.flushKills_space (g : Group) : g.flushKills.space = g.space := by unfold Group.flushKills; split <;> rfl
@[simp] theorem Group.flushKills_gidx (g : Group) : g.flushKills.gidx = g.gidx := by unfold Group.flushKills; split <;> rfl
@[simp] theorem Group.flushKills_width (g : Group) : g.flushKills.width = g.width := by unfold Group.flushKills; split <;> rfl
@[simp] theorem Group.flushKills_core (g : Group) : g.flushKills.core = g.core := by unfold Group.flushKills; split <;> rfl
@[simp] theorem Group.flushKills_cpart (g : Group) : g.flushKills.cpart = g.cpart := by unfold Group.flushKills; split <;> rfl
@[simp] theorem Group.flushKills_gslot (g : Group) : g.flushKills.gslot = g.gslot := by unfold Group.flushKills; split <;> rfl
@[simp] theorem Group.flushKills_peak (g : Group) : g.flushKills.peak = g.peak := by unfold Group.flushKills; split <;> rfl
@[simp] theorem Group.flushKills_checked (g : Group) : g.flushKills.checked = g.checked := by unfold Group.flushKills; split <;> rfl
@[simp] theorem Group.flushKills_handler (g : Group) : g.flushKills.handler = g.handler := by unfold Group.flushKills; split <;> rfl
@[simp] theorem Group.flushKills_status (g : Group) : g.flushKills.status = g.status := by unfold Group.flushKills; split <;> rfl
@[simp] theorem Group.flushKills_lastIssue (g : Group) : g.flushKills.lastIssue = g.lastIssue := by unfold Group.flushKills; split <;> rfl
@[simp] theorem Group.flushKills_lastBeat (g : Group) : g.flushKills.lastBeat = g.lastBeat := by unfold Group.flushKills; split <;> rfl
@[simp] theorem Group.flushKills_front (g : Group) : g.flushKills.front = g.front := by unfold Group.flushKills; split <;> rfl
@[simp] theorem Group.flushKills_quiet (g : Group) : g.flushKills.quiet = g.quiet := by unfold Group.flushKills; split <;> rfl
@[simp] theorem Group.flushKills_moving (g : Group) : g.flushKills.moving = g.moving := by unfold Group.flushKills; split <;> rfl
@[simp] theorem Group.flushKills_lastSlot (g : Group) : g.flushKills.lastSlot = g.lastSlot := by unfold Group.flushKills; split <;> rfl
@[simp] theorem Group.flushKills_stack (g : Group) : g.flushKills.stack = g.stack := by unfold Group.flushKills; split <;> rfl
@[simp] theorem Group.flushKills_saves (g : Group) : g.flushKills.saves = g.saves := by unfold Group.flushKills; split <;> rfl
@[simp] theorem Group.flushKills_recs (g : Group) : g.flushKills.recs = g.recs := by unfold Group.flushKills; split <;> rfl
@[simp] theorem Group.flushKills_s (g : Group) : g.flushKills.s = g.s := by unfold Group.flushKills; split <;> rfl
@[simp] theorem Group.flushKills_spois (g : Group) : g.flushKills.spois = g.spois := by unfold Group.flushKills; split <;> rfl
@[simp] theorem Group.flushKills_p (g : Group) : g.flushKills.p = g.p := by unfold Group.flushKills; split <;> rfl
@[simp] theorem Group.flushKills_sp (g : Group) : g.flushKills.sp = g.sp := by unfold Group.flushKills; split <;> rfl
@[simp] theorem Group.flushKills_win (g : Group) : g.flushKills.win = g.win := by unfold Group.flushKills; split <;> rfl
@[simp] theorem Group.flushKills_it (g : Group) : g.flushKills.it = g.it := by unfold Group.flushKills; split <;> rfl
@[simp] theorem Group.flushKills_qm (g : Group) : g.flushKills.qm = g.qm := by unfold Group.flushKills; split <;> rfl
@[simp] theorem Group.flushKills_qx (g : Group) : g.flushKills.qx = g.qx := by unfold Group.flushKills; split <;> rfl
@[simp] theorem Group.flushKills_qk (g : Group) : g.flushKills.qk = g.qk := by unfold Group.flushKills; split <;> rfl
@[simp] theorem Group.flushKills_mkM (g : Group) : g.flushKills.mkM = g.mkM := by unfold Group.flushKills; split <;> rfl
@[simp] theorem Group.flushKills_mkX (g : Group) : g.flushKills.mkX = g.mkX := by unfold Group.flushKills; split <;> rfl
@[simp] theorem Group.flushKills_staged (g : Group) : g.flushKills.staged = g.staged := by unfold Group.flushKills; split <;> rfl
@[simp] theorem Group.flushKills_cLD (g : Group) : g.flushKills.cLD = g.cLD := by unfold Group.flushKills; split <;> rfl
@[simp] theorem Group.flushKills_cST (g : Group) : g.flushKills.cST = g.cST := by unfold Group.flushKills; split <;> rfl
@[simp] theorem Group.flushKills_cSP (g : Group) : g.flushKills.cSP = g.cSP := by unfold Group.flushKills; split <;> rfl
@[simp] theorem Group.flushKills_cCP (g : Group) : g.flushKills.cCP = g.cCP := by unfold Group.flushKills; split <;> rfl
@[simp] theorem Group.flushKills_cMX (g : Group) : g.flushKills.cMX = g.cMX := by unfold Group.flushKills; split <;> rfl
@[simp] theorem Group.flushKills_ops (g : Group) : g.flushKills.ops = g.ops := by unfold Group.flushKills; split <;> rfl
@[simp] theorem Group.flushKills_copies (g : Group) : g.flushKills.copies = g.copies := by unfold Group.flushKills; split <;> rfl
@[simp] theorem Group.flushKills_held (g : Group) : g.flushKills.held = g.held := by unfold Group.flushKills; split <;> rfl
@[simp] theorem Group.flushKills_regions (g : Group) : g.flushKills.regions = g.regions := by unfold Group.flushKills; split <;> rfl
@[simp] theorem Group.flushKills_exited (g : Group) : g.flushKills.exited = g.exited := by unfold Group.flushKills; split <;> rfl
@[simp] theorem Group.flushKills_helper (g : Group) : g.flushKills.helper = g.helper := by unfold Group.flushKills; split <;> rfl
@[simp] theorem Group.flushKills_world (g : Group) : g.flushKills.world = g.world := by unfold Group.flushKills; split <;> rfl
@[simp] theorem Group.flushKills_depth (g : Group) : g.flushKills.depth = g.depth := by unfold Group.flushKills; split <;> rfl
@[simp] theorem Group.flushKills_copy (g : Group) : g.flushKills.copy = g.copy := by unfold Group.flushKills; split <;> rfl
@[simp] theorem Group.flushKills_fork (g : Group) : g.flushKills.fork = g.fork := by unfold Group.flushKills; split <;> rfl
@[simp] theorem Group.flushKills_stalls (g : Group) : g.flushKills.stalls = g.stalls := by unfold Group.flushKills; split <;> rfl
@[simp] theorem Group.flushKills_issued (g : Group) : g.flushKills.issued = g.issued := by unfold Group.flushKills; split <;> rfl
@[simp] theorem Group.flushKills_key (g : Group) : g.flushKills.key = g.key := by unfold Group.flushKills; split <;> rfl
@[simp] theorem Group.flushKills_ctr (g : Group) : g.flushKills.ctr = g.ctr := by unfold Group.flushKills; split <;> rfl
@[simp] theorem Group.flushKills_setting (g : Group) : g.flushKills.setting = g.setting := by unfold Group.flushKills; split <;> rfl
@[simp] theorem Group.flushKills_stash (g : Group) : g.flushKills.stash = g.stash := by unfold Group.flushKills; split <;> rfl
@[simp] theorem Group.flushKills_lastSC (g : Group) : g.flushKills.lastSC = g.lastSC := by unfold Group.flushKills; split <;> rfl
@[simp] theorem Group.flushKills_ufence (g : Group) : g.flushKills.ufence = g.ufence := by unfold Group.flushKills; split <;> rfl
@[simp] theorem Group.flushKills_tid (g : Group) : g.flushKills.tid = g.tid := by unfold Group.flushKills; split <;> rfl
@[simp] theorem Group.flushKills_bsyncs (g : Group) : g.flushKills.bsyncs = g.bsyncs := by unfold Group.flushKills; split <;> rfl
@[simp] theorem Group.flushKills_atBsync (g : Group) : g.flushKills.atBsync = g.atBsync := by unfold Group.flushKills; split <;> rfl
@[simp] theorem Group.flushKills_reorders (g : Group) : g.flushKills.reorders = g.reorders := by unfold Group.flushKills; split <;> rfl
@[simp] theorem Group.flushKills_atReorder (g : Group) : g.flushKills.atReorder = g.atReorder := by unfold Group.flushKills; split <;> rfl
@[simp] theorem Group.flushKills_parkRec (g : Group) : g.flushKills.parkRec = g.parkRec := by unfold Group.flushKills; split <;> rfl
@[simp] theorem Group.flushKills_replay (g : Group) : g.flushKills.replay = g.replay := by unfold Group.flushKills; split <;> rfl
@[simp] theorem Group.flushKills_pair (g : Group) : g.flushKills.pair = g.pair := by unfold Group.flushKills; split <;> rfl
@[simp] theorem Group.flushKills_narrow (g : Group) : g.flushKills.narrow = g.narrow := by unfold Group.flushKills; split <;> rfl
@[simp] theorem Group.kill_present (g : Group) (ns : BitVec 256) : (g.kill ns).present = g.present := by simp [Group.kill]
@[simp] theorem Group.kill_saved (g : Group) (ns : BitVec 256) : (g.kill ns).saved = g.saved := by simp [Group.kill]
@[simp] theorem Group.kill_part (g : Group) (ns : BitVec 256) : (g.kill ns).part = g.part := by simp [Group.kill]
@[simp] theorem Group.kill_blk (g : Group) (ns : BitVec 256) : (g.kill ns).blk = g.blk := by simp [Group.kill]
@[simp] theorem Group.kill_launch (g : Group) (ns : BitVec 256) : (g.kill ns).launch = g.launch := by simp [Group.kill]
@[simp] theorem Group.kill_code (g : Group) (ns : BitVec 256) : (g.kill ns).code = g.code := by simp [Group.kill]
@[simp] theorem Group.kill_space (g : Group) (ns : BitVec 256) : (g.kill ns).space = g.space := by simp [Group.kill]
@[simp] theorem Group.kill_gidx (g : Group) (ns : BitVec 256) : (g.kill ns).gidx = g.gidx := by simp [Group.kill]
@[simp] theorem Group.kill_width (g : Group) (ns : BitVec 256) : (g.kill ns).width = g.width := by simp [Group.kill]
@[simp] theorem Group.kill_core (g : Group) (ns : BitVec 256) : (g.kill ns).core = g.core := by simp [Group.kill]
@[simp] theorem Group.kill_cpart (g : Group) (ns : BitVec 256) : (g.kill ns).cpart = g.cpart := by simp [Group.kill]
@[simp] theorem Group.kill_gslot (g : Group) (ns : BitVec 256) : (g.kill ns).gslot = g.gslot := by simp [Group.kill]
@[simp] theorem Group.kill_peak (g : Group) (ns : BitVec 256) : (g.kill ns).peak = g.peak := by simp [Group.kill]
@[simp] theorem Group.kill_checked (g : Group) (ns : BitVec 256) : (g.kill ns).checked = g.checked := by simp [Group.kill]
@[simp] theorem Group.kill_handler (g : Group) (ns : BitVec 256) : (g.kill ns).handler = g.handler := by simp [Group.kill]
@[simp] theorem Group.kill_status (g : Group) (ns : BitVec 256) : (g.kill ns).status = g.status := by simp [Group.kill]
@[simp] theorem Group.kill_lastIssue (g : Group) (ns : BitVec 256) : (g.kill ns).lastIssue = g.lastIssue := by simp [Group.kill]
@[simp] theorem Group.kill_lastBeat (g : Group) (ns : BitVec 256) : (g.kill ns).lastBeat = g.lastBeat := by simp [Group.kill]
@[simp] theorem Group.kill_front (g : Group) (ns : BitVec 256) : (g.kill ns).front = g.front := by simp [Group.kill]
@[simp] theorem Group.kill_quiet (g : Group) (ns : BitVec 256) : (g.kill ns).quiet = g.quiet := by simp [Group.kill]
@[simp] theorem Group.kill_moving (g : Group) (ns : BitVec 256) : (g.kill ns).moving = g.moving := by simp [Group.kill]
@[simp] theorem Group.kill_lastSlot (g : Group) (ns : BitVec 256) : (g.kill ns).lastSlot = g.lastSlot := by simp [Group.kill]
@[simp] theorem Group.kill_stack (g : Group) (ns : BitVec 256) : (g.kill ns).stack = g.stack := by simp [Group.kill]
@[simp] theorem Group.kill_saves (g : Group) (ns : BitVec 256) : (g.kill ns).saves = g.saves := by simp [Group.kill]
@[simp] theorem Group.kill_recs (g : Group) (ns : BitVec 256) : (g.kill ns).recs = g.recs := by simp [Group.kill]
@[simp] theorem Group.kill_s (g : Group) (ns : BitVec 256) : (g.kill ns).s = g.s := by simp [Group.kill]
@[simp] theorem Group.kill_spois (g : Group) (ns : BitVec 256) : (g.kill ns).spois = g.spois := by simp [Group.kill]
@[simp] theorem Group.kill_p (g : Group) (ns : BitVec 256) : (g.kill ns).p = g.p := by simp [Group.kill]
@[simp] theorem Group.kill_sp (g : Group) (ns : BitVec 256) : (g.kill ns).sp = g.sp := by simp [Group.kill]
@[simp] theorem Group.kill_win (g : Group) (ns : BitVec 256) : (g.kill ns).win = g.win := by simp [Group.kill]
@[simp] theorem Group.kill_it (g : Group) (ns : BitVec 256) : (g.kill ns).it = g.it := by simp [Group.kill]
@[simp] theorem Group.kill_qm (g : Group) (ns : BitVec 256) : (g.kill ns).qm = g.qm := by simp [Group.kill]
@[simp] theorem Group.kill_qx (g : Group) (ns : BitVec 256) : (g.kill ns).qx = g.qx := by simp [Group.kill]
@[simp] theorem Group.kill_qk (g : Group) (ns : BitVec 256) : (g.kill ns).qk = g.qk := by simp [Group.kill]
@[simp] theorem Group.kill_mkM (g : Group) (ns : BitVec 256) : (g.kill ns).mkM = g.mkM := by simp [Group.kill]
@[simp] theorem Group.kill_mkX (g : Group) (ns : BitVec 256) : (g.kill ns).mkX = g.mkX := by simp [Group.kill]
@[simp] theorem Group.kill_staged (g : Group) (ns : BitVec 256) : (g.kill ns).staged = g.staged := by simp [Group.kill]
@[simp] theorem Group.kill_cLD (g : Group) (ns : BitVec 256) : (g.kill ns).cLD = g.cLD := by simp [Group.kill]
@[simp] theorem Group.kill_cST (g : Group) (ns : BitVec 256) : (g.kill ns).cST = g.cST := by simp [Group.kill]
@[simp] theorem Group.kill_cSP (g : Group) (ns : BitVec 256) : (g.kill ns).cSP = g.cSP := by simp [Group.kill]
@[simp] theorem Group.kill_cCP (g : Group) (ns : BitVec 256) : (g.kill ns).cCP = g.cCP := by simp [Group.kill]
@[simp] theorem Group.kill_cMX (g : Group) (ns : BitVec 256) : (g.kill ns).cMX = g.cMX := by simp [Group.kill]
@[simp] theorem Group.kill_ops (g : Group) (ns : BitVec 256) : (g.kill ns).ops = g.ops := by simp [Group.kill]
@[simp] theorem Group.kill_copies (g : Group) (ns : BitVec 256) : (g.kill ns).copies = g.copies := by simp [Group.kill]
@[simp] theorem Group.kill_held (g : Group) (ns : BitVec 256) : (g.kill ns).held = g.held := by simp [Group.kill]
@[simp] theorem Group.kill_regions (g : Group) (ns : BitVec 256) : (g.kill ns).regions = g.regions := by simp [Group.kill]
@[simp] theorem Group.kill_exited (g : Group) (ns : BitVec 256) : (g.kill ns).exited = g.exited := by simp [Group.kill]
@[simp] theorem Group.kill_helper (g : Group) (ns : BitVec 256) : (g.kill ns).helper = g.helper := by simp [Group.kill]
@[simp] theorem Group.kill_world (g : Group) (ns : BitVec 256) : (g.kill ns).world = g.world := by simp [Group.kill]
@[simp] theorem Group.kill_depth (g : Group) (ns : BitVec 256) : (g.kill ns).depth = g.depth := by simp [Group.kill]
@[simp] theorem Group.kill_copy (g : Group) (ns : BitVec 256) : (g.kill ns).copy = g.copy := by simp [Group.kill]
@[simp] theorem Group.kill_fork (g : Group) (ns : BitVec 256) : (g.kill ns).fork = g.fork := by simp [Group.kill]
@[simp] theorem Group.kill_stalls (g : Group) (ns : BitVec 256) : (g.kill ns).stalls = g.stalls := by simp [Group.kill]
@[simp] theorem Group.kill_issued (g : Group) (ns : BitVec 256) : (g.kill ns).issued = g.issued := by simp [Group.kill]
@[simp] theorem Group.kill_key (g : Group) (ns : BitVec 256) : (g.kill ns).key = g.key := by simp [Group.kill]
@[simp] theorem Group.kill_ctr (g : Group) (ns : BitVec 256) : (g.kill ns).ctr = g.ctr := by simp [Group.kill]
@[simp] theorem Group.kill_setting (g : Group) (ns : BitVec 256) : (g.kill ns).setting = g.setting := by simp [Group.kill]
@[simp] theorem Group.kill_stash (g : Group) (ns : BitVec 256) : (g.kill ns).stash = g.stash := by simp [Group.kill]
@[simp] theorem Group.kill_lastSC (g : Group) (ns : BitVec 256) : (g.kill ns).lastSC = g.lastSC := by simp [Group.kill]
@[simp] theorem Group.kill_ufence (g : Group) (ns : BitVec 256) : (g.kill ns).ufence = g.ufence := by simp [Group.kill]
@[simp] theorem Group.kill_tid (g : Group) (ns : BitVec 256) : (g.kill ns).tid = g.tid := by simp [Group.kill]
@[simp] theorem Group.kill_bsyncs (g : Group) (ns : BitVec 256) : (g.kill ns).bsyncs = g.bsyncs := by simp [Group.kill]
@[simp] theorem Group.kill_atBsync (g : Group) (ns : BitVec 256) : (g.kill ns).atBsync = g.atBsync := by simp [Group.kill]
@[simp] theorem Group.kill_reorders (g : Group) (ns : BitVec 256) : (g.kill ns).reorders = g.reorders := by simp [Group.kill]
@[simp] theorem Group.kill_atReorder (g : Group) (ns : BitVec 256) : (g.kill ns).atReorder = g.atReorder := by simp [Group.kill]
@[simp] theorem Group.kill_parkRec (g : Group) (ns : BitVec 256) : (g.kill ns).parkRec = g.parkRec := by simp [Group.kill]
@[simp] theorem Group.kill_replay (g : Group) (ns : BitVec 256) : (g.kill ns).replay = g.replay := by simp [Group.kill]
@[simp] theorem Group.kill_pair (g : Group) (ns : BitVec 256) : (g.kill ns).pair = g.pair := by simp [Group.kill]
@[simp] theorem Group.kill_narrow (g : Group) (ns : BitVec 256) : (g.kill ns).narrow = g.narrow := by simp [Group.kill]
@[simp] theorem Group.goto_present (g : Group) (k : Nat) (pc : Word) : (g.goto k pc).present = g.present := by simp [Group.goto]
@[simp] theorem Group.goto_saved (g : Group) (k : Nat) (pc : Word) : (g.goto k pc).saved = g.saved := by simp [Group.goto]
@[simp] theorem Group.goto_part (g : Group) (k : Nat) (pc : Word) : (g.goto k pc).part = g.part := by simp [Group.goto]
@[simp] theorem Group.goto_blk (g : Group) (k : Nat) (pc : Word) : (g.goto k pc).blk = g.blk := by simp [Group.goto]
@[simp] theorem Group.goto_launch (g : Group) (k : Nat) (pc : Word) : (g.goto k pc).launch = g.launch := by simp [Group.goto]
@[simp] theorem Group.goto_code (g : Group) (k : Nat) (pc : Word) : (g.goto k pc).code = g.code := by simp [Group.goto]
@[simp] theorem Group.goto_space (g : Group) (k : Nat) (pc : Word) : (g.goto k pc).space = g.space := by simp [Group.goto]
@[simp] theorem Group.goto_gidx (g : Group) (k : Nat) (pc : Word) : (g.goto k pc).gidx = g.gidx := by simp [Group.goto]
@[simp] theorem Group.goto_width (g : Group) (k : Nat) (pc : Word) : (g.goto k pc).width = g.width := by simp [Group.goto]
@[simp] theorem Group.goto_core (g : Group) (k : Nat) (pc : Word) : (g.goto k pc).core = g.core := by simp [Group.goto]
@[simp] theorem Group.goto_cpart (g : Group) (k : Nat) (pc : Word) : (g.goto k pc).cpart = g.cpart := by simp [Group.goto]
@[simp] theorem Group.goto_gslot (g : Group) (k : Nat) (pc : Word) : (g.goto k pc).gslot = g.gslot := by simp [Group.goto]
@[simp] theorem Group.goto_peak (g : Group) (k : Nat) (pc : Word) : (g.goto k pc).peak = g.peak := by simp [Group.goto]
@[simp] theorem Group.goto_checked (g : Group) (k : Nat) (pc : Word) : (g.goto k pc).checked = g.checked := by simp [Group.goto]
@[simp] theorem Group.goto_handler (g : Group) (k : Nat) (pc : Word) : (g.goto k pc).handler = g.handler := by simp [Group.goto]
@[simp] theorem Group.goto_status (g : Group) (k : Nat) (pc : Word) : (g.goto k pc).status = g.status := by simp [Group.goto]
@[simp] theorem Group.goto_lastIssue (g : Group) (k : Nat) (pc : Word) : (g.goto k pc).lastIssue = g.lastIssue := by simp [Group.goto]
@[simp] theorem Group.goto_lastBeat (g : Group) (k : Nat) (pc : Word) : (g.goto k pc).lastBeat = g.lastBeat := by simp [Group.goto]
@[simp] theorem Group.goto_front (g : Group) (k : Nat) (pc : Word) : (g.goto k pc).front = g.front := by simp [Group.goto]
@[simp] theorem Group.goto_quiet (g : Group) (k : Nat) (pc : Word) : (g.goto k pc).quiet = g.quiet := by simp [Group.goto]
@[simp] theorem Group.goto_lastSlot (g : Group) (k : Nat) (pc : Word) : (g.goto k pc).lastSlot = g.lastSlot := by simp [Group.goto]
@[simp] theorem Group.goto_saves (g : Group) (k : Nat) (pc : Word) : (g.goto k pc).saves = g.saves := by simp [Group.goto]
@[simp] theorem Group.goto_recs (g : Group) (k : Nat) (pc : Word) : (g.goto k pc).recs = g.recs := by simp [Group.goto]
@[simp] theorem Group.goto_s (g : Group) (k : Nat) (pc : Word) : (g.goto k pc).s = g.s := by simp [Group.goto]
@[simp] theorem Group.goto_spois (g : Group) (k : Nat) (pc : Word) : (g.goto k pc).spois = g.spois := by simp [Group.goto]
@[simp] theorem Group.goto_p (g : Group) (k : Nat) (pc : Word) : (g.goto k pc).p = g.p := by simp [Group.goto]
@[simp] theorem Group.goto_sp (g : Group) (k : Nat) (pc : Word) : (g.goto k pc).sp = g.sp := by simp [Group.goto]
@[simp] theorem Group.goto_win (g : Group) (k : Nat) (pc : Word) : (g.goto k pc).win = g.win := by simp [Group.goto]
@[simp] theorem Group.goto_it (g : Group) (k : Nat) (pc : Word) : (g.goto k pc).it = g.it := by simp [Group.goto]
@[simp] theorem Group.goto_qm (g : Group) (k : Nat) (pc : Word) : (g.goto k pc).qm = g.qm := by simp [Group.goto]
@[simp] theorem Group.goto_qx (g : Group) (k : Nat) (pc : Word) : (g.goto k pc).qx = g.qx := by simp [Group.goto]
@[simp] theorem Group.goto_qk (g : Group) (k : Nat) (pc : Word) : (g.goto k pc).qk = g.qk := by simp [Group.goto]
@[simp] theorem Group.goto_mkM (g : Group) (k : Nat) (pc : Word) : (g.goto k pc).mkM = g.mkM := by simp [Group.goto]
@[simp] theorem Group.goto_mkX (g : Group) (k : Nat) (pc : Word) : (g.goto k pc).mkX = g.mkX := by simp [Group.goto]
@[simp] theorem Group.goto_staged (g : Group) (k : Nat) (pc : Word) : (g.goto k pc).staged = g.staged := by simp [Group.goto]
@[simp] theorem Group.goto_cLD (g : Group) (k : Nat) (pc : Word) : (g.goto k pc).cLD = g.cLD := by simp [Group.goto]
@[simp] theorem Group.goto_cST (g : Group) (k : Nat) (pc : Word) : (g.goto k pc).cST = g.cST := by simp [Group.goto]
@[simp] theorem Group.goto_cSP (g : Group) (k : Nat) (pc : Word) : (g.goto k pc).cSP = g.cSP := by simp [Group.goto]
@[simp] theorem Group.goto_cCP (g : Group) (k : Nat) (pc : Word) : (g.goto k pc).cCP = g.cCP := by simp [Group.goto]
@[simp] theorem Group.goto_cMX (g : Group) (k : Nat) (pc : Word) : (g.goto k pc).cMX = g.cMX := by simp [Group.goto]
@[simp] theorem Group.goto_ops (g : Group) (k : Nat) (pc : Word) : (g.goto k pc).ops = g.ops := by simp [Group.goto]
@[simp] theorem Group.goto_copies (g : Group) (k : Nat) (pc : Word) : (g.goto k pc).copies = g.copies := by simp [Group.goto]
@[simp] theorem Group.goto_held (g : Group) (k : Nat) (pc : Word) : (g.goto k pc).held = g.held := by simp [Group.goto]
@[simp] theorem Group.goto_regions (g : Group) (k : Nat) (pc : Word) : (g.goto k pc).regions = g.regions := by simp [Group.goto]
@[simp] theorem Group.goto_exited (g : Group) (k : Nat) (pc : Word) : (g.goto k pc).exited = g.exited := by simp [Group.goto]
@[simp] theorem Group.goto_helper (g : Group) (k : Nat) (pc : Word) : (g.goto k pc).helper = g.helper := by simp [Group.goto]
@[simp] theorem Group.goto_world (g : Group) (k : Nat) (pc : Word) : (g.goto k pc).world = g.world := by simp [Group.goto]
@[simp] theorem Group.goto_depth (g : Group) (k : Nat) (pc : Word) : (g.goto k pc).depth = g.depth := by simp [Group.goto]
@[simp] theorem Group.goto_copy (g : Group) (k : Nat) (pc : Word) : (g.goto k pc).copy = g.copy := by simp [Group.goto]
@[simp] theorem Group.goto_fork (g : Group) (k : Nat) (pc : Word) : (g.goto k pc).fork = g.fork := by simp [Group.goto]
@[simp] theorem Group.goto_stalls (g : Group) (k : Nat) (pc : Word) : (g.goto k pc).stalls = g.stalls := by simp [Group.goto]
@[simp] theorem Group.goto_issued (g : Group) (k : Nat) (pc : Word) : (g.goto k pc).issued = g.issued := by simp [Group.goto]
@[simp] theorem Group.goto_key (g : Group) (k : Nat) (pc : Word) : (g.goto k pc).key = g.key := by simp [Group.goto]
@[simp] theorem Group.goto_ctr (g : Group) (k : Nat) (pc : Word) : (g.goto k pc).ctr = g.ctr := by simp [Group.goto]
@[simp] theorem Group.goto_setting (g : Group) (k : Nat) (pc : Word) : (g.goto k pc).setting = g.setting := by simp [Group.goto]
@[simp] theorem Group.goto_stash (g : Group) (k : Nat) (pc : Word) : (g.goto k pc).stash = g.stash := by simp [Group.goto]
@[simp] theorem Group.goto_lastSC (g : Group) (k : Nat) (pc : Word) : (g.goto k pc).lastSC = g.lastSC := by simp [Group.goto]
@[simp] theorem Group.goto_ufence (g : Group) (k : Nat) (pc : Word) : (g.goto k pc).ufence = g.ufence := by simp [Group.goto]
@[simp] theorem Group.goto_tid (g : Group) (k : Nat) (pc : Word) : (g.goto k pc).tid = g.tid := by simp [Group.goto]
@[simp] theorem Group.goto_bsyncs (g : Group) (k : Nat) (pc : Word) : (g.goto k pc).bsyncs = g.bsyncs := by simp [Group.goto]
@[simp] theorem Group.goto_atBsync (g : Group) (k : Nat) (pc : Word) : (g.goto k pc).atBsync = g.atBsync := by simp [Group.goto]
@[simp] theorem Group.goto_reorders (g : Group) (k : Nat) (pc : Word) : (g.goto k pc).reorders = g.reorders := by simp [Group.goto]
@[simp] theorem Group.goto_atReorder (g : Group) (k : Nat) (pc : Word) : (g.goto k pc).atReorder = g.atReorder := by simp [Group.goto]
@[simp] theorem Group.goto_parkRec (g : Group) (k : Nat) (pc : Word) : (g.goto k pc).parkRec = g.parkRec := by simp [Group.goto]
@[simp] theorem Group.goto_replay (g : Group) (k : Nat) (pc : Word) : (g.goto k pc).replay = g.replay := by simp [Group.goto]
@[simp] theorem Group.goto_pair (g : Group) (k : Nat) (pc : Word) : (g.goto k pc).pair = g.pair := by simp [Group.goto]
@[simp] theorem Group.goto_narrow (g : Group) (k : Nat) (pc : Word) : (g.goto k pc).narrow = g.narrow := by simp [Group.goto]
@[simp] theorem Group.next_present (g : Group) (k t : Nat) : (g.next k t).present = g.present := by simp [Group.next]
@[simp] theorem Group.next_saved (g : Group) (k t : Nat) : (g.next k t).saved = g.saved := by simp [Group.next]
@[simp] theorem Group.next_part (g : Group) (k t : Nat) : (g.next k t).part = g.part := by simp [Group.next]
@[simp] theorem Group.next_blk (g : Group) (k t : Nat) : (g.next k t).blk = g.blk := by simp [Group.next]
@[simp] theorem Group.next_launch (g : Group) (k t : Nat) : (g.next k t).launch = g.launch := by simp [Group.next]
@[simp] theorem Group.next_code (g : Group) (k t : Nat) : (g.next k t).code = g.code := by simp [Group.next]
@[simp] theorem Group.next_space (g : Group) (k t : Nat) : (g.next k t).space = g.space := by simp [Group.next]
@[simp] theorem Group.next_gidx (g : Group) (k t : Nat) : (g.next k t).gidx = g.gidx := by simp [Group.next]
@[simp] theorem Group.next_width (g : Group) (k t : Nat) : (g.next k t).width = g.width := by simp [Group.next]
@[simp] theorem Group.next_core (g : Group) (k t : Nat) : (g.next k t).core = g.core := by simp [Group.next]
@[simp] theorem Group.next_cpart (g : Group) (k t : Nat) : (g.next k t).cpart = g.cpart := by simp [Group.next]
@[simp] theorem Group.next_gslot (g : Group) (k t : Nat) : (g.next k t).gslot = g.gslot := by simp [Group.next]
@[simp] theorem Group.next_peak (g : Group) (k t : Nat) : (g.next k t).peak = g.peak := by simp [Group.next]
@[simp] theorem Group.next_checked (g : Group) (k t : Nat) : (g.next k t).checked = g.checked := by simp [Group.next]
@[simp] theorem Group.next_handler (g : Group) (k t : Nat) : (g.next k t).handler = g.handler := by simp [Group.next]
@[simp] theorem Group.next_status (g : Group) (k t : Nat) : (g.next k t).status = g.status := by simp [Group.next]
@[simp] theorem Group.next_front (g : Group) (k t : Nat) : (g.next k t).front = g.front := by simp [Group.next]
@[simp] theorem Group.next_quiet (g : Group) (k t : Nat) : (g.next k t).quiet = g.quiet := by simp [Group.next]
@[simp] theorem Group.next_saves (g : Group) (k t : Nat) : (g.next k t).saves = g.saves := by simp [Group.next]
@[simp] theorem Group.next_recs (g : Group) (k t : Nat) : (g.next k t).recs = g.recs := by simp [Group.next]
@[simp] theorem Group.next_s (g : Group) (k t : Nat) : (g.next k t).s = g.s := by simp [Group.next]
@[simp] theorem Group.next_spois (g : Group) (k t : Nat) : (g.next k t).spois = g.spois := by simp [Group.next]
@[simp] theorem Group.next_p (g : Group) (k t : Nat) : (g.next k t).p = g.p := by simp [Group.next]
@[simp] theorem Group.next_sp (g : Group) (k t : Nat) : (g.next k t).sp = g.sp := by simp [Group.next]
@[simp] theorem Group.next_win (g : Group) (k t : Nat) : (g.next k t).win = g.win := by simp [Group.next]
@[simp] theorem Group.next_it (g : Group) (k t : Nat) : (g.next k t).it = g.it := by simp [Group.next]
@[simp] theorem Group.next_qm (g : Group) (k t : Nat) : (g.next k t).qm = g.qm := by simp [Group.next]
@[simp] theorem Group.next_qx (g : Group) (k t : Nat) : (g.next k t).qx = g.qx := by simp [Group.next]
@[simp] theorem Group.next_qk (g : Group) (k t : Nat) : (g.next k t).qk = g.qk := by simp [Group.next]
@[simp] theorem Group.next_mkM (g : Group) (k t : Nat) : (g.next k t).mkM = g.mkM := by simp [Group.next]
@[simp] theorem Group.next_mkX (g : Group) (k t : Nat) : (g.next k t).mkX = g.mkX := by simp [Group.next]
@[simp] theorem Group.next_staged (g : Group) (k t : Nat) : (g.next k t).staged = g.staged := by simp [Group.next]
@[simp] theorem Group.next_cLD (g : Group) (k t : Nat) : (g.next k t).cLD = g.cLD := by simp [Group.next]
@[simp] theorem Group.next_cST (g : Group) (k t : Nat) : (g.next k t).cST = g.cST := by simp [Group.next]
@[simp] theorem Group.next_cSP (g : Group) (k t : Nat) : (g.next k t).cSP = g.cSP := by simp [Group.next]
@[simp] theorem Group.next_cCP (g : Group) (k t : Nat) : (g.next k t).cCP = g.cCP := by simp [Group.next]
@[simp] theorem Group.next_cMX (g : Group) (k t : Nat) : (g.next k t).cMX = g.cMX := by simp [Group.next]
@[simp] theorem Group.next_ops (g : Group) (k t : Nat) : (g.next k t).ops = g.ops := by simp [Group.next]
@[simp] theorem Group.next_copies (g : Group) (k t : Nat) : (g.next k t).copies = g.copies := by simp [Group.next]
@[simp] theorem Group.next_held (g : Group) (k t : Nat) : (g.next k t).held = g.held := by simp [Group.next]
@[simp] theorem Group.next_regions (g : Group) (k t : Nat) : (g.next k t).regions = g.regions := by simp [Group.next]
@[simp] theorem Group.next_exited (g : Group) (k t : Nat) : (g.next k t).exited = g.exited := by simp [Group.next]
@[simp] theorem Group.next_helper (g : Group) (k t : Nat) : (g.next k t).helper = g.helper := by simp [Group.next]
@[simp] theorem Group.next_world (g : Group) (k t : Nat) : (g.next k t).world = g.world := by simp [Group.next]
@[simp] theorem Group.next_depth (g : Group) (k t : Nat) : (g.next k t).depth = g.depth := by simp [Group.next]
@[simp] theorem Group.next_copy (g : Group) (k t : Nat) : (g.next k t).copy = g.copy := by simp [Group.next]
@[simp] theorem Group.next_fork (g : Group) (k t : Nat) : (g.next k t).fork = g.fork := by simp [Group.next]
@[simp] theorem Group.next_stalls (g : Group) (k t : Nat) : (g.next k t).stalls = g.stalls := by simp [Group.next]
@[simp] theorem Group.next_key (g : Group) (k t : Nat) : (g.next k t).key = g.key := by simp [Group.next]
@[simp] theorem Group.next_ctr (g : Group) (k t : Nat) : (g.next k t).ctr = g.ctr := by simp [Group.next]
@[simp] theorem Group.next_setting (g : Group) (k t : Nat) : (g.next k t).setting = g.setting := by simp [Group.next]
@[simp] theorem Group.next_stash (g : Group) (k t : Nat) : (g.next k t).stash = g.stash := by simp [Group.next]
@[simp] theorem Group.next_lastSC (g : Group) (k t : Nat) : (g.next k t).lastSC = g.lastSC := by simp [Group.next]
@[simp] theorem Group.next_ufence (g : Group) (k t : Nat) : (g.next k t).ufence = g.ufence := by simp [Group.next]
@[simp] theorem Group.next_tid (g : Group) (k t : Nat) : (g.next k t).tid = g.tid := by simp [Group.next]
@[simp] theorem Group.next_bsyncs (g : Group) (k t : Nat) : (g.next k t).bsyncs = g.bsyncs := by simp [Group.next]
@[simp] theorem Group.next_atBsync (g : Group) (k t : Nat) : (g.next k t).atBsync = g.atBsync := by simp [Group.next]
@[simp] theorem Group.next_reorders (g : Group) (k t : Nat) : (g.next k t).reorders = g.reorders := by simp [Group.next]
@[simp] theorem Group.next_atReorder (g : Group) (k t : Nat) : (g.next k t).atReorder = g.atReorder := by simp [Group.next]
@[simp] theorem Group.next_parkRec (g : Group) (k t : Nat) : (g.next k t).parkRec = g.parkRec := by simp [Group.next]
@[simp] theorem Group.next_replay (g : Group) (k t : Nat) : (g.next k t).replay = g.replay := by simp [Group.next]
@[simp] theorem Group.next_pair (g : Group) (k t : Nat) : (g.next k t).pair = g.pair := by simp [Group.next]
@[simp] theorem Group.next_narrow (g : Group) (k t : Nat) : (g.next k t).narrow = g.narrow := by simp [Group.next]

end Sys2Proof.Machine
end

