-- ==== Sys2Proof/Laws/Run.lean ====
section
/-! SUPPORT. Laws/Run.lean: what the shared forms of the instructions answer when nothing stops them. -/

namespace Sys2Proof.Machine

/-! ### Outcomes -/

theorem onGroup_ok {s t : State} {r : Chk State} (hp : s.g.present = true) (hr : r = .ok t) : onGroup s r = .next t := by
  simp [onGroup, hp, hr, settle]

theorem onGroup_error {s : State} {r : Chk State} {e : Stop} (hp : s.g.present = true) (hr : r = .error e) :
    onGroup s r = .next (takeStop s e) := by
  simp [onGroup, hp, hr, settle]

/-- Whatever an instruction of a group meets, the machine goes on. -/
theorem onGroup_next (s : State) (r : Chk State) : ∃ t, onGroup s r = .next t := by
  unfold onGroup settle
  split
  · split <;> exact ⟨_, rfl⟩
  · exact ⟨_, rfl⟩

theorem phased_ok {α : Type} {s t : State} {p1 : Chk α} {a : α} {act : α → State} {p2 : α → State → Chk State}
    (hp : s.g.present = true) (h1 : p1 = .ok a) (h2 : p2 a (act a) = .ok t) : phased s p1 act p2 = .next t := by
  simp [phased, hp, h1, h2, settle]

theorem phased_next {α : Type} (s : State) (p1 : Chk α) (act : α → State) (p2 : α → State → Chk State) :
    ∃ t, phased s p1 act p2 = .next t := by
  unfold phased settle
  split
  · split
    · exact ⟨_, rfl⟩
    · split <;> exact ⟨_, rfl⟩
  · exact ⟨_, rfl⟩

/-! ### The issuing group -/

@[simp] theorem State.setG_g (s : State) (g : Group) : (s.setG g).g = g := by
  simp [State.g, State.setG, State.ctx]
@[simp] theorem State.setG_ctx (s : State) (g : Group) : (s.setG g).ctx = s.ctx := rfl
@[simp] theorem State.setG_slot (s : State) (g : Group) : (s.setG g).slot = s.slot := rfl
@[simp] theorem State.setG_now (s : State) (g : Group) : (s.setG g).now = s.now := rfl
@[simp] theorem State.setG_hbm (s : State) (g : Group) : (s.setG g).hbm = s.hbm := rfl
@[simp] theorem State.setG_space (s : State) (g : Group) (n : Nat) : (s.setG g).space n = s.space n := rfl
@[simp] theorem State.setG_part (s : State) (g : Group) (n : Nat) : (s.setG g).part n = s.part n := rfl
@[simp] theorem State.setG_block (s : State) (g : Group) (n : Nat) : (s.setG g).block n = s.block n := rfl
@[simp] theorem State.setG_launch (s : State) (g : Group) (n : Nat) : (s.setG g).launch n = s.launch n := rfl
@[simp] theorem State.setG_code (s : State) (g : Group) (n : Nat) : (s.setG g).code n = s.code n := rfl
@[simp] theorem State.setGroup_ctx_g (s : State) (g : Group) : (s.setGroup s.ctx g).g = g := State.setG_g s g
@[simp] theorem State.group_ctx (s : State) : s.group s.ctx = s.g := rfl

theorem put_put_same {α : Type} [DecidableEq α] (d : α) (m : SMap α) (i : Nat) (x y : α) :
    put d (put d m i x) i y = put d m i y := by
  have hdd (m : SMap α) : del (del m i) i = del m i := by
    induction m with
    | nil => rfl
    | cons e r ih => obtain ⟨k, v⟩ := e; by_cases h : k = i <;> simp [del, h, ih]
  have hdi (m : SMap α) : del (ins i x m) i = del m i := by
    induction m with
    | nil => simp [ins, del]
    | cons e r ih =>
      obtain ⟨k, v⟩ := e
      by_cases hl : i < k
      · simp [ins, hl, del]
      · by_cases h : k = i <;> simp [ins, hl, del, h, ih]
  unfold put
  by_cases hx : x = d <;> simp [hx, hdd, hdi]

@[simp] theorem State.setGroup_setGroup (s : State) (n : Nat) (g h : Group) : (s.setGroup n g).setGroup n h = s.setGroup n h := by
  simp [State.setGroup, put_put_same]
@[simp] theorem State.setG_setG (s : State) (g h : Group) : (s.setG g).setG h = s.setG h :=
  State.setGroup_setGroup s s.ctx g h

@[simp] theorem State.advance_g (s : State) : s.advance.g = s.g.next s.slot s.now := by simp [State.advance]
theorem State.advance_setG (s : State) (g : Group) : (s.setG g).advance = s.setG (g.next s.slot s.now) := by
  simp [State.advance]

@[simp] theorem setAt_length {α : Type} (l : List α) (i : Nat) (x : α) : (setAt l i x).length = l.length := by
  induction l generalizing i with
  | nil => rfl
  | cons a r ih => cases i <;> simp [setAt, ih]

@[simp] theorem Group.restack_stack (g : Group) (st : List Path) : (g.restack st).stack = st := rfl

theorem advance_moves (s : State) : Moves s s.advance := by
  simp [Moves, Group.moved, Group.next, Group.goto, Group.flushKills_stack, Group.restack_stack, Group.setPath, Group.countIssue, Group.path]

end Sys2Proof.Machine
end

