-- ==== Sys2Proof/Laws/Names.lean ====
section
/-! SUPPORT. Laws/Names.lean: vector names: what a KILL frees and when (01 R19, R21), and reading after writing. -/

namespace Sys2Proof.Machine

@[simp] theorem bit256_getLsbD (n j : Nat) : (bit256 n).getLsbD j = (decide (j < 256) && decide (n = j)) := by
  simp only [bit256, BitVec.getLsbD_ofNat]
  by_cases h : j < 256 <;> simp [h, Nat.testBit_two_pow]

theorem foldl_bits (f : Nat → Bool) (l : List Nat) (m : BitVec 256) (j : Nat) :
    (l.foldl (fun m n => if f n then m ||| bit256 n else m) m).getLsbD j =
      (m.getLsbD j || (decide (j < 256) && l.contains j && f j)) := by
  induction l generalizing m with
  | nil => simp
  | cons a r ih =>
    rw [List.foldl_cons, ih]
    by_cases hf : f a
    · by_cases hj : a = j
      · subst hj
        by_cases h : a < 256 <;> simp [hf, h]
      · simp [hf, hj, Ne.symm hj]
    · by_cases hj : a = j
      · subst hj
        simp [hf]
      · simp [hf, Ne.symm hj]

/-- The names that a flush frees: those marked that no operation in flight will write. -/
theorem Group.settled_getLsbD (g : Group) (ns : BitVec 256) (j : Nat) :
    (g.settled ns).getLsbD j = (ns.getLsbD j && !g.pendingV j) := by
  unfold Group.settled
  by_cases h0 : ns = 0
  · simp [h0]
  · have : (ns == 0) = false := by simpa using h0
    rw [this]
    simp only [Bool.false_eq_true, if_false]
    rw [foldl_bits (fun n => ns.getLsbD n && !g.pendingV n)]
    by_cases hj : j < 256
    · simp [hj, List.mem_range]
    · have : ns.getLsbD j = false := BitVec.getLsbD_of_ge _ _ (by omega)
      simp [hj, this]

/-- After a flush on a single path nothing is left that a further flush would free. -/
theorem Group.settled_free (g : Group) : (g.free (g.settled g.dkill)).settled (g.free (g.settled g.dkill)).dkill = 0 := by
  apply BitVec.eq_of_getLsbD_eq
  intro j hj
  have hp (m : BitVec 256) : (g.free m).pendingV j = g.pendingV j := rfl
  rw [Group.settled_getLsbD, hp]
  simp only [Group.free, BitVec.getLsbD_and, BitVec.getLsbD_not, Group.settled_getLsbD, hj, decide_true, Bool.true_and]
  cases g.dkill.getLsbD j <;> cases g.pendingV j <;> simp

theorem Group.free_zero (g : Group) : g.free 0 = g := by
  have h (m : BitVec 256) : m &&& ~~~(0 : BitVec 256) = m := by
    apply BitVec.eq_of_getLsbD_eq
    intro i hi
    have h0 : (0 : BitVec 256).getLsbD i = false := by simp
    rw [BitVec.getLsbD_and, BitVec.getLsbD_not, h0]
    simp [hi]
  have hv : g.v.filter (fun e => !(0 : BitVec 256).getLsbD (e.1 / 64)) = g.v := by simp
  simp only [Group.free, h, hv]

@[simp] theorem Group.diverged_free (g : Group) (ns : BitVec 256) : (g.free ns).diverged = g.diverged := rfl
@[simp] theorem Group.diverged_flushKills (g : Group) : g.flushKills.diverged = g.diverged := by
  unfold Group.flushKills; split <;> rfl
@[simp] theorem Group.diverged_kill (g : Group) (ns : BitVec 256) : (g.kill ns).diverged = g.diverged := by
  simp [Group.kill, Group.diverged]
@[simp] theorem Group.single_free (g : Group) (ns : BitVec 256) : (g.free ns).single = g.single := rfl
@[simp] theorem Group.single_flushKills (g : Group) : g.flushKills.single = g.single := by
  unfold Group.flushKills; split <;> rfl
@[simp] theorem Group.single_kill (g : Group) (ns : BitVec 256) : (g.kill ns).single = g.single :=
  Group.single_flushKills { g with dkill := g.dkill ||| ns }

/-- Once killed on a single path, a group has no flush left to make. -/
theorem Group.kill_settled (g : Group) (ks : BitVec 256) (h : g.single = true) : (g.kill ks).settled (g.kill ks).dkill = 0 := by
  have hd : ({ g with dkill := g.dkill ||| ks } : Group).single = true := h
  simp only [Group.kill, Group.flushKills, hd, Bool.not_true, Bool.false_eq_true, if_false]
  exact Group.settled_free _

/-! ### Reads and writes -/

@[simp] theorem Group.rdV_wrV_same (g : Group) (n l : Nat) (x : Word) : (g.wrV n l x).rdV n l = x := get_put_same _ _ _
theorem Group.rdV_wrV_ne (g : Group) {n l m j : Nat} (x : Word) (hl : l < 64) (hj : j < 64) (h : ¬(m = n ∧ j = l)) :
    (g.wrV n l x).rdV m j = g.rdV m j := by
  apply get_put_ne
  intro e
  apply h
  omega
@[simp] theorem Group.rdS_wrS_same (g : Group) (n : Nat) (x : Word) : (g.wrS n x).rdS n = x := get_put_same _ _ _
theorem Group.rdS_wrS_ne (g : Group) {n m : Nat} (x : Word) (h : m ≠ n) : (g.wrS n x).rdS m = g.rdS m := get_put_ne _ _ h

theorem lanesOf_lt {m : Mask} {l : Nat} (h : l ∈ lanesOf m) : l < 64 := by
  simp [lanesOf] at h; exact h.1

theorem lanesOf_nodup (m : Mask) : (lanesOf m).Nodup := List.Nodup.filter _ (List.nodup_range)

theorem mem_lanesOf {m : Mask} {l : Nat} : l ∈ lanesOf m ↔ m.getLsbD l = true := by
  simp only [lanesOf, List.mem_filter, List.mem_range, bitOf]
  constructor
  · exact fun h => h.2
  · intro h
    refine ⟨?_, h⟩
    by_contra hl
    rw [BitVec.getLsbD_of_ge m l (by omega)] at h
    simp at h

/-- What `n` registers hold after a value is written to them in a lane. -/
theorem Group.rdV_wrVs (g : Group) (r n l x m j : Nat) (hl : l < 64) (hj : j < 64) :
    (g.wrVs r n l x).rdV m j = if j = l ∧ r ≤ m ∧ m < r + n then wordN x (m - r) else g.rdV m j := by
  unfold Group.wrVs
  induction n with
  | zero =>
    have : ¬(j = l ∧ r ≤ m ∧ m < r + 0) := by omega
    simp only [List.range_zero, List.foldl_nil, this, if_false]
  | succ n ih =>
    rw [List.range_succ, List.foldl_append]
    simp only [List.foldl_cons, List.foldl_nil]
    by_cases h : m = r + n ∧ j = l
    · obtain ⟨rfl, rfl⟩ := h
      simp
    · rw [Group.rdV_wrV_ne _ _ hl hj h, ih]
      by_cases hc : j = l ∧ r ≤ m ∧ m < r + n
      · have : j = l ∧ r ≤ m ∧ m < r + (n + 1) := ⟨hc.1, hc.2.1, by omega⟩
        simp [hc, this]
      · have : ¬(j = l ∧ r ≤ m ∧ m < r + (n + 1)) := by
          rintro ⟨rfl, h1, h2⟩
          apply hc
          refine ⟨rfl, h1, ?_⟩
          have : m ≠ r + n := fun e => h ⟨e, rfl⟩
          omega
        simp [hc, this]

/-- What the names hold after the lanes of a list have written their results. -/
theorem Group.rdV_wrLanes (g : Group) (r n m j : Nat) (res : List (Nat × Nat)) (hn : (res.map (·.1)).Nodup)
    (hl : ∀ e ∈ res, e.1 < 64) (hj : j < 64) :
    (res.foldl (fun g e => g.wrVs r n e.1 e.2) g).rdV m j =
      match res.find? (·.1 == j) with
      | some e => if r ≤ m ∧ m < r + n then wordN e.2 (m - r) else g.rdV m j
      | none => g.rdV m j := by
  induction res generalizing g with
  | nil => rfl
  | cons e t ih =>
    obtain ⟨l, x⟩ := e
    simp only [List.map_cons, List.nodup_cons] at hn
    have hlt : l < 64 := hl (l, x) (by simp)
    rw [List.foldl_cons, ih _ hn.2 fun e he => hl e (by simp [he])]
    by_cases h : l = j
    · subst h
      have : t.find? (fun e => e.1 == l) = none := by
        rw [List.find?_eq_none]
        intro e he
        have : e.1 ≠ l := fun h => hn.1 (h ▸ List.mem_map_of_mem he)
        simpa using this
      simp [this, Group.rdV_wrVs _ _ _ _ _ _ _ hlt hj]
    · have hlj : (l == j) = false := by simpa using h
      simp only [List.find?_cons, hlj]
      cases t.find? (fun e => e.1 == j) with
      | none => simp [Group.rdV_wrVs _ _ _ _ _ _ _ hlt hj, Ne.symm h]
      | some e => simp [Group.rdV_wrVs _ _ _ _ _ _ _ hlt hj, Ne.symm h]

end Sys2Proof.Machine
end

