-- ==== Sys2Proof/Laws/Lanes.lean ====
section
/-! SUPPORT. Laws/Lanes.lean: what the value instructions answer in the lanes and on the uniform front. -/

namespace Sys2Proof.Machine

/-- The lanes' results, where no lane stops. -/
theorem gather_ok {α : Type} (helper : Mask) (ls : List Nat) (f : Nat → α) (r : Nat → Except LaneStop α)
    (h : ∀ l ∈ ls, r l = .ok (f l)) : gather helper (ls.map fun l => (l, r l)) = .ok (ls.map fun l => (l, f l)) := by
  have hm : ls.map (fun l => (l, r l)) = ls.map fun l => (l, Except.ok (f l)) := List.map_congr_left fun l hl => by rw [h l hl]
  rw [hm]
  unfold gather
  simp [List.filterMap_map]

theorem voidsOf_none {ls : List Nat} {vo : Nat → Bool} (h : ∀ l ∈ ls, vo l = false) : voidsOf ls vo = 0 := by
  unfold voidsOf
  induction ls with
  | nil => rfl
  | cons a r ih =>
    rw [List.foldl_cons, h a (by simp)]
    exact ih fun l hl => h l (by simp [hl])

/-! ### Lanes that keep their results (01 R32) -/

/-- Where no lane is dropped, every lane keeps its result. -/
theorem keptLanes_all (old new : List (Nat × Nat)) (h : ∀ e ∈ old, e.1 ∈ new.map (·.1)) : keptLanes old new = ~~~(0 : Mask) := by
  unfold keptLanes
  generalize (~~~(0 : Mask)) = m
  induction old generalizing m with
  | nil => rfl
  | cons a r ih =>
    have ha : (new.any fun e => e.1 == a.1) = true := by
      obtain ⟨e, he, hq⟩ := List.mem_map.1 (h a (by simp))
      exact List.any_eq_true.2 ⟨e, he, by simpa using hq⟩
    rw [List.foldl_cons, ha]
    exact ih (fun e he => h e (by simp [he])) m

@[simp] theorem keptLanes_self (res : List (Nat × Nat)) : keptLanes res res = 18446744073709551615#64 :=
  keptLanes_all res res fun _ h => List.mem_map_of_mem h

@[simp] theorem and_full (m : Mask) : m &&& 18446744073709551615#64 = m := BitVec.and_allOnes

theorem bitOf_full {l : Nat} (h : l < 64) : bitOf 18446744073709551615#64 l = true := by
  have : (BitVec.allOnes 64).getLsbD l = decide (l < 64) := BitVec.getLsbD_allOnes
  simpa [bitOf, h] using this

theorem filter_full {ls : List Nat} (h : ∀ l ∈ ls, l < 64) : ls.filter (bitOf 18446744073709551615#64) = ls :=
  List.filter_eq_self.2 fun l hl => bitOf_full (h l hl)

@[simp] theorem filter_lanesOf (m : Mask) : (lanesOf m).filter (bitOf 18446744073709551615#64) = lanesOf m :=
  filter_full fun _ hl => lanesOf_lt hl

/-- A destination that is no carry name passes the check of the yield mask. -/
theorem needYield_other {s : State} {live : Mask} {d : Opnd} (h : d.isC = false) : s.needYield live d = .ok () := by
  cases d <;> first | rfl | simp [Opnd.isC] at h

/-- Value instructions in the lanes go on to commit their results. -/
theorem runLanes_ok {s : State} {opc : Nat} {f : AluF} {fn : List Nat → List Word → Nat} {pops : List (Queue × Word)}
    {xs : Nat → List Nat} {vo : Nat → Bool} (h : LanesRead s opc f pops xs vo) (hy : s.needYield (s.execLive f.guard) f.dst = .ok ()) :
    s.runLanes f.guard (valOp opc f fn) =
      s.commitLanes s.ctx (s.execLive f.guard) (aluUses opc f) pops (voidsOf (lanesOf (s.execLanes f.guard)) vo) f.dst
        (dstCount opc f) (drawsOf opc f) (lanesOf (s.execLanes f.guard))
        ((lanesOf (s.execLanes f.guard)).map fun l => (l, s.laneResult opc f fn xs l)) := by
  have he : s.execLanes f.guard ≠ 0 := by
    intro h0
    apply h.runs
    simp [State.execLive, h0]
  have heb : (s.execLanes f.guard == 0) = false := by simpa using he
  have hg := gather_ok s.g.helper (lanesOf (s.execLanes f.guard)) (fun l => (s.laneResult opc f fn xs l, vo l))
    (fun l => do
      let (ys, v) ← s.rdSrcs s.ctx pops (aluUses opc f) l
      let y ← (valOp opc f fn).fn l ys (s.g.drawn l (drawsOf opc f))
      .ok (y, v))
    (fun l hl => by rw [h.reads l hl]; rfl)
  unfold State.execLive at hy
  unfold State.runLanes State.runOn
  simp only [heb, valOp, Bool.false_eq_true, if_false, h.clean, h.tokens, hy]
  simp only [valOp] at hg
  simp only [bind, Except.bind] at hg ⊢
  rw [hg]
  simp only [List.map_map, Function.comp_def, List.map_id', List.foldl_map, State.execLive, dstCount, voidsOf]

/-- The meaning of a value instruction is the shared form on its result function. -/
theorem exec_valueOf {i : Instr} {opc : Nat} {f : AluF} {fn : List Nat → List Word → Nat} (h : valueOf i = some (opc, f, fn))
    (s : State) : exec i s = execVal opc f fn s := by
  cases i <;> simp only [valueOf, Option.some.injEq, Prod.mk.injEq, reduceCtorEq] at h <;>
    (obtain ⟨rfl, rfl, rfl⟩ := h; rfl)

/-- A value instruction in the lanes, once its results are committed. -/
theorem exec_lanes {i : Instr} {opc : Nat} {f : AluF} {fn : List Nat → List Word → Nat} {s t : State} {pops : List (Queue × Word)}
    {xs : Nat → List Nat} {vo : Nat → Bool} (hv : valueOf i = some (opc, f, fn)) (hl : onFront opc f = false)
    (h : LanesRead s opc f pops xs vo) (hy : s.needYield (s.execLive f.guard) f.dst = .ok ()) (hc : s.commitLanes s.ctx (s.execLive f.guard) (aluUses opc f) pops (voidsOf (lanesOf (s.execLanes f.guard)) vo) f.dst
        (dstCount opc f) (drawsOf opc f) (lanesOf (s.execLanes f.guard))
        ((lanesOf (s.execLanes f.guard)).map fun l => (l, s.laneResult opc f fn xs l)) = .ok t) :
    exec i s = .next t.advance := by
  rw [exec_valueOf hv]
  apply onGroup_ok h.present
  have hw : s.needWindow opc f = .ok () := by
    unfold State.needWindow need
    cases hu : usesCarry f opc with
    | false => simp
    | true => simp [h.window hu]
  unfold State.runVal
  rw [hw]
  simp only [hl, Bool.false_eq_true, if_false]
  rw [runLanes_ok h hy, hc]
  rfl

/-! ### What committing keeps -/

theorem Group.popped_keep (g : Group) (pops : List (Queue × Word)) :
    ∃ a b c, g.popped pops = { g with qm := a, qx := b, qk := c } := by
  unfold Group.popped
  induction pops generalizing g with
  | nil => exact ⟨g.qm, g.qx, g.qk, rfl⟩
  | cons e r ih =>
    obtain ⟨a, b, c, h⟩ := ih (g.popQ e.1)
    rw [List.foldl_cons, h]
    obtain ⟨q, w⟩ := e
    cases q <;> exact ⟨_, _, _, rfl⟩

theorem Group.wrVs_keep (g : Group) (r n l x : Nat) : ∃ a b c, g.wrVs r n l x = { g with v := a, mapped := b, vpois := c } := by
  unfold Group.wrVs
  induction n with
  | zero => exact ⟨g.v, g.mapped, g.vpois, rfl⟩
  | succ n ih =>
    obtain ⟨a, b, c, h⟩ := ih
    rw [List.range_succ, List.foldl_append, h]
    exact ⟨_, _, _, rfl⟩

theorem Group.wrLanes_keep (g : Group) (r n : Nat) (res : List (Nat × Nat)) :
    ∃ a b c, (res.foldl (fun g e => g.wrVs r n e.1 e.2) g : Group) = { g with v := a, mapped := b, vpois := c } := by
  induction res generalizing g with
  | nil => exact ⟨g.v, g.mapped, g.vpois, rfl⟩
  | cons e t ih =>
    obtain ⟨a, b, c, h⟩ := g.wrVs_keep r n e.1 e.2
    obtain ⟨a', b', c', h'⟩ := ih (g.wrVs r n e.1 e.2)
    rw [List.foldl_cons, h', h]
    exact ⟨_, _, _, rfl⟩

theorem Group.stepCtr_keep (g : Group) (ls : List Nat) (k : Nat) : g.stepCtr ls k = { g with ctr := (g.stepCtr ls k).ctr } := by
  unfold Group.stepCtr; split <;> rfl

theorem Group.kill_keep (g : Group) (ks : BitVec 256) :
    g.kill ks = { g with v := (g.kill ks).v, mapped := (g.kill ks).mapped, dkill := (g.kill ks).dkill, vpois := (g.kill ks).vpois } := by
  unfold Group.kill Group.flushKills; split <;> rfl

theorem Group.flushKills_keep (g : Group) : g.flushKills =
    { g with v := g.flushKills.v, mapped := g.flushKills.mapped, dkill := g.flushKills.dkill, vpois := g.flushKills.vpois } := by
  unfold Group.flushKills; split <;> rfl

theorem Group.setPred_keep (g : Group) (n : Nat) (m x : Mask) : g.setPred n m x = { g with p := (g.setPred n m x).p } := by
  unfold Group.setPred Group.wrP; split <;> rfl

theorem Group.voided_keep (g : Group) (m : Mask) : g.voided m = { g with p := (g.voided m).p } := by
  unfold Group.voided; split
  · rfl
  · exact g.setPred_keep 14 m m

/-- Moving on changes the path, the issue counts and what a flush frees. -/
theorem Group.next_keep (g : Group) (k t : Nat) : g.sameButPath (g.next k t) := by
  unfold Group.sameButPath Group.next Group.goto
  rw [Group.flushKills_keep]
  rfl

theorem find_lane (ls : List Nat) (f : Nat → Nat) (j : Nat) :
    (ls.map fun l => (l, f l)).find? (·.1 == j) = if j ∈ ls then some (j, f j) else none := by
  induction ls with
  | nil => rfl
  | cons a r ih =>
    by_cases h : a = j
    · subst h; simp
    · have : (a == j) = false := by simpa using h
      simp [this, ih, Ne.symm h]

/-! ### What committing leaves alone -/

/-- Of a group, only vector names, predicates, queues and random counters change. -/
def Group.onlyRegs (g g' : Group) : Prop :=
  g' = { g with v := g'.v, mapped := g'.mapped, dkill := g'.dkill, vpois := g'.vpois, p := g'.p, qm := g'.qm, qx := g'.qx,
                qk := g'.qk, ctr := g'.ctr }

theorem Group.onlyRegs.trans {a b c : Group} (h1 : a.onlyRegs b) (h2 : b.onlyRegs c) : a.onlyRegs c := by
  unfold Group.onlyRegs at *
  refine h2.trans ?_
  rw [h1]

theorem Group.popped_regs (g : Group) (pops : List (Queue × Word)) : g.onlyRegs (g.popped pops) := by
  obtain ⟨a, b, c, h⟩ := g.popped_keep pops
  rw [h]; rfl
theorem Group.voided_regs (g : Group) (m : Mask) : g.onlyRegs (g.voided m) := by
  rw [g.voided_keep m]; rfl
theorem Group.kill_regs (g : Group) (ks : BitVec 256) : g.onlyRegs (g.kill ks) := by
  rw [g.kill_keep ks]; rfl
theorem Group.stepCtr_regs (g : Group) (ls : List Nat) (k : Nat) : g.onlyRegs (g.stepCtr ls k) := by
  rw [g.stepCtr_keep ls k]; rfl
theorem Group.dstWrite_regs (g : Group) (d : Opnd) (n : Nat) (res : List (Nat × Nat)) : g.onlyRegs (g.dstWrite d n res) := by
  cases d with
  | v r =>
    obtain ⟨a, b, c, h⟩ := g.wrLanes_keep r.toNat n res
    rw [show g.dstWrite (.v r) n res = _ from h]; rfl
  | p r =>
    show g.onlyRegs (g.setPred _ _ _)
    rw [Group.setPred_keep]; rfl
  | _ => rfl

/-- The group as a value instruction in the lanes leaves it before the path moves on. -/
theorem Group.committed_regs (g : Group) (pops : List (Queue × Word)) (m : Mask) (ks : BitVec 256) (ls : List Nat) (k : Nat) (d : Opnd)
    (n : Nat) (res : List (Nat × Nat)) : g.onlyRegs (((((g.popped pops).voided m).kill ks).stepCtr ls k).dstWrite d n res) :=
  ((((g.popped_regs pops).trans (Group.voided_regs _ m)).trans (Group.kill_regs _ ks)).trans (Group.stepCtr_regs _ ls k)).trans
    (Group.dstWrite_regs _ d n res)

/-- Moving on after such a change. -/
theorem Group.onlyRegs.next {g h : Group} (e : g.onlyRegs h) (k t : Nat) : g.sameButValues (h.next k t) := by
  have hn := h.next_keep k t
  unfold Group.onlyRegs at e
  unfold Group.sameButPath at hn
  unfold Group.sameButValues
  refine hn.trans ?_
  rw [e]
  simp

theorem Group.onlyRegs.moves {s : State} {h : Group} (e : s.g.onlyRegs h) : Moves s (s.setG (h.next s.slot s.now)) := by
  have hs : h.stack = s.g.stack := by rw [e]
  have hi : h.issued = s.g.issued := by rw [e]
  have hf : h.quiet = s.g.quiet := by rw [e]
  have hb : h.lastBeat = s.g.lastBeat := by rw [e]
  have hm := advance_moves (s.setG h)
  simp only [State.advance_setG] at hm
  simpa [Moves, Group.moved, hs, hi, hf, hb, Group.path] using hm

/-! ### Each destination class -/

theorem commitLanes_v {s : State} {live : Mask} {us : List SrcUse} {pops : List (Queue × Word)} {voids : Mask} {d : BitVec 8}
    {n draws : Nat} {ls : List Nat} {res : List (Nat × Nat)}
    (hls : ∀ l ∈ ls, l < 64) (hp : s.g.pendingWrite (dstNames (.v d) n ++ if voids == 0 then [] else [.p 14]) = none)
    (hb : s.g.needs (killSet us) (dstV (.v d) n) ≤ s.g.peak) :
    s.commitLanes s.ctx live us pops voids (.v d) n draws ls res =
      .ok (s.setG (((((s.g.popped pops).voided voids).kill (killSet us)).stepCtr ls draws).dstWrite (.v d) n res)) := by
  have hb' : ¬ s.g.peak < s.g.needs (killSet us) (dstV (.v d) n) := by omega
  unfold State.commitLanes
  rw [State.group_ctx, hp]
  simp [State.dstRes, hb', trapOr, State.dstPush, State.dstYield, State.setG, filter_full hls]

theorem commitLanes_p {s : State} {live : Mask} {us : List SrcUse} {pops : List (Queue × Word)} {voids : Mask} {d : BitVec 4}
    {n draws : Nat} {ls : List Nat} {res : List (Nat × Nat)}
    (hls : ∀ l ∈ ls, l < 64) (hp : s.g.pendingWrite (dstNames (.p d) n ++ if voids == 0 then [] else [.p 14]) = none) :
    s.commitLanes s.ctx live us pops voids (.p d) n draws ls res =
      .ok (s.setG (((((s.g.popped pops).voided voids).kill (killSet us)).stepCtr ls draws).dstWrite (.p d) n res)) := by
  unfold State.commitLanes
  rw [State.group_ctx, hp]
  simp [State.dstRes, State.dstPush, State.dstYield, State.setG, filter_full hls]

end Sys2Proof.Machine
end

