-- ==== Sys2Proof/Laws/Commit.lean ====
section
/-! SUPPORT. Laws/Commit.lean: what committing the results of the lanes answers for every destination, and what moving on and the
KILLs leave of the vector names. -/

namespace Sys2Proof.Machine

/-- Moving on leaves the token queues. -/
theorem queue_next (g : Group) (k t : Nat) (q : Queue) : (g.next k t).queue q = g.queue q := by
  have h := g.next_keep k t
  unfold Group.sameButPath at h
  rw [h]; cases q <;> rfl

/-- A vector name reads from `v` alone. -/
theorem rdV_congr {g h : Group} {n l : Nat} (e : g.v = h.v) : g.rdV n l = h.rdV n l := by simp [Group.rdV, e]

/-- Moving on frees no vector name that waits for no settled KILL. -/
theorem next_v (g : Group) (k t : Nat) (h : (g.next k t).single = false ∨ g.settled g.dkill = 0) : (g.next k t).v = g.v := by
  unfold Group.next Group.goto at h ⊢
  rw [Group.single_flushKills] at h
  rw [Group.flushKills]
  generalize hx : (((g.countIssue k t).setPath k
    { (g.countIssue k t).path k with pc := pcNext (g.path k).pc, stall := 0, sup := none, tried := false }).restack
      (tidy (((g.countIssue k t).setPath k { (g.countIssue k t).path k with pc := pcNext (g.path k).pc, stall := 0, sup := none, tried := false }).stack.length
        + 1) ((g.countIssue k t).setPath k { (g.countIssue k t).path k with pc := pcNext (g.path k).pc, stall := 0, sup := none, tried := false }).stack))
    = x at h ⊢
  have hv : x.v = g.v := by rw [← hx]; rfl
  have hs : x.settled x.dkill = g.settled g.dkill := by rw [← hx]; rfl
  split
  · exact hv
  · rename_i hd
    rcases h with h | h
    · simp [h] at hd
    · rw [hs, h, Group.free_zero, hv]

/-- Which names have settled depends on the operations in flight alone. -/
theorem settled_congr {g h : Group} (m : BitVec 256) (e : g.ops = h.ops) : g.settled m = h.settled m := by
  simp [Group.settled, Group.pendingV, e]

/-- Whether a group stands on a single path depends on its stacks and its live lanes alone. -/
theorem single_congr {g h : Group} (e1 : g.stack = h.stack) (e2 : g.saves = h.saves) (e3 : g.liveLanes = h.liveLanes) : g.single = h.single := by
  simp only [Group.single, Group.diverged, e1, e2, e3]

/-- What a KILL leaves of the vector names. -/
theorem kill_v_congr (g h : Group) (ks : BitVec 256) (e1 : g.v = h.v) (e2 : g.dkill = h.dkill) (e3 : g.stack = h.stack) (e4 : g.saves = h.saves)
   (e5 : g.ops = h.ops) (e6 : g.liveLanes = h.liveLanes) : (g.kill ks).v = (h.kill ks).v := by
  have hd : ({ g with dkill := g.dkill ||| ks } : Group).single = ({ h with dkill := h.dkill ||| ks } : Group).single := 
    single_congr e3 e4 e6
  unfold Group.kill Group.flushKills
  rw [hd]
  split
  · exact e1
  · simp only [Group.free]
    have := settled_congr (g := { g with dkill := g.dkill ||| ks }) (h := { h with dkill := h.dkill ||| ks }) (g.dkill ||| ks) e5
    rw [this, e1, e2]

/-- The live lanes are the executing lanes that are no helpers. -/
theorem live_helper (s : State) (f : AluF) : s.execLive f.guard = s.execLanes f.guard &&& ~~~s.g.helper := rfl

/-- The first live result. -/
theorem find_live (ls : List Nat) (m : Mask) (f : Nat → Nat) :
    (ls.map fun l => (l, f l)).find? (fun e => bitOf m e.1) = (ls.find? (bitOf m)).map fun l => (l, f l) := by
  induction ls with
  | nil => rfl
  | cons a r ih => by_cases h : bitOf m a <;> simp [h, ih]

/-- A live lane stands among the executing lanes. -/
theorem some_live {m n : Mask} (h : m &&& n ≠ 0) : ∃ l, (lanesOf m).find? (bitOf (m &&& n)) = some l := by
  cases e : (lanesOf m).find? (bitOf (m &&& n)) with
  | some l => exact ⟨l, rfl⟩
  | none =>
    exfalso; apply h
    apply BitVec.eq_of_getLsbD_eq
    intro i hi
    rw [List.find?_eq_none] at e
    by_cases hm : m.getLsbD i
    · have := e i (mem_lanesOf.2 hm)
      simpa [bitOf] using this
    · simp [hm]

/-- A destination that takes its results passes the check of the yield mask. -/
theorem needYield_takes {s : State} {opc f n vo y} (live : Mask) (h : DstTakes s opc f n vo y) : s.needYield live f.dst = .ok () := by
  cases hd : f.dst with
  | c k => simp [State.needYield, (h.yields k hd).1, need]
  | _ => rfl

/-- Committing the results of the lanes answers `taken`, where the destination takes them. -/
theorem commit_taken {s : State} {opc : Nat} {f : AluF} {pops} {vo} {n : Nat} {y : Nat → Nat}
    (hl : s.execLive f.guard ≠ 0) (h : DstTakes s opc f n vo y) :
   s.commitLanes s.ctx (s.execLive f.guard) (aluUses opc f) pops (voidsOf (lanesOf (s.execLanes f.guard)) vo) f.dst n (drawsOf opc f) (lanesOf (s.execLanes f.guard))
      ((lanesOf (s.execLanes f.guard)).map fun l => (l, y l)) = .ok (s.taken opc f pops vo n y) := by
  have hp := h.free
  obtain ⟨l0, hl0⟩ := some_live (m := s.execLanes f.guard) (n := ~~~s.g.helper) hl
  have hf : (lanesOf (s.execLanes f.guard)).find? (bitOf (s.execLive f.guard)) = some l0 := hl0
  have hfl : s.firstLive f = l0 := by simp [State.firstLive, hf]
  have hfi := find_live (lanesOf (s.execLanes f.guard)) (s.execLive f.guard) y
  rw [hf] at hfi
  obtain ⟨a, b, c, hk⟩ := s.g.popped_keep pops
  unfold State.commitLanes State.taken
  rw [State.group_ctx, hp]
  cases hd : f.dst with
  | v d =>
    have hb := h.budget (by rw [hd]; rfl)
    rw [hd] at hb
    have hb' : ¬ s.g.peak < s.g.needs (killSet (aluUses opc f)) (dstV (.v d) n) := by omega
    simp [State.dstRes, hb', trapOr, State.dstPush, State.dstYield, State.setG, State.laneRest]
  | c k =>
    obtain ⟨hy, hc⟩ := h.yields k hd
    simp only [State.dstRes, hy, if_true, trapOr, List.map_map, Function.comp_def, State.group_ctx]
    rw [gather_ok s.g.helper _ (fun l => y l) _ (fun l hl => by simp only [hc l hl])]
    simp [State.dstPush, State.dstYield, List.foldl_map, State.laneRest, State.setG, Group.dstWrite]
  | q q =>
    have e1 : (s.setGroup s.ctx (s.g.popped pops)).group s.ctx = s.g.popped pops := State.setG_g s _
    have e3 (x : Group) : (s.setGroup s.ctx x).group s.ctx = x := State.setG_g s x
    cases q with
    | qm =>
      obtain ⟨hw, hm⟩ := h.markM hd
      rw [hfl] at hw
      have hq : (wordN (y l0) 0).toNat / 65536 = 0 := by omega
      have e2 : (s.setGroup s.ctx (s.g.popped pops)).mIds s.ctx = s.mIds s.ctx := by
        unfold State.mIds; rw [e1, hk]; rfl
      have hm' : ¬ 64 ≤ (s.g.popped pops).mkM.length := by rw [hk]; simpa using hm
      simp only [State.dstRes, State.dstPush, hfi, Option.map_some, State.pushQ, e1, e2, hm', hq]
      simp [State.dstYield, e3, State.laneRest, State.pushed, hfl, Group.dstWrite, State.setG]
    | qx =>
      obtain ⟨hw, hm⟩ := h.markX hd
      rw [hfl] at hw
      have hq : (wordN (y l0) 0).toNat / 65536 = 0 := by omega
      have hm' : ¬ 64 ≤ (s.g.popped pops).mkX.length := by rw [hk]; simpa using hm
      simp only [State.dstRes, State.dstPush, hfi, Option.map_some, State.pushQ, e1, hm', hq]
      simp [State.dstYield, e3, State.laneRest, State.pushed, hfl, Group.dstWrite, State.setG]
    | qk =>
      have hm := h.stages hd
      have hm' : (s.g.popped pops).staged.length < 15 := by rw [hk]; simpa using hm
      simp only [State.dstRes, State.dstPush, hfi, Option.map_some, State.pushQ, e1, hm', if_true]
      simp [State.dstYield, e3, State.laneRest, State.pushed, hfl, Group.dstWrite, State.setG]
  | _ => simp [State.dstRes, State.dstPush, State.dstYield, State.setG, State.laneRest]

end Sys2Proof.Machine
end

