-- ==== Sys2Proof/Laws/Cross.lean ====
section
/-! SUPPORT. Laws/Cross.lean: what the cross-lane instructions answer in the lanes (07 R128). -/

namespace Sys2Proof.Machine

/-- A group that stands in a window may name carries. -/
theorem needWindow_ok {s : State} {opc f pops xs vo} (h : LanesRead s opc f pops xs vo) : s.needWindow opc f = .ok () := by
  unfold State.needWindow need
  cases hu : usesCarry f opc with
  | false => simp
  | true => simp [h.window hu]

/-- The row of a lane among the executing lanes. -/
theorem find_rows (ls : List Nat) (f : Nat → List Nat) (j : Nat) :
    (ls.map fun l => (l, f l)).find? (·.1 == j) = if j ∈ ls then some (j, f j) else none := by
  induction ls with
  | nil => rfl
  | cons a r ih =>
    by_cases h : a = j
    · subst h; simp
    · have : (a == j) = false := by simpa using h
      simp [this, ih, Ne.symm h]

/-- The cross-lane instructions draw no random word. -/
theorem drawsCross (opc : Nat) (f : AluF) (h : opc = 0x48 ∨ opc = 0x49 ∨ opc = 0x4B ∨ opc = 0x4C ∨ opc = 0x4E) : drawsOf opc f = 0 := by
  rcases h with rfl | rfl | rfl | rfl | rfl <;> unfold drawsOf <;> split <;> rfl

/-- A cross-lane instruction with a destination in the lanes commits its results. -/
theorem runCross_lane {s : State} {opc f pops xs vo n} {fn : CrossIn → Nat → Nat} {y : Nat → Nat} (h : LanesRead s opc f pops xs vo)
    (hd : drawsOf opc f = 0)
    (hs : f.dst.isS = false) (hp : f.dst.isSp = false)
    (hy : ∀ x : CrossIn, x.live = s.execLive f.guard → (∀ j, x.at_ j = s.crossSrc opc f xs j) → (∀ l ∈ lanesOf (s.execLanes f.guard), x.args l = placeImm opc f (xs l)) → ∀ l ∈ lanesOf (s.execLanes f.guard), fn x l = y l)
    (ht : DstTakes s opc f n vo y) :
    s.runCross f.guard (aluUses opc f) (placeImm opc f) f.dst n fn = .ok (s.taken opc f pops vo n y) := by
  have he : s.execLanes f.guard ≠ 0 := by
    intro h0
    apply h.runs
    simp [State.execLive, h0]
  have heb : (s.execLanes f.guard == 0) = false := by simpa using he
  have hg := gather_ok s.g.helper (lanesOf (s.execLanes f.guard)) (fun l => (xs l, vo l))
    (fun l => s.rdSrcs s.ctx pops (aluUses opc f) l) h.reads
  have hc := commit_taken (pops := pops) h.runs ht
  rw [hd] at hc
  have hn := needYield_takes (s.execLanes f.guard &&& ~~~s.g.helper) ht
  unfold State.runCross
  simp only [heb, h.clean, Bool.false_eq_true, if_false, h.tokens, hn]
  simp only [bind, Except.bind]
  rw [hg]
  simp only [List.map_map, Function.comp_def, List.map_id', List.foldl_map]
  have hy' := hy ⟨fun j => match ((lanesOf (s.execLanes f.guard)).map fun l => (l, xs l)).find? (·.1 == j) with
      | some r => argA r.2
      | none => match aluUses opc f with | u :: _ => s.idleSrc s.ctx u j | [] => 0, s.execLive f.guard,
      fun l => match ((lanesOf (s.execLanes f.guard)).map fun l => (l, xs l)).find? (·.1 == l) with | some r => placeImm opc f r.2 | none => placeImm opc f []⟩ rfl
      (by
        intro j
        by_cases hj : j ∈ lanesOf (s.execLanes f.guard)
        · simp only [find_rows, State.crossSrc, hj, if_true]
        · simp only [find_rows, State.crossSrc, hj, if_false] <;> (cases aluUses opc f <;> rfl))
      (by intro l hl; simp only [find_rows, hl, if_true])
  have hm := List.map_congr_left (f := fun l => (l, fn _ l)) (g := fun l => (l, y l)) (fun l hl => by rw [hy' l hl])
  rw [live_helper] at hm
  unfold State.execLive voidsOf at hc
  split
  · simp_all [Opnd.isS]
  · simp_all [Opnd.isSp]
  · rw [← hc]
    congr 1

end Sys2Proof.Machine
end

