-- ==== Sys2Proof/Laws/Encoding.lean ====
section
/-! SUPPORT. Laws/Encoding.lean: what each field of an encoded word reads back as (02 R42 to R54), format by format. -/

namespace Sys2Proof.Laws.Encoding

/-- A nine-bit operand name reads back from its encoding (02 R46). -/
theorem spec_raw (o : Opnd) : decodeSpec (encodeSpec o) = o.raw := by
  cases o with
  | v n => revert n; decide +kernel
  | s n => revert n; decide +kernel
  | c n => revert n; decide +kernel
  | p n => revert n; decide +kernel
  | sp n => revert n; decide +kernel
  | ps n => revert n; decide +kernel
  | q n => cases n <;> decide
  | sr n => cases n <;> decide
  | k n => revert n; decide +kernel

/-- A field inside the low part of a word. -/
theorem ext_low {a b : Nat} (x : BitVec a) (y : BitVec b) (lo n : Nat) (h : lo + n ≤ b) :
    (x ++ y).extractLsb' lo n = y.extractLsb' lo n := by
  apply BitVec.eq_of_getLsbD_eq
  intro i hi
  simp only [BitVec.getLsbD_extractLsb', BitVec.getLsbD_append]
  have : lo + i < b := by omega
  simp [this]

/-- A field inside the high part of a word. -/
theorem ext_high {a b : Nat} (x : BitVec a) (y : BitVec b) (lo n : Nat) (h : b ≤ lo) :
    (x ++ y).extractLsb' lo n = x.extractLsb' (lo - b) n := by
  apply BitVec.eq_of_getLsbD_eq
  intro i hi
  simp only [BitVec.getLsbD_extractLsb', BitVec.getLsbD_append]
  have : ¬ lo + i < b := by omega
  simp only [hi, decide_true, Bool.true_and, this, if_false]
  congr 1
  omega

/-- A bit of the low part. -/
theorem get_low {a b : Nat} (x : BitVec a) (y : BitVec b) (i : Nat) (h : i < b) : (x ++ y).getLsbD i = y.getLsbD i := by
  simp [BitVec.getLsbD_append, h]
/-- A bit of the high part. -/
theorem get_high {a b : Nat} (x : BitVec a) (y : BitVec b) (i : Nat) (h : b ≤ i) : (x ++ y).getLsbD i = x.getLsbD (i - b) := by
  have : ¬ i < b := by omega
  simp [BitVec.getLsbD_append, this]
/-- A whole word as a field. -/
theorem ext_full {n : Nat} (x : BitVec n) : x.extractLsb' 0 n = x := by
  apply BitVec.eq_of_getLsbD_eq; intro i hi; rw [BitVec.getLsbD_extractLsb']; simp [hi]
theorem bbit0 (b : Bool) : (bbit b).getLsbD 0 = b := by cases b <;> rfl
theorem ofCode_code (t : Ty) : Ty.ofCode t.code = some t := by cases t <;> rfl
theorem code_nat (t : Ty) : (BitVec.ofNat 4 t.code).toNat = t.code := by cases t <;> rfl

/-- A source of 13 bits reads back (02 R45). -/
theorem split13 (s : Src) (w : BitVec 96) (lo : Nat) (h : w.extractLsb' lo 13 = encodeSrc s) : readSrc w lo = s.raw := by
  have g (i : Nat) (hi : i < 13) : w.getLsbD (lo + i) = (encodeSrc s).getLsbD i := by
    rw [← h]; simp [hi]
  have e : field w lo 10 = encodeSpec s.opnd := by
    apply BitVec.eq_of_getLsbD_eq
    intro i hi
    have := g i (by omega)
    simp only [field, BitVec.getLsbD_extractLsb', hi, decide_true, Bool.true_and, this]
    unfold encodeSrc
    rw [get_low _ _ _ (by omega)]
  unfold readSrc bit Src.raw
  rw [e, spec_raw, g 12 (by omega), g 11 (by omega), g 10 (by omega)]
  unfold encodeSrc
  have h2 : (bbit s.kill ++ bbit s.abs ++ bbit s.neg ++ encodeSpec s.opnd).getLsbD 12 = s.kill := by
    rw [get_high _ _ _ (by omega), get_high _ _ _ (by omega), get_high _ _ _ (by omega)]; exact bbit0 _
  have h1 : (bbit s.kill ++ bbit s.abs ++ bbit s.neg ++ encodeSpec s.opnd).getLsbD 11 = s.abs := by
    rw [get_high _ _ _ (by omega), get_high _ _ _ (by omega), get_low _ _ _ (by omega)]; exact bbit0 _
  have h0 : (bbit s.kill ++ bbit s.abs ++ bbit s.neg ++ encodeSpec s.opnd).getLsbD 10 = s.neg := by
    rw [get_high _ _ _ (by omega), get_low _ _ _ (by omega)]; exact bbit0 _
  rw [h2, h1, h0]

/-- The header of a word: OPC, KIND and the guard (02 R42, R43). -/
theorem hdr (w : BitVec 96) (g : Guard) (fmt opc : Nat) (h : w.extractLsb' 0 17 = header g fmt opc) :
    (field w 0 8).toNat = opc % 256 ∧ (field w 8 3).toNat = fmt % 8 ∧ readGuard w = g := by
  have gg (i : Nat) (hi : i < 17) : w.getLsbD i = (header g fmt opc).getLsbD i := by
    rw [← h]; simp [hi]
  have e1 : field w 0 8 = BitVec.ofNat 8 opc := by
    apply BitVec.eq_of_getLsbD_eq
    intro i hi
    simp only [field, BitVec.getLsbD_extractLsb', hi, decide_true, Bool.true_and, Nat.zero_add, gg i (by omega)]
    unfold header
    rw [get_low _ _ _ (by omega)]
  have e2 : field w 8 3 = BitVec.ofNat 3 fmt := by
    apply BitVec.eq_of_getLsbD_eq
    intro i hi
    simp only [field, BitVec.getLsbD_extractLsb', hi, decide_true, Bool.true_and, gg (8+i) (by omega)]
    unfold header
    rw [get_high _ _ _ (by omega), get_low _ _ _ (by omega)]
    congr 1; omega
  have e3 : field w 11 4 = g.g := by
    apply BitVec.eq_of_getLsbD_eq
    intro i hi
    simp only [field, BitVec.getLsbD_extractLsb', hi, decide_true, Bool.true_and, gg (11+i) (by omega)]
    unfold header
    rw [get_high _ _ _ (by omega), get_high _ _ _ (by omega), get_low _ _ _ (by omega)]
    congr 1; omega
  refine ⟨by rw [e1]; simp, by rw [e2]; simp, ?_⟩
  unfold readGuard bit
  rw [e3, gg 16 (by omega), gg 15 (by omega)]
  unfold header
  have a : (bbit g.gu ++ bbit g.gn ++ g.g ++ BitVec.ofNat 3 fmt ++ BitVec.ofNat 8 opc).getLsbD 16 = g.gu := by
    rw [get_high _ _ _ (by omega), get_high _ _ _ (by omega), get_high _ _ _ (by omega), get_high _ _ _ (by omega)]; exact bbit0 _
  have b : (bbit g.gu ++ bbit g.gn ++ g.g ++ BitVec.ofNat 3 fmt ++ BitVec.ofNat 8 opc).getLsbD 15 = g.gn := by
    rw [get_high _ _ _ (by omega), get_high _ _ _ (by omega), get_high _ _ _ (by omega), get_low _ _ _ (by omega)]; exact bbit0 _
  rw [a, b]




theorem zraw : (⟨false, false, false, some (.v 0)⟩ : RSrc) = Src.none.raw := by decide

/-- Format I. -/
theorem fmtI (opc : Nat) (f : AluF) (w : Word) (hi : f.imm = some w) (hb : f.b = Src.none) (hc : f.c = Src.none) (ho : opc < 256) :
    (field (encodeForm (.alu opc f)) 0 8).toNat = opc ∧ (field (encodeForm (.alu opc f)) 8 3).toNat = 1 ∧
    readI (encodeForm (.alu opc f)) = f.raw := by
  have E : encodeForm (.alu opc f) = (0 : BitVec 12) ++ f.var ++ BitVec.ofNat 4 f.ty.code ++ w ++ encodeSrc f.a ++ f.dsc ++ bbit f.sat
        ++ encodeSpec f.dst ++ header f.guard 1 opc := by simp [encodeForm, hi]
  rw [E]
  generalize hw : (0 : BitVec 12) ++ f.var ++ BitVec.ofNat 4 f.ty.code ++ w ++ encodeSrc f.a ++ f.dsc ++ bbit f.sat
        ++ encodeSpec f.dst ++ header f.guard 1 opc = W
  have h := hdr W f.guard 1 opc (by (rw [← hw]; simp (disch := omega) only [ext_high, ext_low, ext_full, Nat.reduceSub]))
  refine ⟨by rw [h.1]; omega, by rw [h.2.1], ?_⟩
  unfold readI readDst
  rw [h.2.2, split13 f.a W 31 (by (rw [← hw]; simp (disch := omega) only [ext_high, ext_low, ext_full, Nat.reduceSub])),
    show field W 84 12 = 0 by unfold field; (rw [← hw]; simp (disch := omega) only [ext_high, ext_low, ext_full, Nat.reduceSub]),
    show field W 17 10 = encodeSpec f.dst by unfold field; (rw [← hw]; simp (disch := omega) only [ext_high, ext_low, ext_full, Nat.reduceSub]),
    show bit W 27 = f.sat by (rw [bit, ← hw]; simp (disch := omega) only [get_high, get_low, Nat.reduceSub, bbit0]),
    show field W 28 3 = f.dsc by unfold field; (rw [← hw]; simp (disch := omega) only [ext_high, ext_low, ext_full, Nat.reduceSub]),
    show field W 44 32 = w by unfold field; (rw [← hw]; simp (disch := omega) only [ext_high, ext_low, ext_full, Nat.reduceSub]),
    show field W 76 4 = BitVec.ofNat 4 f.ty.code by unfold field; (rw [← hw]; simp (disch := omega) only [ext_high, ext_low, ext_full, Nat.reduceSub]),
    show field W 80 4 = f.var by unfold field; (rw [← hw]; simp (disch := omega) only [ext_high, ext_low, ext_full, Nat.reduceSub]), spec_raw, code_nat, ofCode_code]
  unfold AluF.raw
  rw [hi, hb, hc, zraw]
  rfl

/-- Format A: what its reader gets from the encoder (02 R47). -/
theorem fmtA (opc : Nat) (f : AluF) (hi : f.imm = none) (ho : opc < 256) :
    (field (encodeForm (.alu opc f)) 0 8).toNat = opc ∧ (field (encodeForm (.alu opc f)) 8 3).toNat = 0 ∧
    readA (encodeForm (.alu opc f)) = f.raw := by
  have E : encodeForm (.alu opc f) = (0 : BitVec 18) ++ f.var ++ BitVec.ofNat 4 f.ty.code ++ encodeSrc f.c ++ encodeSrc f.b ++ encodeSrc f.a ++ f.dsc
        ++ bbit f.sat ++ encodeSpec f.dst ++ header f.guard 0 opc := by simp [encodeForm, hi]
  rw [E]
  generalize hw : (0 : BitVec 18) ++ f.var ++ BitVec.ofNat 4 f.ty.code ++ encodeSrc f.c ++ encodeSrc f.b ++ encodeSrc f.a ++ f.dsc
        ++ bbit f.sat ++ encodeSpec f.dst ++ header f.guard 0 opc = W
  have h := hdr W f.guard 0 opc (by (rw [← hw]; simp (disch := omega) only [ext_high, ext_low, ext_full, Nat.reduceSub]))
  refine ⟨by rw [h.1]; omega, by rw [h.2.1], ?_⟩
  unfold readA readDst
  rw [h.2.2, split13 f.a W 31 (by (rw [← hw]; simp (disch := omega) only [ext_high, ext_low, ext_full, Nat.reduceSub])), split13 f.b W 44 (by (rw [← hw]; simp (disch := omega) only [ext_high, ext_low, ext_full, Nat.reduceSub])), split13 f.c W 57 (by (rw [← hw]; simp (disch := omega) only [ext_high, ext_low, ext_full, Nat.reduceSub])),
    show field W 78 18 = 0 by unfold field; (rw [← hw]; simp (disch := omega) only [ext_high, ext_low, ext_full, Nat.reduceSub]),
    show field W 17 10 = encodeSpec f.dst by unfold field; (rw [← hw]; simp (disch := omega) only [ext_high, ext_low, ext_full, Nat.reduceSub]),
    show bit W 27 = f.sat by (rw [bit, ← hw]; simp (disch := omega) only [get_high, get_low, Nat.reduceSub, bbit0]),
    show field W 28 3 = f.dsc by unfold field; (rw [← hw]; simp (disch := omega) only [ext_high, ext_low, ext_full, Nat.reduceSub]),
    show field W 70 4 = BitVec.ofNat 4 f.ty.code by unfold field; (rw [← hw]; simp (disch := omega) only [ext_high, ext_low, ext_full, Nat.reduceSub]),
    show field W 74 4 = f.var by unfold field; (rw [← hw]; simp (disch := omega) only [ext_high, ext_low, ext_full, Nat.reduceSub]), spec_raw, code_nat, ofCode_code]
  unfold AluF.raw
  rw [hi]
  rfl

/-- Format M. -/
theorem fmtM (opc : Nat) (f : MemF) (ho : opc < 256) :
    (field (encodeForm (.mem opc f)) 0 8).toNat = opc ∧ (field (encodeForm (.mem opc f)) 8 3).toNat = 2 ∧
    readM (encodeForm (.mem opc f)) = f.raw := by
  simp only [encodeForm]
  generalize hw : (0 : BitVec 7) ++ f.var ++ f.cache ++ f.flagp ++ f.res ++ f.scope ++ f.ord ++ f.size ++ f.imm ++ encodeSrc f.off
      ++ f.buf ++ bbit f.dkill ++ encodeSpec f.data ++ header f.guard 2 opc = W
  have h := hdr W f.guard 2 opc (by (rw [← hw]; simp (disch := omega) only [ext_high, ext_low, ext_full, Nat.reduceSub]))
  refine ⟨by rw [h.1]; omega, by rw [h.2.1], ?_⟩
  unfold readM readDst
  rw [h.2.2, split13 f.off W 32 (by (rw [← hw]; simp (disch := omega) only [ext_high, ext_low, ext_full, Nat.reduceSub])),
    show field W 89 7 = 0 by unfold field; (rw [← hw]; simp (disch := omega) only [ext_high, ext_low, ext_full, Nat.reduceSub]),
    show field W 17 10 = encodeSpec f.data by unfold field; (rw [← hw]; simp (disch := omega) only [ext_high, ext_low, ext_full, Nat.reduceSub]),
    show bit W 27 = f.dkill by (rw [bit, ← hw]; simp (disch := omega) only [get_high, get_low, Nat.reduceSub, bbit0]),
    show field W 28 4 = f.buf by unfold field; (rw [← hw]; simp (disch := omega) only [ext_high, ext_low, ext_full, Nat.reduceSub]),
    show field W 45 24 = f.imm by unfold field; (rw [← hw]; simp (disch := omega) only [ext_high, ext_low, ext_full, Nat.reduceSub]),
    show field W 69 3 = f.size by unfold field; (rw [← hw]; simp (disch := omega) only [ext_high, ext_low, ext_full, Nat.reduceSub]),
    show field W 72 2 = f.ord by unfold field; (rw [← hw]; simp (disch := omega) only [ext_high, ext_low, ext_full, Nat.reduceSub]),
    show field W 74 3 = f.scope by unfold field; (rw [← hw]; simp (disch := omega) only [ext_high, ext_low, ext_full, Nat.reduceSub]),
    show field W 77 2 = f.res by unfold field; (rw [← hw]; simp (disch := omega) only [ext_high, ext_low, ext_full, Nat.reduceSub]),
    show field W 79 4 = f.flagp by unfold field; (rw [← hw]; simp (disch := omega) only [ext_high, ext_low, ext_full, Nat.reduceSub]),
    show field W 83 2 = f.cache by unfold field; (rw [← hw]; simp (disch := omega) only [ext_high, ext_low, ext_full, Nat.reduceSub]),
    show field W 85 4 = f.var by unfold field; (rw [← hw]; simp (disch := omega) only [ext_high, ext_low, ext_full, Nat.reduceSub]), spec_raw]
  rfl

/-- Format B. -/
theorem fmtB (opc : Nat) (f : CtlF) (ho : opc < 256) :
    (field (encodeForm (.ctl opc f)) 0 8).toNat = opc ∧ (field (encodeForm (.ctl opc f)) 8 3).toNat = 3 ∧
    readB (encodeForm (.ctl opc f)) = f.raw := by
  simp only [encodeForm]
  generalize hw : (0 : BitVec 12) ++ f.rcv ++ f.tgt ++ (0 : BitVec 3) ++ encodeSpec f.link ++ header f.guard 3 opc = W
  have h := hdr W f.guard 3 opc (by (rw [← hw]; simp (disch := omega) only [ext_high, ext_low, ext_full, Nat.reduceSub]))
  refine ⟨by rw [h.1]; omega, by rw [h.2.1], ?_⟩
  unfold readB readDst
  rw [h.2.2,
    show field W 88 8 = 0 by unfold field; (rw [← hw]; simp (disch := omega) only [ext_high, ext_low, Nat.reduceSub]; rfl),
    show field W 27 3 = 0 by unfold field; (rw [← hw]; simp (disch := omega) only [ext_high, ext_low, ext_full, Nat.reduceSub]),
    show field W 17 10 = encodeSpec f.link by unfold field; (rw [← hw]; simp (disch := omega) only [ext_high, ext_low, ext_full, Nat.reduceSub]),
    show field W 30 27 = f.tgt by unfold field; (rw [← hw]; simp (disch := omega) only [ext_high, ext_low, ext_full, Nat.reduceSub]),
    show field W 57 27 = f.rcv by unfold field; (rw [← hw]; simp (disch := omega) only [ext_high, ext_low, ext_full, Nat.reduceSub]),
    show field W 84 4 = 0 by unfold field; (rw [← hw]; simp (disch := omega) only [ext_high, ext_low, Nat.reduceSub]; rfl), spec_raw]
  rfl

/-- Format E. -/
theorem fmtE (opc : Nat) (f : EngF) (ho : opc < 256) :
    (field (encodeForm (.eng opc f)) 0 8).toNat = opc ∧ (field (encodeForm (.eng opc f)) 8 3).toNat = 4 ∧
    readE (encodeForm (.eng opc f)) = f.raw := by
  simp only [encodeForm]
  generalize hw : (0 : BitVec 7) ++ f.imm ++ encodeSrc f.c ++ encodeSrc f.b ++ encodeSrc f.a ++ f.q ++ encodeSpec f.dst
      ++ header f.guard 4 opc = W
  have h := hdr W f.guard 4 opc (by (rw [← hw]; simp (disch := omega) only [ext_high, ext_low, ext_full, Nat.reduceSub]))
  refine ⟨by rw [h.1]; omega, by rw [h.2.1], ?_⟩
  unfold readE readDst
  rw [h.2.2, split13 f.a W 31 (by (rw [← hw]; simp (disch := omega) only [ext_high, ext_low, ext_full, Nat.reduceSub])), split13 f.b W 44 (by (rw [← hw]; simp (disch := omega) only [ext_high, ext_low, ext_full, Nat.reduceSub])), split13 f.c W 57 (by (rw [← hw]; simp (disch := omega) only [ext_high, ext_low, ext_full, Nat.reduceSub])),
    show field W 93 3 = 0 by unfold field; (rw [← hw]; simp (disch := omega) only [ext_high, ext_low, Nat.reduceSub]; rfl),
    show field W 17 10 = encodeSpec f.dst by unfold field; (rw [← hw]; simp (disch := omega) only [ext_high, ext_low, ext_full, Nat.reduceSub]),
    show field W 27 4 = f.q by unfold field; (rw [← hw]; simp (disch := omega) only [ext_high, ext_low, ext_full, Nat.reduceSub]),
    show field W 70 19 = f.imm by unfold field; (rw [← hw]; simp (disch := omega) only [ext_high, ext_low, ext_full, Nat.reduceSub]),
    show field W 89 4 = 0 by unfold field; (rw [← hw]; simp (disch := omega) only [ext_high, ext_low, Nat.reduceSub]; rfl), spec_raw]
  rfl

/-- Format S. -/
theorem fmtS (opc : Nat) (f : SysF) (ho : opc < 256) :
    (field (encodeForm (.sys opc f)) 0 8).toNat = opc ∧ (field (encodeForm (.sys opc f)) 8 3).toNat = 5 ∧
    readS (encodeForm (.sys opc f)) = f.raw := by
  simp only [encodeForm]
  generalize hw : (0 : BitVec 1) ++ f.var ++ f.imm ++ encodeSrc f.b ++ encodeSrc f.a ++ (0 : BitVec 4) ++ encodeSpec f.dst
      ++ header f.guard 5 opc = W
  have h := hdr W f.guard 5 opc (by (rw [← hw]; simp (disch := omega) only [ext_high, ext_low, ext_full, Nat.reduceSub]))
  refine ⟨by rw [h.1]; omega, by rw [h.2.1], ?_⟩
  unfold readS readDst
  rw [h.2.2, split13 f.a W 31 (by (rw [← hw]; simp (disch := omega) only [ext_high, ext_low, ext_full, Nat.reduceSub])), split13 f.b W 44 (by (rw [← hw]; simp (disch := omega) only [ext_high, ext_low, ext_full, Nat.reduceSub])),
    show bit W 95 = false by unfold bit; rw [← hw]; (repeat rw [get_high _ _ _ (by omega)]); rfl,
    show field W 17 10 = encodeSpec f.dst by unfold field; (rw [← hw]; simp (disch := omega) only [ext_high, ext_low, ext_full, Nat.reduceSub]),
    show field W 27 4 = 0 by unfold field; (rw [← hw]; simp (disch := omega) only [ext_high, ext_low, ext_full, Nat.reduceSub]),
    show field W 57 30 = f.imm by unfold field; (rw [← hw]; simp (disch := omega) only [ext_high, ext_low, ext_full, Nat.reduceSub]),
    show field W 87 8 = f.var by unfold field; (rw [← hw]; simp (disch := omega) only [ext_high, ext_low, ext_full, Nat.reduceSub]), spec_raw]
  rfl

/-- Format T. -/
theorem fmtT (opc : Nat) (f : TwF) (ho : opc < 256) :
    (field (encodeForm (.tw opc f)) 0 8).toNat = opc ∧ (field (encodeForm (.tw opc f)) 8 3).toNat = 6 ∧
    readT (encodeForm (.tw opc f)) = f.raw := by
  simp only [encodeForm]
  generalize hw : (0 : BitVec 16) ++ f.imm ++ bbit f.ordered ++ f.sm1 ++ encodeSrc f.a ++ (0 : BitVec 14) ++ header f.guard 6 opc = W
  have h := hdr W f.guard 6 opc (by (rw [← hw]; simp (disch := omega) only [ext_high, ext_low, ext_full, Nat.reduceSub]))
  refine ⟨by rw [h.1]; omega, by rw [h.2.1], ?_⟩
  unfold readT readDst
  rw [h.2.2, split13 f.a W 31 (by (rw [← hw]; simp (disch := omega) only [ext_high, ext_low, ext_full, Nat.reduceSub])),
    show field W 84 12 = 0 by unfold field; (rw [← hw]; simp (disch := omega) only [ext_high, ext_low, Nat.reduceSub]; rfl),
    show field W 17 10 = 0 by unfold field; (rw [← hw]; simp (disch := omega) only [ext_high, ext_low, Nat.reduceSub]; rfl),
    show field W 27 4 = 0 by unfold field; (rw [← hw]; simp (disch := omega) only [ext_high, ext_low, Nat.reduceSub]; rfl),
    show bit W 47 = f.ordered by (rw [bit, ← hw]; simp (disch := omega) only [get_high, get_low, Nat.reduceSub, bbit0]),
    show field W 44 3 = f.sm1 by unfold field; (rw [← hw]; simp (disch := omega) only [ext_high, ext_low, ext_full, Nat.reduceSub]),
    show field W 48 32 = f.imm by unfold field; (rw [← hw]; simp (disch := omega) only [ext_high, ext_low, ext_full, Nat.reduceSub]),
    show field W 80 4 = 0 by unfold field; (rw [← hw]; simp (disch := omega) only [ext_high, ext_low, Nat.reduceSub]; rfl)]
  rfl

/-- A checked operand is the operand. -/
theorem o_raw (o o' : Opnd) (h : o.raw = some o') : o' = o := by
  unfold Opnd.raw at h; split at h <;> simp_all
/-- An operand that satisfies a check is legal. -/
theorem oIs_raw {o : Opnd} {f : Opnd → Bool} (h : oIs o.raw f = true) : o.legal = true := by
  unfold Opnd.raw at h; by_cases hl : o.legal = true
  · exact hl
  · simp [hl, oIs] at h

/-- The fields of format A and I survive the check. -/
theorem raw_f_alu (f : AluF) (h1 : f.dst.raw.isSome) (h2 : f.a.opnd.raw.isSome) (h3 : f.b.opnd.raw.isSome) (h4 : f.c.opnd.raw.isSome) :
    f.raw.f = f := by
  have k (o : Opnd) (h : o.raw.isSome) : o.raw.getD (.v 0) = o := by
    unfold Opnd.raw at *; split <;> simp_all
  unfold AluF.raw RAlu.f
  simp only [RSrc.src, Src.raw]
  rw [k _ h1, k _ h2, k _ h3, k _ h4]
  rfl

end Sys2Proof.Laws.Encoding
end

