-- ==== Sys2Proof/Laws/Memories.lean ====
section
/-! SUPPORT. Laws/Memories.lean: every operation over the package's memories keeps their canonical form, and the named updates of other
fields leave them alone. -/

namespace Sys2Proof.Machine

variable {s : State}

theorem memoriesWf_def (s : State) : s.memoriesWf = (Memory.wf s.hbm && Memory.wf s.remote && Memory.wf s.scr && Memory.wf s.acc) := rfl

/-- The reset memories are canonical. -/
theorem reset_memoriesWf : State.reset.memoriesWf = true := rfl

@[simp] theorem setGroup_memoriesWf (i : Nat) (g : Group) : (s.setGroup i g).memoriesWf = s.memoriesWf := rfl
@[simp] theorem setG_memoriesWf (g : Group) : (s.setG g).memoriesWf = s.memoriesWf := rfl
@[simp] theorem setPart_memoriesWf (i : Nat) (x : Part) : (s.setPart i x).memoriesWf = s.memoriesWf := rfl
@[simp] theorem setBlock_memoriesWf (i : Nat) (x : Block) : (s.setBlock i x).memoriesWf = s.memoriesWf := rfl
@[simp] theorem setSpace_memoriesWf (i : Nat) (x : Space) : (s.setSpace i x).memoriesWf = s.memoriesWf := rfl
@[simp] theorem setLaunch_memoriesWf (i : Nat) (x : Launch) : (s.setLaunch i x).memoriesWf = s.memoriesWf := rfl
@[simp] theorem setCode_memoriesWf (i : Nat) (x : Code) : (s.setCode i x).memoriesWf = s.memoriesWf := rfl
@[simp] theorem setFork_memoriesWf (i : Nat) (x : Fork) : (s.setFork i x).memoriesWf = s.memoriesWf := rfl
@[simp] theorem setTile_memoriesWf (i : Nat) (x : Tile) : (s.setTile i x).memoriesWf = s.memoriesWf := rfl
@[simp] theorem setCluster_memoriesWf (i : Nat) (x : Cluster) : (s.setCluster i x).memoriesWf = s.memoriesWf := rfl

/-- New contents of device memory. -/
theorem hbm_memoriesWf {m : Memory} (h : s.memoriesWf = true) (hm : Memory.wf m = true) : ({ s with hbm := m } : State).memoriesWf = true := by
  simp only [memoriesWf_def, Bool.and_eq_true] at *
  exact ⟨⟨⟨hm, h.1.1.2⟩, h.1.2⟩, h.2⟩
/-- New contents of the fabric's memory. -/
theorem remote_memoriesWf {m : Memory} (h : s.memoriesWf = true) (hm : Memory.wf m = true) : ({ s with remote := m } : State).memoriesWf = true := by
  simp only [memoriesWf_def, Bool.and_eq_true] at *
  exact ⟨⟨⟨h.1.1.1, hm⟩, h.1.2⟩, h.2⟩
/-- New contents of scratchpad. -/
theorem scr_memoriesWf {m : Memory} (h : s.memoriesWf = true) (hm : Memory.wf m = true) : ({ s with scr := m } : State).memoriesWf = true := by
  simp only [memoriesWf_def, Bool.and_eq_true] at *
  exact ⟨⟨⟨h.1.1.1, h.1.1.2⟩, hm⟩, h.2⟩
/-- New contents of accumulator memory. -/
theorem acc_memoriesWf {m : Memory} (h : s.memoriesWf = true) (hm : Memory.wf m = true) : ({ s with acc := m } : State).memoriesWf = true := by
  simp only [memoriesWf_def, Bool.and_eq_true] at *
  exact ⟨h.1, hm⟩

/-- Each memory is canonical. -/
theorem hbm_wf (h : s.memoriesWf = true) : Memory.wf s.hbm = true := by simp only [memoriesWf_def, Bool.and_eq_true] at h; exact h.1.1.1
theorem remote_wf (h : s.memoriesWf = true) : Memory.wf s.remote = true := by simp only [memoriesWf_def, Bool.and_eq_true] at h; exact h.1.1.2
theorem scr_wf (h : s.memoriesWf = true) : Memory.wf s.scr = true := by simp only [memoriesWf_def, Bool.and_eq_true] at h; exact h.1.2
theorem acc_wf (h : s.memoriesWf = true) : Memory.wf s.acc = true := by simp only [memoriesWf_def, Bool.and_eq_true] at h; exact h.2

/-- A byte written home. -/
theorem setHome_memoriesWf (p : Place) (b : Byte) (h : s.memoriesWf = true) : (s.setHome p b).memoriesWf = true := by
  unfold State.setHome
  split
  · exact remote_memoriesWf h (wf_wrByte _ _ _ (remote_wf h))
  · exact hbm_memoriesWf h (wf_wrByte _ _ _ (hbm_wf h))

/-- A byte written in a world or outside it. -/
theorem putByte_memoriesWf (w : Nat) (p : Place) (b : Byte) (h : s.memoriesWf = true) : (s.putByte w p b).memoriesWf = true := by
  unfold State.putByte
  simp only
  split
  · exact h
  · split
    · exact setHome_memoriesWf p b h
    · exact h

/-- A word of a tile. -/
theorem setTileWord_memoriesWf (sp t e x : Nat) (h : s.memoriesWf = true) : (s.setTileWord sp t e x).memoriesWf = true :=
  acc_memoriesWf h (wf_wrN _ _ _ _ (acc_wf h))

/-- An entry range written over another (18 R362). -/
theorem wf_cloneRange (m : SMap Byte) (a b n : Nat) (h : Memory.wf m = true) : Memory.wf (cloneRange 0 m a b n) = true := by
  unfold cloneRange
  generalize m.filter (fun e => a ≤ e.1 && e.1 < a + n) = l
  revert m h
  induction l with
  | nil => intro m h; exact h
  | cons e r ih => intro m h; exact ih _ (wf_put m _ _ h)

end Sys2Proof.Machine
end

