-- ==== Sys2Proof/Laws/PerInstr.lean ====
section
/-! SUPPORT. Laws/PerInstr.lean: one fact for each constructor: the OPC and format given to an instruction name it alone. -/

namespace Sys2Proof.Laws.FormInverse

/-- The form of an instruction leads back to it. -/
def Statement (i : Instr) : Prop := ∀ x, i.form = some x → x.instr = some i

theorem of_form {i : Instr} {y : Form} (h : i.form = some y) (hy : y.instr = some i) : Statement i := by
  intro x hx
  cases h.symm.trans hx
  exact hy

theorem of_none {i : Instr} (h : i.form = none) : Statement i := by
  intro x hx
  cases h.symm.trans hx

theorem nop (g) : Statement (.nop g) := of_form rfl rfl
theorem mov (f) : Statement (.mov f) := of_form rfl rfl
theorem add (f) : Statement (.add f) := of_form rfl rfl
theorem sub (f) : Statement (.sub f) := of_form rfl rfl
theorem mul (f) : Statement (.mul f) := of_form rfl rfl
theorem mulhi (f) : Statement (.mulhi f) := of_form rfl rfl
theorem mad (f) : Statement (.mad f) := of_form rfl rfl
theorem min (f) : Statement (.min f) := of_form rfl rfl
theorem max (f) : Statement (.max f) := of_form rfl rfl
theorem and (f) : Statement (.and f) := of_form rfl rfl
theorem or (f) : Statement (.or f) := of_form rfl rfl
theorem xor (f) : Statement (.xor f) := of_form rfl rfl
theorem shl (f) : Statement (.shl f) := of_form rfl rfl
theorem shr (f) : Statement (.shr f) := of_form rfl rfl
theorem sra (f) : Statement (.sra f) := of_form rfl rfl
theorem rot (f) : Statement (.rot f) := of_form rfl rfl
theorem bfx (f) : Statement (.bfx f) := of_form rfl rfl
theorem bfi (f) : Statement (.bfi f) := of_form rfl rfl
theorem popc (f) : Statement (.popc f) := of_form rfl rfl
theorem clz (f) : Statement (.clz f) := of_form rfl rfl
theorem brev (f) : Statement (.brev f) := of_form rfl rfl
theorem cmp (f) : Statement (.cmp f) := of_form rfl rfl
theorem sel (f) : Statement (.sel f) := of_form rfl rfl
theorem div (f) : Statement (.div f) := of_form rfl rfl
theorem rem (f) : Statement (.rem f) := of_form rfl rfl
theorem prm (f) : Statement (.prm f) := of_form rfl rfl
theorem lop (f) : Statement (.lop f) := of_form rfl rfl
theorem fadd (f) : Statement (.fadd f) := of_form rfl rfl
theorem fsub (f) : Statement (.fsub f) := of_form rfl rfl
theorem fmul (f) : Statement (.fmul f) := of_form rfl rfl
theorem ffma (f) : Statement (.ffma f) := of_form rfl rfl
theorem fmin (f) : Statement (.fmin f) := of_form rfl rfl
theorem fmax (f) : Statement (.fmax f) := of_form rfl rfl
theorem fcmp (f) : Statement (.fcmp f) := of_form rfl rfl
theorem fdiv (f) : Statement (.fdiv f) := of_form rfl rfl
theorem frcp (f) : Statement (.frcp f) := of_form rfl rfl
theorem fsqrt (f) : Statement (.fsqrt f) := of_form rfl rfl
theorem frsq (f) : Statement (.frsq f) := of_form rfl rfl
theorem fexp2 (f) : Statement (.fexp2 f) := of_form rfl rfl
theorem flog2 (f) : Statement (.flog2 f) := of_form rfl rfl
theorem ftanh (f) : Statement (.ftanh f) := of_form rfl rfl
theorem fclass (f) : Statement (.fclass f) := of_form rfl rfl
theorem fldexp (f) : Statement (.fldexp f) := of_form rfl rfl
theorem frnd (f) : Statement (.frnd f) := of_form rfl rfl
theorem cvt (f) : Statement (.cvt f) := of_form rfl rfl
theorem pack (f) : Statement (.pack f) := of_form rfl rfl
theorem unpack (f) : Statement (.unpack f) := of_form rfl rfl
theorem quant (f) : Statement (.quant f) := of_form rfl rfl
theorem scl (f) : Statement (.scl f) := of_form rfl rfl
theorem dot (f) : Statement (.dot f) := of_form rfl rfl
theorem shfl (f) : Statement (.shfl f) := of_form rfl rfl
theorem qxch (f) : Statement (.qxch f) := of_form rfl rfl
theorem vote (f) : Statement (.vote f) := of_form rfl rfl
theorem gred (f) : Statement (.gred f) := of_form rfl rfl
theorem gscan (f) : Statement (.gscan f) := of_form rfl rfl
theorem reorder (f) : Statement (.reorder f) := of_form rfl rfl
theorem rdlane (f) : Statement (.rdlane f) := of_form rfl rfl
theorem cset (f) : Statement (.cset f) := of_form rfl rfl
theorem cfwd (f) : Statement (.cfwd f) := of_form rfl rfl
theorem cstat (f) : Statement (.cstat f) := of_form rfl rfl
theorem rand (f) : Statement (.rand f) := of_form rfl rfl
theorem rkey (f) : Statement (.rkey f) := of_form rfl rfl
theorem sget (f) : Statement (.sget f) := of_form rfl rfl
theorem sset (f) : Statement (.sset f) := of_form rfl rfl
theorem cap (f) : Statement (.cap f) := of_form rfl rfl
theorem clk (f) : Statement (.clk f) := of_form rfl rfl
theorem ld (f) : Statement (.ld f) := of_form rfl rfl
theorem st (f) : Statement (.st f) := of_form rfl rfl
theorem amoAdd (f) : Statement (.amoAdd f) := of_form rfl rfl
theorem amoMin (f) : Statement (.amoMin f) := of_form rfl rfl
theorem amoMax (f) : Statement (.amoMax f) := of_form rfl rfl
theorem amoAnd (f) : Statement (.amoAnd f) := of_form rfl rfl
theorem amoOr (f) : Statement (.amoOr f) := of_form rfl rfl
theorem amoXor (f) : Statement (.amoXor f) := of_form rfl rfl
theorem amoXchg (f) : Statement (.amoXchg f) := of_form rfl rfl
theorem amoCas (f) : Statement (.amoCas f) := of_form rfl rfl
theorem amoFadd (f) : Statement (.amoFadd f) := of_form rfl rfl
theorem pref (f) : Statement (.pref f) := of_form rfl rfl
theorem pgreq (f) : Statement (.pgreq f) := of_form rfl rfl
theorem smap (f) : Statement (.smap f) := of_form rfl rfl
theorem swb (f) : Statement (.swb f) := of_form rfl rfl
theorem sdrop (f) : Statement (.sdrop f) := of_form rfl rfl
theorem bra (f) : Statement (.bra f) := of_form rfl rfl
theorem brx (f) : Statement (.brx f) := of_form rfl rfl
theorem brt (f) : Statement (.brt f) := of_form rfl rfl
theorem call (f) : Statement (.call f) := of_form rfl rfl
theorem callx (f) : Statement (.callx f) := of_form rfl rfl
theorem ret (f) : Statement (.ret f) := of_form rfl rfl
theorem exit (f) : Statement (.exit f) := of_form rfl rfl
theorem brk (f) : Statement (.brk f) := of_form rfl rfl
theorem qpush (f) : Statement (.qpush f) := of_form rfl rfl
theorem qpop (f) : Statement (.qpop f) := of_form rfl rfl
theorem qpoll (f) : Statement (.qpoll f) := of_form rfl rfl
theorem mma (f) : Statement (.mma f) := of_form rfl rfl
theorem mmd (f) : Statement (.mmd f) := of_form rfl rfl
theorem accwait (f) : Statement (.accwait f) := of_form rfl rfl
theorem accpatch (f) : Statement (.accpatch f) := of_form rfl rfl
theorem acczero (f) : Statement (.acczero f) := of_form rfl rfl
theorem accld (f) : Statement (.accld f) := of_form rfl rfl
theorem cpld (f) : Statement (.cpld f) := of_form rfl rfl
theorem cpst (f) : Statement (.cpst f) := of_form rfl rfl
theorem cpred (f) : Statement (.cpred f) := of_form rfl rfl
theorem cpgat (f) : Statement (.cpgat f) := of_form rfl rfl
theorem tspawn (f) : Statement (.tspawn f) := of_form rfl rfl
theorem tcont (f) : Statement (.tcont f) := of_form rfl rfl
theorem fork (f) : Statement (.fork f) := of_form rfl rfl
theorem choose (f) : Statement (.choose f) := of_form rfl rfl
theorem wdone (f) : Statement (.wdone f) := of_form rfl rfl
theorem wjoin (f) : Statement (.wjoin f) := of_form rfl rfl
theorem wabort (f) : Statement (.wabort f) := of_form rfl rfl
theorem wait (f) : Statement (.wait f) := of_form rfl rfl
theorem waitr (f) : Statement (.waitr f) := of_form rfl rfl
theorem fence (f) : Statement (.fence f) := of_form rfl rfl
theorem acq (f) : Statement (.acq f) := of_form rfl rfl
theorem rel (f) : Statement (.rel f) := of_form rfl rfl
theorem bind (f) : Statement (.bind f) := of_form rfl rfl
theorem unbind (f) : Statement (.unbind f) := of_form rfl rfl
theorem bsync (f) : Statement (.bsync f) := of_form rfl rfl
theorem pbinit (f) : Statement (.pbinit f) := of_form rfl rfl
theorem pbarr (f) : Statement (.pbarr f) := of_form rfl rfl
theorem pbwait (f) : Statement (.pbwait f) := of_form rfl rfl
theorem ufence (f) : Statement (.ufence f) := of_form rfl rfl
theorem renter (f) : Statement (.renter f) := of_form rfl rfl
theorem rleave (f) : Statement (.rleave f) := of_form rfl rfl
theorem tmark (f) : Statement (.tmark f) := of_form rfl rfl
theorem trap (f) : Statement (.trap f) := of_form rfl rfl
theorem eret (f) : Statement (.eret f) := of_form rfl rfl
theorem sleep (f) : Statement (.sleep f) := of_form rfl rfl
theorem perf (f) : Statement (.perf f) := of_form rfl rfl
theorem twill (f) : Statement (.twill f) := of_form rfl rfl
theorem turn (f) : Statement (.turn f) := of_form rfl rfl
theorem tbrk (f) : Statement (.tbrk f) := of_form rfl rfl
theorem launch (p) (q) : Statement (.launch p q) := of_none rfl
theorem load (p) (q) : Statement (.load p q) := of_none rfl
theorem objupdate (p) (q) : Statement (.objupdate p q) := of_none rfl
theorem extupdate (p) (q) : Statement (.extupdate p q) := of_none rfl
theorem watch (p) (q) : Statement (.watch p q) := of_none rfl
theorem traceOff (p) (q) : Statement (.traceOff p q) := of_none rfl
theorem traceOn (p) (q) : Statement (.traceOn p q) := of_none rfl
theorem traceDrain (p) (q) : Statement (.traceDrain p q) := of_none rfl
theorem resolveRetry (p) (q) : Statement (.resolveRetry p q) := of_none rfl
theorem resolveDeliver (p) (q) : Statement (.resolveDeliver p q) := of_none rfl
theorem preempt (p) (q) : Statement (.preempt p q) := of_none rfl
theorem restore (p) (q) : Statement (.restore p q) := of_none rfl
theorem grant (p) (q) : Statement (.grant p q) := of_none rfl
theorem migrate (p) (q) : Statement (.migrate p q) := of_none rfl
theorem summary : Statement .summary := of_none rfl
theorem attest (p) (nonce) : Statement (.attest p nonce) := of_none rfl
theorem partcount (n) : Statement (.partcount n) := of_none rfl
theorem partconfig (p) (cfg) : Statement (.partconfig p cfg) := of_none rfl
theorem firmware (img) : Statement (.firmware img) := of_none rfl
theorem power (st) : Statement (.power st) := of_none rfl
theorem launchActivation (p) (q) : Statement (.launchActivation p q) := of_none rfl
theorem blockPlacement (p) (cores) : Statement (.blockPlacement p cores) := of_none rfl
theorem gangAges (cluster) : Statement (.gangAges cluster) := of_none rfl
theorem blockRetirement (b) : Statement (.blockRetirement b) := of_none rfl
theorem matrixCommandStart (space) (n) : Statement (.matrixCommandStart space n) := of_none rfl
theorem matrixCommandCompletion (space) : Statement (.matrixCommandCompletion space) := of_none rfl
theorem copyCompletion (ctx) : Statement (.copyCompletion ctx) := of_none rfl
theorem engineFault (ctx) : Statement (.engineFault ctx) := of_none rfl
theorem loadCompletion (ctx) (n) : Statement (.loadCompletion ctx n) := of_none rfl
theorem storeCompletion (ctx) (n) : Statement (.storeCompletion ctx n) := of_none rfl
theorem waitReturn (ctx) (slot) : Statement (.waitReturn ctx slot) := of_none rfl
theorem accwaitReturn (ctx) (slot) : Statement (.accwaitReturn ctx slot) := of_none rfl
theorem accpatchApply (ctx) (slot) : Statement (.accpatchApply ctx slot) := of_none rfl
theorem bsyncComplete (b) : Statement (.bsyncComplete b) := of_none rfl
theorem reorderMeet (b) (part) : Statement (.reorderMeet b part) := of_none rfl
theorem pbwaitReturn (ctx) (slot) : Statement (.pbwaitReturn ctx slot) := of_none rfl
theorem carryReadWake (ctx) (slot) : Statement (.carryReadWake ctx slot) := of_none rfl
theorem queueRegisterWake (ctx) (slot) : Statement (.queueRegisterWake ctx slot) := of_none rfl
theorem twillPlacesTaken (ctx) (slot) : Statement (.twillPlacesTaken ctx slot) := of_none rfl
theorem orderedStageWake (ctx) : Statement (.orderedStageWake ctx) := of_none rfl
theorem arbiterWake (ctx) (slot) : Statement (.arbiterWake ctx slot) := of_none rfl
theorem viewLineRetag (line) (world) : Statement (.viewLineRetag line world) := of_none rfl
theorem sleepExpiry (ctx) (slot) : Statement (.sleepExpiry ctx slot) := of_none rfl
theorem taskDequeue (ctx) : Statement (.taskDequeue ctx) := of_none rfl
theorem taskRecordAges (launch) (pri) : Statement (.taskRecordAges launch pri) := of_none rfl
theorem noWorkerTake (launch) (pri) : Statement (.noWorkerTake launch pri) := of_none rfl
theorem taskRetirement (ctx) : Statement (.taskRetirement ctx) := of_none rfl
theorem ringFull (launch) : Statement (.ringFull launch) := of_none rfl
theorem groupSave (ctx) : Statement (.groupSave ctx) := of_none rfl
theorem faultRingPosting (p) : Statement (.faultRingPosting p) := of_none rfl
theorem icacheLineFill (core) (code) (line) : Statement (.icacheLineFill core code line) := of_none rfl
theorem directoryRecall (ctx) (line) (write) : Statement (.directoryRecall ctx line write) := of_none rfl
theorem apertureRefusal (ctx) (n) : Statement (.apertureRefusal ctx n) := of_none rfl
theorem uncorrectableError (u) : Statement (.uncorrectableError u) := of_none rfl
theorem thermalTrip (die) : Statement (.thermalTrip die) := of_none rfl
theorem clockThrottle (khz) : Statement (.clockThrottle khz) := of_none rfl
theorem thermalGating (cluster) : Statement (.thermalGating cluster) := of_none rfl
theorem clusterReturn (cluster) : Statement (.clusterReturn cluster) := of_none rfl
theorem firmwareBoot : Statement .firmwareBoot := of_none rfl
theorem supplyOff : Statement .supplyOff := of_none rfl
theorem arithmeticClockCycle : Statement .arithmeticClockCycle := of_none rfl
theorem cacheEviction (e) : Statement (.cacheEviction e) := of_none rfl
theorem singleBitError : Statement .singleBitError := of_none rfl
theorem remoteStore (p) (agent) (obj) (off) (bytes) : Statement (.remoteStore p agent obj off bytes) := of_none rfl
theorem powerFault : Statement .powerFault := of_none rfl

end Sys2Proof.Laws.FormInverse
end

