-- ==== Sys2Proof/Tests/Slice0.lean ====
section
/-! SUPPORT. Tests/Slice0.lean: words that decode, terms that are ill-formed, single steps, and states that meet the hypotheses of the
statements. Expected values are the manual's own examples or hand calculation from its rules. -/

namespace Sys2Proof.Tests

open Sys2Proof.Machine

set_option Elab.async false

/-! ### Fields -/

/-- No guard (02 R43). -/
def gd : Guard := ⟨false, false, 15⟩
def src (o : Opnd) : Src := ⟨false, false, false, o⟩
/-- `add.i32 v2, v0, v1` (format A). -/
def fA : AluF := ⟨gd, .v 2, false, 0, src (.v 0), src (.v 1), .none, none, .i32, 0⟩
/-- `ld.b32 v2, [b0 + v0]` (format M). -/
def fM : MemF := ⟨gd, .v 2, false, 0, src (.v 0), 0, 2, 0, 0, 0, 15, 0, 0⟩
/-- `bra` to its own line (format B). -/
def fB : CtlF := ⟨gd, .v 0, 0, 0⟩
def fE : EngF := ⟨gd, .v 0, 0, .none, .none, .none, 0⟩
def fS : SysF := ⟨gd, .v 0, .none, .none, 0, 0⟩
def fT : TwF := ⟨gd, .none, 0, false, 0⟩

/-! ### Decoding: words written out from the encodings of 02 R42 to R54 and 03 R62 to R75 -/

/-- A slot of three 32-bit words, low word first. -/
def slot (a b c : Nat) : BitVec 96 := BitVec.ofNat 96 (a + b * 2 ^ 32 + c * 2 ^ 64)

theorem test_decode_nop : decode 0 = .instr (.nop ⟨false, false, 0⟩) ∧ decode (slot 0x00007800 0 0) = .instr (.nop gd) := by decide

-- OPC 02, KIND 0, G 15 not negated, DST v2, SA v0, SB v1, TY i32
theorem test_decode_add : decode (slot 0x00047802 0x00001000 0x00000040) = .instr (.add fA) := by decide

-- OPC 08, KIND 1: max.i32 v3, v1, -1 with IMM32 in bits 75 to 44 and TY in bits 79 to 76
theorem test_decode_immediate : decode (slot 0x80067908 0xFFFFF000 0x00001FFF) =
    .instr (.max { fA with dst := .v 3, a := src (.v 1), b := .none, imm := some 0xFFFFFFFF }) := by decide

-- sgt-like `cmp.lt.u32 p3, s5, k7`, bf16 `fadd` with NEG on SA and KILL on SB
theorem test_decode_compare : decode (slot 0x86067815 0x00387082 0x00000880) =
    .instr (.cmp ⟨gd, .p 3, false, 0, src (.s 5), src (.k 7), .none, none, .u32, 2⟩) := by decide
theorem test_decode_float_modifiers : decode (slot 0x80047820 0x01001201 0x000001C0) =
    .instr (.fadd ⟨gd, .v 2, false, 0, ⟨false, false, true, .v 3⟩, ⟨true, false, false, .v 1⟩, .none, none, .bf16, 0⟩) := by decide
theorem test_decode_quant : decode (slot 0x0012783B 0x18003001 0x00001142) =
    .instr (.quant ⟨gd, .v 9, false, 0, src (.v 2), src (.v 3), src (.s 12), none, .f32, 4⟩) := by decide
theorem test_decode_shuffle : decode (slot 0x800E7948 0x00001001 0x00010000) =
    .instr (.shfl ⟨gd, .v 7, false, 0, src (.v 3), .none, .none, some 1, .b32, 1⟩) := by decide
theorem test_decode_reorder : decode (slot 0x8000794D 0x00003002 0) =
    .instr (.reorder ⟨gd, .v 0, false, 0, src (.v 5), .none, .none, some 3, .b32, 0⟩) := by decide
theorem test_decode_cap : decode (slot 0x02287962 0x20041000 0) =
    .instr (.cap ⟨gd, .s 20, false, 0, .none, .none, .none, some 0x20041, .b32, 0⟩) := by decide
theorem test_decode_clock : decode (slot 0x02287863 0 0x00000100) =
    .instr (.clk ⟨gd, .s 20, false, 0, .none, .none, .none, none, .u64, 0⟩) := by decide

-- a store: OPC 01, KIND 2, DATA v7, BUF 3, OFF s4, IMM 16, SIZE 2, FLAGP 15
theorem test_decode_store : decode (slot 0x300E7A01 0x00020104 0x00078040) =
    .instr (.st { fM with data := .v 7, buf := 3, off := src (.s 4), imm := 16 }) := by decide
-- amo_add.u32 with ORD 3 (acquire and release), SCOPE 4 and a returned value
theorem test_decode_atomic : decode (slot 0x000E7A02 0x00000002 0x00279340) =
    .instr (.amoAdd { fM with data := .v 7, off := src (.v 2), ord := 3, scope := 4, var := 1 }) := by decide

-- branches: brk; ret through s30; brx through v4 with RCV two lines on, slot 0
theorem test_decode_branches : decode (slot 0x00007B07 0 0) = .instr (.brk fB)
    ∧ decode (slot 0x023C7B05 0 0) = .instr (.ret { fB with link := .s 30 })
    ∧ decode (slot 0x00087B01 0x20000000 0) = .instr (.brx { fB with link := .v 4, rcv := 16 }) := by decide

-- engines: qpush qx from s5; wdone s21; choose s20; tspawn s32
theorem test_decode_engines : decode (slot 0x88007C00 0x00000082 0) = .instr (.qpush { fE with q := 1, a := src (.s 5) })
    ∧ decode (slot 0x80007C22 0x8A 0) = .instr (.wdone { fE with a := src (.s 21) })
    ∧ decode (slot 0x00007C21 0x8A 0) = .instr (.choose { fE with a := src (.s 20) })
    ∧ decode (slot 0x00007C18 0x90 0) = .instr (.tspawn { fE with a := src (.s 32) }) := by decide

-- system: sleep 2000; perf s20, 8; renter 0x12; bsync; rel.sys s20; bind s20, s22, 4; pbwait sp2, s16, s19
theorem test_decode_system : decode (slot 0x00007D11 0xA0000000 0x0000000F) = .instr (.sleep { fS with imm := 2000 })
    ∧ decode (slot 0x02287D12 0 0x04000000) = .instr (.perf { fS with dst := .s 20, var := 8 })
    ∧ decode (slot 0x00007D0C 0x24000000 0) = .instr (.renter { fS with imm := 0x12 })
    ∧ decode (slot 0x00007D07 0 0) = .instr (.bsync fS) := by decide
theorem test_decode_guards : decode (slot 0x00007D04 0x8A 0x02000000) = .instr (.rel { fS with a := src (.s 20), var := 4 })
    ∧ decode (slot 0x00007D05 0x0811608A 0) = .instr (.bind { fS with a := src (.s 20), b := src (.s 22), imm := 4 })
    ∧ decode (slot 0x06247D0A 0x00113088 0) = .instr (.pbwait { fS with dst := .sp 2, a := src (.s 16), b := src (.s 19) }) := by decide

-- loops: (sp1) tbrk; turn
theorem test_decode_loops : decode (slot 0x00010E02 0 0) = .instr (.tbrk { fT with guard := ⟨true, false, 1⟩ })
    ∧ decode (slot 0x00007E01 0 0) = .instr (.turn fT) := by decide

-- the table's numbering is the slot's own (02 R35)
theorem test_decode_table : decodeTableWord 96 0x400000100000047802 = some (.add fA) ∧ decodeTableWord 96 0xFF = none := by decide

/-- 02 R60: one slot for each cause, in the order of its table: KIND 7; an unassigned OPC; a bit that the format marks zero; TY 13; a
special register as a destination; an odd pair; SAT on a move; a branch to slot 5; a lane guard on the uniform front. -/
theorem test_decode_rejects : decode (slot 0x00007F00 0 0) = .illegal 2 ∧ decode (slot 0x00007800 1 0) ≠ .instr (.nop gd)
    ∧ decode (slot 0x000078FF 0 0) = .illegal 3 ∧ decode (slot 0x00047802 0x00001000 0x80000040) = .illegal 4
    ∧ decode (slot 0x00047802 0x00001000 0x00000340) = .illegal 5 ∧ decode (slot 0x06807802 0x00001000 0x00000040) = .illegal 6
    ∧ decode (slot 0x00067802 0x00002000 0x000000C0) = .illegal 7 ∧ decode (slot 0x08047801 0 0) = .illegal 8
    ∧ decode (slot 0x40007B00 1 0) = .illegal 9 ∧ decode (slot 0x00000D07 0 0) = .illegal 10 := by decide

/-! ### Ill-formed terms: one for each check of 02 R60 and 03 R62 to R75 -/

theorem test_wf_accepts : WellFormed (.add fA) = true ∧ WellFormed (.ld fM) = true ∧ WellFormed (.bra fB) = true
    ∧ WellFormed (.acczero fE) = true ∧ WellFormed (.bsync fS) = true ∧ WellFormed (.turn fT) = true := by decide

theorem test_wf_alu_forms : WellFormed (.mad { fA with imm := some 0 }) = false ∧ WellFormed (.cvt fA) = false
    ∧ WellFormed (.add { fA with c := src (.v 1) }) = false ∧ WellFormed (.add { fA with imm := some 0 }) = false
    ∧ WellFormed (.reorder { fA with ty := .b32, b := .none, imm := some 1 }) = false
    ∧ WellFormed (.cvt { fA with b := .none, imm := some 16 }) = false
    ∧ WellFormed (.fadd { fA with ty := .f16, b := .none, imm := some 0x10000 }) = false := by decide

theorem test_wf_alu_types : WellFormed (.add { fA with ty := .f32 }) = false ∧ WellFormed (.fadd { fA with ty := .f32, var := 6 }) = false
    ∧ WellFormed (.cvt { fA with ty := .f16x2, b := .none, imm := some 0 }) = false
    ∧ WellFormed (.cvt { fA with b := .none, imm := some 15 }) = false
    ∧ WellFormed (.unpack { fA with ty := .f16x2, b := .none, var := 2 }) = false := by decide

theorem test_wf_alu_classes : WellFormed (.add { fA with dst := .k 1 }) = false ∧ WellFormed (.add { fA with a := src (.p 1) }) = false
    ∧ WellFormed (.cmp { fA with dst := .p 15 }) = false ∧ WellFormed (.rand { fA with ty := .b32, dst := .s 2, a := .none, b := .none }) = false
    ∧ WellFormed (.vote { fA with ty := .b32, dst := .p 1, a := src (.p 0), b := .none }) = false
    ∧ WellFormed (.cset { fA with ty := .b32, dst := .v 1, b := .none }) = false
    ∧ WellFormed (.add { fA with a := src (.s 96) }) = false := by decide

theorem test_wf_alu_names : WellFormed (.add { fA with ty := .i64, dst := .v 3 }) = false
    ∧ WellFormed (.add { fA with ty := .i64, b := src (.v 1) }) = false ∧ WellFormed (.add { fA with dst := .s 2 }) = false
    ∧ WellFormed (.clk ⟨gd, .s 21, false, 0, .none, .none, .none, none, .u64, 0⟩) = false := by decide

theorem test_wf_alu_modifiers : WellFormed (.add { fA with a := ⟨true, false, false, .s 1⟩ }) = false
    ∧ WellFormed (.and { fA with ty := .b32, a := ⟨false, false, true, .v 1⟩ }) = false
    ∧ WellFormed (.and { fA with ty := .b32, sat := true }) = false ∧ WellFormed (.add { fA with dsc := 1 }) = false
    ∧ WellFormed (.add { fA with guard := ⟨false, false, 3⟩, dst := .s 2, a := src (.s 0), b := src (.s 1) }) = false := by decide

theorem test_wf_mem_fields : WellFormed (.pref { fM with size := 0 }) = false ∧ WellFormed (.pref { fM with data := .v 0, size := 0, dkill := true }) = false
    ∧ WellFormed (.amoAdd { fM with cache := 1 }) = false ∧ WellFormed (.ld { fM with scope := 1 }) = false
    ∧ WellFormed (.ld { fM with size := 5 }) = false ∧ WellFormed (.ld { fM with ord := 2 }) = false ∧ WellFormed (.st { fM with ord := 1 }) = false
    ∧ WellFormed (.ld { fM with var := 1 }) = false ∧ WellFormed (.ld { fM with buf := 15 }) = false ∧ WellFormed (.st { fM with buf := 13 }) = false
    ∧ WellFormed (.ld { fM with res := 3 }) = false ∧ WellFormed (.ld { fM with ord := 1, scope := 5 }) = false := by decide

theorem test_wf_mem_operands : WellFormed (.ld { fM with data := .c 1 }) = false ∧ WellFormed (.amoAdd { fM with data := .c 1 }) = false
    ∧ WellFormed (.ld { fM with off := src (.c 1) }) = false ∧ WellFormed (.ld { fM with size := 3, data := .v 3 }) = false
    ∧ WellFormed (.amoCas { fM with data := .v 3 }) = false ∧ WellFormed (.ld { fM with dkill := true }) = false
    ∧ WellFormed (.st { fM with data := .s 1, dkill := true }) = false ∧ WellFormed (.ld { fM with off := ⟨false, false, true, .v 0⟩ }) = false
    ∧ WellFormed (.ld { fM with guard := ⟨false, false, 3⟩, data := .s 2, off := src (.s 0) }) = false := by decide

theorem test_wf_branches : WellFormed (.bra { fB with link := .v 1 }) = false ∧ WellFormed (.bra { fB with rcv := 8 }) = false
    ∧ WellFormed (.brx { fB with link := .v 1, tgt := 8 }) = false ∧ WellFormed (.brt { fB with link := .v 1, tgt := 9 }) = false
    ∧ WellFormed (.ret { fB with link := .v 1 }) = false ∧ WellFormed (.bra { fB with tgt := 5 }) = false
    ∧ WellFormed (.brx { fB with link := .v 1, rcv := 7 }) = false
    ∧ WellFormed (.call { fB with guard := ⟨false, false, 3⟩, link := .s 1 }) = false := by decide

theorem test_wf_engines : WellFormed (.acczero { fE with dst := .v 1 }) = false ∧ WellFormed (.acczero { fE with a := src (.s 1) }) = false
    ∧ WellFormed (.mma { fE with a := src (.v 1), b := src (.s 8), q := 1 }) = false ∧ WellFormed (.acczero { fE with imm := 1 }) = false
    ∧ WellFormed (.cpld { fE with a := src (.s 8), imm := 0x8000 }) = false ∧ WellFormed (.qpush { fE with q := 3, a := src (.s 1) }) = false
    ∧ WellFormed (.fork { fE with dst := .sp 1, imm := 5 }) = false ∧ WellFormed (.cpld { fE with a := src (.s 8), imm := 10 }) = false
    ∧ WellFormed (.accwait { fE with a := src (.v 1) }) = false ∧ WellFormed (.mma { fE with a := src (.v 1), b := src (.s 4) }) = false
    ∧ WellFormed (.cpld { fE with a := src (.s 92) }) = false ∧ WellFormed (.tspawn { fE with a := src (.s 8) }) = false
    ∧ WellFormed (.accwait { fE with a := ⟨false, true, false, .s 1⟩ }) = false ∧ WellFormed (.acczero { fE with guard := ⟨false, false, 3⟩ }) = false := by
  decide

theorem test_wf_system : WellFormed (.bsync { fS with dst := .v 1 }) = false ∧ WellFormed (.bsync { fS with a := src (.s 1) }) = false
    ∧ WellFormed (.bsync { fS with b := src (.s 1) }) = false ∧ WellFormed (.bsync { fS with imm := 1 }) = false
    ∧ WellFormed (.trap { fS with imm := 0x10000 }) = false ∧ WellFormed (.fence { fS with var := 8 }) = false
    ∧ WellFormed (.bsync { fS with var := 1 }) = false ∧ WellFormed (.fence { fS with var := 5 }) = false
    ∧ WellFormed (.waitr { fS with a := src (.s 1), var := 5 }) = false ∧ WellFormed (.perf { fS with dst := .s 1, var := 16 }) = false
    ∧ WellFormed (.sleep fS) = false ∧ WellFormed (.renter fS) = false ∧ WellFormed (.perf { fS with dst := .v 1 }) = false
    ∧ WellFormed (.acq { fS with a := src (.s 1) }) = false ∧ WellFormed (.bind { fS with a := src (.s 2), b := src (.s 5), imm := 1 }) = false
    ∧ WellFormed (.waitr { fS with a := ⟨false, false, true, .s 1⟩ }) = false ∧ WellFormed (.bsync { fS with guard := ⟨false, true, 2⟩ }) = false := by
  decide

theorem test_wf_loops : WellFormed (.turn { fT with sm1 := 1 }) = false ∧ WellFormed (.turn { fT with a := src (.s 1) }) = false
    ∧ WellFormed (.twill { fT with a := src (.v 1) }) = false ∧ WellFormed (.twill { fT with a := ⟨true, false, false, .s 1⟩ }) = false
    ∧ WellFormed (.turn { fT with guard := ⟨false, false, 2⟩ }) = false := by decide

/-! ### Small states -/

/-- One group of width 8 with a handler, after reset, changed by `f`; the path stands at slot 0 of line 0. -/
def tiny (f : Group → Group) : State :=
  let s := { placeOne State.reset 0 with agenda := [] }
  s.setG (f { s.g with handler := 8 })
/-- The same group as it is. -/
def base : State := tiny id
/-- Lane `l` of `v0` holds `l`, of `v1` the number 5. -/
def vals (g : Group) : Group :=
  { g with mapped := 3, v := ((List.range 8).filterMap fun l => if l = 0 then none else some (l, BitVec.ofNat 32 l)) ++ (List.range 8).map fun l => (64 + l, 5) }
/-- A group on two paths. -/
def split (g : Group) : Group := { g with stack := [⟨0, 0x0F, 16, 0, 0, none, false, false⟩, ⟨1, 0xF0, 16, 0, 0, none, false, false⟩, ⟨16, 0xFF, noRcv, 0, 0, none, false, false⟩] }
/-- The state that an outcome goes on with. -/
def after (o : Host.Outcome State Fault Refusal) : State := match o with | .next t => t | _ => State.reset
def onward (o : Host.Outcome State Fault Refusal) : Bool := match o with | .next _ => true | _ => false

/-- An answer of a check. -/
def okIs {ε α : Type} [DecidableEq α] (r : Except ε α) (a : α) : Bool := match r with | .ok b => b == a | .error _ => false
theorem of_okIs {ε α : Type} [DecidableEq α] {r : Except ε α} {a : α} (h : okIs r a = true) : r = .ok a := by
  cases r with
  | ok b => simp only [okIs, beq_iff_eq] at h; rw [h]
  | error e => simp [okIs] at h

/-- `LanesRead` as a check. -/
def lanesReadB (s : State) (opc : Nat) (f : AluF) (pops : List (Queue × Word)) (xs : Nat → List Nat) (vo : Nat → Bool) : Bool :=
  s.g.present && (!usesCarry f opc || (s.window s.ctx).isSome) && s.execLive f.guard != 0 && (nameStop s.g (aluUses opc f)).isNone
    && okIs (popsFor s.g (aluUses opc f)) pops
    && (lanesOf (s.execLanes f.guard)).all fun l => okIs (s.rdSrcs s.ctx pops (aluUses opc f) l) (xs l, vo l)

theorem of_lanesReadB {s : State} {opc : Nat} {f : AluF} {pops : List (Queue × Word)} {xs : Nat → List Nat} {vo : Nat → Bool}
    (h : lanesReadB s opc f pops xs vo = true) : LanesRead s opc f pops xs vo := by
  simp only [lanesReadB, Bool.and_eq_true, List.all_eq_true, bne_iff_ne, ne_eq] at h
  obtain ⟨⟨⟨⟨⟨h1, h2⟩, h3⟩, h4⟩, h5⟩, h6⟩ := h
  exact ⟨h1, fun hu => by simpa [hu] using h2, h3, by simpa using h4, of_okIs h5, fun l hl => of_okIs (h6 l hl)⟩

/-- `DstTakes` as a check. -/
def dstTakesB (s : State) (opc : Nat) (f : AluF) (n : Nat) (vo : Nat → Bool) (y : Nat → Nat) : Bool :=
  (s.g.pendingWrite (dstNames f.dst n ++ if voidsOf (lanesOf (s.execLanes f.guard)) vo == 0 then [] else [.p 14])).isNone
    && (match f.dst with
      | .v _ => decide (s.g.needs (killSet (aluUses opc f)) (dstV f.dst n) ≤ s.g.peak)
      | .c k => s.mayYield s.ctx k.toNat && (lanesOf (s.execLanes f.guard)).all fun l => (s.carryBad s.ctx k.toNat l).isNone
      | .q .qm => decide ((wordN (y (s.firstLive f)) 0).toNat < 65536 ∧ s.g.mkM.length < 64)
      | .q .qx => decide ((wordN (y (s.firstLive f)) 0).toNat < 65536 ∧ s.g.mkX.length < 64)
      | .q .qk => decide (s.g.staged.length < 15)
      | _ => true)

theorem of_dstTakesB {s : State} {opc : Nat} {f : AluF} {n : Nat} {vo : Nat → Bool} {y : Nat → Nat}
    (h : dstTakesB s opc f n vo y = true) : DstTakes s opc f n vo y := by
  simp only [dstTakesB, Bool.and_eq_true, Option.isNone_iff_eq_none] at h
  obtain ⟨h1, h2⟩ := h
  refine ⟨h1, fun hv => ?_, fun k hk => ?_, fun hk => ?_, fun hk => ?_, fun hk => ?_⟩
  · cases hd : f.dst <;> simp_all [Opnd.isV]
  all_goals
    rw [hk] at h2
    simpa using h2

/-! ### 02 R35 to R39, R59 to R61: what a step fetches -/

def issuing (s : State) : State := { s with agenda := [.issue 0 0] }

theorem witness_StepRunsTheDecodedInstruction :
    let s := placeOne State.reset 0x400000100000047802
    s.dev ≠ .off ∧ s.agenda = .issue 0 0 :: [] ∧ canIssue { s with agenda := [] } 0 0 = true
      ∧ 64 * (lineOfPc s.pc + 1) ≤ (s.code s.g.code).size ∧ slotOfPc s.pc ≤ 4 ∧ (lineBits s s.g 0).2 = true ∧ coldMiss s s.g 0 = false ∧ lineWordOk (lineBits s s.g 0).1 = true
      ∧ decode (lineSlot (lineBits s s.g 0).1 0) = .instr (.add fA) := by decide +kernel

theorem witness_StepRunsTheDecodedInstruction_illegal :
    let s := placeOne State.reset 0xFF
    (lineBits s s.g 0).2 = true ∧ lineWordOk (lineBits s s.g 0).1 = true ∧ decode (lineSlot (lineBits s s.g 0).1 0) = .illegal 3 := by decide +kernel

theorem witness_StepRunsTheDecodedInstruction_stops :
    (let s := issuing (tiny fun g => { g with status := .suspended }); canIssue { s with agenda := [] } 0 0 = false)
    ∧ (let s := issuing (tiny fun g => { g with stack := [⟨8, 0xFF, noRcv, 0, 0, none, false, false⟩] });
        canIssue { s with agenda := [] } 0 0 = true ∧ (s.code s.g.code).size < 64 * (lineOfPc s.pc + 1))
    ∧ (let s := issuing base; let u := s.setCode 0 { s.code 0 with text := wrN [] 0 64 (2 ^ 485) };
        canIssue { u with agenda := [] } 0 0 = true ∧ (lineBits u u.g 0).2 = false)
    ∧ (let s := issuing base; let u := s.setCode 0 { s.code 0 with text := wrN [] 0 64 (2 ^ 495 + 2 ^ 511) };
        (lineBits u u.g 0).2 = true ∧ lineWordOk (lineBits u u.g 0).1 = false)
    ∧ (let s := issuing (tiny fun g => { g with stack := [⟨5, 0xFF, noRcv, 0, 0, none, false, false⟩] });
        canIssue { s with agenda := [] } 0 0 = true ∧ 64 * (lineOfPc s.pc + 1) ≤ (s.code s.g.code).size ∧ 4 < slotOfPc s.pc)
    ∧ (let s := issuing base; let u := s.setCode 0 { s.code 0 with hot := 0 };
        canIssue { u with agenda := [] } 0 0 = true ∧ (lineBits u u.g 0).2 = true ∧ coldMiss u u.g 0 = true) := by decide +kernel

theorem witness_StepRunsTheDecodedInstruction_events :
    (let s : State := { State.reset with agenda := [.event .singleBitError] }; s.dev ≠ .off ∧ s.agenda = .event .singleBitError :: [])
    ∧ State.reset.dev ≠ .off ∧ State.reset.agenda = [] ∧ ({ State.reset with dev := .off } : State).dev = .off := by decide +kernel

-- the first instruction after reset: v2 = v0 + v1 in every lane, and the path moves on
theorem test_step_add : (after (step (State.withFetchWord State.reset 96 0x400000100000047802))).g.mapped = 4
    ∧ (after (step (State.withFetchWord State.reset 96 0x400000100000047802))).pc = 1 := by decide +kernel
-- a slot that does not decode kills a block without a handler (20 R389)
theorem test_step_illegal : ((after (step (State.withFetchWord State.reset 96 0xFF))).block 0).status = .retiring := by decide +kernel
theorem test_step_supply_off : (match step { State.reset with dev := .off } with | .fault f => f == .supplyOff | _ => false) = true := by decide
theorem test_step_reset_clock : (after (step State.reset)).now = 1 := by decide +kernel

theorem witness_StepsKeepTheTablesCanonical : State.reset.Inv ∧ onward (step State.reset) = true :=
  ⟨⟨by decide, by decide, by decide⟩, by decide⟩


/-! ### Value instructions in the lanes and on the uniform front -/

def noVoid (_ : Nat) : Bool := false
/-- Sources that hold the lane number and 5. -/
def laneAnd5 (l : Nat) : List Nat := [l, 5]

theorem witness_add_reads : LanesRead (tiny vals) 0x02 fA [] laneAnd5 noVoid := of_lanesReadB (by decide +kernel)

theorem witness_LaneResultsReachRegisters : valueOf (.add fA) = some (0x02, fA, intOp fA fun a b _ => a + b) ∧ onFront 0x02 fA = false
    ∧ LanesRead (tiny vals) 0x02 fA [] laneAnd5 noVoid ∧ fA.dst = .v 2
    ∧ (tiny vals).g.pendingWrite ((tiny vals).laneWrites 0x02 fA noVoid) = none
    ∧ (tiny vals).g.needs (killSet (aluUses 0x02 fA)) (dstV fA.dst (dstCount 0x02 fA)) ≤ (tiny vals).g.peak :=
  ⟨rfl, by decide +kernel, witness_add_reads, rfl, by decide +kernel, by decide +kernel⟩

/-- `cmp.lt.i32 p3, v0, v1`. -/
def fCmp : AluF := { fA with dst := .p 3, var := 2 }

theorem witness_LaneResultsReachRegisters_predicate : valueOf (.cmp fCmp) = some (0x15, fCmp, cmpAll fCmp) ∧ onFront 0x15 fCmp = false
    ∧ LanesRead (tiny vals) 0x15 fCmp [] laneAnd5 noVoid ∧ fCmp.dst = .p 3
    ∧ (tiny vals).g.pendingWrite ((tiny vals).laneWrites 0x15 fCmp noVoid) = none :=
  ⟨rfl, by decide +kernel, of_lanesReadB (by decide +kernel), rfl, by decide +kernel⟩

-- the same comparison: lanes 0 to 4 are below 5
theorem test_cmp_lanes : (after (exec (.cmp fCmp) (tiny vals))).g.pmask 3 = 0x1F := by decide +kernel
-- 07 R112: 0x7FFFFFFF + 5 clamps under SAT and wraps without
theorem test_add_wraps : intOp fA (fun a b _ => a + b) [0x7FFFFFFF, 5] [] = 0x80000004
    ∧ intOp { fA with sat := true } (fun a b _ => a + b) [0x7FFFFFFF, 5] [] = 0x7FFFFFFF := by decide +kernel

/-- Carries in an open window, `c2` empty. -/
def carries (g : Group) : Group := { vals g with win := some {} }
def fCar : AluF := { fA with dst := .c 2 }
def fQm : AluF := { fA with dst := .q .qm }

theorem witness_LaneResultsReachEveryDestination : LanesRead (tiny carries) 0x02 fCar [] laneAnd5 noVoid
    ∧ DstTakes (tiny carries) 0x02 fCar 1 noVoid ((tiny carries).laneResult 0x02 fCar (intOp fCar fun a b _ => a + b) laneAnd5)
    ∧ LanesRead (tiny vals) 0x02 fQm [] laneAnd5 noVoid
    ∧ DstTakes (tiny vals) 0x02 fQm 1 noVoid ((tiny vals).laneResult 0x02 fQm (intOp fQm fun a b _ => a + b) laneAnd5) :=
  ⟨of_lanesReadB (by decide +kernel), of_dstTakesB (by decide +kernel), of_lanesReadB (by decide +kernel), of_dstTakesB (by decide +kernel)⟩

/-- `add.i32 s2, s0, s1` on the uniform front, and a compare to `sp1`. -/
def fUni : AluF := { fA with dst := .s 2, a := src (.s 0), b := src (.s 1) }
def fUniP : AluF := { fUni with dst := .sp 1, var := 2 }

theorem witness_FrontResultsReachScalars : FrontReads base 0x02 fUni [0, 0] ∧ base.g.pendingWrite (dstNames fUni.dst (dstCount 0x02 fUni)) = none
    ∧ FrontReads base 0x15 fUniP [0, 0] ∧ base.g.pendingWrite (dstNames fUniP.dst (dstCount 0x15 fUniP)) = none :=
  ⟨⟨by decide +kernel, by decide +kernel, by decide +kernel, by decide +kernel, by decide +kernel, ⟨false, of_okIs (by decide +kernel)⟩⟩,
    by decide +kernel,
    ⟨by decide +kernel, by decide +kernel, by decide +kernel, by decide +kernel, by decide +kernel, ⟨false, of_okIs (by decide +kernel)⟩⟩,
    by decide +kernel⟩

-- 0x64 in s0 and 0x0A in s1 give 0x6E, once
theorem test_front_add : (after (exec (.add fUni) (tiny fun g => { g with s := [(0, 0x64), (1, 0x0A)] }))).g.s = [(0, 0x64), (1, 0x0A), (2, 0x6E)] := by
  decide +kernel

/-- p1 is false in every lane, and sp1 is false. -/
def off1 : Guard := ⟨false, false, 1⟩
def uoff : Guard := ⟨true, false, 1⟩

theorem witness_InstructionsMoveOnOrTrap : base.g.present = true ∧ base.execLanes off1 = 0 ∧ onFront 0x02 fA = false
    ∧ usesCarry { fA with guard := off1 } 0x02 = false ∧ base.g.dkill = 0 ∧ base.groupPasses uoff = false ∧ onFront 0x02 fUni = true := by
  decide +kernel
theorem witness_InstructionsMoveOnOrTrap_poisoned : let s := tiny fun g => { vals g with vpois := 1 }
    s.g.present = true ∧ s.execLive fA.guard ≠ 0 ∧ usesCarry fA 0x02 = false ∧ nameStop s.g (aluUses 0x02 fA) = some (29, 0) := by decide +kernel

theorem witness_InstructionsMoveOnOrTrap_budget : LanesRead (tiny fun g => { vals g with peak := 2 }) 0x02 fA [] laneAnd5 noVoid
    ∧ (let s := tiny fun g => { vals g with peak := 2 }
      s.g.pendingWrite (s.laneWrites 0x02 fA noVoid) = none ∧ s.g.peak < s.g.needs (killSet (aluUses 0x02 fA)) (dstV fA.dst (dstCount 0x02 fA))) :=
  ⟨of_lanesReadB (by decide +kernel), by decide +kernel⟩
-- 01 R20: a third mapping under a peak of 2
theorem test_budget_trap : ((after (exec (.add fA) (tiny fun g => { vals g with peak := 2 }))).g.recs.map fun r => (r.kind, r.detail)) = [(6, 3)] := by
  decide +kernel

/-! ### Values -/

/-- Any type of a kind, and elements within it. -/
theorem witness_value_types : (Ty.i32.isInt || Ty.i32.isPk) = true ∧ 3 < Ty.i8x4.elems ∧ Ty.i8x4.isPk = true ∧ Ty.i64.isInt = true ∧ Ty.u64.isBit = true
    ∧ 63 < tyBits .u64 ∧ Ty.f16x2.isFloat = true ∧ 1 < Ty.f16x2.elems ∧ Ty.bf16.isFS = true ∧ Ty.i64.isSigned = true := by decide

theorem witness_IntegerDivisionAndRemainder : let f : AluF := { fA with ty := .i64 }
    f.ty.isInt = true ∧ f.sat = false ∧ toInt f.ty (2 ^ 63) = -2 ^ 63 ∧ toInt f.ty (2 ^ 64 - 1) = -1 ∧ 2 ^ 63 < 2 ^ tyBits f.ty := by decide
-- 07 R115: -7 / 2 = -3 rest -1; the most negative number over -1; a divisor of 0
theorem test_division : intOp fA (fun a b _ => divInt a b) [2 ^ 32 - 7, 2] [] = 2 ^ 32 - 3
    ∧ intOp fA (fun a b _ => remInt a b) [2 ^ 32 - 7, 2] [] = 2 ^ 32 - 1 := by decide +kernel
theorem test_shift_counts : shlN 32 1 32 = 0 ∧ sraN 32 0x80000000 40 = 0xFFFFFFFF ∧ rotN 32 0x80000001 33 = 3 := by decide +kernel

theorem witness_ShiftsAndBitOperations : ((Ty.i32.isBit || Ty.i32 == .i32 || Ty.i32 == .i64) = true ∧ 32 < 2 ^ 32) ∧ Ty.b32.isBit = true ∧ 31 < tyBits .b32 := by
  decide
theorem witness_FieldsCountsAndComparisons : 0 < 2 ^ tyBits .u32 ∧ 0x4000 / 256 % 64 = 64 - 64 ∧ min (0x2000 / 256 % 64) 32 = 32 ∧ (5 : BitVec 4).toNat ≤ 5 := by
  decide
theorem test_bit_fields : bfxN true 0xABCD1234 (16 + 8 * 256) = 0xFFFFFFCD ∧ bfxN false 0xABCD1234 (28 + 32 * 256) = 0xA
    ∧ popN 32 0xF0F = 8 ∧ clzN 32 1 = 31 := by decide +kernel

theorem witness_RoundingKeepsExactValuesAndNans : 0x7F7FFFFF < 2 ^ fFP32.bits ∧ (decodeF fFP32 0x7F7FFFFF).isNaN = false
    ∧ (decodeF fFP32 0x7F7FFFFF).isInf = false ∧ (decodeF (tyFmt .f32) 0x7F800001).isNaN = true ∧ 0xFF % 256 = 255 ∧ 0x7F % 256 = 127
    ∧ (1 : BitVec 4).toNat < Ty.f16x2.elems := by decide +kernel
theorem witness_RoundingKeepsExactValuesAndNans_between : let g := magOf (2 ^ 24 + 1) (-24); let size (c : Nat) : Nat := match decodeF fFP32 c with | .fin _ m e => (magOf m e).n | _ => 0
    g.n + 0 ≤ size fFP32.maxCode ∧ g.sticky = false ∧ 2 * size fFP32.maxCode ≤ (magOf 1 129).n := by decide +kernel
theorem witness_RoundingKeepsExactValuesAndNans_forms : (cvtSrc { fA with b := .none, imm := some 5 }).elems = Ty.i32.elems ∧ Ty.f16x2.isFS = false
    ∧ (decodeF (tyFmt .f16x2) 0x3C00).isNaN = false ∧ (0x80 : Nat) % 256 ≠ 255 ∧ decodeF (tyFmt .f32) 0x3F800000 = .fin false (2 ^ 23) (-23)
    ∧ (decodeF fFP32 0x40000000).isInf = false := by decide +kernel
-- 07 R122: -1.5 to i32 to nearest even is -2, toward zero -1
theorem test_conversions : cvtFn { fA with a := src (.v 0), b := .none, imm := some (BitVec.ofNat 32 (Ty.f32.code)), ty := .i32 } [0xBFC00000] [] = 0xFFFFFFFE
    ∧ cvtFn { fA with a := src (.v 0), b := .none, imm := some (BitVec.ofNat 32 (Ty.f32.code)), ty := .i32, var := 1 } [0xBFC00000] [] = 0xFFFFFFFF := by decide +kernel
-- 07 R123: halves 300, -3 and -200, 7 clamp to signed bytes; R127: four products 1 * 2 of signed bytes, and two of FP16, added to c
theorem test_pack_dot : packFn { fA with ty := .i8x4 } [0xFFFD012C, 0x0007FF38] [] = 0x0780FD7F
    ∧ dotFn { fA with ty := .i32, var := 3 } [0x01010101, 0x02020202, 0xFFFFFFFF] [] = 7
    ∧ dotFn { fA with ty := .f32, var := 7 } [0x3C003C00, 0x40004000, 0x3F800000] [] = 0x40A00000 := by decide +kernel
-- 06 R98: 1 + 2^-24 is a tie and goes to the even neighbour, 1 + 2^-24 + 2^-30 goes up
theorem test_round_to_even : roundTo fFP32 0 false 0 (.mag false (magOf (2 ^ 24 + 1) (-24))) = 0x3F800000
    ∧ roundTo fFP32 0 false 0 (.mag false (magOf (2 ^ 30 + 2 ^ 6 + 1) (-30))) = 0x3F800001 := by decide +kernel

theorem witness_VotesReductionsAndScans : base.execLive gd ≠ 0 ∧ base.g.width = 8 ∧ ¬((0 : BitVec 4) = 0 ∧ base.g.width = 64 ∧ Opnd.odd (.v 4) = true)
    ∧ base.g.pendingWrite (dstNames (.v 4) 1) = none ∧ base.g.needs 0 (dstV (.v 4) 1) ≤ base.g.peak ∧ Ty.i64.isInt = true
    ∧ (∀ x ∈ [1, 2 ^ 64 - 1], x < 2 ^ tyBits .i64) := by decide +kernel

-- 07 R126: 1 + 2^24 rounds to even once; +0 and -0 give +0, -0 alone keeps its sign, and the two infinities the canonical NaN
theorem test_float_sum : redVal .f32 0 [0x3F800000, 0x4B800000] = 0x4B800000 ∧ redVal .f32 0 [0, 0x80000000] = 0 ∧ redVal .f32 0 [0x80000000] = 0x80000000
    ∧ redVal .f32 0 [0x7F800000, 0xFF800000] = 0x7FC00000 := by decide +kernel

/-- `shfl.up v2, v0, v1`, `gred.add.i32 v2, v0`, and the same to `s4`. -/
def fShfl : AluF := { fA with ty := .b32, var := 1 }
def fRed : AluF := { fA with b := .none }
def laneOnly (l : Nat) : List Nat := [l]

theorem witness_ShufflesReadTheNamedLane : LanesRead (tiny vals) 0x48 fShfl [] laneAnd5 noVoid
    ∧ DstTakes (tiny vals) 0x48 fShfl 1 noVoid (fun l => (tiny vals).crossSrc 0x48 fShfl laneAnd5 (if 5 ≤ l then l - 5 else l))
    ∧ fShfl.dst.isS = false ∧ fShfl.dst.isSp = false
    ∧ LanesRead (tiny vals) 0x4E { fShfl with dst := .s 4, b := src (.s 1) } [] (fun l => [l, 0]) noVoid :=
  ⟨of_lanesReadB (by decide +kernel), of_dstTakesB (by decide +kernel), rfl, rfl, of_lanesReadB (by decide +kernel)⟩
theorem witness_VotesReductionsAndScans_reads : LanesRead (tiny vals) 0x4B fRed [] laneOnly noVoid
    ∧ DstTakes (tiny vals) 0x4B fRed 1 noVoid (fun _ => 28) ∧ LanesRead (tiny vals) 0x4C fRed [] laneOnly noVoid :=
  ⟨of_lanesReadB (by decide +kernel), of_dstTakesB (by decide +kernel), of_lanesReadB (by decide +kernel)⟩
-- lanes 5 to 7 read lanes 0 to 2; the sum of the lane numbers is 28, and below lane 7 it is 21
theorem test_shuffle_up : (after (exec (.shfl fShfl) (tiny vals))).g.rdV 2 6 = 1 ∧ (after (exec (.shfl fShfl) (tiny vals))).g.rdV 2 4 = 4 := by decide +kernel
theorem test_reductions : (after (exec (.gred fRed) (tiny vals))).g.rdV 2 3 = 28
    ∧ (after (exec (.gscan { fRed with var := 8 }) (tiny vals))).g.rdV 2 7 = 21 := by decide +kernel

/-! ### Carries, random streams, settings -/

/-- `cset c1, v0`, and what it leaves. -/
def fCset : AluF := { fA with ty := .b32, dst := .c 1, b := .none }
def seeded : State := after (exec (.cset fCset) (tiny vals))
def fCfwd : AluF := { fCset with dst := .c 2, a := src (.c 1) }
def fCstat : AluF := { fCset with dst := .v 4, a := src (.c 1) }

theorem witness_CarryNamesRotate : ((tiny carries).window 0).isSome = true ∧ 63 < 64 := by decide +kernel
theorem witness_CarryInstructions_cset : let u := base.setG base.g.openWindow
    base.g.present = true ∧ base.g.it = none ∧ (∀ l ∈ lanesOf (base.execLanes gd), u.carryBad 0 1 l = none)
      ∧ u.g.pendingWrite (u.laneWrites 0x50 fCset noVoid) = none := by decide +kernel
theorem witness_CarryInstructions_reads : let u := (tiny vals).setG (tiny vals).g.openWindow; LanesRead u 0x50 fCset [] laneOnly noVoid :=
  of_lanesReadB (by decide +kernel)
theorem witness_CarryInstructions_cfwd : seeded.g.present = true ∧ (seeded.window seeded.ctx).isSome = true ∧ seeded.execLive gd ≠ 0
    ∧ seeded.mayYield seeded.ctx 2 = true
    ∧ ∀ l ∈ lanesOf (seeded.execLanes gd), seeded.carryRead seeded.ctx 1 l = .val (BitVec.ofNat 32 l) ∧ seeded.carryBad seeded.ctx 2 l = none := by
  decide +kernel
theorem witness_CarryInstructions_cstat : seeded.g.pendingWrite (dstNames fCstat.dst 1) = none
    ∧ seeded.g.needs 0 (dstV fCstat.dst 1) ≤ seeded.g.peak := by decide +kernel
theorem witness_CarryInstructions_iteration : (tiny fun g => { g with it := some ⟨1, 0, 0, false, false⟩ }).g.it ≠ none := by decide
-- 07 R134, R136: lane 3 of c1 is seeded with 3; `cstat` then reads FULL (1) with the expected tag
theorem test_cset_seeds : seeded.carryRead 0 1 3 = .val 3 := by decide +kernel
theorem test_cstat_full : (after (exec (.cstat fCstat) seeded)).g.rdV 4 3 % 65536 = 1 := by decide +kernel

def fRand : AluF := ⟨gd, .v 4, false, 0, .none, .none, .none, none, .b32, 0⟩
def fRkey : AluF := ⟨gd, .v 4, false, 0, src (.v 0), .none, .none, none, .b32, 0⟩

theorem witness_RandomStreamsAndTheirKeys : onFront 0x58 fRand = false ∧ base.execLive gd ≠ 0 ∧ usesCarry fRand 0x58 = false
    ∧ base.g.pendingWrite (dstNames fRand.dst 1) = none ∧ base.g.needs 0 (dstV fRand.dst 1) ≤ base.g.peak := by decide +kernel
theorem witness_RandomStreamsAndTheirKeys_key : LanesRead (tiny vals) 0x59 fRkey [] (fun l => [l + 5 * 2 ^ 32]) noVoid ∧ fRkey.dst.isV = true
    ∧ DstTakes (tiny vals) 0x59 fRkey 2 noVoid (fun l => (get 0 (tiny vals).g.key l).toNat) :=
  ⟨of_lanesReadB (by decide +kernel), rfl, of_dstTakesB (by decide +kernel)⟩
-- the counter of every executing lane steps; `rkey` sets the key and clears the counter
theorem test_rand_steps : get 0 (after (exec (.rand fRand) base)).g.ctr 7 = 1 := by decide +kernel
theorem test_rkey : get 0 (after (exec (.rkey fRkey) (tiny vals))).g.key 2 = 0x500000002 := by decide +kernel

/-- `sset s4, 7`, the same with 8, `cap s4, ...`, `clk s4`. -/
def fSset : AluF := ⟨gd, .s 4, false, 0, .none, .none, .none, some 7, .b32, 0⟩
def fClk : AluF := ⟨gd, .s 4, false, 0, .none, .none, .none, none, .u64, 0⟩

theorem witness_SettingsClockAndCapabilities : base.groupPasses gd = true ∧ base.g.pendingWrite (dstNames (.s 4) 2) = none
    ∧ nameStop base.g (aluUses 0x61 fSset) = none ∧ base.frontVal 0x61 fSset < 8 ∧ 8 ≤ base.frontVal 0x61 { fSset with imm := some 8 }
    ∧ base.frontVal 0x62 { fSset with imm := some 0x7FFFF } < 2 ^ 19 ∧ onFront 0x63 fClk = true ∧ usesCarry fClk 0x63 = false
    ∧ onFront 0x63 { fClk with dst := .v 4 } = false ∧ base.g.needs 0 (dstV (.v 4) 2) ≤ base.g.peak := by decide +kernel
theorem test_sset_traps : (after (exec (.sset { fSset with imm := some 8 }) base)).g.recs.length = 1
    ∧ (after (exec (.sset fSset) base)).g.setting = 7 ∧ (after (exec (.sset fSset) base)).g.rdS 4 = 4 := by decide +kernel

/-- `quant.f32 v2, v0, v1, s0` with the control word in s0. -/
def fQuant : AluF := ⟨gd, .v 2, false, 0, src (.v 0), src (.v 1), src (.s 0), none, .f32, 0⟩
def quantOf (c : Word) : State := tiny fun g => { vals g with s := [(0, c)] }

theorem witness_QuantRoundsToTheTargetCode : LanesRead (quantOf 0x7F01) 0x3B fQuant [] (fun l => [l, 5, 0x7F01]) noVoid ∧ onFront 0x3B fQuant = false
    ∧ 0x7F01 < 65536 ∧ 0x7F01 / 16 % 16 = 0 ∧ 0x7F01 % 16 ≤ 8 ∧ DstTakes (quantOf 0x7F01) 0x3B fQuant 1 noVoid (fun _ => 0)
    ∧ 0x7F81 / 16 % 16 = 8 ∧ 9 ≤ 0x7F09 % 16 :=
  ⟨of_lanesReadB (by decide +kernel), by decide +kernel, by decide, by decide, by decide, of_dstTakesB (by decide +kernel), by decide, by decide⟩
theorem witness_QuantRoundsToTheTargetCode_smooth : let s := (tiny fun g => { vals g with v := [] }).setSpace 0 { present := true, size := 4096 }
    ∀ l ∈ lanesOf (s.execLanes gd), (0 : Nat) % 4 = 0 ∧ s.scrAt s.g 0 4 = some (0, 0) ∧ s.inStash 0 0 4 = false
      ∧ s.poisScr.contains (scrKey (s.space 0) 0 / 4) = false ∧ s.ownedSpots s.g.part (fun _ _ => true) [(2 ^ 24, 0, 4)] = false
      ∧ s.g.heldBack = none := by decide +kernel

/-! ### Control flow -/

/-- Text of two lines whose lines are targets. -/
def twoLines (f : Group → Group) : State :=
  let s := tiny f
  s.setCode 0 { s.code 0 with text := wrN (wrN [] 0 64 (lineOf 0)) 64 64 (lineOf 0), size := 128, hot := 128, tables := [[64]] }
/-- p1 holds in lanes 0 to 3; `(p1) bra` to the next line, rejoining at the line after it. -/
def low4 (g : Group) : Group := { vals g with p := [(1, 0x0F)] }
def fBra : CtlF := { fB with guard := ⟨false, false, 1⟩, tgt := 8, rcv := 16 }

theorem witness_BranchesMoveTheirLanes_bra : let s := twoLines low4; let m := s.taking fBra.guard; let d := fieldPc s.pc fBra.tgt
    s.g.present = true ∧ m ≠ 0 ∧ s.marked d = true ∧ (twoLines low4).marked (fieldPc s.pc 24) = false
      ∧ spilled (divide s.g.stack s.slot (targetSets s.pathMask fun l => if bitOf m l then d else pcNext s.pc) (fieldPc s.pc fBra.rcv)) ≤ s.g.spillCap := by
  decide +kernel
/-- As many spilled entries as a handler may have. -/
def full (g : Group) : Group :=
  { low4 g with recs := [{ kind := 26 }], stack := ⟨0, 0xFF, 16, 0, 0, none, false, false⟩ :: (List.range 9).map fun i => ⟨BitVec.ofNat 32 (i + 100), 0xFF, BitVec.ofNat 32 (i + 200), 0, 0, none, false, false⟩ }
theorem witness_BranchesMoveTheirLanes_spill : let s := twoLines full; let d := fieldPc s.pc fBra.tgt
    s.marked d = true ∧ ¬ spilled (divide s.g.stack s.slot (targetSets s.pathMask fun l => if bitOf (s.taking fBra.guard) l then d else pcNext s.pc)
      (fieldPc s.pc fBra.rcv)) ≤ s.g.spillCap := by decide +kernel
theorem witness_BranchesMoveTheirLanes_traps : let s := twoLines fun g => { low4 g with s := [(4, 65)] }
    s.taking fBra.guard ≠ 0 ∧ (∃ l ∈ lanesOf (s.taking fBra.guard), (s.linkVal0 (.s 4) l).toNat % 64 ≠ 0)
      ∧ (s.code s.g.code).tables.length ≤ (16 : Nat) / 8 := by decide +kernel
def fBrx : CtlF := { fB with link := .s 4 }
theorem witness_BranchesMoveTheirLanes_brx : let s := twoLines fun g => { g with s := [(4, 64)] }
    s.taking gd ≠ 0 ∧ (∀ l ∈ lanesOf (s.taking gd), (s.linkVal0 fBrx.link l).toNat % 64 = 0) ∧ okIs (s.needOpnd fBrx.link (s.taking gd)) () = true
      ∧ (targetSets s.pathMask fun l => if bitOf (s.taking gd) l then pcOfAddr (s.linkVal0 fBrx.link l).toNat else pcNext s.pc).length ≤ 1 := by decide +kernel
theorem witness_BranchesMoveTheirLanes_brt : let s := twoLines id
    0 < (s.code s.g.code).tables.length ∧ (((s.code s.g.code).tables.getD 0 [])[(s.linkVal0 fBrx.link 0).toNat]?).getD 0 = 64 := by decide +kernel
theorem witness_BranchesMoveTheirLanes_none : (twoLines id).taking off1 = 0 := by decide +kernel
-- lanes 0 to 3 go to line 1, lanes 4 to 7 to slot 1 of line 0; the path of the lower PC is on top
theorem test_bra_divides : ((after (exec (.bra fBra) (twoLines low4))).g.stack.map fun p => (p.pc, p.mask)) = [(1, 0xF0), (8, 0x0F), (16, 0xFF)] := by
  decide +kernel

theorem witness_CallsLinkAndReturn : let s := twoLines fun g => { g with s := [(4, 64), (5, 65)] }
    s.g.present = true ∧ s.taking gd ≠ 0 ∧ s.marked (fieldPc s.pc 8) = true ∧ s.g.pendingWrite [.s 4] = none ∧ (s.g.rdS 4).toNat % 64 = 0
      ∧ okIs (s.needOpnd (.s 4) (s.taking gd)) () = true ∧ (s.g.rdS 5).toNat % 64 ≠ 0 ∧ s.taking uoff = 0 := by decide +kernel
-- 11 R274: a call from line 0 links byte 64, the line after its own
theorem test_call_links : (after (exec (.call { fB with link := .s 30, tgt := 8 }) (twoLines id))).g.rdS 30 = 64 := by decide +kernel
theorem test_ret_misaligned : ((after (exec (.ret { fB with link := .s 5 }) (twoLines fun g => { g with s := [(5, 65)] }))).g.recs.map (·.kind)) = [4] := by
  decide +kernel

theorem witness_ExitEndsItsLanes : let s := tiny low4; let m := s.execLive ⟨false, false, 1⟩
    s.g.present = true ∧ m ≠ 0 ∧ s.g.liveLanes &&& ~~~m ≠ 0 ∧ s.execLive off1 = m ∧ base.execLive off1 = 0
      ∧ base.g.liveLanes &&& ~~~(base.execLive gd) = 0 ∧ base.g.it = none ∧ base.g.fork = none ∧ base.g.width ≤ 64 := by decide +kernel
-- lanes 0 to 3 are a whole quad and exit; ending lanes 0 and 1 alone leaves them as helpers
theorem test_exit_quad : (after (exec (.exit { fB with guard := off1 }) (tiny low4))).g.exited = 0x0F := by decide +kernel
theorem test_exit_helpers : (base.g.endLanes 3).helper = 3 ∧ (base.g.endLanes 3).exited = 0 := by decide +kernel

/-! ### Traps -/

theorem witness_BreakpointsAndUserTraps : base.g.present = true ∧ base.execLive gd ≠ 0 ∧ base.execLive off1 = 0 := by decide +kernel
theorem witness_TakingATrap : base.g.recs.length < 2 ∧ base.g.handler ≠ 0 ∧ base.slot < base.g.stack.length ∧ base.g.present = true
    ∧ base.g.atBsync = false ∧ base.g.atReorder = none
    ∧ (tiny fun g => { g with handler := 0 }).g.handler = 0 ∧ 2 ≤ (tiny fun g => { g with recs := [{ kind := 1 }, { kind := 2 }] }).g.recs.length := by
  decide +kernel
/-- Below a trap's handler. -/
def handling : State := takeTrap base 26 0 0 0xFF
theorem witness_EretResumesThePath : base.g.stack = [⟨0, 0xFF, noRcv, 0, 0, none, false, false⟩] ∧ base.slot = 0 ∧ base.g.dkill = 0 ∧ (0xFF : Mask) &&& 0xFF ≠ 0 ∧ 26 ≠ 19
    ∧ base.g.atBsync = false ∧ base.g.atReorder = none ∧ handling.g.recs ≠ [] ∧ handling.g.stack.length = 1 ∧ base.groupPasses gd = true ∧ base.g.recs = [] ∧ (tiny split).g.stack.length ≠ 1 := by
  decide +kernel
-- 20 R387, R396: after a breakpoint the path goes on at the next slot, after an unmarked branch target at the same one
theorem test_eret_after_breakpoint : (after (exec (.eret fS) handling)).pc = 1 ∧ (after (exec (.eret fS) (takeTrap base 3 0 0 0xFF))).pc = 0 := by
  decide +kernel
theorem test_third_level_kills : ((takeTrap (takeTrap handling 27 0 0 0xFF) 27 0 7 0xFF).block 0).status = .retiring := by decide +kernel
-- word 0 of the record of `trap` at level 0: KIND 27, no flags, COUNT 1
theorem test_perf_record : (after (exec (.perf { fS with dst := .s 20 }) (takeTrap base 27 0 0x42 0xFF))).g.rdS 20 = 0x0001001B := by decide +kernel

theorem witness_ObservationInstructions : let s := tiny fun g => { g with regions := [7] }
    s.groupPasses gd = true ∧ s.g.pendingWrite [.s 20] = none ∧ handling.g.recs.head?.isSome = true ∧ handling.g.saves.head? = some [⟨0, 0xFF, noRcv, 0, 0, none, true, false⟩]
      ∧ (∀ i < 16, WatchUnit.edge (get {} (s.part s.g.part).watches i) 5 1 = false) ∧ s.g.regions.length < 8
      ∧ 8 ≤ (tiny fun g => { g with regions := List.replicate 8 7 }).g.regions.length ∧ s.g.regions = 7 :: [] ∧ base.g.regions = []
      ∧ base.groupPasses uoff = false := by decide +kernel
theorem test_region_stack : (after (exec (.renter { fS with imm := 9 }) (tiny fun g => { g with regions := [7] }))).g.regions = [9, 7]
    ∧ (after (exec (.rleave fS) (tiny fun g => { g with regions := [7] }))).g.regions = [] := by decide +kernel
theorem test_sleep : ((after (exec (.sleep { fS with imm := 3 }) base)).g.path 0).sleep = 5 := by decide +kernel

/-! ### Memory -/

/-- A space of 4 KB and two tiles; object 1 of one RESIDENT page at device memory 65536, which every access may reach, through record 0. -/
def dev (f : Group → Group) : State :=
  let s := tiny fun g => f { vals g with s := [(0, 0x05000001), (4, 4096), (16, 64), (17, 256), (18, 64)] }
  let s := s.setSpace 0 { present := true, size := 4096, acc := 2, total := 8192 }
  s.setPart 0 { otlog := 4, ctxbase := 0x400000, ctxcount := 64, objs := [(1, { live := true, perm := 31, size := 65536, exts := [⟨.resident, 0, 0, 1, false⟩] })] }
/-- `ld.b32 v2, [scratch + v0]` with a step of 4 bytes a lane, and the same through record 0. -/
def fScr : MemF := { fM with buf := 12, off := src (.v 1), imm := 3 }
def fDev : MemF := { fM with off := src (.s 16) }
/-- A store of v0 by lane 0 alone. -/
def one0 (g : Group) : Group := { g with p := [(1, 1)] }
def fSt : MemF := { fScr with data := .v 0, guard := off1 }

theorem memClear {s : State} {opc : Nat} {f : MemF} {accs : List Acc} (h1 : (s.part s.g.part).watches = [])
    (h2 : (s.launch (s.block s.g.blk).launch).race = 0) (h3 : okIs (s.escapes opc f accs) () = true) (h4 : s.defers opc f accs = false)
    (h5 : s.g.world = 0) (h6 : s.missingExts opc f accs = []) : MemClear s opc f accs := ⟨h1, h2, of_okIs h3, h4, .inl h5, h6⟩

theorem witness_MemoryInstructionsIssue : let s := dev id; let accs := (lanesOf 0xFF).map (s.memAcc fScr)
    s.g.present = true ∧ s.memFirst 0x00 fScr = .ok accs ∧ accs ≠ [] ∧ MemClear s 0x00 fScr accs ∧ (s.memOp 0x00 fScr accs).parked = false :=
  ⟨by decide +kernel, of_okIs (by decide +kernel), by decide +kernel,
    memClear (by decide +kernel) (by decide +kernel) (by decide +kernel) (by decide +kernel) (by decide +kernel) (by decide +kernel), by decide +kernel⟩
theorem witness_MemoryInstructionsIssue_store : let s := dev one0; let accs := [s.memAcc fSt 0]
    s.memFirst 0x01 fSt = .ok accs ∧ MemClear s 0x01 fSt accs :=
  ⟨of_okIs (by decide +kernel),
    memClear (by decide +kernel) (by decide +kernel) (by decide +kernel) (by decide +kernel) (by decide +kernel) (by decide +kernel)⟩
theorem witness_MemoryInstructionsIssue_atomic : let s := dev one0; let f := { fSt with buf := 0, off := src (.s 16), imm := 0 }; let accs := [s.memAcc f 0]
    s.memFirst 0x02 f = .ok accs ∧ MemClear s 0x02 f accs :=
  ⟨of_okIs (by decide +kernel),
    memClear (by decide +kernel) (by decide +kernel) (by decide +kernel) (by decide +kernel) (by decide +kernel) (by decide +kernel)⟩

theorem witness_AddressChecksTrapInOrder : let s := dev id
    memUniform 0x00 fDev = false ∧ s.memLanes 0x00 fDev = 0 :: (lanesOf 0xFE) ∧ okIs (s.memNames 0x00 fDev (lanesOf 0xFF)) () = true
      ∧ MemF.place fDev = Where.dev ∧ (s.memRec fDev).obj ≠ 0 ∧ (s.memRec fDev).bad = false ∧ (s.memRec fDev).clip = false
      ∧ (s.memRec { fDev with buf := 1 }).obj = 0 ∧ ((dev fun g => { g with s := [(0, 1), (7, 1)] }).memRec fDev).bad = true
      ∧ (lanesOf 0xFF).filter (s.misaligned { fDev with imm := 2 }) = 0 :: lanesOf 0xFE ∧ (lanesOf 0xFF).filter (s.misaligned { fDev with imm := 4096 }) = []
      ∧ ((lanesOf 0xFF).filter fun j => (s.memAcc { fDev with imm := 4096 } j).clipped) = 0 :: lanesOf 0xFE := by decide +kernel
-- 09 R208: the lanes of an access past the extent are the mask, and the page's handle is the detail
theorem test_bounds_trap : ((after (exec (.ld { fDev with imm := 4096 }) (dev id))).g.recs.map fun r => (r.kind, r.mask)) = [(17, 0xFF)] := by decide +kernel
theorem test_null_object : ((after (exec (.ld { fDev with buf := 1 }) (dev id))).g.recs.map (·.kind)) = [14] := by decide +kernel

/-- A store of 0x11223344 to scratchpad byte 8 in flight, and a load and an atomic there. -/
def stOp : Op := { id := 1, cls := .sp, kind := .store, place := .scr, accs := [{ lane := 0, off := 8, addr := 8, val := 0x11223344 }], bytes := 4 }
def ldOp : Op := { stOp with id := 2, kind := .load, dst := .v 5 }
def amoOp : Op := { stOp with id := 3, kind := .amo, amo := 2, ret := true, dst := .v 5 }
def flying (o : Op) (g : Group) : Group := { g with ops := [o], cSP := 1 }

theorem witness_OperationsPerform : let s := dev (flying stOp)
    (s.group 0).ops.find? (·.id == 1) = some stOp ∧ s.opReady 0 stOp = true ∧ s.clocked (s.group 0).core = true ∧ Op.returns stOp = false ∧ Op.returns ldOp = true
      ∧ (s.group 0).ops.find? (·.id == 2) = none ∧ (dev (flying ldOp)).opReady 0 ldOp = true ∧ (s.group 0).dkill = 0
      ∧ stOp.accs = [{ lane := 0, off := 8, addr := 8, val := 0x11223344 }] ∧ stOp.ord = 0 ∧ stOp.bytes ∈ [1, 2, 4, 8, 16] ∧ 0x11223344 < 2 ^ 32 := by
  decide +kernel
-- 09 R194: low byte first; an atomic add returns the old value
theorem test_store_bytes : ((dev (flying stOp)).performOp 0 stOp).scr = [(8, 0x44), (9, 0x33), (10, 0x22), (11, 0x11)] := by decide +kernel
theorem test_atomic_add : let s := { dev (flying amoOp) with scr := [(8, 0xFF)] }
    (s.performOp 0 amoOp).scr = [(8, 0x43), (9, 0x34), (10, 0x22), (11, 0x11)] ∧ ((s.performOp 0 amoOp).group 0).rdV 5 0 = 0xFF := by decide +kernel

theorem home (o : Nat) (f : Group → Group) (hf : ∀ e ∈ (dev f).groups, e.2.stash = none) (hn : ∀ e ∈ (dev f).parts, e.2.parked = [])
    (hp : ∀ i < 64, placeOf ((dev f).part 0) 1 (o + i) = some ⟨false, 65536 + o + i⟩) (hr : (o + 63) / 65536 = 0) :
    AtHome (dev f) 0 1 o 64 (65536 + o) := ⟨hp, fun i hi => ⟨⟨.resident, 0, 0, 1, false⟩, by
      have h : (o + i) / 65536 = 0 := by omega
      rw [h]; exact ⟨by rfl, by rfl⟩⟩, rfl, hn, rfl, hf⟩
theorem witness_DeviceAccessesPerform : AtHome (dev id) 0 1 128 64 (65536 + 128) ∧ ((dev id).group 0).part = 0 ∧ (dev id).l1 = [] ∧ ((dev id).group 0).dkill = 0
    ∧ (2 : Nat) + 0 < 256 := ⟨home 128 id (by decide +kernel) (by decide +kernel) (by decide +kernel) (by decide), by decide +kernel, by decide +kernel, by decide +kernel, by decide⟩
/-- The store and the load of a byte of the object in world 1. -/
def worldOp (k : OpKind) : Op := { stOp with cls := .st, kind := k, place := .dev, world := 1, bytes := 1, accs := [{ lane := 0, obj := 1, off := 128, val := 0x55 }], dst := .v 5 }
theorem witness_DeviceAccessesPerform_world : let s := dev (flying (worldOp .store)); let o := worldOp .store
    o.ord = 0 ∧ o.got = [] ∧ (∀ i < o.bytes, placeOf (s.part (s.group 0).part) 1 (128 + i) = some ⟨false, 65664 + i⟩) ∧ 65664 % 64 + o.bytes ≤ 64
      ∧ (∀ e ∈ s.groups, e.2.stash = none) ∧ (∀ e ∈ s.parts, e.2.parked = []) ∧ s.views = [] ∧ 1 ∉ s.dropped ∧ s.links = []
      ∧ s.viewAt 1 false (65664 / 64) = none ∧ 1 ∉ s.chain 4 0 ∧ (s.group 0).dkill = 0 ∧ (worldOp .load).signed = false := by decide +kernel
-- 18 R365, R366: the store makes a view line and leaves memory; the load reads that line
theorem test_world_access : let t := (dev (flying (worldOp .store))).performOp 0 (worldOp .store)
    t.hbm = [] ∧ (t.views.map fun v => (v.line, v.world, v.bytes.headD 0)) = [(1026, 1, 0x55)]
      ∧ ((t.performOp 0 (worldOp .load)).group 0).rdV 5 0 = 0x55 := by decide +kernel
-- the store goes to device memory at the object's page
theorem test_device_store : let o : Op := { stOp with cls := .st, place := .dev, accs := [{ lane := 0, obj := 1, off := 128, val := 0x55 }] }
    ((dev (flying o)).performOp 0 o).hbm = [(65664, 0x55)] := by decide +kernel

def fPref : MemF := { fDev with data := .v 0, size := 0 }
def fSmap : MemF := { fPref with data := .s 20, off := src (.s 18) }
/-- One line at scratchpad line 2, mapped to the object's line 1. -/
def window (g : Group) : Group := { g with s := g.s ++ [(20, 0x100080)] }
def mapped (g : Group) : Group := { g with stash := some ⟨0x100080, 0, [0x05000001, 0, 0, 0, 4096, 0, 0, 0], 64, []⟩ }
def fSwb : MemF := { fPref with buf := 14, off := src (.s 21) }

theorem witness_PrefetchAndStash : let s := dev id; let ls := lanesOf 0xFF
    lanesOf (s.execLive gd) = ls ∧ ls ≠ [] ∧ okIs (s.memNames 0x11 fPref ls) () = true ∧ okIs (s.checkRec fPref none ls) () = true
      ∧ okIs (s.memNames 0x10 fPref ls) () = true ∧ s.g.heldBack = none ∧ 15 ≤ fPref.flagp.toNat ∧ lanesOf (s.execLive off1) = []
      ∧ (∀ e ∈ s.groups, e.2.stash = none) := by decide +kernel
theorem witness_PrefetchAndStash_unmap : let s := dev id
    s.groupPasses gd = true ∧ nameStop s.g (memUses 0x12 { fSmap with data := .s 24 }) = none ∧ s.dataVal { fSmap with data := .s 24 } 0 4 0 = 0
      ∧ s.g.ops = [] ∧ s.g.cSP.toNat < 62 := by decide +kernel
theorem witness_PrefetchAndStash_map : let s := dev window
    s.dataVal fSmap 0 4 0 = 1 * 2 ^ 20 + 2 * 64 ∧ 2 < 2 ^ 14 ∧ s.memOff fSmap 0 = (64 * 1 : Nat) ∧ (s.memRec fSmap).obj ≠ 0
      ∧ (s.memRec fSmap).bad = false ∧ (s.memRec fSmap).zord = false ∧ (s.memRec fSmap).xpose = false ∧ (s.memRec fSmap).swz = 0 ∧ 64 * 1 + 64 * 1 ≤ (s.memRec fSmap).extent
      ∧ (2 + 1) * 64 ≤ (s.space s.g.space).size ∧ s.windowClash s.g.space 2 1 = false ∧ s.g.stash = none := by decide +kernel
theorem witness_PrefetchAndStash_writeback : let s := dev mapped
    okIs (s.memNames 0x13 fSwb (lanesOf 0xFF)) () = true ∧ (∀ l ∈ lanesOf 0xFF, (s.memAcc fSwb l).clipped = false) ∧ okIs (s.g.memStalls .sp 0 []) () = true
      ∧ ((lanesOf 0xFF).map (s.memAcc fSwb)).filter s.willDirty = [] := by decide +kernel
theorem witness_PrefetchAndStash_refused : let s := dev mapped
    let t := (s.setG { s.g with stash := s.g.stash.map fun x => ({ x with lines := [(0, .dirty)] } : Stash) }).setPart 0
      ((s.part 0).setObj 1 { (s.part 0).obj 1 with perm := 1 })
    okIs (t.memNames 0x13 fSwb (lanesOf 0xFF)) () = true ∧ (∀ l ∈ lanesOf 0xFF, (t.memAcc fSwb l).clipped = false)
      ∧ groupPages ((((lanesOf 0xFF).map (t.memAcc fSwb)).filter t.willDirty).map fun a => xlatHits (t.part t.g.part) 1 64 (t.lineAcc a)).flatten ≠ [] := by
  decide +kernel
theorem test_smap_maps : (after (exec (.smap fSmap) (dev window))).g.stash.map (·.m) = some 64 := by decide +kernel

/-! ### Waits, guards, barriers -/

theorem witness_WaitsAndFencesReturn : let s := dev fun g => { g with s := [(16, 1), (17, 63)], cLD := 2 }
    s.groupPasses gd = true ∧ s.g.held = [] ∧ nameStop s.g [⟨src (.s 16), 1, .b32⟩] = none ∧ s.skVal (.s 16) % 64 = 1 ∧ s.skVal (.s 17) % 64 = 63
      ∧ 1 < (s.g.cnt .ld).toNat ∧ (base.g.cnt .ld).toNat ≤ 0 ∧ s.liveSiblings s.g = false ∧ base.g.cLD = 0 ∧ base.g.cST = 0 ∧ base.g.cSP = 0
      ∧ (2 ^ 30 - 1 : Nat) % 64 = 63 := by decide +kernel
theorem test_wait_stalls : ((after (exec (.wait { fS with imm := 1 }) (dev fun g => { g with cLD := 2 }))).g.path 0).stall = 1 := by decide +kernel
theorem test_fence_returns : (after (exec (.fence { fS with var := 3 }) base)).pc = 1 := by decide +kernel

/-- Handles of the object: a guard at byte 0 in s16, a region in s18. -/
def handles (g : Group) : Group := { g with s := [(17, 0x100), (19, 0x100)] }
def fAcq : SysF := { fS with a := src (.s 16) }
def fBind : SysF := { fS with a := src (.s 18), b := src (.s 16), imm := 1 }

theorem witness_GuardsAndBindings : let s := dev handles; let h := s.pairVal (.s 16)
    okIs (s.needPair fAcq.a) () = true ∧ okIs (s.needPair fBind.b) () = true ∧ h = 0x10000000000 ∧ okIs (s.checkGuard h) () = true ∧ s.liveSiblings s.g = false
      ∧ s.g.heldBack = none ∧ s.guardBusy h = none ∧ s.guardExt h = .resident ∧ s.guardFine h = true ∧ ({ s with hbm := [(65540, 1)] } : State).guardFine h = false
      ∧ s.g.relWait = none ∧ s.g.cST.toNat < 62 ∧ okIs (s.checkHandle h 65536 65536) () = true ∧ okIs (s.checkHandle h 65536 1) () = true
      ∧ (s.part 0).binds = [] ∧ (s.part 0).binds.length < 4096 := by decide +kernel
theorem witness_GuardsAndBindings_unbind : let s := dev handles; let e : Binding := ⟨1, 0, 1, 0x10000000000⟩
    let t := s.setPart 0 { s.part 0 with binds := [e] }
    (t.part 0).binds.find? (fun b => b.obj == 1 && b.base == 0) = some e ∧ t.g.relWait = none ∧ t.g.heldBack = none
      ∧ t.guardBusy e.guard = none ∧ okIs (t.checkHandle (t.pairVal (.s 18)) 65536 1) () = true ∧ t.guardExt e.guard = .resident ∧ t.guardFine e.guard = true
      ∧ ({ t with hbm := [(65540, 1)] } : State).guardFine e.guard = false := by decide +kernel
theorem witness_GuardsAndBindings_perform : AtHome (dev id) 0 1 0 64 (65536 + 0) ∧ rdN (dev id).hbm 65536 16 < 2 ^ 32 :=
  ⟨home 0 id (by decide +kernel) (by decide +kernel) (by decide +kernel) (by decide), by decide +kernel⟩
-- 10 R242: a performed `rel` raises GEN by one
theorem test_rel_raises : let o : Op := { stOp with cls := .st, kind := .rel, place := .dev, bytes := 16, accs := [{ lane := 0, obj := 1, off := 0 }] }
    ({ dev (flying o) with hbm := [(65536, 0xFF)] }.performOp 0 o).hbm = [(65537, 1)] := by decide +kernel
-- 10 R236, 22 R426: an `acq` waits, under the reason of ST, for the group's own store to its guard
theorem test_acq_waits : let o : Op := { stOp with cls := .st, place := .dev, accs := [{ lane := 0, obj := 1, off := 8 }] }
    ((after (exec (.acq fAcq) (dev fun g => handles (flying o g)))).g.path 0).stall = 2 := by decide +kernel
theorem test_bind_adds : (((after (exec (.bind fBind) (dev handles))).part 0).binds.map fun b => (b.obj, b.base, b.len)) = [(1, 0, 1)] := by decide +kernel

theorem witness_BlockBarrierMeets : let s := dev fun g => { g with atBsync := true }
    base.g.diverged = false ∧ base.g.it = none ∧ base.g.heldBack = none ∧ base.g.relWait = none ∧ (tiny split).g.diverged = true
      ∧ (s.groups.map (·.1)).Nodup ∧ (s.block 0).status = .running ∧ s.barrierGroups 0 0 = [0] ∧ (s.group 0).atBsync = true
      ∧ (base.barrierGroups 0 0 = [0] ∧ (base.group 0).atBsync = false) ∧ s.exitedBusy 0 0 = false ∧ s.clocked (s.group 0).core = true := by decide +kernel
theorem witness_BlockBarrierMeets_exited : let s := dev fun g => { g with status := .retired, ops := [stOp] }
    (s.groups.map (·.1)).Nodup ∧ (s.block 0).status = .running ∧ (∀ e ∈ s.groups, e.2.atBsync = false) ∧ s.exitedBusy 0 0 = true := by decide +kernel
theorem witness_BlockBarrierMeets_alone : let s := dev id
    s.slot = 0 ∧ s.g.status ≠ .retired ∧ (s.groups.map (·.1)).Nodup ∧ (s.block s.g.blk).status = .running ∧ (∀ e ∈ s.groups, e.2.atBsync = false)
      ∧ s.barrierGroups 0 0 = [s.ctx] ∧ s.exitedBusy 0 0 = false ∧ s.clocked s.g.core = true := by decide +kernel
theorem test_bsync_complete : (after (exec (.bsyncComplete 0) (dev fun g => { g with atBsync := true }))).pc = 1 := by decide +kernel

/-- A phase barrier of two arrivals at byte 64, named by s16, with the count in s18. -/
def fPb : SysF := { fS with a := src (.s 16), b := src (.s 18), dst := .sp 2 }
def barrier (f : Group → Group) : State := { dev f with scr := [(64, 2), (66, 2)] }
theorem witness_PhaseBarriers : let s := barrier fun g => { g with s := [(16, 64), (18, 2)] }
    s.groupPasses gd = true ∧ okIs (s.needSrc fPb.a) () = true ∧ okIs (s.needSrc fPb.b) () = true ∧ s.skVal fPb.a.opnd = 64
      ∧ okIs (s.barrierAt 64) (0, 64) = true ∧ okIs (s.g.memStalls .sp 0 []) () = true ∧ okIs (s.g.memStalls .sp 2 []) () = true
      ∧ s.skVal fPb.b.opnd = 2 ∧ s.g.heldBack = none ∧ s.barrierBusy 0 64 = false ∧ s.poisScrAt (scrKey (s.space 0) 64) 8 = false
      ∧ s.pbPhase 0 64 = 2 % 2 ∧ s.pbExp 0 64 ≠ 0 ∧ s.pbPhase 0 64 ≠ 1 % 2 ∧ (dev id).pbExp 0 64 = 0 ∧ s.pbPend 0 64 = 2 := by decide +kernel
def arriveOp : Op := { stOp with kind := .pbarr, bytes := 8, accs := [{ lane := 0, off := 64, addr := 64 }] }
theorem witness_PhaseBarriers_perform : arriveOp.accs = [{ lane := 0, off := 64, addr := 64 }] ∧ arriveOp.ord = 0 ∧ (65535 : Nat) < 65536 := by decide
-- 10 R248: the second arrival flips the phase and starts the next
theorem test_arrivals : let s := barrier id; let t := s.performOp 0 arriveOp
    t.scr = [(64, 2), (66, 1)] ∧ (t.performOp 0 arriveOp).scr = [(64, 2), (66, 2), (68, 1)] := by decide +kernel

/-- An iteration group. -/
def inIter (g : Group) : Group := { g with it := some ⟨1, 2, 0, false, false⟩ }
def fReo : AluF := ⟨gd, .v 0, false, 0, src (.v 0), .none, .none, some 1, .b32, 0⟩
theorem witness_Reorder : let s := dev id
    s.g.vpois.getLsbD 0 = false ∧ s.g.it = none ∧ (∀ o ∈ s.g.ops, Op.writes o = []) ∧ okIs (s.keyStop (.v 0)) () = true ∧ fReo.a.opnd = .v 0
      ∧ s.slot = 0 ∧ (s.groups.map (·.1)).Nodup ∧ (s.block s.g.blk).status = .running ∧ s.clocked s.g.core = true ∧ (∀ e ∈ s.groups, e.2.atReorder.isSome = false)
      ∧ s.partOfGroup s.g = 0 ∧ s.meeting 0 0 0 = [0] ∧ s.groupPasses gd = true ∧ (dev inIter).g.it ≠ none ∧ base.groupPasses uoff = false := by decide +kernel
theorem witness_Reorder_meet : let s := dev fun g => { g with atReorder := some ⟨0, .v 0, false, 1⟩ }; let order := s.sortThreads [0] 8
    (s.groups.map (·.1)).Nodup ∧ (s.block 0).status = .running ∧ s.meeting 0 0 0 = [0] ∧ s.clocked (s.group 0).core = true ∧ (s.group 0).width = 8 ∧ (s.group 0).diverged = false
      ∧ (s.group 0).win = none ∧ s.liveSiblings (s.group 0) = false ∧ (s.group 0).meetNeeds (maskNames 1) ≤ (s.group 0).peak
      ∧ (s.resorted 0 0 8 order (maskNames 1) false).liveLanes ≠ 0 ∧ order[7]?.isSome = true ∧ (dev id).meeting 0 0 0 = [0]
      ∧ ((dev id).group 0).atReorder = none := by decide +kernel
-- 11 R278: the one group of its part goes on behind its `reorder`
theorem test_reorder_alone : let t := after (exec (.reorderMeet 0 0) (after (exec (.reorder fReo) (dev id))))
    t.g.atReorder = none ∧ t.g.reorders = 1 ∧ t.pc = 1 := by decide +kernel
-- 11 R279: keys 3 2 1 0 of four lanes: the threads come in reverse order, and equal keys keep theirs
theorem test_reorder_sorts : let s := dev fun g => { g with v := [(0, 3), (1, 2), (2, 1)] ++ (List.range 4).map fun i => (4 + i, 9) }
    ((s.sortThreads [0] 8).map (·.lane)) = [3, 2, 1, 0, 4, 5, 6, 7] := by decide +kernel

/-! ### Loops -/

/-- The base state with a yield table at offset 0 of a constant segment (RESUME at byte 0), a trip count in s16, and 64 registers a group. -/
def looped (n : Nat) (f : Group → Group) : State :=
  let s := dev fun g => f { g with s := [(16, BitVec.ofNat 32 n)], peak := 64 }
  s.setCode 0 { s.code 0 with segSize := 72 }
def fTwill : TwF := { fT with a := src (.s 16), sm1 := 1 }
def whole : Path := ⟨0, 0xFF, noRcv, 0, 0, none, false, false⟩
/-- The launcher at context 1 runs iterations 2 and 3 of a loop of 2 stages. -/
def looping (b : Option Nat) (ordered : Bool) (f : Group → Group) : State :=
  let s := looped 4 fun g => f (inIter g)
  s.setGroup 1 { s.g with it := none, status := .suspended, win := some { loop := some ⟨4, 2, ordered, 4, b, 0, 1, [0], [0, 1], []⟩ } }

theorem witness_Loops_twill : let s := looped 3 id
    s.groupPasses gd = true ∧ okIs (s.needSrc fTwill.a) () = true ∧ s.g.it = none ∧ s.g.stack = [whole] ∧ s.slot = 0 ∧ s.g.diverged = false
      ∧ s.skVal fTwill.a.opnd = 3 ∧ s.tableOk s.g.code 0 = true ∧ (2 + 1) * s.g.peak * s.g.width * 4 ≤ 262144 ∧ s.g.relWait = none
      ∧ s.fits s.g.core s.g.cpart 2 s.g.width s.g.peak = true ∧ s.fits s.g.core s.g.cpart 24 s.g.width s.g.peak = false
      ∧ (looped 0 id).skVal fTwill.a.opnd = 0 ∧ (looped 3 split).g.diverged = true ∧ (looped 3 inIter).g.it ≠ none := by decide +kernel
theorem witness_Loops_turn : let s := looping none false id; let t := looping none false fun g => { g with it := some ⟨1, 2, 1, false, false⟩ }
    s.g.it = some ⟨1, 2, 0, false, false⟩ ∧ (s.loopOf 1).map (·.s) = some 2 ∧ s.g.diverged = false ∧ 0 + 1 < 2 ∧ t.g.it = some ⟨1, 2, 1, false, false⟩ ∧ 1 + 1 = 2
      ∧ t.g.relWait = none ∧ ((looping (some 1) false id).loopOf 1).map (·.brk) = some (some 1) ∧ base.g.it = none := by decide +kernel
theorem witness_Loops_break : let s := looping (some 1) false id
    (s.loopOf 1).map (·.live) = some [0] ∧ (∀ c ∈ [0], c ≠ 1) ∧ ((s.group 0).it.map (·.i)) = some 2 := by decide +kernel
theorem witness_Loops_stage : let s := looping none true fun g => { g with it := some ⟨1, 2, 0, false, true⟩ }
    (s.group 0).it = some ⟨1, 2, 0, false, true⟩ ∧ s.stageOpen ⟨1, 2, 0, false, true⟩ = true ∧ s.clocked (s.group 0).core = true := by decide +kernel
theorem witness_Loops_void : (8 ≤ 64 ∧ 63 < 64) ∧ (1 : DWord).getLsbD 0 = true := by decide
-- 13 R303: min(N, S) iterations launch, and the launcher is suspended
theorem test_twill_launches : let t := after (exec (.twill fTwill) (looped 3 id))
    t.g.status = .suspended ∧ (t.loopOf 0).map (fun l => (l.next, l.live.length)) = some (2, 2) := by decide +kernel
theorem test_twill_none : let t := after (exec (.twill fTwill) (looped 0 id)); t.g.status = .run ∧ t.g.win.bind (·.turn) = some 1 := by decide +kernel
theorem test_turn_steps : ((after (exec (.turn fT) (looping none false id))).g.it.map (·.k)) = some 1 := by decide +kernel
theorem test_tbrk_breaks : ((after (exec (.tbrk fT) (looping none false id))).loopOf 1).map (·.brk) = some (some 2) := by decide +kernel

/-! ### Wakes and queues -/

/-- A path stalled on the instruction whose word is `w`. -/
def stalled (w reason : Nat) : State :=
  let s := { placeOne State.reset w with agenda := [] }
  s.setG { s.g with stack := [{ whole with stall := reason }] }
theorem witness_Wakes_system : stalledAt (stalled 0x7D00 1) 0 0 = some (.wait fS)
    ∧ stalledAt (stalled 0x8A00007D01 1) 0 0 = some (.waitr { fS with a := src (.s 20) })
    ∧ stalledAt (stalled 0x0011308806247D0A 7) 0 0 = some (.pbwait { fS with dst := .sp 2, a := src (.s 16), b := src (.s 19) })
    ∧ stalledAt (stalled 0x7D00 0) 0 0 = none := by decide +kernel
theorem witness_Wakes_engines : stalledAt (stalled 0x8A00007C0A 5) 0 0 = some (.accwait { fE with a := src (.s 20) })
    ∧ stalledAt (stalled 0x8A00007C21 14) 0 0 = some (.choose { fE with a := src (.s 20) })
    ∧ stalledAt (stalled 0x02287C23 14) 0 0 = some (.wjoin { fE with dst := .s 20 })
    ∧ stalledAt (stalled 0x022800100000007C0B 5) 0 0 = some (.accpatch { fE with a := src (.v 0), b := src (.v 1), c := src (.s 20) }) := by decide +kernel
theorem witness_Wakes_twill : stalledAt (stalled 0x108800007E00 8) 0 0 = some (.twill { fT with a := src (.s 16), sm1 := 1 }) := by decide +kernel
theorem witness_Wakes_issue : stalledAt (stalled 0x400000100000047802 9) 0 0 = some (.add fA) ∧ (((stalled 0x400000100000047802 9).group 0).path 0).stall = 9
    ∧ stalledAt (stalled 0x400000100000047802 10) 0 0 = some (.add fA)
    ∧ pathIn ((tiny fun g => { g with stack := [{ whole with sleep := 1 }] }).group 0).stack 0 = some { whole with sleep := 1 } ∧ base.clocked (base.group 0).core = true := by decide +kernel
theorem test_wait_return : (after (exec (.waitReturn 0 0) (stalled 0x7D00 1))).pc = 1 := by decide +kernel

def fPush : EngF := { fE with a := src (.s 5) }
def queued (g : Group) : Group := { g with s := [(5, 7), (6, 65536)], qm := [0x70004000] }
theorem witness_Queues : let s := dev queued
    s.groupPasses gd = true ∧ s.pathMask ≠ 0 ∧ nameStop s.g [⟨src (.s 5), 1, .b32⟩] = none ∧ (s.linkVal0 (.s 5) 0).toNat < 65536
      ∧ 65536 ≤ (s.linkVal0 (.s 6) 0).toNat ∧ s.g.mkM.length < 64 ∧ s.g.mkX.length < 64 ∧ s.g.staged.length < 15 ∧ s.g.queue .qm = 0x70004000 :: []
      ∧ s.execLive gd ≠ 0 ∧ s.g.pendingWrite [.v 4] = none ∧ s.g.needs 0 (dstV (.v 4) 1) ≤ s.g.peak ∧ s.g.queue .qx = [] ∧ s.mIds s.ctx = [] ∧ s.g.mkM = []
      ∧ s.groupPasses uoff = false := by decide +kernel
-- 08 R168: a marker that waits for nothing is a token at once: its word and bit 14
theorem test_qpush_marker : (after (exec (.qpush fPush) (dev queued))).g.qm = [0x70004000, 0x00074000] := by decide +kernel
theorem test_qpush_wide : ((after (exec (.qpush { fPush with a := src (.s 6) }) (dev queued))).g.recs.map (·.kind)) = [8] := by decide +kernel
theorem test_qpop_takes : (after (exec (.qpop { fE with dst := .s 8 }) (dev queued))).g.rdS 8 = 0x70004000 := by decide +kernel
theorem test_queue_lost : (pushTok (List.replicate 64 1) 2).getLast? = some 0x8002 := by decide +kernel

/-! ### Tasks -/

/-- A pool of one width-8 worker whose ring stands in object 1, with sub-rings of one record. -/
def poolOf (tail outst : Nat) : Pool :=
  { ring := 0x10000000000, faults := 0x10000002000, wcount := [1, 0, 0, 0], res := [(0, 64, 0), (0, 0, 0), (0, 0, 0), (0, 0, 0)], head := [0, 0, 0, 0],
    tail := [tail, 0, 0, 0], logc := 0, logf := 2, outst := outst, fcount := 0, workers := [(0, 0)] }
/-- A worker with a task; `k` gives the text a kernel of `n` registers. -/
def pooled (tail outst n : Nat) (f : Group → Group) : State :=
  let s := dev f
  let s := s.setLaunch 0 { s.launch 0 with pool := some (poolOf tail outst) }
  let s := s.setCode 0 { s.code 0 with kernels := [⟨0, 8, n, 0, 0, []⟩] }
  s.setBlock 0 { s.block 0 with worker := some 0, task := some { words := List.replicate 16 0 } }
def atRec (g : Group) : Group := { g with s := [] }
def fSpawn : EngF := { fE with a := src (.s 32) }
def idle (g : Group) : Group := { idleGroup g 64 0 with code := 0 }

theorem witness_TaskInstructions : let s := pooled 0 2 4 atRec
    s.groupPasses gd = true ∧ okIs (s.needRecord fSpawn.a) () = true ∧ s.taskLaunch s.g = some 0 ∧ base.taskLaunch base.g = none
      ∧ recOk (recWords s.g (.s 32)) = true ∧ recOk (recWords (pooled 0 2 4 fun g => { g with s := [(33, 1)] }).g (.s 32)) = false
      ∧ s.liveSiblings s.g = false ∧ s.g.relWait = none ∧ (s.launch 0).pool = some (poolOf 0 2) ∧ (poolOf 0 2).full 0 = false ∧ (poolOf 1 2).full 0 = true
      ∧ (poolOf 0 2).tail.length = 4 := by decide +kernel
theorem witness_TaskInstructions_ring : AtHome (dev id) 0 1 0x40 64 (65536 + 0x40) ∧ (poolOf 0 2).ringAt 0 0 = 0x10000000040 ∧ (List.replicate 16 (0 : Word)).length = 16 :=
  ⟨home 0x40 id (by decide +kernel) (by decide +kernel) (by decide +kernel) (by decide), by decide +kernel, by decide⟩
theorem test_tspawn : ((after (exec (.tspawn fSpawn) (pooled 0 2 4 atRec))).launch 0).pool.map (fun p => (p.tail, p.outst)) = some ([1, 0, 0, 0], 3) := by decide +kernel
theorem test_tspawn_full : ((after (exec (.tspawn fSpawn) (pooled 1 2 4 atRec))).g.path 0).stall = 10 := by decide +kernel

theorem witness_Workers : let s := pooled 1 2 4 idle
    s.g.status = .idle ∧ s.g.saved = false ∧ s.clocked s.g.core = true ∧ (s.block s.g.blk).status = .running ∧ s.suspendedLaunch s.g.launch = false
      ∧ s.nextTask 0 (poolOf 1 2) (wcode s.g.width) = some (0, 0, List.replicate 16 0) ∧ recordFault (s.code 0) (poolOf 1 2) (List.replicate 16 0) = none
      ∧ (s.code 0).kernelAt 0 = some ⟨0, 8, 4, 0, 0, []⟩ ∧ recordFault ((pooled 1 2 65 idle).code 0) (poolOf 1 2) (List.replicate 16 0) = some 4
      ∧ recSucc (List.replicate 16 0) = 0 ∧ 1 < (poolOf 1 2).outst ∧ 0 < (poolOf 1 2).count 0
      ∧ (∀ j < 4, (poolOf 1 2).aged.getD j false = false) := by decide +kernel
theorem witness_Workers_none : let p := { poolOf 1 2 with wcount := [0, 0, 0, 0] }; let s := (pooled 1 2 4 idle)
    (s.launch 0).st = .placed ∧ s.suspendedLaunch 0 = false ∧ ((List.range 4).filter fun w => p.wcount.getD w 0 == 0).findSome? (fun w => s.oldest 0 p 0 w) = some (0, List.replicate 16 0)
      ∧ p.since.getD 0 0 + 262144 ≤ 262144 ∧ p.retiring = [] := by decide +kernel
theorem test_dequeue_starts : let t := after (exec (.taskDequeue 0) (pooled 1 2 4 idle)); t.g.status = .run ∧ t.g.peak = 4 ∧ t.pc = 0 := by decide +kernel

def gone (g : Group) : Group := { g with status := .retired, stack := [] }
theorem witness_TasksRetire : let s := pooled 0 2 4 gone
    s.clocked (s.group 0).core = true ∧ (s.block 0).worker.isSome = true ∧ 0 ∈ (s.block 0).groups ∧ (s.block 0).status ≠ .retiring ∧ s.blockDone 0 = true
      ∧ (s.block 0).task = some { words := List.replicate 16 0 } ∧ (s.flushBlock 0).2 = true ∧ (s.block 0).launch = s.g.launch ∧ (poolOf 0 2).retireOf (0 % 65536) = none ∧ recSucc (List.replicate 16 0) = 0 ∧ 1 < (poolOf 0 2).outst
      ∧ (poolOf 0 2).full (recPri (List.replicate 16 0)) = false := by decide +kernel
/-- A join cell at byte 0x100 of the object, with its count and CONT. -/
def cell (n cont : Nat) : State := { pooled 0 2 4 id with hbm := wrN (wrN [] 65792 4 n) 65800 8 cont }
theorem witness_TasksJoin : let h : DWord := 0x10000000100
    h ≠ 0 ∧ okIs ((cell 0 0).joinCount 0 h) 0 = true ∧ (h + 8).toNat % 16 ≠ 0 ∧ okIs ((cell 2 0).joinCount 0 h) (1 + 1) = true
      ∧ okIs ((cell 1 0).joinCount 0 h) (0 + 1) = true ∧ (cell 1 0).contOf 0 h = none ∧ (cell 1 0x10000000001).contOf 0 h = some none
      ∧ (cell 1 0x10000000200).contOf 0 h = some (some (List.replicate 16 0)) := by decide +kernel
theorem witness_RingFull : let s := pooled 1 2 4 fun g => { atRec g with stack := [{ whole with stall := 10 }] }; let w := 0x9000007C18; let p := poolOf 1 2; let bs := p.workers.map (·.2)
    let t := s.setCode 0 { s.code 0 with text := wrN [] 0 64 (lineOf w) }
    bs.find? (t.workerStuck 0 p) = some 0 ∧ (∀ c ∈ bs, t.workerStuck 0 p c = true)
      ∧ p.wants = [] ∧ p.retiring = [] ∧ (∀ pri < 4, t.noWorkerRec (t.launch 0).part p pri = none)
      ∧ (t.flushBlocks bs).2 = true ∧ (∀ c ∈ bs, (t.flushBlocks bs).1.midStep c = false) := by decide +kernel
/-- What is left of a retirement: a continuation `k`, a join cell, the record of its CONT. -/
def left (k : Option (List Word)) (succ : DWord) (cont : Option (List Word)) : Retire := ⟨0, 0, 0, 0, k, succ, cont⟩
def rec0 : List Word := List.replicate 16 0
theorem witness_TasksRetire_rest : let s := pooled 0 2 4 gone; let t := pooled 1 2 4 gone
    (left (some rec0) 0 none).k = some rec0 ∧ (poolOf 1 2).full (recPri rec0) = true ∧ (poolOf 0 2).full (recPri rec0) = false ∧ recSucc rec0 = 0
      ∧ (left none 0x10000000100 none).succ ≠ 0 ∧ (s.joinStep 0 (left none 0 (some rec0))).2.cont = some rec0
      ∧ s.hasRoom 0 rec0 = true ∧ t.hasRoom 0 rec0 = false ∧ ((s.enqueue 0 rec0).launch 0).pool.isSome = true := by decide +kernel
theorem test_task_retires : let t := after (exec (.taskRetirement 0) (pooled 0 2 4 gone)); t.g.status = .idle ∧ (t.launch 0).pool.map (·.outst) = some 1 := by
  decide +kernel

/-! ### The matrix engine -/

/-- A space of 16 KB with two tiles; `v1` gives the format word 5 (INT8 by FP4), the command block in s8 is zeros: tile 0, version 0, one step. -/
def tiled (f : Group → Group) : State :=
  let s := dev fun g => f { g with s := [(16, 1), (17, 5000)] }
  s.setSpace 0 { present := true, size := 16384, acc := 2 }
def fMma : EngF := { fE with a := src (.v 1), b := src (.s 8) }
def cmdOf (running : Bool) (step e : Nat) : MCmd :=
  { id := 1, dual := false, fw := 5, words := [0, 0, BitVec.ofNat 32 (e * 256), 0, 0, 0, 0, 0], ctx := 0, running := running, step := step }
def ringed (c : MCmd) (f : Group → Group) : State := let s := tiled fun g => f { g with cMX := 1 }; s.setSpace 0 { s.space 0 with ring := [c] }

theorem witness_MatrixCommandsRun : let s := tiled id; let m := s.execLive gd
    m ≠ 0 ∧ nameStop s.g [⟨src (.v 1), 1, .b32⟩, ⟨src (.s 8), 8, .b32⟩] = none ∧ (∀ l ∈ lanesOf m, s.linkVal0 (.v 1) l = 5)
      ∧ fwLegal false 5 = true ∧ blockOk (s.space 0) false 5 (cmdWords s.g (.s 8)) = true ∧ s.g.heldBack = none ∧ (s.space 0).ring.length < 64
      ∧ s.g.cMX.toNat < 62 ∧ fwLegal false 0x97 = false ∧ blockOk (s.space 0) false 5 [64, 8192, 2, 0, 0, 0, 0, 0] = false
      ∧ s.linkVal0 (.v 0) ((lanesOf m).headD 0) = 0 ∧ (∃ l ∈ lanesOf m, s.linkVal0 (.v 0) l ≠ 0) := by decide +kernel
theorem witness_MatrixCommandsRun_start : let c := cmdOf false 0 0; let s := ringed c id; let t := s.setTile 0 { ver := 1 }
    s.enginesRun (s.space 0).blk (s.space 0).core = true ∧ (s.space 0).ring[0]? = some c ∧ frontOf (s.space 0).ring 0 c = true
      ∧ (∀ e ∈ MCmd.expects c, s.ver 0 e.1 = e.2) ∧ s.engineBusy (s.space 0).core = false
      ∧ (MCmd.expects c).find? (fun e => tagLater (t.ver 0 e.1) e.2) = some (0, 0) ∧ (t.group 0).present = true ∧ (t.group 0).status ≠ .retired := by
  decide +kernel
theorem witness_MatrixCommandsRun_finish : let c := cmdOf true 1 0; let s := ringed c id
    s.enginesRun (s.space 0).blk (s.space 0).core = true ∧ (s.space 0).ring.find? (fun c => c.running && mcSteps c.words ≤ c.step) = some c ∧ c.pois = false
      ∧ (s.group 0).mkM = [] := by decide +kernel
theorem witness_MatrixCommandsRun_poison : let c := { cmdOf true 1 0 with pois := true }; let s := ringed c id
    s.matrixRuns (s.space 0) = true ∧ (s.space 0).ring.find? (fun c => c.running && mcSteps c.words ≤ c.step) = some c ∧ c.dual = false := by decide +kernel
-- 08 R155: the version becomes 1, MX falls to 0 and a token for tile 0 arrives
theorem test_matrix_completes : let t := after (exec (.matrixCommandCompletion 0) (ringed (cmdOf true 1 0) id))
    (t.tile 0).ver = 1 ∧ t.g.cMX = 0 ∧ t.g.qm = [0x00010000] := by decide +kernel
theorem test_matrix_stale : let t := after (exec (.matrixCommandStart 0 0) ((ringed (cmdOf false 0 0) id).setTile 0 { ver := 1 }))
    (t.g.held.map fun h => (h.trec.kind, h.trec.detail)) = [(10, 0x10000)] := by decide +kernel

def fAcc : EngF := { fE with a := src (.s 16), q := 1 }
def fAccld : EngF := { fE with a := src (.v 0), dst := .v 4 }
def fPatch : EngF := { fE with a := src (.v 0), b := src (.v 1), c := src (.s 20) }
theorem witness_Accumulators : let s := tiled id; let m := s.execLive gd
    s.groupPasses gd = true ∧ okIs (s.needSrc fAcc.a) () = true ∧ 1 < (s.space 0).acc ∧ ¬(2 < (s.space 0).acc) ∧ s.g.held = []
      ∧ s.tileRuns 0 1 = false ∧ s.g.readsAcc = false ∧ m ≠ 0 ∧ nameStop s.g [⟨src (.v 0), 1, .b32⟩] = none
      ∧ s.g.needs (killSet [⟨src (.v 0), 1, .b32⟩]) (dstV (.v 4) 1) ≤ s.g.peak ∧ (∀ l ∈ lanesOf m, (s.linkVal0 (.v 0) l).toNat < 4096)
      ∧ okIs (s.g.memStalls .sp 0 [.v 4]) () = true ∧ nameStop s.g [⟨src (.v 0), 1, .b32⟩, ⟨src (.v 1), 1, .b32⟩, ⟨src (.s 20), 1, .b32⟩] = none
      ∧ s.skVal (.s 20) = 0 ∧ s.ver 0 0 = 0 ∧ s.poisAcc = [] ∧ tagLater ((s.setTile 0 { ver := 1 }).ver 0 0) 0 = true := by decide +kernel
theorem witness_Accumulators_values : (63 - 32 < 32 ∧ 0xFFFFFFFF < 2 ^ 32) ∧ (decodeF fFP32 0x7FC00000).isNaN = true ∧ 15 < 16 ∧ 0x3FFF < 2 ^ 14 := by decide +kernel
theorem test_accld_flies : ((after (exec (.accld fAccld) (tiled id))).g.ops.map fun o => o.accs.length) = [8] := by decide +kernel
-- 08 R165: eight lanes write 5 to elements 0 to 7 and the version rises to 1
theorem test_accpatch : let t := after (exec (.accpatch fPatch) (tiled id)); t.tileWord 0 0 7 = 5 ∧ t.ver 0 0 = 1 := by decide +kernel
theorem test_accwait_stalls : ((after (exec (.accwait fAcc) (tiled id))).g.path 0).stall = 5 := by decide +kernel
-- 08 R157: (2^31 - 1) + 32 products of 1 by 1 clamps
theorem test_accumulate_clamps : accumulate true false 0x7FFFFFFF (chunkSum (fun _ => FVal.ofInt 1) (fun _ => FVal.ofInt 1) 0 127 127) = (0x7FFFFFFF, true) := by
  decide +kernel

/-! ### Copies -/

/-- `cpld` of one row of 64 bytes: record 0, MOFF 0, scratchpad 0, INT8. -/
def copying (g : Group) : Group := { g with s := g.s ++ [(27, 1 + 64 * 65536), (28, 64)] }
def fCp : EngF := { fE with a := src (.s 24), imm := 5 }
def cpOf (opc moff : Nat) : CopyCmd :=
  { id := 1, op := opc, words := [BitVec.ofNat 32 moff, 0, 0, 1 + 64 * 65536, 64, 0, 0, 0], opt := 5,
    recM := [0x05000001, 0, 0, 0, 4096, 0, 0, 0], recX := [] }
def engaged (c : CopyCmd) : State := dev fun g => { g with copies := [c], cCP := 1 }
def stopIs (o : Option EngStop) (k : Nat) : Bool := match o with | some (.fault n _ _) => n == k | _ => false

theorem witness_CopyCommands : let s := dev copying; let c := s.copyCmd 0x11 fCp
    s.groupPasses gd = true ∧ nameStop s.g (⟨fCp.a, 8, .b32⟩ :: recUse c.mbuf) = none ∧ c.mbuf = 0 ∧ c.recX = [] ∧ (c.mrec).obj = 1 ∧ (c.mrec).bad = false
      ∧ c.bad (s.space 0) = false ∧ c.boundsStop = none ∧ s.g.heldBack = none ∧ s.g.cCP = 0 ∧ s.g.world = 0
      ∧ (s.part 0).watches = [] ∧ ((dev id).copyCmd 0x11 fCp).bad (s.space 0) = true := by decide +kernel
/-- The same with 80 rows, at its 64th. -/
def cpLong : CopyCmd := { cpOf 0x10 0 with words := [0, 0, 0, 80 + 64 * 65536, 64, 0, 0, 0], row := 63 }
theorem witness_CopyCommands_run : let x := cpOf 0x10 0; let s := engaged x; let p := s.runUnit (s.group 0) x
    s.enginesRun 0 0 = true ∧ (s.group 0).nextCopy = some x ∧ (s.group 0).ops = [] ∧ (s.group 0).status ≠ .retired ∧ s.copyWaits 0 x = false
      ∧ p.stop.isNone = true ∧ x.dRows ≤ p.cmd.row ∧ p.cmd.pois = none ∧ x.arriving = false ∧ p.st.group 0 = s.group 0 := by decide +kernel
theorem witness_CopyCommands_unit : let x := cpLong; let s := engaged x; let p := s.runUnit (s.group 0) x
    (s.group 0).nextCopy = some x ∧ s.copyWaits 0 x = false ∧ p.stop.isNone = true ∧ p.cmd.row < x.dRows ∧ p.st.group 0 = s.group 0 := by decide +kernel
theorem witness_CopyCommands_fault : let x := cpOf 0x13 4096; let s := engaged x
    let y := s.readIdx 0 x (x.rowsTo x.unit)
    s.copyWaits 0 x = false ∧ stopIs (s.unitFault (s.group 0) y y.todo) 17 = true ∧ (s.part 0).watches = [] := by decide +kernel
theorem witness_CopyCommands_row : let x := cpOf 0x11 0; let r := x.mrec
    x.xfmt = r.fmt ∧ r.fmt = 5 ∧ x.cols = 64 ∧ x.smooth = false ∧ x.plane = false ∧ x.xpose = false ∧ x.fromAcc = false ∧ x.mxs = false ∧ r.zord = false
      ∧ r.swz = 0 ∧ 0 + x.cols ≤ r.extent ∧ (dev id).anyPois = false ∧ (dev id).poisScr = [] ∧ AtHome (dev id) 0 r.obj (r.base + 0) x.cols (65536 + 0) := by
  refine ⟨by decide, by decide, by decide, by decide, by decide, by decide, by decide, by decide, by decide, by decide, by decide,
    by decide +kernel, by decide +kernel, ?_⟩
  exact home 0 id (by decide +kernel) (by decide +kernel) (by decide +kernel) (by decide)
-- 08 R182: a copy that has completed leaves CP at 0
theorem test_copy_completes : let t := after (exec (.copyCompletion 0) { engaged (cpOf 0x11 0) with scr := [(3, 7)] })
    t.hbm = [(65539, 7)] ∧ t.g.cCP = 0 := by decide +kernel
theorem test_copy_null : ((after (exec (.cpst { fCp with a := src (.s 32) }) (dev fun g => { g with s := [] }))).g.recs.map (·.kind)) = [14] := by
  decide +kernel

/-! ### Worlds -/

def fFork : EngF := { fE with dst := .sp 2, imm := 2 }
theorem witness_Forks : let s := dev id; let t := s.writeBackAll s.ctx true
    s.groupPasses gd = true ∧ s.crowded = false ∧ partsOf (s.launch 0).groups ≤ 1 ∧ s.g.it = none ∧ s.g.recs = [] ∧ s.g.held = [] ∧ s.g.cLD = 0
      ∧ s.g.cST = 0 ∧ s.g.cSP = 0 ∧ s.g.cCP = 0 ∧ s.g.cMX = 0 ∧ t.forkLacks 2 = none ∧ t.g.present = true ∧ t.g.status = .run
      ∧ (t.space t.g.space).present = true ∧ (t.space t.g.space).base = t.g.space * 2 ^ 20 ∧ Memory.wf t.scr = true
      ∧ (dev fun g => { g with depth := 3 }).forkLacks 2 = some 1 ∧ (dev fun g => { g with cLD := 1 }).g.cLD ≠ 0
      ∧ (s.setGroup 1 s.g).crowded = true ∧ (dev inIter).g.it ≠ none := by decide +kernel
-- 18 R362: two copies, of which copy 1 has number 1 in s95
theorem test_fork : let t := after (exec (.fork fFork) (dev id)); ((t.fork 0).copies.map (·.world)) = [1, 2] ∧ t.g.copy = 0 ∧ (t.group 1).copy = 1
    ∧ (t.group 1).rdS 95 = 1 ∧ (t.group 1).space = 1 := by decide +kernel

/-- A fork of two copies, of which the issuing group is copy `me`; `c` gives the other copy. -/
def forked (me : Nat) (c : Copy → Copy) : State :=
  let s := dev fun g => { g with s := g.s ++ [(20, 1), (21, 0xFFFFFFFE), (22, 9)], fork := some 0, copy := me, world := me + 1, depth := 1 }
  let s := s.setGroup 1 { s.g with copy := 1 - me, world := 2 - me, gslot := 1 }
  let mine : Copy := ⟨0, me + 1, none, none, []⟩
  let other : Copy := c ⟨1, 2 - me, none, none, []⟩
  s.setFork 0 { present := true, copies := if me = 0 then [mine, other] else [other, mine] }
def posted (c : Copy) : Copy := { c with verdict := some 7 }
def gone1 (c : Copy) : Copy := { c with imposed := some 0xFFFFFFFF }
def fDone : EngF := { fE with a := src (.s 20) }
def fJoin : EngF := { fE with dst := .s 40 }

theorem nested_forked (me : Nat) (c : Copy → Copy) (j : Nat) : (forked me c).nested 0 j = [] := rfl
theorem witness_Verdicts : let s := forked 0 posted; let t := forked 1 id
    s.g.present = true ∧ s.groupPasses gd = true ∧ (dev id).g.fork = none ∧ s.g.fork = some 0 ∧ s.g.copy = 0 ∧ t.g.copy ≠ 0
      ∧ okIs (s.needSrc fDone.a) () = true ∧ okIs (s.needSrc (src (.s 21))) () = true ∧ s.skVal (.s 20) = 1 ∧ s.skVal (.s 21) = 0xFFFFFFFE
      ∧ s.g.copy < (s.fork 0).copies.length ∧ t.g.copy < (t.fork 0).copies.length ∧ s.g.held = [] ∧ s.g.cLD = 0 ∧ s.g.cST = 0 ∧ s.g.cSP = 0
      ∧ s.g.cCP = 0 ∧ s.g.cMX = 0 ∧ (40#7).toNat + (s.fork 0).copies.length ≤ 96 ∧ (forked 0 id).allPosted 0 = false ∧ s.allPosted 0 = true
      ∧ s.g.pendingWrite (opndSpan (.s 40) 2) = none := by decide +kernel
theorem witness_Verdicts_abort : (∀ j, (forked 0 posted).nested 0 j = []) ∧ ((forked 0 posted).copyOf 0 0).ctx = (forked 0 posted).ctx
    ∧ (∀ j, (forked 1 posted).nested 0 j = []) ∧ ((forked 1 posted).copyOf 0 1).ctx = (forked 1 posted).ctx ∧ (forked 0 posted).g.ops = []
    ∧ (forked 0 posted).g.copies = [] ∧ (((forked 0 posted).fork 0).copies.map (·.ctx)).Nodup :=
  ⟨nested_forked 0 posted, by decide +kernel, nested_forked 1 posted, by decide +kernel, by decide +kernel, by decide +kernel, by decide +kernel⟩
theorem test_wjoin : (after (exec (.wjoin fJoin) (forked 0 posted))).g.rdS 41 = 7 ∧ (after (exec (.wjoin fJoin) (forked 0 gone1))).g.rdS 41 = 0xFFFFFFFF := by
  decide +kernel
theorem test_wdone_parks : (after (exec (.wdone fDone) (forked 1 id))).g.status = .copyPark ∧ ((after (exec (.wdone fDone) (forked 1 id))).copyOf 0 1).verdict = some 1 := by
  decide +kernel
theorem test_wabort : (after (exec (.wabort fE) (forked 0 posted))).g.world = 0 ∧ ((after (exec (.wabort fE) (forked 0 posted))).group 1).status = .retired
    ∧ ((after (exec (.wabort fE) (forked 1 id))).copyOf 0 1).imposed = some 0xFFFFFFFE := by decide +kernel

/-- One view line of world 2 over device line 1024. -/
def seen (s : State) : State := { s with views := [⟨1024, 2, false, List.replicate 64 9, false⟩] }
theorem witness_Choosing : let s := seen (forked 0 posted)
    okIs (s.needSrc fDone.a) () = true ∧ s.skVal (.s 22) = 9 ∧ (s.fork 0).copies.length ≤ 9 ∧ s.skVal (.s 20) < (s.fork 0).copies.length
      ∧ (forked 0 id).allPosted 0 = false ∧ s.allPosted 0 = true ∧ ((forked 0 gone1).copyOf 0 1).imposed ≠ none ∧ (s.copyOf 0 1).imposed = none
      ∧ (s.copyOf 0 1).log = [] ∧ (s.fork 0).pFork = none ∧ s.g.held = [] ∧ s.g.cLD = 0 ∧ s.g.cST = 0 ∧ s.g.cSP = 0 ∧ s.g.cCP = 0 ∧ s.g.cMX = 0 ∧ (∀ e ∈ s.groups, e.2.stash = none) ∧ ((s.fork 0).copies.map (·.ctx)).Nodup
      ∧ (∃ v ∈ s.views, v.world = (s.copyOf 0 1).world) := by decide +kernel
theorem witness_Choosing_log : let s := (seen (forked 0 posted)).setFork 7 { copies := [⟨0, 9, none, none, List.replicate 64 (.cont [])⟩] }
    let t := s.setFork 0 { s.fork 0 with pFork := some 7 }; let u := t.setFork 0 { t.fork 0 with copies := (t.fork 0).copies.map fun c => { c with log := [.cont []] } }
    (t.copyOf 7 0).log.length + (t.copyOf 0 1).log.length ≤ 64 ∧ (t.fork 0).pCopy < (t.fork 7).copies.length ∧ (7 : Nat) ≠ 0
      ∧ ¬(u.copyOf 7 0).log.length + (u.copyOf 0 1).log.length ≤ 64 := by decide +kernel
theorem witness_Choosing_nested (j : Nat) : (seen (forked 0 posted)).nested 0 j = [] := rfl
theorem witness_Choosing_retag : let s := seen (forked 0 posted); let v : View := ⟨1024, 2, false, List.replicate 64 9, false⟩
    s.views.find? (fun v => v.line == 1024 && v.world == 2) = some v ∧ 2 ∉ s.dropped
      ∧ (let t := { s with links := [(2, 0)] }; t.links.find? (·.1 == 2) = some (2, 0) ∧ t.viewAt (t.effTag 2) v.remote 1024 = some v)
      ∧ (let t := { s with links := [(2, 5)] }; t.links.find? (·.1 == 2) = some (2, 5) ∧ t.viewAt (t.effTag 2) v.remote 1024 = some v)
      ∧ 1024 * 64 < 2 ^ 100 ∧ s.lineLeaving false 1024 = false
      ∧ (let p := s.part 0; let t := s.setPart 0 { p with objs := mapVals (fun (o : Obj) => { o with exts := o.exts.map fun e => { e with st := .leaving } }) p.objs }
        t.lineLeaving false 1024 = true)
      ∧ 2 ∈ ({ s with dropped := [2] } : State).dropped := by decide +kernel
theorem test_choose : let t := after (exec (.choose fDone) (forked 0 posted)); (t.group 1).world = 0 ∧ (t.group 1).status = .run ∧ (t.group 0).status = .retired := by
  decide +kernel
theorem test_retag_writes_home : let t := after (exec (.viewLineRetag 1024 2) { seen (forked 0 posted) with links := [(2, 0)] })
    t.views = [] ∧ rdByte t.hbm 65599 = 9 ∧ rdByte t.hbm 65600 = 0 := by decide +kernel

/-! ### Commands -/

/-- An entry of operation `op`: its operands as offset, length and value. -/
def entry (op : Nat) (fs : List (Nat × Nat × Nat)) : List Byte := rdBytes (fs.foldl (fun m f => wrN m f.1 f.2.1 f.2.2) (wrN [] 0 1 op)) 0 64
/-- Queue 0 of partition 0 holds the entry `b` in its ring at 0x100000. -/
def cmd (b : List Byte) (s : State) : State :=
  let s := s.setQueue 0 0 { base := 0x100000, log := 4 }
  { s with hbm := wrBytes (wrN s.hbm 0x100004 4 1) 0x100040 b }
def headB (s : State) (op act : Nat) (b : List Byte) : Bool :=
  let x := s.queue 0 0
  x.log != 0 && x.waiting s.hbm != 0 && x.entry s.hbm == b && !s.cmdWaits x (fld b 0 1) && (x.refusal s.hbm).isNone && fld b 0 1 == op && actionOf b == act
theorem of_headB {s : State} {op act : Nat} {b : List Byte} (h : headB s op act b = true) : CmdAtHead s 0 0 op act b := by
  simp only [headB, Bool.and_eq_true, bne_iff_ne, ne_eq, beq_iff_eq, Bool.not_eq_true', Option.isNone_iff_eq_none] at h
  obtain ⟨⟨⟨⟨⟨⟨h1, h2⟩, h3⟩, h4⟩, h5⟩, h6⟩, h7⟩ := h
  exact ⟨h1, h2, h3, h4, h5, h6, h7⟩
/-- A value is there. -/
def isOk {ε α : Type} (r : Except ε α) : Bool := match r with | .ok _ => true | .error _ => false
theorem of_isOk {ε α : Type} {r : Except ε α} (h : isOk r = true) : ∃ a, r = .ok a := by
  cases r with
  | ok a => exact ⟨a, rfl⟩
  | error e => simp [isOk] at h

def seqEntry : List Byte := entry 8 [(0x10, 4, 1)]
theorem witness_CommandsEnd : let s := cmd seqEntry (dev id); let x := s.queue 0 0
    (dev id).queue 0 0 = {} ∧ x.log ≠ 0 ∧ x.waiting s.hbm ≠ 0 ∧ s.cmdWaits x 8 = false ∧ x.refusal s.hbm = none
      ∧ (cmd (entry 13 []) (dev id)).queue 0 0 = x ∧ x.refusal (cmd (entry 13 []) (dev id)).hbm = some 12
      ∧ x.refusal (wrN s.hbm 0x100004 4 17) = some 1 ∧ { x with overTail := some 1 }.refusal s.hbm = some 1 ∧ { x with overTail := some 2 }.refusal s.hbm = none ∧ cmdFormat 0 (entry 8 [(0x20, 1, 1)]) = false := by decide +kernel
theorem homeN (s : State) (p o off n base : Nat) (hv : s.views = []) (hf : ∀ e ∈ s.groups, e.2.stash = none)
    (hp : ∀ i < n, placeOf (s.part p) o (off + i) = some ⟨false, base + i⟩) (hr : off / 65536 = (off + n) / 65536)
    (he : (((s.part p).obj o).ext (off / 65536)).any (·.st == .resident) = true) (hh : (s.part p).heldWrites = []) (hn : ∀ e ∈ s.parts, e.2.parked = []) : AtHome s p o off n base := by
  refine ⟨hp, fun i hi => ?_, hh, hn, hv, hf⟩
  have h : (off + i) / 65536 = off / 65536 := by omega
  rw [h]
  cases hx : ((s.part p).obj o).ext (off / 65536) with
  | none => simp [hx] at he
  | some x => exact ⟨x, rfl, by simpa [hx] using he⟩
theorem witness_CommandsEnd_status : let h : DWord := 0x10000000100
    h ≠ 0 ∧ h.toNat % 8 = 0 ∧ objOf h = 1 ∧ offOf h = 0x100 ∧ AtHome (dev id) 0 1 0x100 8 (65536 + 0x100) ∧ 65536 + 0x100 + 8 ≤ 0x100000 :=
  ⟨by decide, by decide, by decide, by decide, homeN (dev id) 0 1 0x100 8 (65536 + 0x100) rfl (by decide +kernel) (by decide +kernel) (by decide) (by decide +kernel) rfl (by decide +kernel), by decide⟩
-- 23 R438, R440: an unknown operation ends with FORMAT (12), and HEAD passes it
theorem test_unknown_command : let t := after (exec (.preempt 0 0) (cmd (entry 13 [(8, 8, 0x10000000100)]) (dev id)))
    rdN t.hbm 65792 4 = 12 ∧ rdN t.hbm 0x100000 4 = 1 := by decide +kernel

-- a LAUNCH with a reserved byte ends with FIELD (1) and has its sequence number as its detail (log [100], DEDUCED)
theorem test_refused_launch : let s := cmd (entry 1 [(8, 8, 0x10000000100), (1, 1, 255)]) (dev id); let t := after (exec (.launch 0 0) s)
    rdN t.hbm 65792 4 = 1 ∧ rdN t.hbm 65796 4 = (s.part 0).nextSeq.toNat ∧ (t.part 0).nextSeq = (s.part 0).nextSeq + 1 := by decide +kernel

/-- LAUNCH of kernel 0 of code handle 1: one block of one group, ARGS at byte 0 of the object. -/
def launchEntry (more : List (Nat × Nat × Nat)) : List Byte :=
  entry 1 ([(0x10, 8, 1), (0x1C, 2, 1), (0x20, 4, 1), (0x24, 2, 1), (0x26, 2, 1), (0x28, 8, 0x10000000000)] ++ more)
def ready (b : List Byte) : State :=
  let s := cmd b (dev id)
  s.setCode 0 { s.code 0 with kernels := [⟨0, 8, 16, 0, 0, []⟩] }
theorem witness_Launches : let b := launchEntry []; let s := ready b
    CmdAtHead s 0 0 1 0 b ∧ (∃ l, s.checkLaunch 0 0 (s.queue 0 0) b = .ok l) ∧ launchFieldBad 0 (launchEntry [(0x18, 1, 4)]) = true
      ∧ launchFieldBad 0 b = false ∧ (dev id).codeOf 0 (fld (launchEntry [(0x10, 8, 9)]) 0x10 8) = none :=
  ⟨of_headB (by decide +kernel), of_isOk (by decide +kernel), by decide +kernel, by decide +kernel, by decide +kernel⟩
theorem witness_Launches_error : let b := launchEntry [(0x18, 1, 4)]
    CmdAtHead (ready b) 0 0 1 0 b ∧ okIs ((ready b).checkLaunch 0 0 ((ready b).queue 0 0) b |>.map fun _ => ()) () = false :=
  ⟨of_headB (by decide +kernel), by decide +kernel⟩

/-- A launch at the front of queue 0, changed by `f`, with `n` blocks. -/
def waiting (n : Nat) (f : Launch → Launch) : State :=
  let s := dev id
  let s := s.setLaunch 1 (f { s.launch 0 with st := .queued, x := n, next := 0, argsAt := 0x10000000000 })
  s.setQueue 0 0 { base := 0x100000, log := 4, launches := [1] }
def tartan (l : Launch) : Launch := { l with tart := some { sbh := 0x10000000200, order := 0, vecs := [(-1, 0, 0)] } }
def pool (l : Launch) : Launch := { l with pool := some { poolOf 0 0 with ring := 0x10000000000 } }
/-- An empty ring: LOGCAP 4 and LOGFCAP 0 in the header at the object's start. -/
def emptyRing : State := { waiting 1 pool with hbm := wrN [] 65568 4 4 }
theorem witness_Activation : let s := waiting 3 id; let l := s.launch 1
    (s.queue 0 0).launches = [1] ∧ l.st = .queued ∧ AtHome s l.part (objOf l.argsAt) (offOf l.argsAt) 384 65536 ∧ l.tart = none ∧ l.pool = none
      ∧ ((dev id).launch 0).st ≠ .queued :=
  ⟨by decide +kernel, by decide +kernel, homeN _ _ _ _ _ _ rfl (by decide +kernel) (by decide +kernel) (by decide +kernel) (by decide +kernel) rfl (by decide +kernel), by decide +kernel, by decide +kernel, by decide +kernel⟩
theorem witness_Activation_tartan : let s := { waiting 3 tartan with hbm := [(66048, 7)] }; let l := s.launch 1
    l.tart.isSome = true ∧ (s.presetBits l 0x10000000200).length = Launch.count l ∧ ((waiting 3 tartan).presetBits l 0x10000000200).length ≠ Launch.count l := by
  decide +kernel
theorem witness_Activation_pool : let s := emptyRing; let l := s.launch 1
    l.tart = none ∧ l.pool.isSome = true
      ∧ (match l.pool.map (s.readPool { l with st := .active, args := readImage (leBytes 384 (s.devRead l.part l.argsAt 384)) }) with
        | some (.ok p) => p.outst == 0 | _ => false) = true := by decide +kernel
theorem test_activation_reads_args : let t := after (exec (.launchActivation 0 0) { waiting 1 id with hbm := [(65540, 9)] })
    (t.launch 1).st = .active ∧ get 0 (t.launch 1).args 1 = 9 := by decide +kernel

/-- A code object of one hot line, and one that needs key 0x0001 to read 0. -/
def codeObj (secs : List (Nat × Nat × Nat × Nat)) (n : Nat) (more : List (Nat × Nat × Nat)) : List Byte :=
  let hd := [(0, 4, 0x4C554853), (4, 2, 1), (6, 2, secs.length), (8, 4, 9)]
  let tab := secs.zipIdx.flatMap fun x => [(32 + 16 * x.2, 2, x.1.1), (36 + 16 * x.2, 4, x.1.2.1), (40 + 16 * x.2, 4, x.1.2.2.1), (44 + 16 * x.2, 4, x.1.2.2.2)]
  rdBytes ((hd ++ tab ++ more).foldl (fun m f => wrN m f.1 f.2.1 f.2.2) []) 0 n
def plainObj : List Byte := codeObj [(4, 48, 64, 0)] 112 [(48, 64, lineOf 0x400000100000047802)]
def needyObj : List Byte := codeObj [(4, 72, 64, 0), (2, 64, 8, 1)] 136 [(64, 2, 0xFFFF)]
-- a kernel entry of 32, no slot 0; a patch of k0 by key 0x0020, which lacks BIND
def oddObj : List Byte := codeObj [(4, 96, 64, 0), (1, 64, 32, 1)] 160 [(64, 4, 32)]
def boundObj : List Byte := codeObj [(4, 648, 64, 0), (3, 64, 584, 0)] 712 [(68, 4, 64), (72, 4, 576), (76, 4, 1), (642, 2, 32)]
def loadEntry : List Byte := entry 2 [(0x10, 8, 0x10000000000), (0x18, 8, 112), (0x20, 8, 0x10000001000)]
def loadable (b : List Byte) : State := let s := cmd loadEntry (dev id); { s with hbm := wrBytes s.hbm 65536 b }
theorem witness_Load : let s := loadable plainObj; let src : DWord := BitVec.ofNat 64 (fld loadEntry 0x10 8); let dst : DWord := BitVec.ofNat 64 (fld loadEntry 0x20 8)
    CmdAtHead s 0 0 2 0 loadEntry ∧ (s.part 0).holds src (fld loadEntry 0x18 8) = true ∧ (s.part 0).holds dst 1 = true
      ∧ objectOk plainObj = true ∧ leBytes 112 (s.devRead 0 src 112) = plainObj ∧ (∃ k, s.readCode 0 plainObj dst = .ok k) :=
  ⟨of_headB (by decide +kernel), by decide +kernel, by decide +kernel, by decide +kernel, by decide +kernel, of_isOk (by decide +kernel)⟩
theorem witness_Load_code : let sec := secBytes (sectionsOf plainObj) plainObj; let s := dev id
    s.unmet (sec 2) = none ∧ s.unbindable (sec 3) = none ∧ fld plainObj 8 4 = 9 ∧ (findSec (sectionsOf plainObj) 4).isSome = true
      ∧ objectOk needyObj = true ∧ s.unmet (secBytes (sectionsOf needyObj) needyObj 2) = some 0xFFFF ∧ objectOk [] = false
      ∧ objectOk oddObj = true ∧ s.unmet (secBytes (sectionsOf oddObj) oddObj 2) = none ∧ (findSec (sectionsOf oddObj) 4).isSome = true
      ∧ fld (secBytes (sectionsOf oddObj) oddObj 1) 0 4 = 32 ∧ fld oddObj 8 4 = 9
      ∧ objectOk boundObj = true ∧ s.unmet (secBytes (sectionsOf boundObj) boundObj 2) = none ∧ (findSec (sectionsOf boundObj) 4).isSome = true
      ∧ s.unbindable (secBytes (sectionsOf boundObj) boundObj 3) = some 32 ∧ fld boundObj 8 4 = 9
      ∧ ((s.part 0).holds 0 112 && (s.part 0).holds 0 1) = false := by decide +kernel

/-! ### Objects and extents -/

/-- No group; table at 0x200000; the list of object 2 at 0x210000 has one RESIDENT page at frame 2. -/
def tableAt (b : List Byte) : State :=
  let s := cmd b { State.reset with parts := (dev id).parts }
  let s := s.setPart 0 { s.part 0 with otbase := 0x200000 }
  { s with hbm := wrN s.hbm 0x210008 8 2 }
def objEntry (id live : Nat) : List Byte := entry 3 [(0x10, 4, id), (0x18, 1, live), (0x1A, 1, 31), (0x20, 8, 65536), (0x28, 8, 0x210000), (0x30, 2, 1)]
theorem witness_Objupdate : let b := objEntry 2 1; let s := tableAt b; let e := (b.drop 0x18).take 32
    CmdAtHead s 0 0 3 0 b ∧ fld b 0x10 4 = 2 ∧ 2 < 2 ^ (s.part 0).otlog ∧ fld e 0 1 = 1 ∧ (s.readObj 0 e).isSome = true ∧ s.groups = []
      ∧ (s.part 0).heldWrites = [] ∧ s.entryOk 0 (((objEntry 1 0).drop 0x18).take 32) = true ∧ s.entryOk 0 (List.replicate 32 0) = false ∧ s.entryOk 0 [0, 2] = false
      ∧ fld ((objEntry 1 0).drop 0x18) 0 1 = 0 ∧ s.readObj 0 (List.replicate 32 0) = none :=
  ⟨of_headB (by decide +kernel), by decide +kernel, by decide +kernel, by decide +kernel, by decide +kernel, rfl, rfl, by decide +kernel, by decide +kernel,
    by decide +kernel, by decide +kernel, by decide +kernel⟩
theorem test_objupdate : let t := after (exec (.objupdate 0 0) (tableAt (objEntry 2 1)))
    ((t.part 0).obj 2).live = true ∧ rdByte t.hbm 0x200040 = 1 := by decide +kernel

/-- EXTUPDATE of extent 0 of object 1 to a state; `from_` gives its state before. -/
def extEntry (st : Nat) : List Byte := entry 4 [(0x10, 4, 1), (0x18, 8, st * 2 ^ 62), (0x20, 8, 1)]
def extAt (x : ExtSt) (want : Bool) (b : List Byte) : State :=
  let s := tableAt b
  s.setPart 0 ((s.part 0).setObj 1 { (s.part 0).obj 1 with exts := [⟨x, 0, 0, 1, want⟩] })
theorem witness_Extupdate : let b := extEntry 1; let s := extAt .resident false b; let d := (b.drop 0x18).take 16; let o := (s.part 0).obj 1
    CmdAtHead s 0 0 4 0 b ∧ fld b 0x10 4 = 1 ∧ o.live = true ∧ o.exts[fld b 0x14 2]? = some ⟨.resident, 0, 0, 1, false⟩ ∧ s.extOk 0 o.host d = true
      ∧ mayMove .resident (readExt d).st = true ∧ extsSorted (setAt o.exts 0 (readExt d)) = true ∧ s.groups = [] ∧ o.exts[1]? = none
      ∧ mayMove .away (readExt d).st = false ∧ (readExt (((extEntry 2).drop 0x18).take 16)).st = .away :=
  ⟨of_headB (by decide +kernel), by decide +kernel, by decide +kernel, by decide +kernel, by decide +kernel, by decide +kernel, by decide +kernel, rfl,
    by decide +kernel, by decide +kernel, by decide +kernel⟩
theorem test_extupdate : (((after (exec (.extupdate 0 0) (extAt .resident false (extEntry 1)))).part 0).obj 1).exts.map (·.st) = [.leaving] := by decide +kernel
-- 17 R351: an extent that is wanted back goes on to RETURNING
theorem test_extupdate_wanted : (((after (exec (.extupdate 0 0) (extAt .leaving true (extEntry 2)))).part 0).obj 1).exts.map (·.st) = [.returning] := by
  decide +kernel

/-! ### Observation and resolution -/

def watchEntry (n : Nat) : List Byte := entry 5 [(0x10, 1, n), (0x18, 1, 1), (0x19, 1, 1), (0x1C, 4, 1), (0x28, 8, 100)]
def traceEntry (act cluster : Nat) : List Byte := entry 6 [(0x10, 1, cluster), (0x11, 1, act), (0x18, 8, 0x10000000000), (0x20, 4, 100)]
def resolveEntry (act : Nat) : List Byte := entry 7 [(0x14, 1, act)]
theorem witness_Watch : CmdAtHead (cmd (watchEntry 3) (dev id)) 0 0 5 0 (watchEntry 3) ∧ fld (watchEntry 3) 0x10 1 = 3
    ∧ watchOk (((watchEntry 3).drop 0x18).take 32) = true ∧ watchOk (((entry 5 [(0x18, 1, 4)]).drop 0x18).take 32) = false :=
  ⟨of_headB (by decide +kernel), by decide +kernel, by decide +kernel, by decide +kernel⟩
theorem witness_Trace : let s := cmd (traceEntry 2 3) (dev id)
    CmdAtHead s 0 0 6 2 (traceEntry 2 3) ∧ CmdAtHead (cmd (traceEntry 1 3) (dev id)) 0 0 6 1 (traceEntry 1 3)
      ∧ CmdAtHead (cmd (traceEntry 0 3) (dev id)) 0 0 6 0 (traceEntry 0 3) ∧ 3 ∈ s.clustersOf 0 ∧ 24 ∉ s.clustersOf 0
      ∧ (s.part 0).holds 0x10000000000 100 = true ∧ (s.part 0).holds 0 100 = false ∧ (s.cluster 3).on = false ∧ (s.cluster 3).buf = []
      ∧ (s.cluster 3).gated = false ∧ (s.cluster 3).dropped = 0 ∧ ((s.setCluster 3 { on := true }).cluster 3).on = true :=
  ⟨of_headB (by decide +kernel), of_headB (by decide +kernel), of_headB (by decide +kernel), by decide +kernel, by decide +kernel, by decide +kernel,
    by decide +kernel, by decide +kernel, by decide +kernel, by decide +kernel, by decide +kernel, by decide +kernel⟩
/-- A group that is parked on a translation fault. -/
def parkedG (g : Group) : Group := { g with status := .faultPark, parkRec := some (0, { kind := 18, cause := 1 }) }
theorem witness_Resolve : let s := cmd (resolveEntry 0) (dev parkedG)
    CmdAtHead s 0 0 7 0 (resolveEntry 0) ∧ CmdAtHead (cmd (resolveEntry 1) (dev parkedG)) 0 0 7 1 (resolveEntry 1)
      ∧ s.parkedAt 0 0 = some (0, { kind := 18, cause := 1 }) ∧ (dev id).parkedAt 0 0 = none :=
  ⟨of_headB (by decide +kernel), of_headB (by decide +kernel), by decide +kernel, by decide +kernel⟩
theorem test_watch : (get {} ((after (exec (.watch 0 0) (cmd (watchEntry 3) (dev id)))).part 0).watches 3).hi = 100 := by decide +kernel
-- 22 R434: turning a trace on writes one SYNC
theorem test_trace_on : (((after (exec (.traceOn 0 0) (cmd (traceEntry 1 3) (dev id)))).cluster 3).buf.map (·.typ)) = [6] := by decide +kernel
theorem test_retry : (after (exec (.resolveRetry 0 0) (cmd (resolveEntry 0) (dev parkedG)))).g.status = .run := by decide +kernel
theorem test_deliver : let t := after (exec (.resolveDeliver 0 0) (cmd (resolveEntry 1) (dev parkedG)))
    t.g.status = .run ∧ (t.g.recs.map (·.kind)) = [18] ∧ t.pc = 8 := by decide +kernel

/-! ### Blocks -/

def restoreEntry : List Byte := entry 9 [(0x10, 4, 1)]
def withBlock (f : Block → Block) (b : List Byte) : State := let s := cmd b (dev id); s.setBlock 0 (f (s.block 0))
def savedB (k : Block) : Block := { k with status := .saved }
def savedState (b : List Byte) : State := let s := withBlock savedB b; s.setG { s.g with saved := true }
theorem witness_Preempt : let s := cmd seqEntry (dev id)
    CmdAtHead s 0 0 8 0 seqEntry ∧ (s.blocks.map (·.1)).Nodup ∧ s.launchOf 0 (fld seqEntry 0x10 4) = some 0 ∧ s.launchOf 0 2 = none
      ∧ (s.blocksOf 0 fun k => k.status == .running || k.status == .parked || k.restoring) = [0] :=
  ⟨of_headB (by decide +kernel), by decide +kernel, by decide +kernel, by decide +kernel, by decide +kernel⟩
theorem witness_Restore : let s := savedState restoreEntry; let bs := s.blocksOf 0 fun k => (k.status == .saved || k.status == .halting) && !k.restoring
    CmdAtHead s 0 0 9 0 restoreEntry ∧ bs = [0] ∧ (s.launch 0).gang = 0 ∧ s.couldRestore 0 false bs = true
      ∧ (let t := s.setPart 0 { s.part 0 with quota := [] }; (t.setSpace 0 { t.space 0 with total := 800000 }).couldRestore 0 false bs = false) :=
  ⟨of_headB (by decide +kernel), by decide +kernel, by decide +kernel, by decide +kernel, by decide +kernel⟩
theorem witness_Restore_elsewhere : (savedState restoreEntry).launchOf 1 1 = none ∧ (savedState restoreEntry).savedElsewhere 1 1 = true
    ∧ (dev id).savedElsewhere 1 1 = false := by decide +kernel
theorem witness_GroupSave : let s := let s := dev id; s.setBlock 0 { s.block 0 with status := .halting }; let g := s.group 0
    g.present = true ∧ s.clocked g.core = true ∧ g.saved = false ∧ g.status ≠ .retired ∧ (s.block g.blk).status = .halting ∧ s.midStep g.blk = false ∧ g.saveReady = true ∧ g.stash = none
      ∧ (∀ e ∈ s.groups, e.2.stash = none) ∧ (∀ e ∈ s.groups, e.2.present = true → e.2.blk = g.blk → e.2.status ≠ .retired → e.2.saved = true ∨ e.1 = 0)
      ∧ (s.setPart 0 { s.part 0 with ctxbase := 0x400000, ctxcount := 1 }).ctxAddr 0 = some 0x400000 := by decide +kernel
theorem test_group_save : let s := dev id; let s := s.setPart 0 { s.part 0 with ctxbase := 0x400000, ctxcount := 1 }
    let t := after (exec (.groupSave 0) (s.setBlock 0 { s.block 0 with status := .halting }))
    t.g.saved = true ∧ (t.block 0).status = .saved ∧ rdN t.hbm 0x4000C0 4 = 64 := by decide +kernel

def grantEntry (obj len : Nat) : List Byte := entry 10 [(0x10, 4, obj), (0x14, 1, 3), (0x20, 8, len)]
def migrateEntry : List Byte := entry 11 [(0x10, 2, 5)]
theorem witness_Grant : let b := grantEntry 1 65536; let s := cmd b (dev id)
    CmdAtHead s 0 0 10 0 b ∧ fld b 0x10 4 = 1 ∧ 1 < 2 ^ (s.part 0).otlog ∧ ((s.part 0).obj 1).live = true ∧ fld b 0x14 1 < 4 ∧ fld b 0x18 8 % 65536 = 0
      ∧ fld b 0x20 8 % 65536 = 0 ∧ fld b 0x18 8 + fld b 0x20 8 ≤ ((s.part 0).obj 1).size ∧ fld (grantEntry 1 1) 0x20 8 % 65536 ≠ 0
      ∧ ((s.part 0).obj 2).live = false :=
  ⟨of_headB (by decide +kernel), by decide +kernel, by decide +kernel, by decide +kernel, by decide +kernel, by decide +kernel, by decide +kernel,
    by decide +kernel, by decide +kernel, by decide +kernel⟩
-- which of the two digests is equal no Lean term shows: the other device is opaque (log [51], DESIGN CHOICE); one of the two clauses holds in this state
theorem witness_Migrate : let s := savedState migrateEntry
    CmdAtHead s 0 0 11 0 migrateEntry ∧ (∀ k ∈ s.blocks, k.2.present = true → k.2.part = 0 → k.2.status = .saved)
      ∧ (s.capDig = Config.remoteCapDig 5 0 ∨ ¬s.capDig = Config.remoteCapDig 5 0)
      ∧ ¬(∀ k ∈ (dev id).blocks, k.2.present = true → k.2.part = 0 → k.2.status = .saved) :=
  ⟨of_headB (by decide +kernel), by decide +kernel, Classical.em _, by decide +kernel⟩
theorem test_grant : ((after (exec (.grant 0 0) (cmd (grantEntry 1 65536) (dev id)))).part 0).grants = [⟨1, 3, 0, 65536⟩] := by decide +kernel
-- a partition with a running block is BUSY (7)
theorem test_migrate_busy : let b := entry 11 [(8, 8, 0x10000000100)]
    rdN (after (exec (.migrate 0 0) (cmd b (dev id)))).hbm 65792 4 = 7 := by decide +kernel

/-! ### Management -/

def cfg : PartCfg :=
  { otbase := 0x10000, otlog := 8, frbase := 0x20000, frlog := 8, ctxbase := 0x40000, ctxcount := 1, ovbase := 0x80000, ovsize := 128,
    queues := (0x100000, 4, 0, 0) :: List.replicate 15 (0, 0, 0, 0), quota := [], rate := [] }
theorem witness_Management : let s := State.reset
    0 < s.npart ∧ s.npart ≤ 1 ∧ 3 ∉ [1, 2, 4, 8] ∧ s.idle = true ∧ (dev id).idle = false ∧ s.cfgOk 0 cfg = true
      ∧ s.cfgOk 0 { cfg with otlog := 7 } = false
      ∧ cfg.queues[0]? = some (0x100000, 4, 0, 0) := by decide +kernel
def rung (s : State) : State := s.setQueue 0 0 { base := 0x100000, log := 4, writer := some 7 }
theorem witness_Management_rings : let s : State := (rung State.reset)
    s.idle = true ∧ (∃ e ∈ s.parts, ∃ r ∈ e.2.rings, r.1 ≤ 0x100000 ∧ 0x100000 < r.1 + r.2)
      ∧ (∀ e ∈ s.parts, ∀ r ∈ e.2.rings, ¬(r.1 ≤ 0 ∧ 0 < r.1 + r.2)) := by decide +kernel
-- whether a signature verifies is opaque (log [3], DESIGN CHOICE); an image below the minimum is refused whatever it is
theorem witness_Management_firmware (i : FwImage) : (State.reset.accepts i = true ∨ State.reset.accepts i = false)
    ∧ ({ State.reset with minSvn := 1 } : State).accepts ⟨[], 0, 0, [], []⟩ = false :=
  ⟨by cases State.reset.accepts i <;> simp, by simp [State.accepts]⟩
theorem test_partconfig : let t := after (exec (.partconfig 0 cfg) State.reset); (t.part 0).otlog = 8 ∧ (t.queue 0 0).base = 0x100000 := by decide +kernel
-- 17 R355: a cluster that changes its owner keeps no packet of the old one
theorem test_partcount_clusters : let k : Cluster := { on := true, buf := [⟨1, 0, 4, 0, []⟩] }
    let t := after (exec (.partcount 2) { State.reset with clusters := [(0, k), (12, k)] })
    t.cluster 0 = k ∧ t.cluster 12 = {} := by decide +kernel
-- 04 R82, log [50] (DESIGN CHOICE): frames under an extent of a live object are not free
theorem test_frames_taken : ((dev id).part 0).framesTaken 1 1 = true ∧ ((dev id).part 0).framesTaken 5 1 = false := by decide +kernel
-- 20 R409: a write to a poisoned word of scratchpad clears its mark, a byte of it too
theorem test_write_clears : ({ dev id with poisScr := [16, 17] }.scrPut 65 1 0).poisScr = [17] := by decide +kernel
theorem test_partcount : (after (exec (.partcount 2) State.reset)).npart = 2 ∧ (after (exec (.partcount 3) State.reset)).replyCode = 1 := by decide +kernel
theorem test_power_cap : (after (exec (.power (.cap 1000000)) State.reset)).khz = 1000000 := by decide
theorem test_attest_absent : (after (exec (.attest 1 0) State.reset)).replyCode = 1 := by decide

/-! ### Blocks that start and retire -/

/-- A launch of two blocks of one group of kernel 0, active and with none placed. -/
def active : State :=
  let s := dev id
  let s := { s with groups := [], blocks := [], spaces := [] }
  let s := s.setCode 0 { s.code 0 with kernels := [⟨0, 8, 16, 0, 0, []⟩] }
  s.setLaunch 0 { s.launch 0 with st := .active, x := 2, next := 0, groups := 1, args := [(3, 7)] }
def isLaunch (l : List (Nat × Job)) : Bool := match l with | (_, .launch 0) :: _ => true | _ => false
theorem witness_BlockPlacement : let s := active; let l := s.launch 0
    s.restoreJobs 0 = [] ∧ isLaunch (s.launchJobs 0) = true ∧ s.ctxRoom 0 l.groups = true ∧ l.gang = 0 ∧ l.pool = none ∧ l.tart = none ∧ (kernelOf s l).objects = []
      ∧ (s.findCores 0 (partsOf l.groups) [5] (fun x => !s.shut x (s.launchPri l) none) fun j x => s.fitsPart x (s.demand l j)).isSome = true
      ∧ (State.reset.distribute 0 []).isNone = true := by decide +kernel
theorem witness_GangAges : let s := active.setLaunch 0 { active.launch 0 with resv := some (2, [16], 0) }
    (s.launch 0).resv = some (2, [16], 0) ∧ (active.setLaunch 0 { active.launch 0 with back := some (1, 2, [16], 0) } |>.launch 0).back = some (1, 2, [16], 0) ∧ ¬(0 + 131072 ≤ s.now) ∧ 0 + 131072 ≤ ({ s with now := 131072 } : State).now ∧ (active.launch 0).resv = none := by
  decide +kernel
theorem witness_BlockRetirement : let s := dev gone
    (dev id).blockDone 0 = false ∧ s.blockDone 0 = true ∧ (s.groups.map (·.1)).Nodup ∧ (s.block 0).worker = none ∧ (∀ n ∈ s.blockGroups 0, (s.group n).stash = none)
      ∧ (s.launch 0).tart = none ∧ (s.launch 0).recbase = 0 ∧ (s.launch 0).gang = 0 ∧ (s.launch 0).retired + 1 = Launch.count (s.launch 0)
      ∧ (let t := s.setLaunch 0 { s.launch 0 with x := 2 }; (t.launch 0).retired + 1 ≠ Launch.count (t.launch 0)) := by decide +kernel
-- 01 R29: a starting group has the argument image in its s registers
theorem test_block_placement : let t := after (exec (.blockPlacement 0 [5]) active)
    (t.group 0).core = 5 ∧ (t.group 0).rdS 3 = 7 ∧ (t.group 0).peak = 16 ∧ (t.launch 0).next = 1 := by decide +kernel
theorem test_block_retirement : ((after (exec (.blockRetirement 0) (dev gone))).launch 0).st = .absent := by decide +kernel

/-! ### Events -/

theorem witness_DeviceEvents : let s := dev id
    (s.cluster 3).gated = false ∧ ((s.setCluster 3 { gated := true, lost := 5 }).cluster 3).gated = true ∧ counts s 0 = true
      ∧ (∀ e ∈ s.groups, e.2.replay = []) := by decide +kernel
theorem test_thermal_trip : (after (exec (.thermalTrip 0) (dev id))).clocked 95 = false ∧ (after (exec (.thermalTrip 0) (dev id))).clocked 96 = true := by
  decide +kernel
theorem test_cluster_return : let s := (dev id).setCluster 3 { gated := true, lost := 5 }
    (((after (exec (.clusterReturn 3) s)).cluster 3).buf.map fun p => (p.typ, p.sub)) = [(7, 1), (6, 0)] := by decide +kernel
theorem test_cycle_counts : (get 0 ((after (exec .arithmeticClockCycle ({ dev id with now := 3 } : State))).group 0).stalls 0) = 1 := by decide +kernel

theorem witness_Caches : let s := dev id
    s.clocked 0 = true ∧ 64 * (0 + 1) ≤ (s.code 0).size ∧ s.icache = [] ∧ lineParityOk (s.textLine 0 0) = true
      ∧ lineParityOk ((s.setCode 0 { s.code 0 with text := wrN [] 0 64 (2 ^ 485) }).textLine 0 0) = false := by decide +kernel
/-- A DIRTY line of a window on the object's line 1, in scratchpad line 2. -/
def dirtyLine (g : Group) : Group := { g with stash := some ⟨0x100080, 0, [0x05000001, 0, 0, 0, 4096, 0, 0, 0], 64, [(0, .dirty)]⟩ }
theorem witness_Caches_recall : let s := dev dirtyLine; let x : Stash := ⟨0x100080, 0, [0x05000001, 0, 0, 0, 4096, 0, 0, 0], 64, [(0, .dirty)]⟩
    (s.group 0).stash = some x ∧ 0 < x.lines0 ∧ get LineSt.unfilled x.lines 0 = .dirty ∧ s.g.world = 0 ∧ s.views = []
            ∧ (∀ i < 64, (match translate (s.part 0) 1 (64 + i) 1 with | .ok (.resident, _) => true | _ => false) = true)
      ∧ (∀ i < 64, placeOf (s.part 0) 1 (64 + i) = some ⟨false, 65600 + i⟩) := by decide +kernel
def hostObj (s : State) : State := s.setPart 0 ((s.part 0).setObj 1 { (s.part 0).obj 1 with host := true })
theorem witness_Caches_refusal : let o (x : Op) : Op := { x with id := 1, place := .dev, accs := [{ lane := 0, obj := 1 }] }; let s (x : Op) := hostObj (dev (flying (o x)))
    let found (x : Op) := (s x).g.ops.find? fun o => o.id == 1 && !o.done && !o.parked && !o.refused
      && (o.place == .dev || (o.place == .stash && o.accs.any ((s x).asks 0 (o)))) && o.accs.any fun a => !a.clipped && ((((s x).part 0).obj a.obj).host)
    found stOp = some (o stOp) ∧ found ldOp = some (o ldOp) ∧ Op.returns (o stOp) = false ∧ (o stOp).place ≠ .stash ∧ Op.returns (o ldOp) = true
      ∧ (s ldOp).g.status = .run ∧ (s ldOp).g.saved = false ∧ (o stOp).kind ≠ .pref ∧ (hostObj (dev fun g => { flying (o ldOp) g with status := .suspended })).g.status ≠ .retired := by decide +kernel
-- 17 R349, cause 4: a refused load parks its group
theorem test_refused_load : let o : Op := { ldOp with place := .dev, accs := [{ lane := 0, obj := 1 }] }
    let t := after (exec (.apertureRefusal 0 2) (hostObj (dev (flying o)))); t.g.status = .faultPark ∧ t.g.ops = [{ o with refused := true }]
      ∧ after (exec (.loadCompletion 0 2) t) = t := by decide +kernel
-- the load of a suspended group waits
theorem test_refused_load_waits : let o : Op := { ldOp with place := .dev, accs := [{ lane := 0, obj := 1 }] }; let s := hostObj (dev fun g => { flying o g with status := .suspended })
    after (exec (.apertureRefusal 0 2) s) = s := by decide +kernel
theorem witness_Caches_cold : let s := let s := dev id; s.setCode 0 { s.code 0 with hot := 0 }
    canIssue s 0 0 = true ∧ ((s.group 0).path 1).stall ≠ 11 ∧ (s.code 0).hot ≤ 64 * lineOfPc ((s.group 0).path 0).pc ∧ 64 * (lineOfPc ((s.group 0).path 0).pc + 1) ≤ (s.code 0).size
      ∧ s.icache = [] ∧ s.coldPlaced (s.code 0) 0 = false ∧ (s.part 0).holds (handle (s.code 0).coldObj 0) 64 = false
      ∧ (let t := s.setCode 0 { s.code 0 with coldObj := 1 }; t.coldPlaced (t.code 0) 0 = true ∧ lineParityOk (t.textLine 0 0) = true) := by decide +kernel

theorem witness_RemoteStore : let s := rung (dev id)
    s.storePlaces 0 1 0 2 = some ((List.range 2).map fun i => (⟨false, 65536 + i⟩ : Place)) ∧ s.storePlaces 0 2 0 2 = none
      ∧ s.storePlaces 0 0 0x100000 2 = some ((List.range 2).map fun i => (⟨false, 0x100000 + i⟩ : Place))
      ∧ (s.part 0).mayStore 7 1 0 2 = true ∧ (s.part 0).mayStore controller 1 0 2 = false ∧ (s.part 0).ringOf 0x100000 = some 0
      ∧ (s.part 0).ringClash 8 [0] = true ∧ (s.part 0).ringClash 7 [0] = false ∧ s.views = [] ∧ (∀ e ∈ s.groups, e.2.stash = none) := by decide +kernel
theorem test_remote_store : (after (exec (.remoteStore 0 7 1 4 [9, 8]) (dev id))).hbm = [(65540, 9), (65541, 8)]
    ∧ onward (exec (.remoteStore 0 8 0 0x100000 [1]) (rung (dev id))) = false := by decide +kernel
/-- Object 1 on its way out. -/
def away (s : State) : State := s.setPart 0 ((s.part 0).setObj 1 { (s.part 0).obj 1 with exts := [⟨.leaving, 0, 0, 1, false⟩] })
theorem witness_RemoteStore_waits : let s := away (dev id)
    (s.storePlaces 0 1 0 2).isSome = true ∧ (s.part 0).mayStore 7 1 0 2 = true ∧ (s.part 0).ringClash 7 [] = false
      ∧ ((s.part 0).rangeStates 1 0 2).any (·.1 != .resident) = true ∧ (((dev id).part 0).rangeStates 1 0 2).any (·.1 != .resident) = false := by decide +kernel
-- 17 R351: a remote store to an extent that leaves waits for it
theorem test_remote_store_waits : let t := after (exec (.remoteStore 0 7 1 4 [9, 8]) (away (dev id)))
    t.hbm = [] ∧ (t.part 0).heldWrites = [(1, 4, [9, 8])] := by decide +kernel
def posting (frlog : Nat) : State :=
  let s := dev id
  s.setPart 0 { s.part 0 with frbase := 0x300000, frlog := frlog, posts := [(none, [{ kind := 18, cause := 4 }])] }
theorem witness_FaultRing : ((dev id).part 0).posts = [] ∧ ((posting 8).part 0).posts = (none, [{ kind := 18, cause := 4 }]) :: [] ∧ ((posting 0).part 0).frlog = 0
    ∧ 1 ≤ (posting 8).ringFree 0 := by decide +kernel
theorem test_fault_ring : let t := after (exec (.faultRingPosting 0) (posting 8))
    rdN t.hbm 0x300004 4 = 1 ∧ rdByte t.hbm 0x300040 = 18 ∧ (t.part 0).posts = [] := by decide +kernel

end Sys2Proof.Tests
end

section
/-! SUPPORT. Elements of a register and the integers of a type: reading an element after building, the range of a type, and reading
an integer after wrapping (07 R109, R113). -/

namespace Sys2Proof.Machine

/-! ### Elements of a built register (07 R109) -/

theorem elemOf_packBits (b : Nat) (l : List Nat) (i : Nat) : packBits b l / 2 ^ (b * i) % 2 ^ b = l.getD i 0 % 2 ^ b := by
  induction l generalizing i with
  | nil => simp [packBits]
  | cons x r ih =>
    cases i with
    | zero => simp [packBits]
    | succ j =>
      have hx : (x % 2 ^ b + 2 ^ b * packBits b r) / 2 ^ b = packBits b r := by
        rw [Nat.add_mul_div_left _ _ (Nat.two_pow_pos b), Nat.div_eq_of_lt (Nat.mod_lt _ (Nat.two_pow_pos b)), Nat.zero_add]
      rw [packBits, Nat.mul_succ, Nat.add_comm (b * j), Nat.pow_add, ← Nat.div_div_eq_div_mul, hx, ih j, List.getD_cons_succ]

theorem elemAt_buildElems {ty : Ty} {i : Nat} (g : Nat → Nat) (hi : i < ty.elems) :
    elemAt ty (buildElems ty g) i = g i % 2 ^ tyBits ty := by
  rw [elemAt, buildElems, elemOf_packBits]
  simp [hi]

theorem elemAt_lt (ty : Ty) (x i : Nat) : elemAt ty x i < 2 ^ tyBits ty := Nat.mod_lt _ (Nat.two_pow_pos _)

theorem elemAt_zero_of_lt {ty : Ty} {x : Nat} (hx : x < 2 ^ tyBits ty) : elemAt ty x 0 = x := by
  simp [elemAt, Nat.mod_eq_of_lt hx]

theorem buildElems_of_one {ty : Ty} (h : ty.elems = 1) (g : Nat → Nat) : buildElems ty g = g 0 % 2 ^ tyBits ty := by
  simp [buildElems, h, packBits]

/-! ### The integer of a word and the word of an integer -/

theorem tyBits_pos (ty : Ty) : 0 < tyBits ty := by cases ty <;> decide

/-- The number of words of a type is twice its half range. -/
theorem two_pow_tyBits (ty : Ty) : 2 ^ tyBits ty = 2 * 2 ^ (tyBits ty - 1) := by
  rw [← Nat.pow_succ', Nat.succ_eq_add_one, Nat.sub_add_cancel (tyBits_pos ty)]

theorem wrap_lt (n : Nat) (x : Int) : wrap n x < 2 ^ n := by
  have hp : (0 : Int) < (2 ^ n : Nat) := by exact_mod_cast Nat.two_pow_pos n
  have h0 := Int.emod_nonneg x hp.ne'
  have h1 := Int.emod_lt_of_pos x hp
  unfold wrap
  omega

@[simp] theorem wrap_zero (n : Nat) : wrap n 0 = 0 := by simp [wrap]

@[simp] theorem wrap_add_two_pow (n : Nat) (x : Int) : wrap n (x + (2 ^ n : Nat)) = wrap n x := by
  rw [wrap, wrap, Int.add_emod_right]

theorem wrap_natCast {n x : Nat} (hx : x < 2 ^ n) : wrap n x = x := by
  rw [wrap, ← Int.natCast_emod, Int.toNat_natCast, Nat.mod_eq_of_lt hx]

/-- Of a signed type the upper half of the words stands for the negative integers. -/
theorem toInt_of_signed {ty : Ty} {x : Nat} (hs : ty.isSigned = true) (hx : x < 2 ^ tyBits ty) :
    toInt ty x = if x < 2 ^ (tyBits ty - 1) then (x : Int) else x - (2 ^ tyBits ty : Nat) := by
  simp [toInt, sgn, hs, Nat.mod_eq_of_lt hx]

theorem toInt_of_unsigned {ty : Ty} {x : Nat} (hs : ty.isSigned = false) (hx : x < 2 ^ tyBits ty) : toInt ty x = x := by
  simp [toInt, hs, Nat.mod_eq_of_lt hx]

theorem range_of_signed {ty : Ty} (hs : ty.isSigned = true) :
    loOf ty = -(2 ^ (tyBits ty - 1) : Nat) ∧ hiOf ty = (2 ^ (tyBits ty - 1) : Nat) - 1 := by
  simp [loOf, hiOf, hs]

theorem range_of_unsigned {ty : Ty} (hs : ty.isSigned = false) : loOf ty = 0 ∧ hiOf ty = (2 ^ tyBits ty : Nat) - 1 := by
  simp [loOf, hiOf, hs]

/-- A word stands for an integer of its type's range. -/
theorem toInt_inRange {ty : Ty} {x : Nat} (hx : x < 2 ^ tyBits ty) : loOf ty ≤ toInt ty x ∧ toInt ty x ≤ hiOf ty := by
  cases hs : ty.isSigned with
  | true =>
    obtain ⟨hlo, hhi⟩ := range_of_signed hs
    have := two_pow_tyBits ty
    rw [toInt_of_signed hs hx]
    split <;> omega
  | false =>
    obtain ⟨hlo, hhi⟩ := range_of_unsigned hs
    rw [toInt_of_unsigned hs hx]
    omega

theorem wrap_toInt {ty : Ty} {x : Nat} (hx : x < 2 ^ tyBits ty) : wrap (tyBits ty) (toInt ty x) = x := by
  cases hs : ty.isSigned with
  | true =>
    rw [toInt_of_signed hs hx]
    split
    · exact wrap_natCast hx
    · rw [← wrap_add_two_pow, Int.sub_add_cancel, wrap_natCast hx]
  | false => rw [toInt_of_unsigned hs hx, wrap_natCast hx]

theorem toInt_zero (ty : Ty) : toInt ty 0 = 0 := by simp [toInt, sgn]

theorem zero_inRange (ty : Ty) : loOf ty ≤ 0 ∧ 0 ≤ hiOf ty := by
  have h := toInt_inRange (Nat.two_pow_pos (tyBits ty))
  rwa [toInt_zero] at h

theorem toInt_ne_zero {ty : Ty} {x : Nat} (hx : x < 2 ^ tyBits ty) (h : x ≠ 0) : toInt ty x ≠ 0 := fun h0 =>
  h (by rw [← wrap_toInt hx, h0, wrap_zero])

theorem wrap_neg {n k : Nat} (h0 : 0 < k) (hk : k ≤ 2 ^ n) : wrap n (-(k : Int)) = 2 ^ n - k := by
  rw [← wrap_add_two_pow, show -(k : Int) + (2 ^ n : Nat) = (2 ^ n - k : Nat) by omega, wrap_natCast (by omega)]

/-- An integer in the range of a type is read back from the word that holds it. -/
theorem toInt_wrap {ty : Ty} {x : Int} (hx : loOf ty ≤ x ∧ x ≤ hiOf ty) : toInt ty (wrap (tyBits ty) x) = x := by
  have hp := two_pow_tyBits ty
  have hw := wrap_lt (tyBits ty) x
  cases hs : ty.isSigned with
  | true =>
    obtain ⟨hlo, hhi⟩ := range_of_signed hs
    rw [toInt_of_signed hs hw]
    obtain ⟨k, rfl | rfl⟩ := x.eq_nat_or_neg
    · rw [wrap_natCast (by omega), if_pos (by omega)]
    · rcases Nat.eq_zero_or_pos k with rfl | hk
      · simp
      · rw [wrap_neg hk (by omega), if_neg (by omega)]
        omega
  | false =>
    obtain ⟨hlo, hhi⟩ := range_of_unsigned hs
    obtain ⟨k, rfl⟩ := Int.eq_ofNat_of_zero_le (a := x) (by omega)
    rw [toInt_of_unsigned hs hw, wrap_natCast (by omega)]

end Sys2Proof.Machine
end

section
/-! PROOF. O12: quotient and remainder toward zero (07 R115). -/

namespace Sys2Proof.Machine

/-! ### The exact results -/

theorem divInt_of_ne_zero (x : Int) {y : Int} (hy : y ≠ 0) : divInt x y = x.tdiv y := by simp [divInt, hy]

theorem remInt_eq_tmod (x y : Int) : remInt x y = x.tmod y := by
  unfold remInt
  split
  next h => simp [eq_of_beq h]
  next => rw [Int.tmod_def]

/-- The remainder lies between 0 and the dividend. -/
theorem tmod_between (x y : Int) : (0 ≤ x → 0 ≤ x.tmod y ∧ x.tmod y ≤ x) ∧ (x ≤ 0 → x ≤ x.tmod y ∧ x.tmod y ≤ 0) := by
  have habs : (x.tmod y).natAbs ≤ x.natAbs := by rw [Int.natAbs_tmod]; exact Nat.mod_le _ _
  constructor <;> intro hx
  · have := Int.tmod_nonneg y hx
    omega
  · have := Int.tmod_nonneg y (a := -x) (by omega)
    rw [Int.neg_tmod] at this
    omega

theorem tmod_inRange {ty : Ty} {x : Int} (hx : loOf ty ≤ x ∧ x ≤ hiOf ty) (y : Int) :
    loOf ty ≤ x.tmod y ∧ x.tmod y ≤ hiOf ty := by
  have h0 := zero_inRange ty
  obtain ⟨hpos, hneg⟩ := tmod_between x y
  omega

/-- The quotient of two integers of a type is one of its integers, but for the most negative one over -1. -/
theorem tdiv_inRange {ty : Ty} {x y : Int} (hx : loOf ty ≤ x ∧ x ≤ hiOf ty) (hylo : loOf ty ≤ y) (hy : y ≠ 0)
    (hno : ¬(ty.isSigned = true ∧ x = loOf ty ∧ y = -1)) : loOf ty ≤ x.tdiv y ∧ x.tdiv y ≤ hiOf ty := by
  have habs : (x.tdiv y).natAbs = x.natAbs / y.natAbs := Int.natAbs_tdiv x y
  have hle : x.natAbs / y.natAbs ≤ x.natAbs := Nat.div_le_self _ _
  cases hs : ty.isSigned with
  | false =>
    obtain ⟨hlo, -⟩ := range_of_unsigned hs
    have := Int.tdiv_nonneg (a := x) (b := y) (by omega) (by omega)
    omega
  | true =>
    obtain ⟨hlo, hhi⟩ := range_of_signed hs
    have hp := Nat.two_pow_pos (tyBits ty - 1)
    rcases (by omega : y = 1 ∨ y = -1 ∨ 2 ≤ y.natAbs) with rfl | rfl | h2
    · rwa [Int.tdiv_one]
    · have hmin : x ≠ loOf ty := fun h => hno ⟨hs, h, rfl⟩
      rw [Int.tdiv_neg, Int.tdiv_one]
      omega
    · have := Nat.div_le_div_left (c := 2) (b := y.natAbs) (a := x.natAbs) h2 (by omega)
      omega

/-! ### What `div` and `rem` give -/

theorem elems_of_isInt {ty : Ty} (h : ty.isInt = true) : ty.elems = 1 := by
  match ty, h with
  | .i32, _ | .u32, _ | .i64, _ | .u64, _ => rfl

section
variable {f : AluF} {a b : Nat} (hint : f.ty.isInt = true) (hsat : f.sat = false)
  (ha : a < 2 ^ tyBits f.ty) (hb : b < 2 ^ tyBits f.ty)
include hint hsat ha hb

/-- A scalar integer operation without SAT gives the wrapped exact result. -/
theorem intOp_scalar (op : Int → Int → Int) (ws : List Word) :
    intOp f (fun x y _ => op x y) [a, b] ws = wrap (tyBits f.ty) (op (toInt f.ty a) (toInt f.ty b)) := by
  rw [intOp, buildElems_of_one (elems_of_isInt hint)]
  simp only [narrow, hsat, argA, argB, List.getD_cons_zero, List.getD_cons_succ, elemAt_zero_of_lt ha, elemAt_zero_of_lt hb]
  exact Nat.mod_eq_of_lt (wrap_lt _ _)

/-- A divisor of 0 gives all ones, and the dividend. -/
theorem div_rem_by_zero (ws : List Word) (h0 : b = 0) :
    intOp f (fun x y _ => divInt x y) [a, b] ws = 2 ^ tyBits f.ty - 1 ∧ intOp f (fun x y _ => remInt x y) [a, b] ws = a := by
  rw [intOp_scalar hint hsat ha hb, intOp_scalar hint hsat ha hb, h0, toInt_zero, remInt_eq_tmod, Int.tmod_zero, wrap_toInt ha]
  exact ⟨wrap_neg one_pos Nat.one_le_two_pow, rfl⟩

/-- The most negative integer over -1 gives itself, and 0. -/
theorem div_rem_overflow (ws : List Word) (hx : toInt f.ty a = -2 ^ (tyBits f.ty - 1)) (hy : toInt f.ty b = -1) :
    intOp f (fun x y _ => divInt x y) [a, b] ws = a ∧ intOp f (fun x y _ => remInt x y) [a, b] ws = 0 := by
  have hq : divInt (toInt f.ty a) (-1) = toInt f.ty a + (2 ^ tyBits f.ty : Nat) := by
    rw [divInt_of_ne_zero _ (by decide), Int.tdiv_neg, Int.tdiv_one, hx, two_pow_tyBits]
    push_cast
    omega
  rw [intOp_scalar hint hsat ha hb, intOp_scalar hint hsat ha hb, hy, remInt_eq_tmod, hq, wrap_add_two_pow, wrap_toInt ha,
    Int.tmod_neg, Int.tmod_one, wrap_zero]
  exact ⟨rfl, rfl⟩

/-- Every other quotient and remainder is exact. -/
theorem toInt_div_rem (ws : List Word) (h0 : b ≠ 0)
    (hno : ¬(f.ty.isSigned = true ∧ toInt f.ty a = -2 ^ (tyBits f.ty - 1) ∧ toInt f.ty b = -1)) :
    toInt f.ty (intOp f (fun x y _ => divInt x y) [a, b] ws) = (toInt f.ty a).tdiv (toInt f.ty b)
      ∧ toInt f.ty (intOp f (fun x y _ => remInt x y) [a, b] ws) = (toInt f.ty a).tmod (toInt f.ty b) := by
  have hy := toInt_ne_zero hb h0
  have hno' : ¬(f.ty.isSigned = true ∧ toInt f.ty a = loOf f.ty ∧ toInt f.ty b = -1) := fun ⟨hs, hx, hm⟩ =>
    hno ⟨hs, by rw [hx, (range_of_signed hs).1]; push_cast; rfl, hm⟩
  rw [intOp_scalar hint hsat ha hb, intOp_scalar hint hsat ha hb, divInt_of_ne_zero _ hy, remInt_eq_tmod,
    toInt_wrap (tdiv_inRange (toInt_inRange ha) (toInt_inRange hb).1 hy hno'), toInt_wrap (tmod_inRange (toInt_inRange ha) _)]
  exact ⟨rfl, rfl⟩

end

/-- Settles O12: both results are the wrapped exact ones, which the type holds in every case outside the table of 07 R115. -/
theorem integerDivisionAndRemainder : Obligations.IntegerDivisionAndRemainder := by
  intro f hint hsat
  refine ⟨_, _, rfl, rfl, fun a b ws ha hb => ⟨div_rem_by_zero hint hsat ha hb ws,
    fun _ => div_rem_overflow hint hsat ha hb ws, fun h0 hno => ?_⟩⟩
  obtain ⟨hq, hr⟩ := toInt_div_rem hint hsat ha hb ws h0 hno
  have hy := toInt_ne_zero hb h0
  obtain ⟨hpos, hneg⟩ := tmod_between (toInt f.ty a) (toInt f.ty b)
  rw [hq, hr]
  refine ⟨rfl, (Int.mul_comm _ _ ▸ Int.mul_tdiv_add_tmod _ _).symm, ?_, by omega⟩
  rw [Int.natAbs_tmod]
  exact Nat.mod_lt _ (Int.natAbs_pos.mpr hy)

end Sys2Proof.Machine
end

section
/-! SUPPORT. Codes of the binary formats of IEEE 754 (06 R91, R92): what a code decodes to by its fields, and the order of finite
values as the order of their magnitudes. -/

namespace Sys2Proof.Machine

/-! ### The fields of a code -/

/-- A format whose largest exponent is that of its infinity and its NaNs, as FP32, FP16 and BF16 (06 R91). -/
structure BinFmt.Ieee (fm : BinFmt) : Prop where
  eb_pos : 0 < fm.eb
  maxCode : fm.maxCode + 1 = infCode fm
  infCode : infCode fm = (2 ^ fm.eb - 1) * 2 ^ fm.mb
  nan : fm.nan.isSome = true

/-- The sign of a code, and its magnitude: the code without its sign bit. -/
def codeNeg (fm : BinFmt) (x : Nat) : Bool := decide (2 ^ (fm.eb + fm.mb) ≤ x)
def codeMag (fm : BinFmt) (x : Nat) : Nat := x % 2 ^ (fm.eb + fm.mb)

/-- The significand of a finite magnitude, with the hidden bit of a normal one. -/
def magSig (fm : BinFmt) (c : Nat) : Nat := if c / 2 ^ fm.mb = 0 then c else c % 2 ^ fm.mb + 2 ^ fm.mb

/-- The exponent of the smallest magnitudes. -/
def BinFmt.minExp (fm : BinFmt) : Int := 1 - (fm.bias : Int) - fm.mb

section
variable {fm : BinFmt} {x : Nat}

theorem two_pow_bits (fm : BinFmt) : 2 ^ fm.bits = 2 * 2 ^ (fm.eb + fm.mb) := Nat.pow_succ'

theorem codeMag_lt (fm : BinFmt) (x : Nat) : codeMag fm x < 2 ^ (fm.eb + fm.mb) := Nat.mod_lt _ (Nat.two_pow_pos _)

/-- A code is its magnitude, with the sign bit added where it is negative. -/
theorem code_cases (hx : x < 2 ^ fm.bits) : codeNeg fm x = false ∧ x < 2 ^ (fm.eb + fm.mb) ∧ codeMag fm x = x
    ∨ codeNeg fm x = true ∧ ¬x < 2 ^ (fm.eb + fm.mb) ∧ codeMag fm x = x - 2 ^ (fm.eb + fm.mb) := by
  rw [two_pow_bits] at hx
  rcases Nat.lt_or_ge x (2 ^ (fm.eb + fm.mb)) with h | h
  · exact .inl ⟨decide_eq_false h.not_ge, h, Nat.mod_eq_of_lt h⟩
  · exact .inr ⟨decide_eq_true h, h.not_gt, by rw [codeMag, Nat.mod_eq_sub_mod h, Nat.mod_eq_of_lt (by omega)]⟩

theorem signField_eq_codeNeg (hx : x < 2 ^ fm.bits) : (x / 2 ^ (fm.eb + fm.mb) == 1) = codeNeg fm x := by
  have hp := Nat.two_pow_pos (fm.eb + fm.mb)
  have h2 : x / 2 ^ (fm.eb + fm.mb) < 2 := by rwa [Nat.div_lt_iff_lt_mul hp, ← two_pow_bits]
  have h1 := Nat.one_le_div_iff (a := x) hp
  rw [codeNeg, Bool.eq_iff_iff, beq_iff_eq, decide_eq_true_eq, ← h1]
  omega

theorem testBit_eq_codeNeg (hx : x < 2 ^ fm.bits) : x.testBit (fm.eb + fm.mb) = codeNeg fm x := by
  have h2 : x / 2 ^ (fm.eb + fm.mb) < 2 := by rwa [Nat.div_lt_iff_lt_mul (Nat.two_pow_pos _), ← two_pow_bits]
  rw [← signField_eq_codeNeg hx, Nat.testBit_eq_decide_div_mod_eq, Nat.mod_eq_of_lt h2]
  rfl

theorem expField_eq (fm : BinFmt) (x : Nat) : x / 2 ^ fm.mb % 2 ^ fm.eb = codeMag fm x / 2 ^ fm.mb := by
  rw [codeMag, Nat.add_comm, Nat.pow_add, Nat.mod_mul_right_div_self]

theorem manField_eq (fm : BinFmt) (x : Nat) : x % 2 ^ fm.mb = codeMag fm x % 2 ^ fm.mb :=
  (Nat.mod_mod_of_dvd _ (Nat.pow_dvd_pow 2 (Nat.le_add_left _ _))).symm

/-- The magnitudes from that of the infinity on are those of the largest exponent. -/
theorem infCode_le_iff (h : fm.Ieee) {c : Nat} (hc : c < 2 ^ (fm.eb + fm.mb)) :
    infCode fm ≤ c ↔ c / 2 ^ fm.mb + 1 = 2 ^ fm.eb := by
  have hlt : c / 2 ^ fm.mb < 2 ^ fm.eb := by rwa [Nat.div_lt_iff_lt_mul (Nat.two_pow_pos _), ← Nat.pow_add]
  rw [h.infCode, ← Nat.le_div_iff_mul_le (Nat.two_pow_pos _)]
  generalize c / 2 ^ fm.mb = e at hlt ⊢
  omega

/-- Of those the infinity alone has mantissa 0. -/
theorem eq_infCode_iff (h : fm.Ieee) {c : Nat} (hc : c < 2 ^ (fm.eb + fm.mb)) :
    c = infCode fm ↔ c % 2 ^ fm.mb = 0 ∧ c / 2 ^ fm.mb + 1 = 2 ^ fm.eb := by
  constructor
  · intro hi
    exact ⟨by rw [hi, h.infCode, Nat.mul_mod_left], (infCode_le_iff h hc).mp hi.ge⟩
  · rintro ⟨hm, he⟩
    have hdiv := Nat.div_add_mod c (2 ^ fm.mb)
    rw [hm, Nat.add_zero, Nat.eq_sub_of_add_eq he, Nat.mul_comm, ← h.infCode] at hdiv
    exact hdiv.symm

/-! ### What a code stands for (06 R91) -/

theorem decodeF_eq (h : fm.Ieee) (hx : x < 2 ^ fm.bits) :
    decodeF fm x = if infCode fm < codeMag fm x then .nan else if codeMag fm x = infCode fm then .inf (codeNeg fm x)
      else .fin (codeNeg fm x) (magSig fm (codeMag fm x)) (fm.minExp + (codeMag fm x / 2 ^ fm.mb - 1 : Nat)) := by
  have hc := codeMag_lt fm x
  have heq := eq_infCode_iff h hc
  have hgt : fm.maxCode < codeMag fm x ↔ infCode fm ≤ codeMag fm x := by rw [← h.maxCode]; rfl
  have hmag : x % 2 ^ (fm.eb + fm.mb) = codeMag fm x := rfl
  unfold decodeF
  simp only [Nat.mod_eq_of_lt hx, signField_eq_codeNeg hx, expField_eq, manField_eq fm x, hmag, h.nan, Bool.and_true,
    Bool.and_eq_true, decide_eq_true_eq, beq_iff_eq, ← heq, hgt]
  rcases Nat.lt_trichotomy (codeMag fm x) (infCode fm) with hlt | he | hgt
  · rw [if_neg hlt.not_ge, if_neg hlt.not_gt, if_neg hlt.ne, magSig, BinFmt.minExp]
    by_cases h0 : codeMag fm x / 2 ^ fm.mb = 0
    · simp [h0, Nat.mod_eq_of_lt ((Nat.div_eq_zero_iff_lt (Nat.two_pow_pos _)).mp h0)]
    · simp only [h0, if_false, FVal.fin.injEq, true_and]
      generalize codeMag fm x / 2 ^ fm.mb = e at h0 ⊢
      omega
  · rw [if_pos he.ge, if_pos he, if_neg he.not_gt, if_pos he]
  · rw [if_pos hgt.le, if_neg hgt.ne', if_pos hgt]

theorem decodeF_nan (h : fm.Ieee) (hx : x < 2 ^ fm.bits) (hc : infCode fm < codeMag fm x) : decodeF fm x = .nan := by
  rw [decodeF_eq h hx, if_pos hc]

theorem decodeF_inf (h : fm.Ieee) (hx : x < 2 ^ fm.bits) (hc : codeMag fm x = infCode fm) :
    decodeF fm x = .inf (codeNeg fm x) := by
  rw [decodeF_eq h hx, if_neg hc.not_gt, if_pos hc]

theorem decodeF_fin (h : fm.Ieee) (hx : x < 2 ^ fm.bits) (hc : codeMag fm x < infCode fm) :
    decodeF fm x = .fin (codeNeg fm x) (magSig fm (codeMag fm x)) (fm.minExp + (codeMag fm x / 2 ^ fm.mb - 1 : Nat)) := by
  rw [decodeF_eq h hx, if_neg hc.not_gt, if_neg hc.ne]

theorem isNaN_decodeF (h : fm.Ieee) (hx : x < 2 ^ fm.bits) : (decodeF fm x).isNaN = decide (infCode fm < codeMag fm x) := by
  rw [decodeF_eq h hx]
  split_ifs with hn hi <;> simp [FVal.isNaN, hn]

theorem magSig_eq_zero_iff {c : Nat} : magSig fm c = 0 ↔ c = 0 := by
  have hp := Nat.two_pow_pos fm.mb
  unfold magSig
  split
  · rfl
  next h => exact ⟨by omega, fun h0 => absurd (by simp [h0]) h⟩

theorem infCode_pos (h : fm.Ieee) : 0 < infCode fm := by
  rw [h.infCode]
  exact Nat.mul_pos (Nat.sub_pos_of_lt (Nat.one_lt_two_pow h.eb_pos.ne')) (Nat.two_pow_pos _)

theorem isZero_decodeF (h : fm.Ieee) (hx : x < 2 ^ fm.bits) : (decodeF fm x).isZero = decide (codeMag fm x = 0) := by
  have hpos := infCode_pos h
  rw [decodeF_eq h hx]
  split_ifs with hn hi
  · exact (decide_eq_false (by omega)).symm
  · exact (decide_eq_false (by omega)).symm
  · rw [FVal.isZero, Bool.beq_eq_decide_eq, decide_eq_decide]
    exact magSig_eq_zero_iff

theorem isNeg_decodeF (h : fm.Ieee) (hx : x < 2 ^ fm.bits) (hc : codeMag fm x ≤ infCode fm) :
    (decodeF fm x).isNeg = codeNeg fm x := by
  rw [decodeF_eq h hx, if_neg hc.not_gt]
  split <;> rfl

/-! ### The order of the finite magnitudes -/

/-- A finite magnitude as a multiple of the smallest positive value. -/
def magUnits (fm : BinFmt) (c : Nat) : Nat := magSig fm c * 2 ^ (c / 2 ^ fm.mb - 1)

theorem magUnits_fields {e m : Nat} (hm : m < 2 ^ fm.mb) :
    magUnits fm (2 ^ fm.mb * e + m) = (if e = 0 then m else m + 2 ^ fm.mb) * 2 ^ (e - 1) := by
  have he : (2 ^ fm.mb * e + m) / 2 ^ fm.mb = e := by
    rw [Nat.mul_add_div (Nat.two_pow_pos _), Nat.div_eq_of_lt hm, Nat.add_zero]
  rw [magUnits, magSig, he, Nat.mul_add_mod, Nat.mod_eq_of_lt hm]
  split
  next h => rw [h, Nat.mul_zero, Nat.zero_add]
  next => rfl

/-- The next magnitude is larger: by one unit of the last place, also across the step to the next exponent. -/
theorem magUnits_lt_succ (fm : BinFmt) (c : Nat) : magUnits fm c < magUnits fm (c + 1) := by
  have hM := Nat.two_pow_pos fm.mb
  obtain ⟨e, m, hm, rfl⟩ : ∃ e m, m < 2 ^ fm.mb ∧ c = 2 ^ fm.mb * e + m :=
    ⟨_, _, Nat.mod_lt c hM, (Nat.div_add_mod _ _).symm⟩
  have hp := Nat.two_pow_pos (e - 1)
  rw [magUnits_fields hm]
  rcases Nat.lt_or_eq_of_le (Nat.succ_le_of_lt hm) with hlt | hlast
  · rw [Nat.add_assoc, magUnits_fields hlt]
    exact Nat.mul_lt_mul_of_pos_right (by split <;> omega) hp
  · rw [Nat.add_assoc, show m + 1 = 2 ^ fm.mb from hlast, ← Nat.mul_succ, ← Nat.add_zero (_ * e.succ), magUnits_fields hM]
    cases e with
    | zero => simp; omega
    | succ e =>
      simp only [Nat.succ_ne_zero, if_false, Nat.add_sub_cancel, Nat.succ_eq_add_one, Nat.zero_add, Nat.pow_succ,
        ← Nat.mul_assoc] at hp ⊢
      rw [Nat.mul_right_comm]
      exact Nat.mul_lt_mul_of_pos_right (by omega) hp

theorem magUnits_strictMono (fm : BinFmt) : StrictMono (magUnits fm) := strictMono_nat_of_lt_succ (magUnits_lt_succ fm)

theorem magUnits_zero (fm : BinFmt) : magUnits fm 0 = 0 := by simp [magUnits, magSig]

end

/-- A magnitude under a sign. -/
def signed (neg : Bool) (m : Nat) : Int := if neg then -(m : Int) else m

/-- A strictly rising map that keeps 0 keeps the order of signed magnitudes. -/
theorem signed_lt_signed {g : Nat → Nat} (hg : StrictMono g) (h0 : g 0 = 0) (a b : Bool) (m n : Nat) :
    signed a (g m) < signed b (g n) ↔ signed a m < signed b n := by
  have hmn := hg.lt_iff_lt (a := m) (b := n)
  have hnm := hg.lt_iff_lt (a := n) (b := m)
  have hm := hg.lt_iff_lt (a := 0) (b := m)
  have hn := hg.lt_iff_lt (a := 0) (b := n)
  cases a <;> cases b <;> simp [signed] <;> omega

theorem signed_inj {g : Nat → Nat} (hg : StrictMono g) (h0 : g 0 = 0) (a b : Bool) (m n : Nat) :
    signed a (g m) = signed b (g n) ↔ signed a m = signed b n := by
  have hab := signed_lt_signed hg h0 a b m n
  have hba := signed_lt_signed hg h0 b a n m
  omega

theorem alignTo_eq_signed (neg : Bool) (m : Nat) (e e0 : Int) : alignTo neg m e e0 = signed neg (m * 2 ^ (e - e0).toNat) := rfl

/-- Aligning to a lower exponent multiplies by a power of two. -/
theorem alignTo_lower (neg : Bool) (m : Nat) {e e0 b : Int} (he : e0 ≤ e) (hb : b ≤ e0) :
    alignTo neg m e b = alignTo neg m e e0 * 2 ^ (e0 - b).toNat := by
  have hp : (e - b).toNat = (e - e0).toNat + (e0 - b).toNat := by omega
  cases neg <;> simp [alignTo, hp, pow_add, mul_assoc]

section
variable {a b : Bool} {m n : Nat} {e f c : Int} (he : c ≤ e) (hf : c ≤ f)
include he hf

/-- The order of finite values does not depend on the exponent to which they are aligned. -/
theorem lt_fin_iff : (FVal.fin a m e).lt (.fin b n f) = true ↔ alignTo a m e c < alignTo b n f c := by
  rw [alignTo_lower a m (min_le_left e f) (le_min he hf), alignTo_lower b n (min_le_right e f) (le_min he hf)]
  simp [FVal.lt, Int.mul_lt_mul_right]

theorem eqv_fin_iff : (FVal.fin a m e).eqv (.fin b n f) = true ↔ alignTo a m e c = alignTo b n f c := by
  rw [alignTo_lower a m (min_le_left e f) (le_min he hf), alignTo_lower b n (min_le_right e f) (le_min he hf)]
  simp [FVal.eqv]

end

end Sys2Proof.Machine
end

section
/-! PROOF. O15: float minimum, maximum, comparisons and classes by the fields of the codes (07 R118, R119). -/

namespace Sys2Proof.Machine

/-! ### The order of values is that of sign and magnitude -/

/-- The value of a number's code for comparisons: 0 under both signs (R118). -/
def codeVal (fm : BinFmt) (x : Nat) : Int := signed (codeNeg fm x) (codeMag fm x)

/-- The key that orders the codes of numbers, with -0 below +0 (R118). -/
def codeOrd (fm : BinFmt) (x : Nat) : Int := if codeNeg fm x then -(codeMag fm x : Int) - 1 else codeMag fm x

section
variable {fm : BinFmt} {x : Nat} (hx : x < 2 ^ fm.bits)
include hx

theorem codeVal_eq :
    codeVal fm x = if x < 2 ^ (fm.eb + fm.mb) then (x : Int) else -((x - 2 ^ (fm.eb + fm.mb) : Nat) : Int) := by
  rcases code_cases hx with ⟨hn, hlt, hm⟩ | ⟨hn, hlt, hm⟩ <;> simp [codeVal, signed, hn, hlt, hm]

theorem codeOrd_eq :
    codeOrd fm x = if x < 2 ^ (fm.eb + fm.mb) then (x : Int) else -((x - 2 ^ (fm.eb + fm.mb) : Nat) : Int) - 1 := by
  rcases code_cases hx with ⟨hn, hlt, hm⟩ | ⟨hn, hlt, hm⟩ <;> simp [codeOrd, hn, hlt, hm]

end

theorem alignTo_magSig (fm : BinFmt) (neg : Bool) (c : Nat) :
    alignTo neg (magSig fm c) (fm.minExp + (c / 2 ^ fm.mb - 1 : Nat)) fm.minExp = signed neg (magUnits fm c) := by
  rw [alignTo_eq_signed, add_sub_cancel_left, Int.toNat_natCast, magUnits]

/-- Comparison cc of two values of which `num` says that neither is NaN (R118). -/
def FltCompares (cc : Nat) (num : Prop) (u v : Int) : Prop :=
  match cc with
  | 0 => num ∧ u = v
  | 1 => ¬num ∨ u ≠ v
  | 2 => num ∧ u < v
  | 3 => num ∧ u ≤ v
  | 4 => num ∧ u > v
  | 5 => num ∧ u ≥ v
  | 6 => num
  | _ => ¬num

/-- A comparison depends on whether both are numbers and, of two numbers, on any integers in their order. -/
theorem cmpFlt_iff (cc : Nat) {a b : FVal} {num : Prop} {u v : Int} (hnum : (a.isNaN || b.isNaN) = true ↔ ¬num)
    (horder : num → (a.lt b = true ↔ u < v) ∧ (b.lt a = true ↔ v < u) ∧ (a.eqv b = true ↔ u = v)) :
    cmpFlt cc a b = true ↔ FltCompares cc num u v := by
  unfold cmpFlt FltCompares
  by_cases hn : num
  · obtain ⟨hlt, hgt, heq⟩ := horder hn
    have hun : (a.isNaN || b.isNaN) = false := Bool.eq_false_iff.mpr fun h => hnum.mp h hn
    have hle : u ≤ v ↔ u < v ∨ u = v := le_iff_lt_or_eq
    have hge : v ≤ u ↔ v < u ∨ u = v := by omega
    have hne : a.eqv b = false ↔ u ≠ v := by rw [← Bool.not_eq_true, heq]
    split <;> simp [hn, hun, hlt, hgt, heq, hne, hle, hge]
  · split <;> simp [hn, hnum.mpr hn]

section
variable {fm : BinFmt} (h : fm.Ieee) {x y : Nat} (hx : x < 2 ^ fm.bits) (hy : y < 2 ^ fm.bits)
include h hx hy

section
variable (nx : codeMag fm x ≤ infCode fm) (ny : codeMag fm y ≤ infCode fm)
include nx ny

/-- Two numbers compare as their signed magnitudes. -/
theorem order_decodeF : ((decodeF fm x).lt (decodeF fm y) = true ↔ codeVal fm x < codeVal fm y)
    ∧ ((decodeF fm x).eqv (decodeF fm y) = true ↔ codeVal fm x = codeVal fm y) := by
  have hpos := infCode_pos h
  unfold codeVal
  rcases nx.lt_or_eq with hfx | hix <;> rcases ny.lt_or_eq with hfy | hiy
  · rw [decodeF_fin h hx hfx, decodeF_fin h hy hfy, lt_fin_iff (c := fm.minExp) (by omega) (by omega),
      eqv_fin_iff (c := fm.minExp) (by omega) (by omega), alignTo_magSig, alignTo_magSig]
    have hmono := magUnits_strictMono fm
    exact ⟨signed_lt_signed hmono (magUnits_zero fm) .., signed_inj hmono (magUnits_zero fm) ..⟩
  -- With an infinity the signs decide, since no magnitude of a number exceeds it.
  all_goals
    simp only [decodeF_fin h hx, decodeF_inf h hx, decodeF_fin h hy, decodeF_inf h hy, *]
    cases codeNeg fm x <;> cases codeNeg fm y <;> simp [FVal.lt, FVal.eqv, signed] <;> omega

theorem codeLe_iff : codeLe fm x y = true ↔ codeOrd fm x ≤ codeOrd fm y := by
  obtain ⟨hlt, heq⟩ := order_decodeF h hx hy nx ny
  unfold codeLe
  simp only [Bool.or_eq_true, Bool.and_eq_true, Bool.not_eq_true', hlt, heq, isZero_decodeF h hx, isNeg_decodeF h hx nx,
    isNeg_decodeF h hy ny, codeOrd, codeVal, signed]
  cases codeNeg fm x <;> cases codeNeg fm y <;> simp <;> omega

end

/-! ### `fmin` and `fmax` -/

theorem minMax_nan_nan (big : Bool) (nx : infCode fm < codeMag fm x) (ny : infCode fm < codeMag fm y) :
    minMax fm big x y = fm.nan.getD 0 := by
  rw [minMax, decodeF_nan h hx nx, decodeF_nan h hy ny]
  rfl

theorem minMax_nan_num (big : Bool) (nx : infCode fm < codeMag fm x) (ny : ¬infCode fm < codeMag fm y) :
    minMax fm big x y = y := by
  simp [minMax, isNaN_decodeF h hx, isNaN_decodeF h hy, nx, ny]

theorem minMax_num_nan (big : Bool) (nx : ¬infCode fm < codeMag fm x) (ny : infCode fm < codeMag fm y) :
    minMax fm big x y = x := by
  simp [minMax, isNaN_decodeF h hx, isNaN_decodeF h hy, nx, ny]

theorem minMax_num_num (nx : ¬infCode fm < codeMag fm x) (ny : ¬infCode fm < codeMag fm y) :
    minMax fm false x y = (if codeOrd fm x ≤ codeOrd fm y then x else y)
      ∧ minMax fm true x y = if codeOrd fm x ≤ codeOrd fm y then y else x := by
  have hle := codeLe_iff h hx hy (Nat.le_of_not_lt nx) (Nat.le_of_not_lt ny)
  simp only [minMax, isNaN_decodeF h hx, isNaN_decodeF h hy, nx, ny, decide_false, ← hle]
  cases codeLe fm x y <;> exact ⟨rfl, rfl⟩

/-! ### `fcmp` -/

theorem cmpFlt_decodeF (cc : Nat) : cmpFlt cc (decodeF fm x) (decodeF fm y) = true
    ↔ FltCompares cc (¬infCode fm < codeMag fm x ∧ ¬infCode fm < codeMag fm y) (codeVal fm x) (codeVal fm y) := by
  refine cmpFlt_iff cc ?_ fun ⟨nx, ny⟩ => ?_
  · simp only [isNaN_decodeF h hx, isNaN_decodeF h hy, Bool.or_eq_true, decide_eq_true_eq]
    omega
  · obtain ⟨hlt, heq⟩ := order_decodeF h hx hy (Nat.le_of_not_lt nx) (Nat.le_of_not_lt ny)
    exact ⟨hlt, (order_decodeF h hy hx (Nat.le_of_not_lt ny) (Nat.le_of_not_lt nx)).1, heq⟩

end

/-! ### `fclass` -/

/-- The class of a code by its mantissa, its exponent and its sign (R119). -/
theorem classBit_eq {fm : BinFmt} (h : fm.Ieee) {x e m : Nat} {neg : Bool} (hx : x < 2 ^ fm.bits)
    (hm : x % 2 ^ fm.mb = m) (he : x / 2 ^ fm.mb % 2 ^ fm.eb = e) (hneg : x.testBit (fm.eb + fm.mb) = neg) :
    classBit fm x =
      if e = 2 ^ fm.eb - 1 then (if m ≠ 0 then 8 else if neg then 0 else 7)
      else if e = 0 then (if m = 0 then (if neg then 3 else 4) else if neg then 2 else 5)
      else if neg then 1 else 6 := by
  have hpow := Nat.two_pow_pos fm.eb
  have hle := infCode_le_iff h (codeMag_lt fm x)
  have heq := eq_infCode_iff h (codeMag_lt fm x)
  rw [← expField_eq, he] at hle
  rw [← expField_eq, ← manField_eq, hm, he] at heq
  rw [testBit_eq_codeNeg hx] at hneg
  rw [classBit, he]
  rcases Nat.lt_trichotomy (codeMag fm x) (infCode fm) with hlt | hi | hgt
  · rw [decodeF_fin h hx hlt, hneg, if_neg (by omega)]
    by_cases h0 : e = 0
    · have hsig : magSig fm (codeMag fm x) = m := by
        rw [expField_eq] at he
        have hsmall := (Nat.div_eq_zero_iff_lt (Nat.two_pow_pos _)).mp (he.trans h0)
        rw [magSig, if_pos (he.trans h0), ← hm, manField_eq, Nat.mod_eq_of_lt hsmall]
      simp [hsig, h0]
    · have hsig : magSig fm (codeMag fm x) ≠ 0 := by
        rw [Ne, magSig_eq_zero_iff]
        intro hc
        rw [expField_eq, hc, Nat.zero_div] at he
        exact h0 he.symm
      simp [hsig, h0]
  · rw [decodeF_inf h hx hi, hneg, if_pos (by omega), if_neg (by omega)]
  · rw [decodeF_nan h hx hgt, if_pos (by omega), if_pos (by omega)]

/-! ### The formats of the floating-point types -/

theorem ieee_tyFmt (ty : Ty) : (tyFmt ty).Ieee := by
  have h32 : fFP32.Ieee := ⟨by decide, rfl, rfl, rfl⟩
  have h16 : fFP16.Ieee := ⟨by decide, rfl, rfl, rfl⟩
  have hb16 : fBF16.Ieee := ⟨by decide, rfl, rfl, rfl⟩
  cases ty <;> assumption

section
variable {ty : Ty} (h : ty.isFloat = true)
include h

theorem bits_tyFmt : (tyFmt ty).bits = tyBits ty := by
  match ty, h with
  | .f32, _ | .f16, _ | .bf16, _ | .f16x2, _ | .bf16x2, _ => rfl

theorem signBit_tyFmt : 2 ^ ((tyFmt ty).eb + (tyFmt ty).mb) = 2 ^ (tyBits ty - 1) := by
  rw [← bits_tyFmt h, BinFmt.bits, Nat.add_sub_cancel]

theorem nan_tyFmt :
    (tyFmt ty).nan.getD 0 = if ty = .f32 then 0x7FC00000 else if ty = .f16 ∨ ty = .f16x2 then 0x7E00 else 0x7FC0 := by
  match ty, h with
  | .f32, _ | .f16, _ | .bf16, _ | .f16x2, _ | .bf16x2, _ => rfl

theorem infCode_tyFmt :
    infCode (tyFmt ty) = if ty = .f32 then 0x7F800000 else if ty = .f16 ∨ ty = .f16x2 then 0x7C00 else 0x7F80 := by
  match ty, h with
  | .f32, _ | .f16, _ | .bf16, _ | .f16x2, _ | .bf16x2, _ => rfl

theorem elemAt_lt_bits (x i : Nat) : elemAt ty x i < 2 ^ (tyFmt ty).bits := by
  rw [bits_tyFmt h]
  exact elemAt_lt ty x i

end

/-! ### What `fmin`, `fmax` and `fcmp` give -/

theorem minMax_lt {ty : Ty} (h : ty.isFloat = true) (big : Bool) {x y : Nat} (hx : x < 2 ^ tyBits ty) (hy : y < 2 ^ tyBits ty) :
    minMax (tyFmt ty) big x y < 2 ^ tyBits ty := by
  have hnan : (tyFmt ty).nan.getD 0 < 2 ^ tyBits ty := by
    match ty, h with
    | .f32, _ | .f16, _ | .bf16, _ | .f16x2, _ | .bf16x2, _ => decide
  unfold minMax
  split
  · exact hnan
  · exact hy
  · exact hx
  · split
    · exact hy
    · exact hx

theorem elemAt_mmOp {f : AluF} (hf : f.ty.isFloat = true) (big : Bool) (a b : Nat) (ws : List Word) {i : Nat}
    (hi : i < f.ty.elems) :
    elemAt f.ty (mmOp f big [a, b] ws) i = minMax (tyFmt f.ty) big (elemAt f.ty a i) (elemAt f.ty b i) := by
  rw [mmOp, elemAt_buildElems _ hi]
  exact Nat.mod_eq_of_lt (minMax_lt hf big (elemAt_lt ..) (elemAt_lt ..))

theorem fcmpAll_ne_zero (f : AluF) (a b : Nat) (ws : List Word) : fcmpAll f [a, b] ws ≠ 0 ↔ ∀ i < f.ty.elems,
    cmpFlt f.var.toNat (decodeF (tyFmt f.ty) (elemAt f.ty a i)) (decodeF (tyFmt f.ty) (elemAt f.ty b i)) = true := by
  simp [fcmpAll, argA, argB]

theorem isFloat_of_isFS {ty : Ty} (h : ty.isFS = true) : ty.isFloat = true := by
  match ty, h with
  | .f32, _ | .f16, _ | .bf16, _ => rfl

theorem fields_tyFmt {ty : Ty} (h : ty.isFS = true) :
    (tyFmt ty).mb = (if ty = .f32 then 23 else if ty = .f16 then 10 else 7) ∧ (tyFmt ty).eb = if ty = .f16 then 5 else 8 := by
  match ty, h with
  | .f32, _ | .f16, _ | .bf16, _ => decide

/-- Settles O15: the codes of the five types are those of IEEE 754 formats, whose numbers compare as sign and magnitude, and `fclass`
reads off the fields that decide what a code decodes to. -/
theorem floatComparisonsAndClasses : Obligations.FloatComparisonsAndClasses := by
  refine ⟨fun f hf => ⟨_, _, _, rfl, rfl, rfl, fun a b ws => ?_⟩, fun f hf => ⟨_, rfl, fun a ws ha => ?_⟩⟩
  · have hie := ieee_tyFmt f.ty
    simp only [← infCode_tyFmt hf, ← nan_tyFmt hf, ← signBit_tyFmt hf]
    refine ⟨fun i hi => ?_, (fcmpAll_ne_zero f a b ws).trans (forall₂_congr fun i hi => ?_)⟩
    · have hx := elemAt_lt_bits hf a i
      have hy := elemAt_lt_bits hf b i
      simp only [elemAt_mmOp hf _ _ _ _ hi, ← codeOrd_eq hx, ← codeOrd_eq hy]
      refine ⟨fun nx ny => ⟨minMax_nan_nan hie hx hy _ nx ny, minMax_nan_nan hie hx hy _ nx ny⟩,
        fun nx ny => ⟨minMax_nan_num hie hx hy _ nx ny, minMax_nan_num hie hx hy _ nx ny⟩,
        fun nx ny => ⟨minMax_num_nan hie hx hy _ nx ny, minMax_num_nan hie hx hy _ nx ny⟩,
        fun nx ny => minMax_num_num hie hx hy nx ny⟩
    · have hx := elemAt_lt_bits hf a i
      have hy := elemAt_lt_bits hf b i
      rw [cmpFlt_decodeF hie hx hy, codeVal_eq hx, codeVal_eq hy]
      exact Iff.rfl
  · obtain ⟨hmb, heb⟩ := fields_tyFmt hf
    have hx : a < 2 ^ (tyFmt f.ty).bits := by rwa [bits_tyFmt (isFloat_of_isFS hf)]
    simp only [← hmb, ← heb, argA, List.getD_cons_zero, elemAt_zero_of_lt ha]
    rw [classBit_eq (ieee_tyFmt f.ty) hx rfl rfl rfl]
    split_ifs <;> rfl

end Sys2Proof.Machine
end

section
/-! PROOF. O19: the slot and the tag of a carry name turn with the loop, and a write of a carry name is read back (13 R291 to R293). -/

namespace Sys2Proof.Machine

/-! ### Slots and tags (13 R291) -/

theorem carrySlot_cast (k : Nat) (t : Int) : (carrySlot k t : Int) = (k - t) % 64 :=
  Int.toNat_of_nonneg (Int.emod_nonneg _ (by decide))

theorem carryTag_cast (k : Nat) (t : Int) : ((carryTag k t).toNat : Int) = (t - k) % 65536 := by
  rw [carryTag, BitVec.toNat_ofInt]
  exact Int.toNat_of_nonneg (Int.emod_nonneg _ (by decide))

theorem carrySlot_shift (k d : Nat) (t : Int) : carrySlot (k + d) (t + d) = carrySlot k t := by
  simp [carrySlot]

theorem carryTag_shift (k d : Nat) (t : Int) : carryTag (k + d) (t + d) = carryTag k t := by
  simp [carryTag]

/-- A tag is congruent to minus its slot, because 64 divides 2^16. -/
theorem carryTag_add_carrySlot_mod (k : Nat) (t : Int) : ((carryTag k t).toNat + carrySlot k t) % 64 = 0 := by
  have hs := carrySlot_cast k t
  have ht := carryTag_cast k t
  omega

theorem carrySlot_add_64 (k : Nat) (t : Int) : carrySlot k (t + 64) = carrySlot k t := by
  have h := carrySlot_cast k (t + 64)
  have h' := carrySlot_cast k t
  omega

/-- Within a turn the 64 names denote 64 slots. -/
theorem carrySlot_inj {j k : Nat} (t : Int) (hj : j < 64) (hk : k < 64) (h : carrySlot j t = carrySlot k t) : j = k := by
  have hsj := carrySlot_cast j t
  have hsk := carrySlot_cast k t
  omega

theorem slotKey_inj {a b l m : Nat} (hl : l < 64) (hm : m < 64) (h : slotKey a l = slotKey b m) : a = b ∧ l = m := by
  unfold slotKey at h
  omega

/-! ### Under `setSlots` -/

theorem State.group_setSlots (s : State) (ctx : Nat) (f : SMap Slot → SMap Slot) (d : Nat) :
    (s.setSlots ctx f).group d = if d = s.winCtx ctx
      then { s.group d with win := (s.group d).win.map fun w => { w with slots := f w.slots } } else s.group d := by
  by_cases hd : d = s.winCtx ctx
  · subst hd
    rw [if_pos rfl, State.setSlots]
    split
    · next w hw => rw [s.setGroup_same, hw, Option.map_some]
    · next hw => rw [hw, Option.map_none, ← hw]
  · rw [if_neg hd, State.setSlots]
    split
    · exact s.setGroup_ne _ hd
    · rfl

@[simp] theorem State.setSlots_it (s : State) (ctx : Nat) (f : SMap Slot → SMap Slot) (d : Nat) :
    ((s.setSlots ctx f).group d).it = (s.group d).it := by
  rw [s.group_setSlots]
  split <;> rfl

@[simp] theorem State.setSlots_winCtx (s : State) (ctx : Nat) (f : SMap Slot → SMap Slot) (d : Nat) :
    (s.setSlots ctx f).winCtx d = s.winCtx d := by
  simp only [State.winCtx, State.setSlots_it]

theorem State.setSlots_window (s : State) (ctx : Nat) (f : SMap Slot → SMap Slot) :
    (s.setSlots ctx f).window ctx = (s.window ctx).map fun w => { w with slots := f w.slots } := by
  rw [State.window, s.setSlots_winCtx, s.group_setSlots, if_pos rfl, State.window]

@[simp] theorem State.setSlots_turnOf (s : State) (ctx : Nat) (f : SMap Slot → SMap Slot) (d : Nat) :
    (s.setSlots ctx f).turnOf d = s.turnOf d := by
  simp only [State.turnOf, s.group_setSlots]
  by_cases hd : d = s.winCtx ctx
  · cases hw : (s.group d).win <;> simp [← hd]
  · simp [hd]

/-! ### A slot-lane of a window, and its reading (13 R292) -/

/-- The slot-lane that a name denotes in a lane at the current turn. -/
def State.carryCell (s : State) (ctx k lane : Nat) : Slot :=
  get {} ((s.window ctx).getD {}).slots (slotKey (carrySlot k (s.turnOf ctx)) lane)

theorem State.carryRead_of_full {s : State} {ctx k l : Nat} {x : Word}
    (h : s.carryCell ctx k l = ⟨x, carryTag k (s.turnOf ctx), .full⟩) : s.carryRead ctx k l = .val x := by
  unfold State.carryCell at h
  simp only [State.carryRead, h, beq_self_eq_true, if_true]

theorem State.carryRead_of_void {s : State} {ctx k l : Nat} {x : Word}
    (h : s.carryCell ctx k l = ⟨x, carryTag k (s.turnOf ctx), .void⟩) : s.carryRead ctx k l = .void := by
  unfold State.carryCell at h
  simp only [State.carryRead, h, beq_self_eq_true, if_true]

/-- A read depends on the turn, on whether an iteration reads, and on the slot-lane that it denotes. -/
theorem State.carryRead_congr {s u : State} {ctx k l : Nat} (hturn : u.turnOf ctx = s.turnOf ctx)
    (hit : (u.group ctx).it = (s.group ctx).it) (hcell : u.carryCell ctx k l = s.carryCell ctx k l) :
    u.carryRead ctx k l = s.carryRead ctx k l := by
  simp only [State.carryCell, hturn] at hcell
  simp only [State.carryRead, hturn, hit, hcell]

/-! ### Under `carryWrite` (13 R293) -/

@[simp] theorem State.carryWrite_turnOf (s : State) (ctx k l : Nat) (x : Word) (v : Bool) (d : Nat) :
    (s.carryWrite ctx k l x v).turnOf d = s.turnOf d := s.setSlots_turnOf ..

@[simp] theorem State.carryWrite_it (s : State) (ctx k l : Nat) (x : Word) (v : Bool) (d : Nat) :
    ((s.carryWrite ctx k l x v).group d).it = (s.group d).it := s.setSlots_it ..

section
variable {s : State} {ctx k l : Nat} (hw : (s.window ctx).isSome = true)
include hw

theorem State.carryCell_carryWrite (x : Word) (v : Bool) (j m : Nat) :
    (s.carryWrite ctx k l x v).carryCell ctx j m =
      if slotKey (carrySlot j (s.turnOf ctx)) m = slotKey (carrySlot k (s.turnOf ctx)) l
      then ⟨if v then 0 else x, carryTag k (s.turnOf ctx), if v then .void else .full⟩ else s.carryCell ctx j m := by
  obtain ⟨w, hw⟩ := Option.isSome_iff_exists.mp hw
  rw [State.carryCell, s.carryWrite_turnOf, State.carryWrite, s.setSlots_window, State.carryCell, hw]
  exact get_put ..

theorem State.carryRead_carryWrite_full (x : Word) : (s.carryWrite ctx k l x false).carryRead ctx k l = .val x := by
  apply State.carryRead_of_full
  rw [carryCell_carryWrite hw, if_pos rfl, s.carryWrite_turnOf]
  rfl

theorem State.carryRead_carryWrite_void (x : Word) : (s.carryWrite ctx k l x true).carryRead ctx k l = .void := by
  apply State.carryRead_of_void (x := 0)
  rw [carryCell_carryWrite hw, if_pos rfl, s.carryWrite_turnOf]
  rfl

theorem State.carryRead_carryWrite_ne (hk : k < 64) (hl : l < 64) {j m : Nat} (hj : j < 64) (hm : m < 64)
    (hne : ¬(j = k ∧ m = l)) (x : Word) (v : Bool) :
    (s.carryWrite ctx k l x v).carryRead ctx j m = s.carryRead ctx j m := by
  have hkey : slotKey (carrySlot j (s.turnOf ctx)) m ≠ slotKey (carrySlot k (s.turnOf ctx)) l := by
    intro h
    obtain ⟨hslot, hlane⟩ := slotKey_inj hm hl h
    exact hne ⟨carrySlot_inj _ hj hk hslot, hlane⟩
  refine State.carryRead_congr (s.carryWrite_turnOf ..) (s.carryWrite_it ..) ?_
  rw [carryCell_carryWrite hw, if_neg hkey]

end

/-- Settles O19: slot and tag depend on the difference of name and turn alone, the 64 names of a turn denote 64 slots, and a read goes
by the slot-lane that its name denotes. -/
theorem carryNamesRotate : Obligations.CarryNamesRotate := by
  refine ⟨fun k d t => ⟨carrySlot_shift k d t, carryTag_shift k d t⟩,
    fun k t => ⟨carrySlot_cast k t, carryTag_cast k t, carryTag_add_carrySlot_mod k t, carrySlot_add_64 k t⟩,
    fun s ctx k l x hw hk hl => ⟨State.carryRead_carryWrite_full hw x, State.carryRead_carryWrite_void hw x, ?_⟩⟩
  intro j m hj hm hne v
  exact State.carryRead_carryWrite_ne hw hk hl hj hm hne x v

end Sys2Proof.Machine
end
